-- ==== Sys2Proof/Word.lean ====
section
/-! DEFINITION. The word types of the engine: bytes of the memory layout, 32-bit registers and addresses, cells. -/

namespace Sys2Proof

/-- A byte of the platform's memory (20_memory.md R65). -/
abbrev Byte := BitVec 8

/-- A host-visible register, a command word or a cell address: `XLEN` = `AW` = 32 bits (00_scope.md R10, R12). -/
abbrev Word := BitVec 32

/-- The bits of one cell, one element of format `P` (20_memory.md R61). A binary32 instance uses the low 32 bits
and keeps the upper 32 at zero (log entry 13). -/
abbrev CellBits := BitVec 64

end Sys2Proof
end

