-- ==== Sys2Proof/Config.lean ====
section
/-! DEFINITION. The parameters of an engine instance (00_scope.md R10) and the free values of the spec. -/

namespace Sys2Proof

/-- The element format `P` (00_scope.md R10, R11; 46_numerics.md R260). -/
inductive Format where
  | binary32
  | binary64
deriving DecidableEq, Repr, Inhabited

/-- A run of consecutive cell addresses at which sample memory is present; `MEMMAP` is a list of them. -/
structure Region where
  base : Nat
  count : Nat
deriving DecidableEq, Repr, Inhabited

/-- One value of the instance's coefficient generator `ROM`: `ROMCOS(f)` = `value` for f = `num`/2^30
(40_table_cache.md R122, R123). -/
structure RomEntry where
  num : Nat
  value : CellBits
deriving DecidableEq, Repr, Inhabited

/-- The parameters that are fixed per instance of the engine (00_scope.md R10). -/
structure Params where
  /-- `P`, the element format. -/
  fmt : Format
  /-- `LOG2_NMAX` less 2: the spec's range 2 to 30 is the whole of this type. -/
  orders : Fin 29
  /-- `MEMMAP`, the cells that exist. -/
  memMap : List Region
  /-- `ROM`: the values of `ROMCOS` at which the instance's generator is not the fixed-point series of
  `Machine.seriesCos`. `Machine.romCos` takes a value only if it has the property P3 of 40_table_cache.md R123
  (log entry 2). -/
  rom : List RomEntry
  /-- What a byte of sample memory that nothing has written reads as: the free power-up content of
  93_implementation_defined.md U6 (log entry 3). -/
  fill : Byte
deriving DecidableEq, Repr, Inhabited

/-- The parameters of THE instance: open in the spec (R10, 93_implementation_defined.md section 3), so nothing about
them can be proved beyond their types (log entry 1). -/
opaque Config.params : Params

/-- The sign and payload of the `n`-th NaN result of a run: 93_implementation_defined.md U4, "any quiet NaN"
(log entry 4). -/
opaque Config.freeNaN : Nat → CellBits

/-- What a table entry that is not valid would read as: 93_implementation_defined.md U5, "any value"; no rule reads
one (log entry 11). -/
opaque Config.invalidEntry : Nat → CellBits

end Sys2Proof
end

