-- ==== Sys2Proof/Syntax.lean ====
section
/-! DEFINITION. The commands (30_encoding.md R91, R95), the host operations and the assembler lines (R99, R100). -/

namespace Sys2Proof

/-- The fifteen commands of 30_encoding.md R95. A command word has no operand field (R90): the operands are the
registers `LEN`, `SRC`, `DST`. -/
inductive Instr where
  | cdftF   -- CDFT.F   complex, in place, forward
  | cdftI   -- CDFT.I   complex, in place, inverse
  | cdftoF  -- CDFTO.F  complex, out of place, forward
  | cdftoI  -- CDFTO.I  complex, out of place, inverse
  | rdftF   -- RDFT.F   real, in place, forward
  | rdftI   -- RDFT.I   real, in place, inverse
  | rdftoF  -- RDFTO.F  real to complex, out of place
  | rdftoI  -- RDFTO.I  complex to real, out of place
  | dctF    -- DCT.F    cosine transform, type II
  | dctI    -- DCT.I    cosine transform, type III
  | dstF    -- DST.F    sine transform, type II
  | dstI    -- DST.I    sine transform, type III
  | enstw   -- ENSTW    ensure twiddle table
  | ensct   -- ENSCT    ensure cosine table
  | ensbr   -- ENSBR    ensure bit-reversal table
deriving DecidableEq, Repr

/-- Which argument registers a command reads (30_encoding.md R91). -/
inductive OperandShape where
  /-- `LEN` and `DST`. -/
  | inPlace
  /-- `LEN`, `SRC` and `DST`. -/
  | outOfPlace
  /-- `LEN` only. -/
  | lengthOnly
deriving DecidableEq, Repr

/-- The operands column of 30_encoding.md R91. -/
def Instr.shape : Instr → OperandShape
  | .cdftF => .inPlace
  | .cdftI => .inPlace
  | .cdftoF => .outOfPlace
  | .cdftoI => .outOfPlace
  | .rdftF => .inPlace
  | .rdftI => .inPlace
  | .rdftoF => .outOfPlace
  | .rdftoI => .outOfPlace
  | .dctF => .inPlace
  | .dctI => .inPlace
  | .dstF => .inPlace
  | .dstI => .inPlace
  | .enstw => .lengthOnly
  | .ensct => .lengthOnly
  | .ensbr => .lengthOnly

/-- What the host can do (10_state.md R20, R40; 30_encoding.md R99; 70_reset_and_hazards.md R310). -/
inductive HostOp where
  /-- `WR reg, value`: write register number `num` (10_state.md R21). -/
  | writeReg (num : Nat) (value : Word)
  /-- `RD reg`: read register number `num`. -/
  | readReg (num : Nat)
  /-- `ST addr, value`: write one cell of sample memory. -/
  | writeCell (addr : Word) (value : CellBits)
  /-- `LD addr`: read one cell of sample memory. -/
  | readCell (addr : Word)
  /-- Assert the engine's reset. -/
  | reset
deriving DecidableEq, Repr

/-- The lines of a host program (30_encoding.md R99) and the pseudo-commands (R100). -/
inductive AsmLine where
  | wr (num : Nat) (value : Word)
  | rd (num : Nat)
  | st (addr : Word) (value : CellBits)
  | ld (addr : Word)
  /-- An in-place command line, such as `CDFT.F n, dst`. -/
  | inPlace (i : Instr) (n dst : Word)
  /-- An out-of-place command line, such as `CDFTO.F n, src, dst`. -/
  | outOfPlace (i : Instr) (n src dst : Word)
  /-- A cache command line, such as `ENSTW size`. -/
  | cache (i : Instr) (size : Word)
  | dft (n dst : Word)
  | idft (n dst : Word)
  | r2c (n src dst : Word)
  | c2r (n src dst : Word)
  | warmC (n : Word)
  | warmR (n : Word)
  | warmD (n : Word)
deriving DecidableEq, Repr

end Sys2Proof
end

