-- ==== Sys2Proof/Decode.lean ====
section
/-! DEFINITION. The command decoder (30_encoding.md R90 to R101) and the encoder written from the same tables. -/

namespace Sys2Proof

/-- Why a word is no command (30_encoding.md R96); every one of them is `ILLEGAL` to the engine. -/
inductive Illegal where
  /-- A bit of `RSV` is set (R93). -/
  | reservedBits
  /-- `OP` is 0x0, 0x7 or 0xB to 0xF. -/
  | reservedOp
  /-- `DIR` = 1 with `ENSTW`, `ENSCT` or `ENSBR` (R92). -/
  | directionOnCache
deriving DecidableEq, Repr

/-- `OP`, bits 3:0 (30_encoding.md R90). -/
def opField (w : Word) : BitVec 4 := w.extractLsb' 0 4

/-- `DIR`, bit 4 (30_encoding.md R90, R92). -/
def dirField (w : Word) : BitVec 1 := w.extractLsb' 4 1

/-- `RSV`, bits 31:5 (30_encoding.md R90, R93). -/
def rsvField (w : Word) : BitVec 27 := w.extractLsb' 5 27

/-- A command word from its three fields (30_encoding.md R90). -/
def commandWord (op : BitVec 4) (dir : BitVec 1) : Word := (0#27 ++ dir) ++ op

/-- A two-direction command: the suffix `.F` for `DIR` = 0, `.I` for `DIR` = 1 (30_encoding.md R92). -/
def byDirection (dir : BitVec 1) (f i : Instr) : Instr := if dir = 0#1 then f else i

/-- The operations without a direction: `DIR` must be 0 (30_encoding.md R92). -/
def withoutDirection (dir : BitVec 1) (i : Instr) : Except Illegal Instr :=
  if dir = 0#1 then .ok i else .error .directionOnCache

/-- The decoding algorithm of 30_encoding.md R101, total on 32-bit words. -/
def decode (w : Word) : Except Illegal Instr :=
  if rsvField w ≠ 0#27 then .error .reservedBits
  else match opField w with
    | 0x1#4 => .ok (byDirection (dirField w) .cdftF .cdftI)
    | 0x2#4 => .ok (byDirection (dirField w) .cdftoF .cdftoI)
    | 0x3#4 => .ok (byDirection (dirField w) .rdftF .rdftI)
    | 0x4#4 => .ok (byDirection (dirField w) .rdftoF .rdftoI)
    | 0x5#4 => .ok (byDirection (dirField w) .dctF .dctI)
    | 0x6#4 => .ok (byDirection (dirField w) .dstF .dstI)
    | 0x8#4 => withoutDirection (dirField w) .enstw
    | 0x9#4 => withoutDirection (dirField w) .ensct
    | 0xA#4 => withoutDirection (dirField w) .ensbr
    | _ => .error .reservedOp

/-- The command word of each command, from the `OP` and `DIR` columns of 30_encoding.md R91, R92. -/
def encode : Instr → Word
  | .cdftF => commandWord 0x1#4 0#1
  | .cdftI => commandWord 0x1#4 1#1
  | .cdftoF => commandWord 0x2#4 0#1
  | .cdftoI => commandWord 0x2#4 1#1
  | .rdftF => commandWord 0x3#4 0#1
  | .rdftI => commandWord 0x3#4 1#1
  | .rdftoF => commandWord 0x4#4 0#1
  | .rdftoI => commandWord 0x4#4 1#1
  | .dctF => commandWord 0x5#4 0#1
  | .dctI => commandWord 0x5#4 1#1
  | .dstF => commandWord 0x6#4 0#1
  | .dstI => commandWord 0x6#4 1#1
  | .enstw => commandWord 0x8#4 0#1
  | .ensct => commandWord 0x9#4 0#1
  | .ensbr => commandWord 0xA#4 0#1

/-- The command word the host writes for an instruction given as the low `nbits` bits of `w`. A command is always one
32-bit word (30_encoding.md R98), written to `CMD` as a whole: there is no byte order (20_memory.md R65). -/
def hostWord (nbits w : Nat) : Word := BitVec.ofNat 32 (w % 2 ^ nbits)

/-- The instruction the decoder reads from an instruction whose bits are `w`, numbered as spec/opcode_table.json
numbers them. -/
def decodeTableWord (nbits w : Nat) : Option Instr :=
  match decode (hostWord nbits w) with
  | .ok i => some i
  | .error _ => none

end Sys2Proof
end

