-- ==== Sys2Proof/Machine/Integers.lean ====
section
/-! DEFINITION. Integer helpers of 00_scope.md R13, the derived parameters of R10, and the one loop every stage uses. -/

namespace Sys2Proof.Machine

/-- `ispow2(n)` of 00_scope.md R13. -/
def isPow2 (n : Nat) : Bool := n != 0 && (n &&& (n - 1)) == 0

/-- `log2(n)` of 00_scope.md R13; used only where `isPow2 n`. -/
def log2 (n : Nat) : Nat := Nat.log2 n

/-- `rev(d, x)` of 00_scope.md R13: the low `d` bits of `x` in reverse order. -/
def rev : Nat → Nat → Nat
  | 0, _ => 0
  | d + 1, x => (x % 2) * 2 ^ d + rev d (x / 2)

/-- How many bits `k` is written with, no leading zeros. -/
def bitCount (k : Nat) : Nat := if k = 0 then 0 else Nat.log2 k + 1

/-- The numerator of `brfrac(k)` (00_scope.md R13) over the denominator `2 ^ bitCount k`. -/
def brNum (k : Nat) : Nat := rev (bitCount k) k

/-- `for i in 0 .. n-1: b := body i b`, ascending: every bounded loop of a stage rule. -/
def loop {β : Type} : Nat → (Nat → β → β) → β → β
  | 0, _, b => b
  | n + 1, body, b => body n (loop n body b)

/-- `LOG2_NMAX`, 2 to 30 (00_scope.md R10). -/
def log2Nmax (p : Params) : Nat := p.orders.val + 2

/-- `NMAX` = 2^`LOG2_NMAX` (00_scope.md R10). -/
def nmax (p : Params) : Nat := 2 ^ log2Nmax p

/-- `TWCAP` = `NMAX`/4 (00_scope.md R10). -/
def twCap (p : Params) : Nat := nmax p / 4

/-- `CTCAP` = `NMAX` (00_scope.md R10). -/
def ctCap (p : Params) : Nat := nmax p

end Sys2Proof.Machine
end

