-- ==== Sys2Proof/Machine/Numerics.lean ====
section
/-! DEFINITION. The arithmetic of the datapath: IEEE 754 addition, subtraction, multiplication and negation, round to
nearest even (46_numerics.md). A finite value is an integer multiple of the format's smallest subnormal, its GRID
value, so sums and products are exact integers until the one rounding. -/

namespace Sys2Proof.Machine

/-- Significand bits `p` (46_numerics.md R260). -/
def precision : Format → Nat
  | .binary32 => 24
  | .binary64 => 53

/-- Bits of a cell (46_numerics.md R260, 20_memory.md R61). -/
def cellWidth : Format → Nat
  | .binary32 => 32
  | .binary64 => 64

/-- The smallest positive subnormal is 2^-`gridScale` (46_numerics.md R260). -/
def gridScale : Format → Nat
  | .binary32 => 149
  | .binary64 => 1074

/-- The encoding of +infinity: all-ones exponent, zero fraction (46_numerics.md R260). -/
def infMagnitude : Format → Nat
  | .binary32 => 0x7F800000
  | .binary64 => 0x7FF0000000000000

/-- What the bits of a cell stand for (46_numerics.md R260). -/
inductive Number where
  | nan
  | inf (neg : Bool)
  /-- (-1)^`neg` · `grid` · 2^-`gridScale`. -/
  | finite (neg : Bool) (grid : Nat)
deriving DecidableEq, Repr

/-- A value of the datapath: known bits, or a computed NaN, of which the spec fixes only that it is a quiet NaN
(46_numerics.md R267, 93_implementation_defined.md U4). A NaN that is only moved or negated keeps its bits. -/
inductive Sample where
  | bits (b : CellBits)
  | quietNaN
deriving DecidableEq, Repr

/-- The grid value of a finite magnitude (an encoding without its sign bit), 46_numerics.md R260. -/
def gridOf (fmt : Format) (mag : Nat) : Nat :=
  let e := mag / 2 ^ (precision fmt - 1)
  let f := mag % 2 ^ (precision fmt - 1)
  if e = 0 then f else (2 ^ (precision fmt - 1) + f) * 2 ^ (e - 1)

/-- The sign bit of a cell (46_numerics.md R260). -/
def signOf (fmt : Format) (b : CellBits) : Bool := b.toNat / 2 ^ (cellWidth fmt - 1) % 2 = 1

/-- The encoding without its sign bit. -/
def magnitudeOf (fmt : Format) (b : CellBits) : Nat := b.toNat % 2 ^ (cellWidth fmt - 1)

/-- The value of a cell's bits (46_numerics.md R260). -/
def numberOf (fmt : Format) (b : CellBits) : Number :=
  if infMagnitude fmt < magnitudeOf fmt b then .nan
  else if magnitudeOf fmt b = infMagnitude fmt then .inf (signOf fmt b)
  else .finite (signOf fmt b) (gridOf fmt (magnitudeOf fmt b))

/-- The value of a datapath value. -/
def Sample.number (fmt : Format) : Sample → Number
  | .bits b => numberOf fmt b
  | .quietNaN => .nan

/-- `m` / 2^`t` rounded to the nearest integer, ties to even (46_numerics.md R266). -/
def roundHalfEven (m t : Nat) : Nat :=
  let q := m / 2 ^ t
  let r := m % 2 ^ t
  if 2 ^ t < 2 * r ∨ (2 * r = 2 ^ t ∧ q % 2 = 1) then q + 1 else q

/-- The encoding (without sign) of the grid value `m` / 2^`sh` rounded once to the format: the quantum is the least
power of two that leaves at most `p` significand bits, and never below the subnormal grid; beyond the largest finite
value the result is infinity (46_numerics.md R261, R263, R266, R268). -/
def roundMagnitude (fmt : Format) (m sh : Nat) : Nat :=
  let intBits := if m / 2 ^ sh = 0 then 0 else Nat.log2 (m / 2 ^ sh) + 1
  let q := intBits - precision fmt
  min (q * 2 ^ (precision fmt - 1) + roundHalfEven m (sh + q)) (infMagnitude fmt)

/-- The cell with a sign and a magnitude encoding. -/
def pack (fmt : Format) (neg : Bool) (mag : Nat) : Sample :=
  .bits (BitVec.ofNat 64 (if neg then 2 ^ (cellWidth fmt - 1) + mag else mag))

/-- A signed grid value. -/
def signedGrid (neg : Bool) (grid : Nat) : Int := if neg then -(grid : Int) else (grid : Int)

/-- The sum of two numbers (46_numerics.md R261). -/
def addNumbers (fmt : Format) : Number → Number → Sample
  | .nan, _ => .quietNaN
  | _, .nan => .quietNaN
  | .inf a, .inf b => if a = b then pack fmt a (infMagnitude fmt) else .quietNaN
  | .inf a, .finite _ _ => pack fmt a (infMagnitude fmt)
  | .finite _ _, .inf b => pack fmt b (infMagnitude fmt)
  | .finite a x, .finite b y =>
    let sum := signedGrid a x + signedGrid b y
    if sum = 0 then pack fmt (a && b) 0
    else pack fmt (decide (sum < 0)) (roundMagnitude fmt sum.natAbs 0)

/-- The product of two numbers (46_numerics.md R263). -/
def mulNumbers (fmt : Format) : Number → Number → Sample
  | .nan, _ => .quietNaN
  | _, .nan => .quietNaN
  | .inf a, .inf b => pack fmt (a ^^ b) (infMagnitude fmt)
  | .inf a, .finite b y => if y = 0 then .quietNaN else pack fmt (a ^^ b) (infMagnitude fmt)
  | .finite a x, .inf b => if x = 0 then .quietNaN else pack fmt (a ^^ b) (infMagnitude fmt)
  | .finite a x, .finite b y => pack fmt (a ^^ b) (roundMagnitude fmt (x * y) (gridScale fmt))

/-- `fadd(x, y)` (46_numerics.md R261). -/
def fadd (fmt : Format) (x y : Sample) : Sample := addNumbers fmt (x.number fmt) (y.number fmt)

/-- `fneg(x)`: the sign bit inverted, every other bit unchanged, NaNs included (46_numerics.md R264). The negation of
an unspecified quiet NaN is an unspecified quiet NaN. -/
def fneg (fmt : Format) : Sample → Sample
  | .bits b => .bits (b ^^^ BitVec.ofNat 64 (2 ^ (cellWidth fmt - 1)))
  | .quietNaN => .quietNaN

/-- `fsub(x, y)` = `fadd(x, fneg(y))` (46_numerics.md R262). -/
def fsub (fmt : Format) (x y : Sample) : Sample := fadd fmt x (fneg fmt y)

/-- `fmul(x, y)` (46_numerics.md R263). -/
def fmul (fmt : Format) (x y : Sample) : Sample := mulNumbers fmt (x.number fmt) (y.number fmt)

/-- `ZERO`, +0.0 (46_numerics.md R260). -/
def fzero : Sample := .bits 0#64

/-- `ONE` (46_numerics.md R260). -/
def fone : Format → Sample
  | .binary32 => .bits 0x3F800000#64
  | .binary64 => .bits 0x3FF0000000000000#64

/-- `HALF` (46_numerics.md R260). -/
def fhalf : Format → Sample
  | .binary32 => .bits 0x3F000000#64
  | .binary64 => .bits 0x3FE0000000000000#64

/-- `TWO` (46_numerics.md R260). -/
def ftwo : Format → Sample
  | .binary32 => .bits 0x40000000#64
  | .binary64 => .bits 0x4000000000000000#64

/-- The quiet NaN with the sign and payload of `free` (46_numerics.md R260, R267): exponent all ones, top fraction bit
1, every other bit free. -/
def quietNaNBits (fmt : Format) (free : CellBits) : CellBits :=
  match fmt with
  | .binary32 => 0x7FC00000#64 ||| (free &&& 0x803FFFFF#64)
  | .binary64 => 0x7FF8000000000000#64 ||| (free &&& 0x8007FFFFFFFFFFFF#64)

/-- The bits a datapath value leaves in a cell of the format's width; a computed NaN draws the free pattern number `n`
(93_implementation_defined.md U4, log entry 4). -/
def Sample.toCell (fmt : Format) (n : Nat) : Sample → CellBits
  | .bits b => BitVec.ofNat 64 (b.toNat % 2 ^ cellWidth fmt)
  | .quietNaN => quietNaNBits fmt (Config.freeNaN n)

end Sys2Proof.Machine
end

