-- ==== Sys2Proof/Machine/State.lean ====
section
/-! DEFINITION. The state of the engine, its sample memory and its host (10_state.md, 20_memory.md), and reset. -/

namespace Sys2Proof.Machine

/-- Sample memory: (byte address, byte) pairs in the layout of 20_memory.md R65, in one canonical form
(`Memory.wf`): addresses strictly rising, no byte listed that equals the free power-up byte. -/
abbrev Memory := List Host.Cell

/-- The abort causes, the values of `STATUS.CAUSE` (60_exceptions.md R285). Codes 5 to 15 are never written. -/
inductive Cause where
  | none
  | notPow2
  | tooSmall
  | capacity
  | illCmd
deriving DecidableEq, Repr

/-- The fields of `STATUS` (10_state.md R26); the reserved bits are no storage. -/
structure Status where
  halt : Bool
  done : Bool
  cause : Cause
deriving DecidableEq, Repr

/-- The sequencer `SEQ` (10_state.md R33): `IDLE`, or a command word and the line of its rule. -/
inductive Seq where
  | idle
  | running (command : Word) (line : Nat)
deriving DecidableEq, Repr

/-- A computed bit-reversal table `BR[order]` (10_state.md R31); `V` = 1 is that it is listed. -/
structure BrEntry where
  order : Nat
  /-- `P4`: 2^`order` is a power of 4. -/
  p4 : Bool
  /-- `M`, the number of seed indices. -/
  m : Nat
  /-- `IP[0 .. M-1]`, the seed indices. -/
  ip : List Nat
deriving DecidableEq, Repr

/-- What the host's last read returned (the model's own field, log entry 8). -/
inductive HostRead where
  | nothing
  | register (value : Word)
  | cell (value : CellBits)
deriving DecidableEq, Repr

/-- The reasons a step can fault. -/
inductive Fault where
  /-- A host operation while `SEQ` is not `IDLE`: raised by `step` alone. The port is blocked then (10_state.md R20,
  R34) and no run reaches such a state: a stuck state. Safe. -/
  | commandInFlight
deriving DecidableEq, Repr

/-- The reasons a step has no meaning. -/
inductive Refusal where
  /-- Raised by an arm of `exec` whose instruction has no meaning yet. Safe. -/
  | notModelled (mnemonic : String)
  /-- A command one of whose buffers has a cell outside `MEMMAP` or wraps past 2^32 (20_memory.md R69,
  93_implementation_defined.md U2, treatment "refuse"). Raised by the transform commands. Safe. -/
  | bufferNotPresent
  /-- An out-of-place command whose buffers share a cell (70_reset_and_hazards.md R321, 93_implementation_defined.md
  U1, treatment "refuse"). Raised by the four out-of-place commands. Safe. -/
  | buffersOverlap
  /-- A host access to a cell outside `MEMMAP` (20_memory.md R62, R69). Raised by the host's `LD` and `ST`. Safe. -/
  | cellNotPresent
deriving DecidableEq, Repr

/-- Everything the spec gives the machine, with four fields of the model's own (INVENTORY.md, State). -/
structure State where
  /-- The instance's parameters (00_scope.md R10), carried as data; no step writes them (log entry 1). -/
  inst : Params
  /-- `CMD`, the last command word written while not halted (10_state.md R22). -/
  cmd : Word
  /-- `LEN`, the length argument (R23). -/
  len : Word
  /-- `SRC`, base cell address of the source buffer (R24). -/
  src : Word
  /-- `DST`, base cell address of the buffer written (R25). -/
  dst : Word
  /-- `STATUS` (R26). -/
  status : Status
  /-- `NW`, the working size of `TW`, in pairs (R28). -/
  nw : Word
  /-- `NC`, the working size of `CT`, in entries (R30). -/
  nc : Word
  /-- `TW[0 .. NW-1]`, pairs (cosine, sine) (R27). -/
  tw : List (CellBits × CellBits)
  /-- `CT[0 .. NC-1]` (R29). -/
  ct : List CellBits
  /-- The bit-reversal tables computed so far, by rising order (R31). -/
  br : List BrEntry
  /-- `SEQ` (R33). -/
  seq : Seq
  /-- Sample memory (20_memory.md R60, R61, R65). -/
  mem : Memory
  /-- The host's pending operations, the next one first (log entry 8). -/
  host : List HostOp
  /-- What the host's last read returned (log entry 8). -/
  hostRead : HostRead
  /-- How many free NaN patterns have been drawn (93_implementation_defined.md U4, log entry 4). -/
  freeCount : Nat
deriving DecidableEq, Repr

/-- The machine right after power-up reset (10_state.md R38; 70_reset_and_hazards.md R311): registers and `STATUS` 0,
tables empty, `SEQ` idle, no memory written, no host operation pending. -/
def State.reset : State where
  inst := Config.params
  cmd := 0#32
  len := 0#32
  src := 0#32
  dst := 0#32
  status := ⟨false, false, .none⟩
  nw := 0#32
  nc := 0#32
  tw := []
  ct := []
  br := []
  seq := .idle
  mem := []
  host := []
  hostRead := .nothing
  freeCount := 0

end Sys2Proof.Machine
end

