-- ==== Sys2Proof/Machine/Datapath.lean ====
section
/-! DEFINITION. What a stage works on: a buffer, an arithmetic and the coefficients. Every stage is written once for any
arithmetic, so that the same text is the format-`P` datapath (00_scope.md R15) and, over the real numbers, its
exact-arithmetic reading (R17). A stage sees the buffer from its base on: `a[D; j]` is entry `j`, point `p` is entries
2p and 2p+1 (R14, 20_memory.md R63). -/

namespace Sys2Proof.Machine

/-- The primitives of 00_scope.md R15 over some type of values. -/
structure Arith (α : Type) where
  add : α → α → α
  sub : α → α → α
  mul : α → α → α
  neg : α → α
  zero : α
  half : α
  two : α

/-- The valid entries of the coefficient tables, as the stages read them (10_state.md R27, R29). -/
structure Coeffs (α : Type) where
  /-- `TW[k]`, the pair (c, s). -/
  tw : Nat → α × α
  /-- `CT[i]`. -/
  ct : Nat → α

/-- The format-`P` arithmetic: every operation rounded once on its own, nothing fused or re-associated
(46_numerics.md R265). -/
def ieee (fmt : Format) : Arith Sample where
  add := fadd fmt
  sub := fsub fmt
  mul := fmul fmt
  neg := fneg fmt
  zero := fzero
  half := fhalf fmt
  two := ftwo fmt

/-- Entry `k` of the twiddle table of a state (10_state.md R27). -/
def State.twEntry (s : State) (k : Nat) : CellBits × CellBits :=
  s.tw.getD k (Config.invalidEntry (2 * k), Config.invalidEntry (2 * k + 1))

/-- Entry `i` of the cosine table of a state (10_state.md R29). -/
def State.ctEntry (s : State) (i : Nat) : CellBits := s.ct.getD i (Config.invalidEntry i)

/-- The tables of a state as datapath values. -/
def State.coeffs (s : State) : Coeffs Sample where
  tw k := (.bits (s.twEntry k).1, .bits (s.twEntry k).2)
  ct i := .bits (s.ctEntry i)

/-- `HC(num, d)` = `CT[rev(d, num)]` (40_table_cache.md R129). -/
def halfCosine {α : Type} (T : Coeffs α) (num d : Nat) : α := T.ct (rev d num)

/-- `a[D; j]` (00_scope.md R14). -/
def cellAt {α : Type} (A : Arith α) (b : List α) (j : Nat) : α := b.getD j A.zero

/-- `zr[B; p]` (00_scope.md R14). -/
def re {α : Type} (A : Arith α) (b : List α) (p : Nat) : α := cellAt A b (2 * p)

/-- `zi[B; p]` (00_scope.md R14). -/
def im {α : Type} (A : Arith α) (b : List α) (p : Nat) : α := cellAt A b (2 * p + 1)

/-- Point `p`: (real part, imaginary part). -/
def point {α : Type} (A : Arith α) (b : List α) (p : Nat) : α × α := (re A b p, im A b p)

/-- `zi[B; p] <- v` (00_scope.md R14). -/
def setIm {α : Type} (b : List α) (p : Nat) (v : α) : List α := b.set (2 * p + 1) v

/-- `zr[B; p] <- y.r ; zi[B; p] <- y.i` (00_scope.md R14). -/
def setPoint {α : Type} (b : List α) (p : Nat) (y : α × α) : List α := (b.set (2 * p) y.1).set (2 * p + 1) y.2

end Sys2Proof.Machine
end

