-- ==== Sys2Proof/Machine/Flags.lean ====
section
/-! DEFINITION. The flags of the engine (10_state.md R26, R41) and the register views that are computed: `STATUS`,
`BRV`, `BRP4`, `ID` (R26, R32, R35). -/

namespace Sys2Proof.Machine

/-- The code of an abort cause (60_exceptions.md R285). -/
def Cause.code : Cause → Nat
  | .none => 0
  | .notPow2 => 1
  | .tooSmall => 2
  | .capacity => 3
  | .illCmd => 4

/-- The register `STATUS`: `HALT` bit 0, `DONE` bit 1, `CAUSE` bits 7:4, every other bit 0 (10_state.md R26). -/
def Status.word (s : Status) : Word :=
  BitVec.ofNat 32 (s.halt.toNat + 2 * s.done.toNat + 16 * s.cause.code)

/-- `STATUS.DONE` is cleared when a command starts (10_state.md R26, 45_command_api.md R230). -/
def Status.started (s : Status) : Status := { s with done := false }

/-- `STATUS.DONE` is set when a command completes without abort (45_command_api.md R237). -/
def Status.completed (s : Status) : Status := { s with done := true }

/-- `STATUS` after an abort: `HALT` set, the cause recorded, `DONE` not touched (60_exceptions.md R284). -/
def Status.aborted (s : Status) (c : Cause) : Status := { s with halt := true, cause := c }

/-- The flag `P4` of a table of `m` seeds with the remaining length `rest` (41_bitrev_permuter.md R140). -/
def p4Flag (m rest : Nat) : Bool := 4 * m == rest

/-- The cached table of order `o`, if `BR[o].V` = 1 (10_state.md R31). -/
def State.brLookup (s : State) (o : Nat) : Option BrEntry := s.br.find? fun e => e.order == o

/-- `BR[o].V` as bit `o` of `BRV` shows it: 0 outside 1 .. `LOG2_NMAX` (10_state.md R32). -/
def State.brValid (s : State) (o : Nat) : Bool :=
  decide (1 ≤ o ∧ o ≤ log2Nmax s.inst) && (s.brLookup o).isSome

/-- `BR[o].V and BR[o].P4` as bit `o` of `BRP4` shows it (10_state.md R32). -/
def State.brPow4 (s : State) (o : Nat) : Bool :=
  s.brValid o && (s.brLookup o).any fun e => e.p4

/-- The 32-bit word whose bit `o` is `bit o`. -/
def wordOfBits (bit : Nat → Bool) : Word :=
  BitVec.ofNat 32 (loop 32 (fun o acc => acc + (bit o).toNat * 2 ^ o) 0)

/-- The register `BRV` (10_state.md R32). -/
def State.brv (s : State) : Word := wordOfBits s.brValid

/-- The register `BRP4` (10_state.md R32). -/
def State.brp4 (s : State) : Word := wordOfBits s.brPow4

/-- `ID.PFMT` (10_state.md R35). -/
def formatBit : Format → Nat
  | .binary32 => 0
  | .binary64 => 1

/-- The register `ID`: `PFMT` bit 0, `LOG2NMAX` bits 15:8, every other bit 0 (10_state.md R35). -/
def State.idWord (s : State) : Word :=
  BitVec.ofNat 32 (formatBit s.inst.fmt + 256 * log2Nmax s.inst)

end Sys2Proof.Machine
end

