-- ==== Sys2Proof/Machine/Operands.lean ====
section
/-! DEFINITION. The operands of a command (30_encoding.md R94) and the checks on them (45_command_api.md R233, R234). -/

namespace Sys2Proof.Machine

/-- The operands, read once when the command starts: `N` := `LEN` (called `min_size` or `order` by the cache
commands), `S` := `SRC`, `D` := `DST`, unsigned (30_encoding.md R94). -/
def State.operandN (s : State) : Nat := s.len.toNat

/-- `S` := `SRC` (30_encoding.md R94). -/
def State.operandS (s : State) : Nat := s.src.toNat

/-- `D` := `DST` (30_encoding.md R94). -/
def State.operandD (s : State) : Nat := s.dst.toNat

/-- `CHECKLEN(N, min)`: the first check that fails gives the cause (45_command_api.md R233, R235). -/
def checkLen (p : Params) (n min : Nat) : Option Cause :=
  if !isPow2 n then some .notPow2
  else if n < min then some .tooSmall
  else if nmax p < n then some .capacity
  else none

/-- The check of `ENSTW` (40_table_cache.md R130). -/
def checkTwiddleSize (p : Params) (m : Nat) : Option Cause :=
  if twCap p < m then some .capacity else none

/-- The check of `ENSCT` (40_table_cache.md R131). -/
def checkCosineSize (p : Params) (m : Nat) : Option Cause :=
  if ctCap p < m then some .capacity else none

/-- The checks of `ENSBR` (41_bitrev_permuter.md R149). -/
def checkOrder (p : Params) (o : Nat) : Option Cause :=
  if o = 0 then some .tooSmall
  else if log2Nmax p < o then some .capacity
  else none

/-- The minimum length of the complex commands, in points (45_command_api.md R233). -/
def complexMin : Nat := 2

/-- The minimum length of the real, cosine and sine commands, in values (45_command_api.md R233). -/
def realMin : Nat := 4

end Sys2Proof.Machine
end

