-- ==== Sys2Proof/Machine/Ops.lean ====
section
/-! DEFINITION. The named operations over sample memory, the abort (60_exceptions.md R284), the start and the
completion of a command (45_command_api.md R230, R237), and the engine's reset (70_reset_and_hazards.md R311). -/

namespace Sys2Proof.Machine

/-! ### Bytes -/

/-- The byte at byte address `a`; a byte that is not listed reads as the free power-up byte (log entry 3). -/
def Memory.read (fill : Byte) : Memory → Nat → Byte
  | [], _ => fill
  | c :: rest, a => if c.1 = a then c.2 else Memory.read fill rest a

/-- Memory with the byte at `a` replaced by `v`, in the canonical form. -/
def Memory.write (fill : Byte) : Memory → Nat → Byte → Memory
  | [], a, v => if v = fill then [] else [(a, v)]
  | c :: rest, a, v =>
    if a < c.1 then (if v = fill then c :: rest else (a, v) :: c :: rest)
    else if a = c.1 then (if v = fill then rest else (a, v) :: rest)
    else c :: Memory.write fill rest a v

/-- The canonical form: addresses strictly rising, and no byte listed that equals what an unlisted one reads as. -/
abbrev Memory.wf (fill : Byte) (m : Memory) : Prop :=
  m.Pairwise (fun x y => x.1 < y.1) ∧ ∀ c ∈ m, c.2 ≠ fill

/-! ### Cells -/

/-- Bytes of a cell: 4 or 8 (20_memory.md R65). -/
def cellBytes : Format → Nat
  | .binary32 => 4
  | .binary64 => 8

/-- The number whose `n` bytes, least significant first, are `byte 0` .. `byte (n-1)` (20_memory.md R65). -/
def littleEndian (byte : Nat → Byte) : Nat → Nat
  | 0 => 0
  | n + 1 => littleEndian byte n + (byte n).toNat * 256 ^ n

/-- Byte number `i` of a cell value, 0 the least significant. -/
def byteOf (v : CellBits) (i : Nat) : Byte := v.extractLsb' (8 * i) 8

/-- `MemRead(addr, 1)`: the cell at cell address `a`, bit for bit (20_memory.md R62, R65). -/
def readCell (p : Params) (m : Memory) (a : Nat) : CellBits :=
  BitVec.ofNat 64 (littleEndian (fun i => m.read p.fill (cellBytes p.fmt * a + i)) (cellBytes p.fmt))

/-- `MemWrite(addr, 1, v)`: the content of cell `a` replaced by `v` (20_memory.md R62, R65). -/
def writeCell (p : Params) (m : Memory) (a : Nat) (v : CellBits) : Memory :=
  loop (cellBytes p.fmt) (fun i acc => acc.write p.fill (cellBytes p.fmt * a + i) (byteOf v i)) m

/-- The cells `base`, `base`+1, ..., `n` of them. -/
def loadCells (p : Params) (m : Memory) : Nat → Nat → List CellBits
  | _, 0 => []
  | base, n + 1 => readCell p m base :: loadCells p m (base + 1) n

/-- Consecutive cells from `base` on replaced. -/
def storeCells (p : Params) : Memory → Nat → List CellBits → Memory
  | m, _, [] => m
  | m, base, v :: rest => storeCells p (writeCell p m base v) (base + 1) rest

/-- Cell address `a` is in `MEMMAP` (00_scope.md R10, 20_memory.md R61). -/
def cellPresent (p : Params) (a : Nat) : Bool :=
  decide (a < 2 ^ 32) && p.memMap.any fun r => decide (r.base ≤ a ∧ a < r.base + r.count)

/-- The buffer `base .. base+len-1` exists and does not wrap (70_reset_and_hazards.md R322). -/
def bufferPresent (p : Params) (base len : Nat) : Bool :=
  decide (base + len ≤ 2 ^ 32) && (List.range len).all fun j => cellPresent p (base + j)

/-- Two buffers of `len` cells share no cell (70_reset_and_hazards.md R321). -/
def buffersDisjoint (a b len : Nat) : Bool := decide (a + len ≤ b ∨ b + len ≤ a)

/-! ### Samples -/

/-- The buffer a stage works on: the cells of memory as datapath values. -/
def loadSamples (p : Params) (m : Memory) (base n : Nat) : List Sample :=
  (loadCells p m base n).map Sample.bits

/-- The bits each value leaves in its cell; value number `j` draws free pattern `free + j` if it is a computed NaN. -/
def settleSamples (fmt : Format) : Nat → List Sample → List CellBits
  | _, [] => []
  | free, v :: rest => v.toCell fmt free :: settleSamples fmt (free + 1) rest

/-- A buffer written back to memory from cell `base` on. -/
def State.storeSamples (s : State) (base : Nat) (b : List Sample) : State :=
  { s with
    mem := storeCells s.inst s.mem base (settleSamples s.inst.fmt s.freeCount b)
    freeCount := s.freeCount + b.length }

/-! ### Start, abort, completion, reset -/

/-- The start of a command: `CMD` written, `DONE` cleared, `SEQ` at the first line (45_command_api.md R230). -/
def State.startCommand (s : State) (w : Word) : State :=
  { s with cmd := w, status := s.status.started, seq := .running w 0 }

/-- The abort, the engine's one exception: `HALT` set, the cause recorded, `SEQ` idle, nothing else changed
(60_exceptions.md R284). There is no saved state, no handler and no return (R288). -/
def State.abort (s : State) (c : Cause) : State :=
  { s with status := s.status.aborted c, seq := .idle }

/-- Completion: `DONE` set, `SEQ` idle (45_command_api.md R230, R237). -/
def State.complete (s : State) : State :=
  { s with status := s.status.completed, seq := .idle }

/-- The engine's reset, the only exit from the halted state: every register and table at its reset value; sample
memory, the instance and the host's side are not touched (10_state.md R38; 70_reset_and_hazards.md R310 to R312). -/
def State.engineReset (s : State) : State :=
  { State.reset with
    inst := s.inst, mem := s.mem, host := s.host, hostRead := s.hostRead, freeCount := s.freeCount }

/-! ### The two shapes of a transform command -/

/-- A command that checked out: abort with the cause, or go on (45_command_api.md R230, R235). -/
def State.checked (s : State) (c : Option Cause) (go : State → Host.Outcome State Fault Refusal) :
    Host.Outcome State Fault Refusal :=
  match c with
  | some cause => .next (s.abort cause)
  | none => go s

/-- An in-place command on the `cells` cells at `DST`: its stages map the buffer to its new content (20_memory.md R71,
R77; log entry 5). A buffer that does not exist has no meaning (R69, log entry 7). -/
def State.transformInPlace (s : State) (cells : Nat) (stages : List Sample → List Sample) :
    Host.Outcome State Fault Refusal :=
  if bufferPresent s.inst s.operandD cells then
    .next ((s.storeSamples s.operandD (stages (loadSamples s.inst s.mem s.operandD cells))).complete)
  else .refused .bufferNotPresent

/-- An out-of-place command from the `cells` cells at `SRC`, which are read only, to those at `DST` (20_memory.md R77).
Buffers that do not exist or share a cell have no meaning (R69; 70_reset_and_hazards.md R321; log entries 6, 7). -/
def State.transformOutOfPlace (s : State) (cells : Nat)
    (stages : List Sample → List Sample → List Sample) : Host.Outcome State Fault Refusal :=
  if bufferPresent s.inst s.operandS cells && bufferPresent s.inst s.operandD cells then
    if buffersDisjoint s.operandS s.operandD cells then
      .next ((s.storeSamples s.operandD
        (stages (loadSamples s.inst s.mem s.operandS cells)
          (loadSamples s.inst s.mem s.operandD cells))).complete)
    else .refused .buffersOverlap
  else .refused .bufferNotPresent

end Sys2Proof.Machine
end

