-- ==== Sys2Proof/Machine/Permuter.lean ====
section
/-! DEFINITION. The Bit-Reversal Permuter: `permutation_for`, the swap pairs, the permuting stages and the command
`ENSBR` (41_bitrev_permuter.md). Indices count points. -/

namespace Sys2Proof.Machine

/-- The loop of 41_bitrev_permuter.md R140: while 4·`m` < `rest`, halve `rest` and append every seed shifted by it.
`fuel` bounds the iterations; it answers the seeds, their number and the final remaining length. -/
def seedLoop : Nat → List Nat → Nat → Nat → List Nat × Nat × Nat
  | 0, ip, m, rest => (ip, m, rest)
  | fuel + 1, ip, m, rest =>
    if 4 * m < rest then
      seedLoop fuel (ip ++ ip.map fun i => i + rest / 2) (2 * m) (rest / 2)
    else (ip, m, rest)

/-- The table of order `o` as `permutation_for(o)` computes it (41_bitrev_permuter.md R140). -/
def buildBr (o : Nat) : BrEntry :=
  let r := seedLoop o [0] 1 (2 ^ o)
  { order := o, p4 := p4Flag r.2.1 r.2.2, m := r.2.1, ip := r.1 }

/-- A table added to the cached ones, in rising order. -/
def insertBr (e : BrEntry) : List BrEntry → List BrEntry
  | [] => [e]
  | x :: rest => if e.order < x.order then e :: x :: rest else x :: insertBr e rest

/-- `permutation_for(o)` (41_bitrev_permuter.md R140). -/
def permutationFor (o : Nat) (s : State) : State :=
  if (s.brLookup o).isSome then s else { s with br := insertBr (buildBr o) s.br }

/-- `BR[o]` as a stage reads it, after `permutation_for(o)` has run: the cached entry. The table is always there then
(45_command_api.md R236), so the other branch is never taken. -/
def State.brEntry (s : State) (o : Nat) : BrEntry := (s.brLookup o).getD (buildBr o)

/-- `IP[k]` of a table. -/
def seed (e : BrEntry) (k : Nat) : Nat := e.ip.getD k 0

/-- The 4-way group of 41_bitrev_permuter.md R143 for j < k, `P4` = 1. -/
def fourWayGroup (e : BrEntry) (k j : Nat) : List (Nat × Nat) :=
  let J := j + seed e k
  let K := k + seed e j
  [(J, K), (J + e.m, K + 2 * e.m), (J + 2 * e.m, K + e.m), (J + 3 * e.m, K + 3 * e.m)]

/-- The 2-way group of 41_bitrev_permuter.md R143 for j < k, `P4` = 0. -/
def twoWayGroup (e : BrEntry) (k j : Nat) : List (Nat × Nat) :=
  let J := j + seed e k
  let K := k + seed e j
  [(J, K), (J + e.m, K + e.m)]

/-- `PAIRS(o)`, the ordered list of swap pairs read off `BR[o]` (41_bitrev_permuter.md R143). -/
def swapPairs (e : BrEntry) : List (Nat × Nat) :=
  if e.p4 then
    (List.range e.m).flatMap fun k =>
      ((List.range k).flatMap fun j => fourWayGroup e k j)
        ++ [(k + e.m + seed e k, k + e.m + seed e k + e.m)]
  else
    (List.range e.m).flatMap fun k => (List.range k).flatMap fun j => twoWayGroup e k j

/-- `SWAP(B, J, K)` (41_bitrev_permuter.md R145). -/
def swapPoints {α : Type} (A : Arith α) (b : List α) (J K : Nat) : List α :=
  setPoint (setPoint b J (point A b K)) K (point A b J)

/-- `SWAPC(B, J, K)` (41_bitrev_permuter.md R146). -/
def swapConjugated {α : Type} (A : Arith α) (b : List α) (J K : Nat) : List α :=
  setPoint (setPoint b J (re A b K, A.neg (im A b K))) K (re A b J, A.neg (im A b J))

/-- The imaginary part of point `p` negated. -/
def negateIm {α : Type} (A : Arith α) (b : List α) (p : Nat) : List α := setIm b p (A.neg (im A b p))

/-- `PERM(B, n)` (41_bitrev_permuter.md R145), with the bypass for n ≤ 4 (R148). -/
def perm {α : Type} (A : Arith α) (e : BrEntry) (n : Nat) (b : List α) : List α :=
  if n ≤ 4 then b
  else (swapPairs e).foldl (fun b jk => swapPoints A b jk.1 jk.2) b

/-- `PERMC(B, n)` (41_bitrev_permuter.md R146): the swaps conjugate, and the fixed points are conjugated in place
(R151). -/
def permC {α : Type} (A : Arith α) (e : BrEntry) (n : Nat) (b : List α) : List α :=
  if n ≤ 4 then loop n (fun p b => negateIm A b p) b
  else
    loop n (fun p b => if rev (log2 n) p = p then negateIm A b p else b)
      ((swapPairs e).foldl (fun b jk => swapConjugated A b jk.1 jk.2) b)

/-- Where `PCOPY` puts point `p` (41_bitrev_permuter.md R147, R148). -/
def copyTarget (n p : Nat) : Nat := if 4 < n then rev (log2 n) p else p

/-- `PCOPY(S, D, n)`: from the points of `src` into `dst` (41_bitrev_permuter.md R147). -/
def pcopy {α : Type} (A : Arith α) (n : Nat) (src dst : List α) : List α :=
  loop n (fun p d => setPoint d (copyTarget n p) (point A src p)) dst

/-- `PCOPYC(S, D, n)`: the same with the imaginary part negated (41_bitrev_permuter.md R147). -/
def pcopyC {α : Type} (A : Arith α) (n : Nat) (src dst : List α) : List α :=
  loop n (fun p d => setPoint d (copyTarget n p) (re A src p, A.neg (im A src p))) dst

/-- `ENSBR` (41_bitrev_permuter.md R149). -/
def execEnsbr (s : State) : Host.Outcome State Fault Refusal :=
  s.checked (checkOrder s.inst s.operandN) fun s =>
    .next (permutationFor s.operandN s).complete

end Sys2Proof.Machine
end

