-- ==== Sys2Proof/Machine/Rom.lean ====
section
/-! DEFINITION. The coefficient generator `ROM`, a parameter of the instance (00_scope.md R10; 40_table_cache.md R122,
R123), and the content of the tables (R124, R125). An instance lists the values of `ROMCOS` that are its own, each taken
only if it has the property P3 of R123; at every other argument `ROMCOS` is the power series of the cosine in fixed point
with 256 fraction bits, rounded once. `ROMSIN` and `ROMHCOS` follow from `ROMCOS` by the properties P4 and P5 of R123
(log entries 2, 21). -/

namespace Sys2Proof.Machine

/-! ### The series -/

/-- Fraction bits of the fixed-point series. -/
def romBits : Nat := 256

/-- The integer part of π · 2^256. -/
def piFixed : Nat := 363771576891766324280234942777729862653393377328392429958772151117938894466185

/-- The angle (π/2)·`num`/2^`d` in fixed point. -/
def angleFixed (num d : Nat) : Nat := piFixed * num / 2 ^ (d + 1)

/-- The alternating rest of the cosine series from term number `k`, whose size is `t`, with `x2` the square of the
angle: t - (next - (next after - ...)), `fuel` terms of it. -/
def cosineTail (x2 : Nat) : Nat → Nat → Nat → Int
  | 0, _, _ => 0
  | fuel + 1, k, t =>
    (t : Int) - cosineTail x2 fuel (k + 1) (t * x2 / (2 ^ romBits * ((2 * k + 1) * (2 * k + 2))))

/-- cos((π/2)·`num`/2^`d`) in fixed point; 40 terms leave a rest far below the last place for angles up to π/2. -/
def cosineFixed (num d : Nat) : Nat :=
  let x := angleFixed num d
  (cosineTail (x * x / 2 ^ romBits) 40 0 (2 ^ romBits)).toNat

/-- The series rounded once to the format. -/
def seriesCos (fmt : Format) (num d : Nat) : CellBits :=
  BitVec.ofNat 64 (roundMagnitude fmt (cosineFixed num d * 2 ^ gridScale fmt) romBits)

/-! ### The property P3 -/

/-- `ONE` as bits (46_numerics.md R260). -/
def oneBits : Format → CellBits
  | .binary32 => 0x3F800000#64
  | .binary64 => 0x3FF0000000000000#64

/-- The exact cosine lies within this many units of 2^-256 of `cosineFixed` (`cosineFixed_error`). -/
def romSlack : Nat := 2 ^ 16

/-- One unit in the last place, in units of 2^-256, of the least value the exact cosine can have. -/
def ulpFixed (fmt : Format) (num d : Nat) : Nat :=
  2 ^ (Nat.log2 (cosineFixed num d - romSlack) - (precision fmt - 1))

/-- `v` is finite, lies in [0, 1] and is within one unit in the last place of the exact cosine, wherever within the slack
that lies (40_table_cache.md R123 P3). -/
def romAdmits (fmt : Format) (num d : Nat) (v : CellBits) : Bool :=
  decide (v.toNat ≤ (oneBits fmt).toNat
    ∧ (cosineFixed num d + romSlack) * 2 ^ gridScale fmt
      ≤ gridOf fmt v.toNat * 2 ^ romBits + ulpFixed fmt num d * 2 ^ gridScale fmt
    ∧ gridOf fmt v.toNat * 2 ^ romBits + romSlack * 2 ^ gridScale fmt
      ≤ (cosineFixed num d + ulpFixed fmt num d) * 2 ^ gridScale fmt)

/-! ### The three functions -/

/-- f = `num`/2^`d` in units of 2^-30, the finest argument of the generator (40_table_cache.md R122). -/
def romKey (num d : Nat) : Nat := num * 2 ^ 30 / 2 ^ d

/-- The instance's own value of `ROMCOS(f)`, if it lists one that has the property P3. -/
def romListed (p : Params) (num d : Nat) : Option CellBits :=
  (p.rom.find? fun e => e.num == romKey num d && romAdmits p.fmt num d e.value).map RomEntry.value

/-- `ROMCOS(f)` for f = `num`/2^`d`, 0 ≤ f < 1 (40_table_cache.md R122); `ONE` for f = 0 (R123 P2). -/
def romCos (p : Params) (num d : Nat) : CellBits :=
  if num = 0 then oneBits p.fmt else (romListed p num d).getD (seriesCos p.fmt num d)

/-- `ROMSIN(f)`: `ROMCOS(1-f)`, and +0.0 for f = 0 (40_table_cache.md R122, R123 P2 and P4). -/
def romSin (p : Params) (num d : Nat) : CellBits :=
  if num = 0 then 0#64 else romCos p (2 ^ d - num) d

/-- `fmul(HALF, x)` as bits, for an `x` that is no NaN (46_numerics.md R270). -/
def halfBits (fmt : Format) (x : CellBits) : CellBits :=
  match fmul fmt (fhalf fmt) (.bits x) with
  | .bits b => b
  | .quietNaN => x

/-- `ROMHCOS(f)` = `fmul(HALF, ROMCOS(f))` (40_table_cache.md R122, R123 P5). -/
def romHalfCos (p : Params) (num d : Nat) : CellBits := halfBits p.fmt (romCos p num d)

/-! ### The content of the tables -/

/-- `TWROM(k)`, the content of twiddle entry `k` (40_table_cache.md R124). -/
def twRom (p : Params) (k : Nat) : CellBits × CellBits :=
  (romCos p (brNum k) (bitCount k), romSin p (brNum k) (bitCount k))

/-- `CTROM(i)`, the content of cosine entry `i` (40_table_cache.md R125). -/
def ctRom (p : Params) (i : Nat) : CellBits :=
  if i = 0 then romCos p 1 1 else romHalfCos p (brNum i) (bitCount i)

end Sys2Proof.Machine
end

