-- ==== Sys2Proof/Machine/TableCache.lean ====
section
/-! DEFINITION. The Table Cache: `ensure_twiddle`, `ensure_cosine` and the commands `ENSTW`, `ENSCT`
(40_table_cache.md). -/

namespace Sys2Proof.Machine

/-- Entries `lo` .. `hi-1`, ascending, put behind the first `lo` of a table (40_table_cache.md R126, R127). -/
def growTable {α : Type} (table : List α) (lo hi : Nat) (rom : Nat → α) : List α :=
  table.take lo ++ (List.range (hi - lo)).map fun i => rom (lo + i)

/-- `ensure_twiddle(m)` (40_table_cache.md R126). -/
def ensureTwiddle (m : Nat) (s : State) : State :=
  if m ≤ s.nw.toNat then s
  else { s with
    tw := growTable s.tw s.nw.toNat m (twRom s.inst)
    nw := BitVec.ofNat 32 m }

/-- `ensure_cosine(m)` (40_table_cache.md R127). -/
def ensureCosine (m : Nat) (s : State) : State :=
  if m ≤ s.nc.toNat then s
  else { s with
    ct := growTable s.ct s.nc.toNat m (ctRom s.inst)
    nc := BitVec.ofNat 32 m }

/-- `ENSTW` (40_table_cache.md R130). -/
def execEnstw (s : State) : Host.Outcome State Fault Refusal :=
  s.checked (checkTwiddleSize s.inst s.operandN) fun s =>
    .next (ensureTwiddle s.operandN s).complete

/-- `ENSCT` (40_table_cache.md R131). -/
def execEnsct (s : State) : Host.Outcome State Fault Refusal :=
  s.checked (checkCosineSize s.inst s.operandN) fun s =>
    .next (ensureCosine s.operandN s).complete

end Sys2Proof.Machine
end

