-- ==== Sys2Proof/Machine/Butterfly.lean ====
section
/-! DEFINITION. The Butterfly Engine and the four complex transform commands (42_butterfly_engine.md). -/

namespace Sys2Proof.Machine

/-- `W(k)`: the three twiddles of block `k` (42_butterfly_engine.md R162). -/
def twiddles {α : Type} (A : Arith α) (T : Coeffs α) (k : Nat) : (α × α) × (α × α) × (α × α) :=
  let w1 := T.tw k
  let h := T.tw (k / 2)
  let w2 := if k % 2 = 0 then h else (A.neg h.2, h.1)
  let t := A.mul A.two w2.2
  (w1, w2, (A.sub w1.1 (A.mul t w1.2), A.sub (A.mul t w1.1) w1.2))

/-- `BFLY4(a0, a1, a2, a3)`: sixteen additions and subtractions in this association (42_butterfly_engine.md R163). -/
def bfly4 {α : Type} (A : Arith α) (a0 a1 a2 a3 : α × α) : (α × α) × (α × α) × (α × α) × (α × α) :=
  let x0 := (A.add a0.1 a1.1, A.add a0.2 a1.2)
  let x1 := (A.sub a0.1 a1.1, A.sub a0.2 a1.2)
  let x2 := (A.add a2.1 a3.1, A.add a2.2 a3.2)
  let x3 := (A.sub a2.1 a3.1, A.sub a2.2 a3.2)
  ((A.add x0.1 x2.1, A.add x0.2 x2.2),
   (A.sub x1.1 x3.2, A.add x1.2 x3.1),
   (A.sub x0.1 x2.1, A.sub x0.2 x2.2),
   (A.add x1.1 x3.2, A.sub x1.2 x3.1))

/-- `WMUL(w, y)` (42_butterfly_engine.md R164). -/
def wmul {α : Type} (A : Arith α) (w y : α × α) : α × α :=
  (A.sub (A.mul w.1 y.1) (A.mul w.2 y.2), A.add (A.mul w.1 y.2) (A.mul w.2 y.1))

/-- One butterfly of a pass: block `k`, position `j`. Block 0 stores the outputs of `BFLY4` as they are
(42_butterfly_engine.md R165). -/
def passButterfly {α : Type} (A : Arith α) (T : Coeffs α) (l k j : Nat) (b : List α) : List α :=
  let p0 := 4 * l * k + j
  let y := bfly4 A (point A b p0) (point A b (p0 + l)) (point A b (p0 + 2 * l)) (point A b (p0 + 3 * l))
  let w := twiddles A T k
  let y1 := if k = 0 then y.2.1 else wmul A w.1 y.2.1
  let y2 := if k = 0 then y.2.2.1 else wmul A w.2.1 y.2.2.1
  let y3 := if k = 0 then y.2.2.2 else wmul A w.2.2 y.2.2.2
  setPoint (setPoint (setPoint (setPoint b p0 y.1) (p0 + l) y1) (p0 + 2 * l) y2) (p0 + 3 * l) y3

/-- `PASS4(B, n, l)` (42_butterfly_engine.md R165). -/
def pass4 {α : Type} (A : Arith α) (T : Coeffs α) (n l : Nat) (b : List α) : List α :=
  loop (n / (4 * l)) (fun k b => loop l (fun j b => passButterfly A T l k j b) b) b

/-- `FIN4(B, n, l)`: for n = 4 the two middle operands are read exchanged (42_butterfly_engine.md R166,
41_bitrev_permuter.md R148). -/
def fin4 {α : Type} (A : Arith α) (n l : Nat) (b : List α) : List α :=
  loop l (fun j b =>
    let q1 := if n = 4 then j + 2 * l else j + l
    let q2 := if n = 4 then j + l else j + 2 * l
    let y := bfly4 A (point A b j) (point A b q1) (point A b q2) (point A b (j + 3 * l))
    setPoint (setPoint (setPoint (setPoint b j y.1) (j + l) y.2.1) (j + 2 * l) y.2.2.1) (j + 3 * l) y.2.2.2) b

/-- `FIN2(B, n, l)` (42_butterfly_engine.md R167). -/
def fin2 {α : Type} (A : Arith α) (l : Nat) (b : List α) : List α :=
  loop l (fun j b =>
    let x := (A.sub (re A b j) (re A b (j + l)), A.sub (im A b j) (im A b (j + l)))
    let sum := (A.add (re A b j) (re A b (j + l)), A.add (im A b j) (im A b (j + l)))
    setPoint (setPoint b j sum) (j + l) x) b

/-- `CONJ(B, n)` (42_butterfly_engine.md R168). -/
def conj {α : Type} (A : Arith α) (n : Nat) (b : List α) : List α :=
  loop n (fun p b => negateIm A b p) b

/-- The while loop of 42_butterfly_engine.md R169 from quarter-stride `l` on, then the final stage; `fuel` bounds the
passes. -/
def passesFrom {α : Type} (A : Arith α) (T : Coeffs α) (n : Nat) : Nat → Nat → List α → List α
  | 0, _, b => b
  | fuel + 1, l, b =>
    if 4 * l < n then passesFrom A T n fuel (4 * l) (pass4 A T n l b)
    else if 4 * l = n then fin4 A n l b
    else fin2 A l b

/-- `PASSES(B, n)` (42_butterfly_engine.md R169): (log2(n) - 1) div 2 passes and a final stage, so log2(n) rounds of
the loop are enough for every power of two n ≥ 2. -/
def passes {α : Type} (A : Arith α) (T : Coeffs α) (n : Nat) (b : List α) : List α :=
  passesFrom A T n (log2 n) 1 b

/-! ### The stage lists of the complex commands -/

/-- The stages of `CDFT.F` (42_butterfly_engine.md R172). -/
def stagesCdftF {α : Type} (A : Arith α) (T : Coeffs α) (e : BrEntry) (n : Nat) (b : List α) : List α :=
  passes A T n (perm A e n b)

/-- The stages of `CDFT.I` (42_butterfly_engine.md R173). -/
def stagesCdftI {α : Type} (A : Arith α) (T : Coeffs α) (e : BrEntry) (n : Nat) (b : List α) : List α :=
  conj A n (passes A T n (permC A e n b))

/-- The stages of `CDFTO.F` (42_butterfly_engine.md R174). -/
def stagesCdftoF {α : Type} (A : Arith α) (T : Coeffs α) (n : Nat) (src dst : List α) : List α :=
  passes A T n (pcopy A n src dst)

/-- The stages of `CDFTO.I` (42_butterfly_engine.md R175). -/
def stagesCdftoI {α : Type} (A : Arith α) (T : Coeffs α) (n : Nat) (src dst : List α) : List α :=
  conj A n (passes A T n (pcopyC A n src dst))

/-! ### The commands -/

/-- The tables a complex transform of `n` points asks for (40_table_cache.md R133). -/
def prepareComplex (n : Nat) (s : State) : State :=
  let s := ensureTwiddle (n / 4) s
  if 4 < n then permutationFor (log2 n) s else s

/-- `CDFT.F` (42_butterfly_engine.md R172). -/
def execCdftF (s : State) : Host.Outcome State Fault Refusal :=
  s.checked (checkLen s.inst s.operandN complexMin) fun s =>
    let n := s.operandN
    let s := prepareComplex n s
    s.transformInPlace (2 * n) (stagesCdftF (ieee s.inst.fmt) s.coeffs (s.brEntry (log2 n)) n)

/-- `CDFT.I` (42_butterfly_engine.md R173). -/
def execCdftI (s : State) : Host.Outcome State Fault Refusal :=
  s.checked (checkLen s.inst s.operandN complexMin) fun s =>
    let n := s.operandN
    let s := prepareComplex n s
    s.transformInPlace (2 * n) (stagesCdftI (ieee s.inst.fmt) s.coeffs (s.brEntry (log2 n)) n)

/-- `CDFTO.F` (42_butterfly_engine.md R174). -/
def execCdftoF (s : State) : Host.Outcome State Fault Refusal :=
  s.checked (checkLen s.inst s.operandN complexMin) fun s =>
    let n := s.operandN
    let s := prepareComplex n s
    s.transformOutOfPlace (2 * n) (stagesCdftoF (ieee s.inst.fmt) s.coeffs n)

/-- `CDFTO.I` (42_butterfly_engine.md R175). -/
def execCdftoI (s : State) : Host.Outcome State Fault Refusal :=
  s.checked (checkLen s.inst s.operandN complexMin) fun s =>
    let n := s.operandN
    let s := prepareComplex n s
    s.transformOutOfPlace (2 * n) (stagesCdftoI (ieee s.inst.fmt) s.coeffs n)

end Sys2Proof.Machine
end

