-- ==== Sys2Proof/Machine/RealAdapter.lean ====
section
/-! DEFINITION. The Real-Transform Adapter and the four real transform commands (43_real_adapter.md). `N` counts real
values; the half-length view has N/2 points at the same base (R191). -/

namespace Sys2Proof.Machine

/-- `wkr` and `wki` of iteration `t` (43_real_adapter.md R192, R193). -/
def realTwiddle {α : Type} (A : Arith α) (T : Coeffs α) (N t : Nat) : α × α :=
  (A.sub A.half (halfCosine T (N / 2 / 2 - t) (log2 (N / 4))), halfCosine T t (log2 (N / 4)))

/-- One iteration of `RFTF`: points `t` and `u` = N/2 - `t` (43_real_adapter.md R192). -/
def rftfPair {α : Type} (A : Arith α) (T : Coeffs α) (N t : Nat) (b : List α) : List α :=
  let u := N / 2 - t
  let w := realTwiddle A T N t
  let xr := A.sub (re A b t) (re A b u)
  let xi := A.add (im A b t) (im A b u)
  let yr := A.sub (A.mul w.1 xr) (A.mul w.2 xi)
  let yi := A.add (A.mul w.1 xi) (A.mul w.2 xr)
  setPoint (setPoint b t (A.sub (re A b t) yr, A.sub (im A b t) yi))
    u (A.add (re A b u) yr, A.sub (im A b u) yi)

/-- `RFTF(D, N)`: t = 1 .. N/4 - 1 (43_real_adapter.md R192). -/
def rftf {α : Type} (A : Arith α) (T : Coeffs α) (N : Nat) (b : List α) : List α :=
  loop (N / 2 / 2 - 1) (fun i b => rftfPair A T N (i + 1) b) b

/-- One iteration of `RFTB` (43_real_adapter.md R193). -/
def rftbPair {α : Type} (A : Arith α) (T : Coeffs α) (N t : Nat) (b : List α) : List α :=
  let u := N / 2 - t
  let w := realTwiddle A T N t
  let xr := A.sub (re A b t) (re A b u)
  let xi := A.add (im A b t) (im A b u)
  let yr := A.add (A.mul w.1 xr) (A.mul w.2 xi)
  let yi := A.sub (A.mul w.1 xi) (A.mul w.2 xr)
  setPoint (setPoint b t (A.sub (re A b t) yr, A.sub yi (im A b t)))
    u (A.add (re A b u) yr, A.sub yi (im A b u))

/-- `a[D; j] <- fneg(a[D; j])`. -/
def negateCell {α : Type} (A : Arith α) (b : List α) (j : Nat) : List α := b.set j (A.neg (cellAt A b j))

/-- `RFTB(D, N)` (43_real_adapter.md R193). -/
def rftb {α : Type} (A : Arith α) (T : Coeffs α) (N : Nat) (b : List α) : List α :=
  negateCell A (loop (N / 2 / 2 - 1) (fun i b => rftbPair A T N (i + 1) b) (negateCell A b 1)) (N / 2 + 1)

/-- `DCNYQF(D)` (43_real_adapter.md R194). -/
def dcnyqF {α : Type} (A : Arith α) (b : List α) : List α :=
  (b.set 0 (A.add (cellAt A b 0) (cellAt A b 1))).set 1 (A.sub (cellAt A b 0) (cellAt A b 1))

/-- `DCNYQB(D)`: the second line uses the new cell 1 (43_real_adapter.md R195). -/
def dcnyqB {α : Type} (A : Arith α) (b : List α) : List α :=
  let c1 := A.mul A.half (A.sub (cellAt A b 0) (cellAt A b 1))
  (b.set 1 c1).set 0 (A.sub (cellAt A b 0) c1)

/-- `COPY(S, D, N)` (43_real_adapter.md R202). -/
def copyCells {α : Type} (A : Arith α) (N : Nat) (src dst : List α) : List α :=
  loop N (fun j d => d.set j (cellAt A src j)) dst

/-! ### The stage lists of the real commands -/

/-- The stages of `RDFT.F` (43_real_adapter.md R196). -/
def stagesRdftF {α : Type} (A : Arith α) (T : Coeffs α) (e : BrEntry) (N : Nat) (b : List α) : List α :=
  dcnyqF A (rftf A T N (passes A T (N / 2) (perm A e (N / 2) b)))

/-- The stages of `RDFT.I` (43_real_adapter.md R197). -/
def stagesRdftI {α : Type} (A : Arith α) (T : Coeffs α) (e : BrEntry) (N : Nat) (b : List α) : List α :=
  conj A (N / 2) (passes A T (N / 2) (perm A e (N / 2) (rftb A T N (dcnyqB A b))))

/-- The stages of `RDFTO.F` (43_real_adapter.md R198). -/
def stagesRdftoF {α : Type} (A : Arith α) (T : Coeffs α) (e : BrEntry) (N : Nat) (src dst : List α) : List α :=
  dcnyqF A (rftf A T N (passes A T (N / 2) (perm A e (N / 2) (copyCells A N src dst))))

/-- The stages of `RDFTO.I` (43_real_adapter.md R199). -/
def stagesRdftoI {α : Type} (A : Arith α) (T : Coeffs α) (e : BrEntry) (N : Nat) (src dst : List α) : List α :=
  conj A (N / 2) (passes A T (N / 2) (perm A e (N / 2) (rftb A T N (dcnyqB A (copyCells A N src dst)))))

/-! ### The commands -/

/-- The tables a real, cosine or sine transform of `N` values asks for, with `c` cosine entries (40_table_cache.md
R133). -/
def prepareReal (N c : Nat) (s : State) : State :=
  let s := ensureCosine c (ensureTwiddle (N / 8) s)
  if 4 < N / 2 then permutationFor (log2 (N / 2)) s else s

/-- `RDFT.F` (43_real_adapter.md R196). -/
def execRdftF (s : State) : Host.Outcome State Fault Refusal :=
  s.checked (checkLen s.inst s.operandN realMin) fun s =>
    let N := s.operandN
    let s := prepareReal N (N / 4) s
    s.transformInPlace N (stagesRdftF (ieee s.inst.fmt) s.coeffs (s.brEntry (log2 (N / 2))) N)

/-- `RDFT.I` (43_real_adapter.md R197). -/
def execRdftI (s : State) : Host.Outcome State Fault Refusal :=
  s.checked (checkLen s.inst s.operandN realMin) fun s =>
    let N := s.operandN
    let s := prepareReal N (N / 4) s
    s.transformInPlace N (stagesRdftI (ieee s.inst.fmt) s.coeffs (s.brEntry (log2 (N / 2))) N)

/-- `RDFTO.F` (43_real_adapter.md R198). -/
def execRdftoF (s : State) : Host.Outcome State Fault Refusal :=
  s.checked (checkLen s.inst s.operandN realMin) fun s =>
    let N := s.operandN
    let s := prepareReal N (N / 4) s
    s.transformOutOfPlace N (stagesRdftoF (ieee s.inst.fmt) s.coeffs (s.brEntry (log2 (N / 2))) N)

/-- `RDFTO.I` (43_real_adapter.md R199). -/
def execRdftoI (s : State) : Host.Outcome State Fault Refusal :=
  s.checked (checkLen s.inst s.operandN realMin) fun s =>
    let N := s.operandN
    let s := prepareReal N (N / 4) s
    s.transformOutOfPlace N (stagesRdftoI (ieee s.inst.fmt) s.coeffs (s.brEntry (log2 (N / 2))) N)

end Sys2Proof.Machine
end

