-- ==== Sys2Proof/Machine/CosSin.lean ====
section
/-! DEFINITION. The Cosine/Sine Transform Adapter and the four DCT and DST commands (44_dct_dst_adapter.md). -/

namespace Sys2Proof.Machine

/-- `wkr` and `wki` of iteration `j` of `DCTSUB` and `DSTSUB` (44_dct_dst_adapter.md R211, R212). -/
def cosTwiddle {α : Type} (A : Arith α) (T : Coeffs α) (N j : Nat) : α × α :=
  let cj := halfCosine T j (log2 N)
  let ck := halfCosine T (N - j) (log2 N)
  (A.sub cj ck, A.add cj ck)

/-- The midpoint times `CT[0]`, the last line of `DCTSUB` and `DSTSUB`. -/
def scaleMidpoint {α : Type} (A : Arith α) (T : Coeffs α) (N : Nat) (b : List α) : List α :=
  b.set (N / 2) (A.mul (cellAt A b (N / 2)) (T.ct 0))

/-- One iteration of `DCTSUB`: cells `j` and `k` = N - `j` (44_dct_dst_adapter.md R211). -/
def dctSubPair {α : Type} (A : Arith α) (T : Coeffs α) (N j : Nat) (b : List α) : List α :=
  let k := N - j
  let w := cosTwiddle A T N j
  let xr := A.sub (A.mul w.2 (cellAt A b j)) (A.mul w.1 (cellAt A b k))
  (b.set j (A.add (A.mul w.1 (cellAt A b j)) (A.mul w.2 (cellAt A b k)))).set k xr

/-- `DCTSUB(D, N)` (44_dct_dst_adapter.md R211). -/
def dctSub {α : Type} (A : Arith α) (T : Coeffs α) (N : Nat) (b : List α) : List α :=
  scaleMidpoint A T N (loop (N / 2 - 1) (fun i b => dctSubPair A T N (i + 1) b) b)

/-- One iteration of `DSTSUB` (44_dct_dst_adapter.md R212). -/
def dstSubPair {α : Type} (A : Arith α) (T : Coeffs α) (N j : Nat) (b : List α) : List α :=
  let k := N - j
  let w := cosTwiddle A T N j
  let xr := A.sub (A.mul w.2 (cellAt A b k)) (A.mul w.1 (cellAt A b j))
  (b.set k (A.add (A.mul w.1 (cellAt A b k)) (A.mul w.2 (cellAt A b j)))).set j xr

/-- `DSTSUB(D, N)` (44_dct_dst_adapter.md R212). -/
def dstSub {α : Type} (A : Arith α) (T : Coeffs α) (N : Nat) (b : List α) : List α :=
  scaleMidpoint A T N (loop (N / 2 - 1) (fun i b => dstSubPair A T N (i + 1) b) b)

/-- `DCTPRE(D, N)`: j = N-2, N-4, .., 2 (44_dct_dst_adapter.md R213). -/
def dctPre {α : Type} (A : Arith α) (N : Nat) (b : List α) : List α :=
  let xr := cellAt A b (N - 1)
  let b' := loop (N / 2 - 1) (fun i b =>
    let j := N - 2 - 2 * i
    (b.set (j + 1) (A.sub (cellAt A b j) (cellAt A b (j - 1)))).set j
      (A.add (cellAt A b j) (cellAt A b (j - 1)))) b
  (b'.set 1 (A.sub (cellAt A b' 0) xr)).set 0 (A.add (cellAt A b' 0) xr)

/-- `DCTPOST(D, N)`: j = 2, 4, .., N-2 (44_dct_dst_adapter.md R214). -/
def dctPost {α : Type} (A : Arith α) (N : Nat) (b : List α) : List α :=
  let xr := A.sub (cellAt A b 0) (cellAt A b 1)
  let b' := loop (N / 2 - 1) (fun i b =>
    let j := 2 * i + 2
    (b.set (j - 1) (A.sub (cellAt A b j) (cellAt A b (j + 1)))).set j
      (A.add (cellAt A b j) (cellAt A b (j + 1)))) (b.set 0 (A.add (cellAt A b 0) (cellAt A b 1)))
  b'.set (N - 1) xr

/-- `DSTPRE(D, N)` (44_dct_dst_adapter.md R215). -/
def dstPre {α : Type} (A : Arith α) (N : Nat) (b : List α) : List α :=
  let xr := cellAt A b (N - 1)
  let b' := loop (N / 2 - 1) (fun i b =>
    let j := N - 2 - 2 * i
    (b.set (j + 1) (A.sub (A.neg (cellAt A b j)) (cellAt A b (j - 1)))).set j
      (A.sub (cellAt A b j) (cellAt A b (j - 1)))) b
  (b'.set 1 (A.add (cellAt A b' 0) xr)).set 0 (A.sub (cellAt A b' 0) xr)

/-- `DSTPOST(D, N)` (44_dct_dst_adapter.md R216). -/
def dstPost {α : Type} (A : Arith α) (N : Nat) (b : List α) : List α :=
  let xr := A.sub (cellAt A b 0) (cellAt A b 1)
  let b' := loop (N / 2 - 1) (fun i b =>
    let j := 2 * i + 2
    (b.set (j - 1) (A.sub (A.neg (cellAt A b j)) (cellAt A b (j + 1)))).set j
      (A.sub (cellAt A b j) (cellAt A b (j + 1)))) (b.set 0 (A.add (cellAt A b 0) (cellAt A b 1)))
  b'.set (N - 1) (A.neg xr)

/-! ### The stage lists of the cosine and sine commands -/

/-- The backward real core of the type II commands: `RFTB`, `PERM`, `PASSES`, `CONJ` (44_dct_dst_adapter.md R217,
R219). -/
def backwardCore {α : Type} (A : Arith α) (T : Coeffs α) (e : BrEntry) (N : Nat) (b : List α) : List α :=
  conj A (N / 2) (passes A T (N / 2) (perm A e (N / 2) (rftb A T N b)))

/-- The forward real core of the type III commands: `PERM`, `PASSES`, `RFTF` (44_dct_dst_adapter.md R218, R220). -/
def forwardCore {α : Type} (A : Arith α) (T : Coeffs α) (e : BrEntry) (N : Nat) (b : List α) : List α :=
  rftf A T N (passes A T (N / 2) (perm A e (N / 2) b))

/-- The stages of `DCT.F` (44_dct_dst_adapter.md R217). -/
def stagesDctF {α : Type} (A : Arith α) (T : Coeffs α) (e : BrEntry) (N : Nat) (b : List α) : List α :=
  dctSub A T N (backwardCore A T e N (dctPre A N b))

/-- The stages of `DCT.I` (44_dct_dst_adapter.md R218). -/
def stagesDctI {α : Type} (A : Arith α) (T : Coeffs α) (e : BrEntry) (N : Nat) (b : List α) : List α :=
  dctPost A N (forwardCore A T e N (dctSub A T N b))

/-- The stages of `DST.F` (44_dct_dst_adapter.md R219). -/
def stagesDstF {α : Type} (A : Arith α) (T : Coeffs α) (e : BrEntry) (N : Nat) (b : List α) : List α :=
  dstSub A T N (backwardCore A T e N (dstPre A N b))

/-- The stages of `DST.I` (44_dct_dst_adapter.md R220). -/
def stagesDstI {α : Type} (A : Arith α) (T : Coeffs α) (e : BrEntry) (N : Nat) (b : List α) : List α :=
  dstPost A N (forwardCore A T e N (dstSub A T N b))

/-! ### The commands -/

/-- `DCT.F` (44_dct_dst_adapter.md R217). -/
def execDctF (s : State) : Host.Outcome State Fault Refusal :=
  s.checked (checkLen s.inst s.operandN realMin) fun s =>
    let N := s.operandN
    let s := prepareReal N N s
    s.transformInPlace N (stagesDctF (ieee s.inst.fmt) s.coeffs (s.brEntry (log2 (N / 2))) N)

/-- `DCT.I` (44_dct_dst_adapter.md R218). -/
def execDctI (s : State) : Host.Outcome State Fault Refusal :=
  s.checked (checkLen s.inst s.operandN realMin) fun s =>
    let N := s.operandN
    let s := prepareReal N N s
    s.transformInPlace N (stagesDctI (ieee s.inst.fmt) s.coeffs (s.brEntry (log2 (N / 2))) N)

/-- `DST.F` (44_dct_dst_adapter.md R219). -/
def execDstF (s : State) : Host.Outcome State Fault Refusal :=
  s.checked (checkLen s.inst s.operandN realMin) fun s =>
    let N := s.operandN
    let s := prepareReal N N s
    s.transformInPlace N (stagesDstF (ieee s.inst.fmt) s.coeffs (s.brEntry (log2 (N / 2))) N)

/-- `DST.I` (44_dct_dst_adapter.md R220). -/
def execDstI (s : State) : Host.Outcome State Fault Refusal :=
  s.checked (checkLen s.inst s.operandN realMin) fun s =>
    let N := s.operandN
    let s := prepareReal N N s
    s.transformInPlace N (stagesDstI (ieee s.inst.fmt) s.coeffs (s.brEntry (log2 (N / 2))) N)

end Sys2Proof.Machine
end

