-- ==== Sys2Proof/Machine/Dispatch.lean ====
section
/-! DEFINITION. Which meaning each command has: one arm per row of spec/opcode_table.json. -/

namespace Sys2Proof.Machine

def exec (i : Instr) (s : State) : Host.Outcome State Fault Refusal :=
  match i with
  | .cdftF => Sys2Proof.Machine.execCdftF s
  | .cdftI => Sys2Proof.Machine.execCdftI s
  | .cdftoF => Sys2Proof.Machine.execCdftoF s
  | .cdftoI => Sys2Proof.Machine.execCdftoI s
  | .rdftF => Sys2Proof.Machine.execRdftF s
  | .rdftI => Sys2Proof.Machine.execRdftI s
  | .rdftoF => Sys2Proof.Machine.execRdftoF s
  | .rdftoI => Sys2Proof.Machine.execRdftoI s
  | .dctF => Sys2Proof.Machine.execDctF s
  | .dctI => Sys2Proof.Machine.execDctI s
  | .dstF => Sys2Proof.Machine.execDstF s
  | .dstI => Sys2Proof.Machine.execDstI s
  | .enstw => Sys2Proof.Machine.execEnstw s
  | .ensct => Sys2Proof.Machine.execEnsct s
  | .ensbr => Sys2Proof.Machine.execEnsbr s

end Sys2Proof.Machine
end

