-- ==== Sys2Proof/Machine/HostPort.lean ====
section
/-! DEFINITION. The command port: what a host write, a host read and the host's reset do (10_state.md R21, R22, R39,
R40; 45_command_api.md R230; 70_reset_and_hazards.md R310). -/

namespace Sys2Proof.Machine

/-- A host write of `w` to `CMD`: the command template (45_command_api.md R230). While halted it is ignored
(10_state.md R39). An illegal word aborts with `ILLCMD` before anything else is looked at (R232, 30_encoding.md R96). -/
def runCommand (w : Word) (s : State) : Host.Outcome State Fault Refusal :=
  if s.status.halt then .next s
  else match decode w with
    | .ok i => exec i (s.startCommand w)
    | .error _ => .next ((s.startCommand w).abort .illCmd)

/-- A host write of an argument register: ignored while halted (10_state.md R39). -/
def writeArgument (s written : State) : Host.Outcome State Fault Refusal :=
  if s.status.halt then .next s else .next written

/-- A host write of register number `num`; a read-only register and a number above 9 ignore it (10_state.md R21). -/
def writeRegister (num : Nat) (v : Word) (s : State) : Host.Outcome State Fault Refusal :=
  match num with
  | 0 => runCommand v s
  | 1 => writeArgument s { s with len := v }
  | 2 => writeArgument s { s with src := v }
  | 3 => writeArgument s { s with dst := v }
  | _ => .next s

/-- The value a host read of register number `num` returns; 0 above 9 (10_state.md R21). -/
def registerValue (s : State) (num : Nat) : Word :=
  match num with
  | 0 => s.cmd
  | 1 => s.len
  | 2 => s.src
  | 3 => s.dst
  | 4 => s.status.word
  | 5 => s.nw
  | 6 => s.nc
  | 7 => s.brv
  | 8 => s.brp4
  | 9 => s.idWord
  | _ => 0#32

/-- One host operation. Accesses to sample memory need no engine state (10_state.md R40); one to a cell that does not
exist has no meaning (20_memory.md R62, R69; log entry 7). -/
def hostStep (op : HostOp) (s : State) : Host.Outcome State Fault Refusal :=
  match op with
  | .writeReg num v => writeRegister num v s
  | .readReg num => .next { s with hostRead := .register (registerValue s num) }
  | .writeCell a v =>
    if cellPresent s.inst a.toNat then .next { s with mem := writeCell s.inst s.mem a.toNat v }
    else .refused .cellNotPresent
  | .readCell a =>
    if cellPresent s.inst a.toNat then .next { s with hostRead := .cell (readCell s.inst s.mem a.toNat) }
    else .refused .cellNotPresent
  | .reset => .next s.engineReset

/-- The host operation by which the host writes `w` to `CMD`, register number 0 (10_state.md R21, R22). -/
def commandWrite (w : Word) : HostOp := .writeReg 0 w

end Sys2Proof.Machine
end

