-- ==== Sys2Proof/Machine/Step.lean ====
section
/-! DEFINITION. One step of the machine: the host's next operation (10_state.md R20), run to its end. -/

namespace Sys2Proof.Machine

/-- One step. The engine acts only on the host's operations (10_state.md R20); with none pending it stays idle. The
port accepts nothing while a command runs (R34): between steps `SEQ` is idle on every run. -/
def step (s : State) : Host.Outcome State Fault Refusal :=
  match s.seq with
  | .running _ _ => .fault .commandInFlight
  | .idle =>
    match s.host with
    | [] => .next s
    | op :: rest => hostStep op { s with host := rest }

/-- The state whose next host operation writes the command word given by the low `nbits` bits of `w` to `CMD`: the
engine fetches nothing, so this is where a command comes from (20_memory.md R75; log entry 8). -/
def State.withFetchWord (s : State) (nbits w : Nat) : State :=
  { s with host := commandWrite (hostWord nbits w) :: s.host }

end Sys2Proof.Machine
end

