-- ==== Sys2Proof/Machine/Assembler.lean ====
section
/-! DEFINITION. The assembler lines and pseudo-commands as host operations (30_encoding.md R99, R100). -/

namespace Sys2Proof.Machine

/-- `WR LEN, n` (10_state.md R21: register number 1). -/
def writeLen (n : Word) : HostOp := .writeReg 1 n

/-- `WR SRC, src` (register number 2). -/
def writeSrc (a : Word) : HostOp := .writeReg 2 a

/-- `WR DST, dst` (register number 3). -/
def writeDst (a : Word) : HostOp := .writeReg 3 a

/-- `I n, dst`: the writes of an in-place command line, `CMD` last (30_encoding.md R99). -/
def expandInPlace (i : Instr) (n dst : Word) : List HostOp :=
  [writeLen n, writeDst dst, commandWrite (encode i)]

/-- `I n, src, dst`: the writes of an out-of-place command line (30_encoding.md R99). -/
def expandOutOfPlace (i : Instr) (n src dst : Word) : List HostOp :=
  [writeLen n, writeSrc src, writeDst dst, commandWrite (encode i)]

/-- `I size`: the writes of a cache command line (30_encoding.md R99). -/
def expandCache (i : Instr) (size : Word) : List HostOp :=
  [writeLen size, commandWrite (encode i)]

/-- `ENSBR o`, only when the warmed length needs a permutation (30_encoding.md R100). -/
def expandOrder (needed : Bool) (o : Nat) : List HostOp :=
  if needed then expandCache .ensbr (BitVec.ofNat 32 o) else []

/-- The host operations of a line (30_encoding.md R99, R100). -/
def expand : AsmLine → List HostOp
  | .wr num v => [.writeReg num v]
  | .rd num => [.readReg num]
  | .st a v => [.writeCell a v]
  | .ld a => [.readCell a]
  | .inPlace i n dst => expandInPlace i n dst
  | .outOfPlace i n src dst => expandOutOfPlace i n src dst
  | .cache i size => expandCache i size
  | .dft n dst => expandInPlace .cdftF n dst
  | .idft n dst => expandInPlace .cdftI n dst
  | .r2c n src dst => expandOutOfPlace .rdftoF n src dst
  | .c2r n src dst => expandOutOfPlace .rdftoI n src dst
  | .warmC n =>
    expandCache .enstw (BitVec.ofNat 32 (n.toNat / 4))
      ++ expandOrder (4 < n.toNat) (log2 n.toNat)
  | .warmR n =>
    expandCache .enstw (BitVec.ofNat 32 (n.toNat / 8))
      ++ expandCache .ensct (BitVec.ofNat 32 (n.toNat / 4))
      ++ expandOrder (8 < n.toNat) (log2 n.toNat - 1)
  | .warmD n =>
    expandCache .enstw (BitVec.ofNat 32 (n.toNat / 8))
      ++ expandCache .ensct n
      ++ expandOrder (8 < n.toNat) (log2 n.toNat - 1)

/-- A host program: its lines one after the other, put before what is pending. -/
def State.withProgram (s : State) (lines : List AsmLine) : State :=
  { s with host := lines.flatMap expand ++ s.host }

/-- The host operations run one after the other on a state; a stop ends the run. -/
def runOps : List HostOp → State → Host.Outcome State Fault Refusal
  | [], s => .next s
  | op :: rest, s =>
    match hostStep op s with
    | .next t => runOps rest t
    | .fault r => .fault r
    | .refused r => .refused r

end Sys2Proof.Machine
end

