-- ==== Sys2Proof/Safety.lean ====
section
/-! DEFINITION. The terms the claims use: what a command asks for, the invariants of the machine, what the host must
see to before a command, and what a command leaves alone. -/

namespace Sys2Proof

/-! ### What a command asks for -/

/-- The minimum length of a transform command (45_command_api.md R233); the cache commands have none. -/
def Instr.minLen : Instr → Nat
  | .cdftF => 2
  | .cdftI => 2
  | .cdftoF => 2
  | .cdftoI => 2
  | .rdftF => 4
  | .rdftI => 4
  | .rdftoF => 4
  | .rdftoI => 4
  | .dctF => 4
  | .dctI => 4
  | .dstF => 4
  | .dstI => 4
  | .enstw => 0
  | .ensct => 0
  | .ensbr => 0

/-- The cells of each buffer of a command of length `n`: 2·N for the complex commands, N for the others, none for the
cache commands (20_memory.md R77). -/
def Instr.cells (i : Instr) (n : Nat) : Nat :=
  match i with
  | .cdftF => 2 * n
  | .cdftI => 2 * n
  | .cdftoF => 2 * n
  | .cdftoI => 2 * n
  | .rdftF => n
  | .rdftI => n
  | .rdftoF => n
  | .rdftoI => n
  | .dctF => n
  | .dctI => n
  | .dstF => n
  | .dstI => n
  | .enstw => 0
  | .ensct => 0
  | .ensbr => 0

/-- The twiddle entries a command asks for (40_table_cache.md R130, R133); 0 where it asks for none. -/
def Instr.twRequest (i : Instr) (n : Nat) : Nat :=
  match i with
  | .cdftF => n / 4
  | .cdftI => n / 4
  | .cdftoF => n / 4
  | .cdftoI => n / 4
  | .rdftF => n / 8
  | .rdftI => n / 8
  | .rdftoF => n / 8
  | .rdftoI => n / 8
  | .dctF => n / 8
  | .dctI => n / 8
  | .dstF => n / 8
  | .dstI => n / 8
  | .enstw => n
  | .ensct => 0
  | .ensbr => 0

/-- The cosine entries a command asks for (40_table_cache.md R131, R133); 0 where it asks for none. -/
def Instr.ctRequest (i : Instr) (n : Nat) : Nat :=
  match i with
  | .cdftF => 0
  | .cdftI => 0
  | .cdftoF => 0
  | .cdftoI => 0
  | .rdftF => n / 4
  | .rdftI => n / 4
  | .rdftoF => n / 4
  | .rdftoI => n / 4
  | .dctF => n
  | .dctI => n
  | .dstF => n
  | .dstI => n
  | .enstw => 0
  | .ensct => n
  | .ensbr => 0

/-- The order whose bit-reversal table a command asks for (40_table_cache.md R133, 41_bitrev_permuter.md R149). -/
def Instr.brRequest (i : Instr) (n : Nat) : Option Nat :=
  match i with
  | .cdftF => if 4 < n then some (Machine.log2 n) else none
  | .cdftI => if 4 < n then some (Machine.log2 n) else none
  | .cdftoF => if 4 < n then some (Machine.log2 n) else none
  | .cdftoI => if 4 < n then some (Machine.log2 n) else none
  | .rdftF => if 8 < n then some (Machine.log2 n - 1) else none
  | .rdftI => if 8 < n then some (Machine.log2 n - 1) else none
  | .rdftoF => if 8 < n then some (Machine.log2 n - 1) else none
  | .rdftoI => if 8 < n then some (Machine.log2 n - 1) else none
  | .dctF => if 8 < n then some (Machine.log2 n - 1) else none
  | .dctI => if 8 < n then some (Machine.log2 n - 1) else none
  | .dstF => if 8 < n then some (Machine.log2 n - 1) else none
  | .dstI => if 8 < n then some (Machine.log2 n - 1) else none
  | .enstw => none
  | .ensct => none
  | .ensbr => some n

namespace Machine

/-! ### Invariants -/

/-- Every valid twiddle entry holds its value, and `NW` counts the valid ones (10_state.md R27, R28, R36). -/
def State.twValid (s : State) : Prop :=
  s.tw.length = s.nw.toNat ∧ ∀ k < s.nw.toNat, s.tw[k]? = some (twRom s.inst k)

/-- Every valid cosine entry holds its value, and `NC` counts the valid ones (10_state.md R29, R30, R36). -/
def State.ctValid (s : State) : Prop :=
  s.ct.length = s.nc.toNat ∧ ∀ i < s.nc.toNat, s.ct[i]? = some (ctRom s.inst i)

/-- Every cached bit-reversal table is the one its order determines, one an order, for orders 1 .. `LOG2_NMAX`
(10_state.md R31, R36). -/
def State.brTablesValid (s : State) : Prop :=
  (∀ e ∈ s.br, e = buildBr e.order ∧ 1 ≤ e.order ∧ e.order ≤ log2Nmax s.inst)
    ∧ s.br.Pairwise fun x y => x.order < y.order

/-- The table invariant of 10_state.md R36. -/
def State.tablesValid (s : State) : Prop := s.twValid ∧ s.ctValid ∧ s.brTablesValid

/-- The working sizes stay within capacity (10_state.md R28, R30). -/
def State.withinCapacity (s : State) : Prop :=
  s.nw.toNat ≤ twCap s.inst ∧ s.nc.toNat ≤ ctCap s.inst

/-- `HALT` = 1 implies `DONE` = 0, and `CAUSE` is 0 exactly while `HALT` = 0 (10_state.md R26, 60_exceptions.md R285). -/
def Status.legal (s : Status) : Prop :=
  (s.halt = true → s.done = false) ∧ (s.cause = .none ↔ s.halt = false)

/-- Sample memory is in its canonical form and lists only bytes of cells that exist (20_memory.md R61, R65). -/
def State.memoryValid (s : State) : Prop :=
  Memory.wf s.inst.fill s.mem ∧ ∀ c ∈ s.mem, cellPresent s.inst (c.1 / cellBytes s.inst.fmt) = true

/-- What holds whenever the host can observe the machine. -/
structure State.Inv (s : State) : Prop where
  tables : s.tablesValid
  capacity : s.withinCapacity
  status : s.status.legal
  /-- The host only ever finds `SEQ` = `IDLE` (10_state.md R33). -/
  idle : s.seq = .idle
  memory : s.memoryValid

/-! ### What the host must see to -/

/-- A transform length the engine accepts: a power of two, not below the minimum, at most `NMAX` (45_command_api.md
R233, 70_reset_and_hazards.md R327). -/
def lengthAdmitted (p : Params) (min n : Nat) : Prop :=
  (∃ k, n = 2 ^ k) ∧ min ≤ n ∧ n ≤ nmax p

/-- The tables already serve what a command of length `n` asks for (40_table_cache.md R134). -/
def State.served (s : State) (i : Instr) (n : Nat) : Prop :=
  i.twRequest n ≤ s.nw.toNat ∧ i.ctRequest n ≤ s.nc.toNat ∧ ∀ o ∈ i.brRequest n, (s.brLookup o).isSome = true

/-- The coefficients the tables would hold if they were complete: `TWROM` and `CTROM` (40_table_cache.md R124, R125). -/
def romCoeffs (p : Params) : Coeffs Sample where
  tw k := (.bits (twRom p k).1, .bits (twRom p k).2)
  ct i := .bits (ctRom p i)

/-! ### The generator against the exact cosine (40_table_cache.md R122, R123) -/

/-- The real number a cell without a sign encodes (46_numerics.md R260). -/
noncomputable def cellReal (fmt : Format) (mag : Nat) : ℝ := (gridOf fmt mag : ℝ) / 2 ^ gridScale fmt

/-- One unit in the last place of a real number of the format's normal range (46_numerics.md R260). -/
noncomputable def ulp (fmt : Format) (y : ℝ) : ℝ := (2 : ℝ) ^ (Int.log 2 y - ((precision fmt : ℤ) - 1))

/-- `b` is `round_P(y)`, for a real `y` from 0 to 1: nearest, ties to even (40_table_cache.md R122). -/
def isRounded (fmt : Format) (y : ℝ) (b : CellBits) : Prop :=
  b.toNat < infMagnitude fmt ∧ ∀ c < infMagnitude fmt,
    |cellReal fmt b.toNat - y| ≤ |cellReal fmt c - y|
      ∧ (|cellReal fmt b.toNat - y| = |cellReal fmt c - y| → c = b.toNat ∨ b.toNat % 2 = 0)

/-- `b` is finite, lies in [0, 1] and is within one unit in the last place of `y` (40_table_cache.md R123 P3). -/
def isWithinUlp (fmt : Format) (y : ℝ) (b : CellBits) : Prop :=
  b.toNat ≤ (oneBits fmt).toNat ∧ |cellReal fmt b.toNat - y| ≤ ulp fmt y

/-- `b` is finite, lies in [0, 1], and is within one unit in the last place of `y`, with 2^-200 to spare at every edge. -/
def isClearlyWithinUlp (fmt : Format) (y : ℝ) (b : CellBits) : Prop :=
  b.toNat ≤ (oneBits fmt).toNat ∧ ∀ z w : ℝ, |z - y| ≤ 1 / 2 ^ 200 → |w - y| ≤ 1 / 2 ^ 200 →
    |cellReal fmt b.toNat - z| ≤ ulp fmt w

/-- The angle (π/2)·`num`/2^`d`. -/
noncomputable def romAngle (num d : Nat) : ℝ := Real.pi / 2 * (num / 2 ^ d)

/-- The instance's generator is correctly rounded at every argument with up to `bits` fraction bits; the spec's choice is
the generator that is so with `bits` = 30 (40_table_cache.md R122). -/
def romRounded (p : Params) (bits : Nat) : Prop :=
  ∀ num d : Nat, num < 2 ^ d → d ≤ bits →
    isRounded p.fmt (Real.cos (romAngle num d)) (romCos p num d)
      ∧ isRounded p.fmt (Real.sin (romAngle num d)) (romSin p num d)
      ∧ isRounded p.fmt (Real.cos (romAngle num d) / 2) (romHalfCos p num d)

/-- The instance's generator has the property P3 of 40_table_cache.md R123. -/
def romWithinUlp (p : Params) : Prop :=
  ∀ num d : Nat, num < 2 ^ d → d ≤ 30 →
    isWithinUlp p.fmt (Real.cos (romAngle num d)) (romCos p num d)
      ∧ isWithinUlp p.fmt (Real.sin (romAngle num d)) (romSin p num d)
      ∧ isWithinUlp p.fmt (Real.cos (romAngle num d) / 2) (romHalfCos p num d)

/-! ### What a command leaves alone -/

/-- The registers and the host's side that no command changes: `CMD`, `LEN`, `SRC`, `DST`, the instance, what is
pending and what was read (45_command_api.md R230). -/
def sameArguments (s t : State) : Prop :=
  t.inst = s.inst ∧ t.cmd = s.cmd ∧ t.len = s.len ∧ t.src = s.src ∧ t.dst = s.dst
    ∧ t.host = s.host ∧ t.hostRead = s.hostRead

/-- The table state: `NW`, `NC`, `TW`, `CT`, `BR` (10_state.md R27 to R31). -/
def sameTables (s t : State) : Prop :=
  t.nw = s.nw ∧ t.nc = s.nc ∧ t.tw = s.tw ∧ t.ct = s.ct ∧ t.br = s.br

/-- Every byte outside the cells `base .. base+len-1` reads as before (20_memory.md R77). -/
def memoryFrame (s t : State) (base len : Nat) : Prop :=
  ∀ a, (a < cellBytes s.inst.fmt * base ∨ cellBytes s.inst.fmt * (base + len) ≤ a) →
    t.mem.read s.inst.fill a = s.mem.read s.inst.fill a

end Machine

end Sys2Proof
end

