-- ==== Sys2Proof/WellFormed.lean ====
section
/-! DEFINITION. Which terms of the syntax stand for something the spec has (30_encoding.md R95, R99, R100; 00_scope.md R10). -/

namespace Sys2Proof

/-- Every constructor is one of the fifteen legal commands (30_encoding.md R95): there is nothing to check. -/
def Instr.wf (_ : Instr) : Bool := true

/-- A cell value is a format-`P` value: in binary32 it has 32 bits (20_memory.md R61). -/
def cellFits (fmt : Format) (v : CellBits) : Bool :=
  match fmt with
  | .binary32 => v.toNat < 2 ^ 32
  | .binary64 => true

/-- `value` of `ST` is a format-`P` value (30_encoding.md R99). -/
def HostOp.wf (fmt : Format) : HostOp → Bool
  | .writeReg _ _ => true
  | .readReg _ => true
  | .writeCell _ v => cellFits fmt v
  | .readCell _ => true
  | .reset => true

/-- The own values of a generator stand by rising argument 0 < f < 1, so that one argument has one value, and each has the
property P3 of 40_table_cache.md R123, so that `ROMCOS` takes it. -/
def romWf (p : Params) : Bool :=
  decide (p.rom.Pairwise fun x y => x.num < y.num)
    && p.rom.all fun e => decide (0 < e.num ∧ e.num < 2 ^ 30)
      && Machine.romAdmits p.fmt e.num 30 e.value

/-- `MEMMAP` is a subset of the cell addresses 0 .. 2^32-1, and `ROM` lists its values as it should (00_scope.md R10). -/
def Params.wf (p : Params) : Bool :=
  (p.memMap.all fun r => r.base + r.count ≤ 2 ^ 32) && romWf p

/-- A command line writes the registers its command reads (30_encoding.md R99), and a warming line names a length the
warmed transform admits (R100). -/
def AsmLine.wf (fmt : Format) : AsmLine → Bool
  | .wr _ _ => true
  | .rd _ => true
  | .st _ v => cellFits fmt v
  | .ld _ => true
  | .inPlace i _ _ => i.shape == .inPlace
  | .outOfPlace i _ _ _ => i.shape == .outOfPlace
  | .cache i _ => i.shape == .lengthOnly
  | .dft _ _ => true
  | .idft _ _ => true
  | .r2c _ _ _ => true
  | .c2r _ _ _ => true
  | .warmC n => Machine.isPow2 n.toNat && 2 ≤ n.toNat
  | .warmR n => Machine.isPow2 n.toNat && 4 ≤ n.toNat
  | .warmD n => Machine.isPow2 n.toNat && 4 ≤ n.toNat

end Sys2Proof
end

