-- ==== Sys2Proof/Certificates/Slice0/Obligations.lean ====
section
/-! DEFINITION. The statements for the provers, each with the rule of spec/ it formalises. -/

namespace Sys2Proof.Claims

open Sys2Proof.Machine

/-! ### Terms of the statements -/

/-- The table of 30_encoding.md R95, word by word. -/
def legalWords : List (Word × Instr) :=
  [(0x00000001#32, .cdftF), (0x00000011#32, .cdftI), (0x00000002#32, .cdftoF), (0x00000012#32, .cdftoI),
   (0x00000003#32, .rdftF), (0x00000013#32, .rdftI), (0x00000004#32, .rdftoF), (0x00000014#32, .rdftoI),
   (0x00000005#32, .dctF), (0x00000015#32, .dctI), (0x00000006#32, .dstF), (0x00000016#32, .dstI),
   (0x00000008#32, .enstw), (0x00000009#32, .ensct), (0x0000000A#32, .ensbr)]

/-- The illegal words of 30_encoding.md R96, by their fields (bits 3:0, 4 and 31:5). -/
def illegalByFields (w : Word) : Prop :=
  w.extractLsb' 0 4 ∈ [0x0#4, 0x7#4, 0xB#4, 0xC#4, 0xD#4, 0xE#4, 0xF#4]
    ∨ (w.extractLsb' 0 4 ∈ [0x8#4, 0x9#4, 0xA#4] ∧ w.extractLsb' 4 1 = 1#1)
    ∨ w.extractLsb' 5 27 ≠ 0#27

/-- The complex commands that transform one buffer, and those that read a second one. -/
def complexCommands : List Instr := [.cdftF, .cdftI, .cdftoF, .cdftoI]

/-- The real commands (43_real_adapter.md). -/
def realCommands : List Instr := [.rdftF, .rdftI, .rdftoF, .rdftoI]

/-- The cosine and sine commands (44_dct_dst_adapter.md). -/
def cosineCommands : List Instr := [.dctF, .dctI, .dstF, .dstI]

/-- The twelve transform commands (60_exceptions.md R281). -/
def transformCommands : List Instr := complexCommands ++ realCommands ++ cosineCommands

/-- The four commands that read `SRC` (10_state.md R24). -/
def outOfPlaceCommands : List Instr := [.cdftoF, .cdftoI, .rdftoF, .rdftoI]

/-- The state after `raise Abort(c)`: `HALT` set, the cause recorded, `SEQ` idle, nothing else changed
(60_exceptions.md R284). -/
def abortedWith (s : State) (c : Cause) : State :=
  { s with status := { s.status with halt := true, cause := c }, seq := .idle }

/-- The registers 0 to 9 in the order of 10_state.md R21. -/
def registers (s : State) : List Word :=
  [s.cmd, s.len, s.src, s.dst, s.status.word, s.nw, s.nc, s.brv, s.brp4, s.idWord]

/-- What a command that completes leaves in `STATUS` and `SEQ` (45_command_api.md R237). -/
def completed (s t : State) : Prop := t.status = { s.status with done := true } ∧ t.seq = .idle

/-- What the table requests of command `i` leave (40_table_cache.md R126, R127, R133; 41_bitrev_permuter.md R140). -/
def tablesGrown (i : Instr) (s t : State) : Prop :=
  t.nw.toNat = max s.nw.toNat (i.twRequest s.operandN)
    ∧ t.nc.toNat = max s.nc.toNat (i.ctRequest s.operandN)
    ∧ (∀ o, t.brLookup o = if i.brRequest s.operandN = some o then some (buildBr o) else s.brLookup o)
    ∧ t.tablesValid

/-- Command `i` completes in place wherever the host has kept its obligations: the buffer at `DST` then holds the
result of `stages` with the coefficients of the ROM, and nothing else of the machine has changed but `STATUS`, the
tables and the count of free NaN patterns. -/
def completesInPlace (i : Instr) (stages : Params → Nat → List Sample → List Sample) : Prop :=
  ∀ s : State, s.tablesValid → Memory.wf s.inst.fill s.mem →
    lengthAdmitted s.inst i.minLen s.operandN →
    bufferPresent s.inst s.operandD (i.cells s.operandN) = true →
    ∃ t, exec i s = .next t ∧ completed s t ∧ sameArguments s t ∧ tablesGrown i s t
      ∧ t.freeCount = s.freeCount + i.cells s.operandN
      ∧ loadCells s.inst t.mem s.operandD (i.cells s.operandN)
          = settleSamples s.inst.fmt s.freeCount
              (stages s.inst s.operandN (loadSamples s.inst s.mem s.operandD (i.cells s.operandN)))
      ∧ memoryFrame s t s.operandD (i.cells s.operandN)

/-- The same for a command that reads the buffer at `SRC`, which keeps its values (20_memory.md R77). -/
def completesOutOfPlace (i : Instr) (stages : Params → Nat → List Sample → List Sample → List Sample) : Prop :=
  ∀ s : State, s.tablesValid → Memory.wf s.inst.fill s.mem →
    lengthAdmitted s.inst i.minLen s.operandN →
    bufferPresent s.inst s.operandS (i.cells s.operandN) = true →
    bufferPresent s.inst s.operandD (i.cells s.operandN) = true →
    buffersDisjoint s.operandS s.operandD (i.cells s.operandN) = true →
    ∃ t, exec i s = .next t ∧ completed s t ∧ sameArguments s t ∧ tablesGrown i s t
      ∧ t.freeCount = s.freeCount + i.cells s.operandN
      ∧ loadCells s.inst t.mem s.operandD (i.cells s.operandN)
          = settleSamples s.inst.fmt s.freeCount
              (stages s.inst s.operandN (loadSamples s.inst s.mem s.operandS (i.cells s.operandN))
                (loadSamples s.inst s.mem s.operandD (i.cells s.operandN)))
      ∧ memoryFrame s t s.operandD (i.cells s.operandN)
      ∧ loadCells s.inst t.mem s.operandS (i.cells s.operandN)
          = loadCells s.inst s.mem s.operandS (i.cells s.operandN)

/-- `s'` is `s` with other tables. -/
def differInTables (s s' : State) : Prop :=
  s' = { s with nw := s'.nw, nc := s'.nc, tw := s'.tw, ct := s'.ct, br := s'.br }

/-- Once the machine is in state `t`, no command of the list run with length `n` changes a table. -/
def warmedFor (commands : List Instr) (n : Word) (t : State) : Prop :=
  ∀ i ∈ commands, ∀ v u : State, sameTables t v → v.inst = t.inst → v.len = n → exec i v = .next u → sameTables v u

/-! ### Rounding -/

/-- The distance, in units of 2^-`sh` of the grid, from m / 2^`sh` to the magnitude encoded by `c`. Read this way, the
encoding of infinity stands for the first value past the largest finite one. -/
def roundingError (fmt : Format) (m sh c : Nat) : Nat :=
  ((gridOf fmt c * 2 ^ sh : Nat) - (m : Int)).natAbs

/-- `mag` encodes m / 2^`sh` rounded to nearest, ties to even (46_numerics.md R261, R263, R266, R268). -/
def nearestEven (fmt : Format) (m sh mag : Nat) : Prop :=
  mag ≤ infMagnitude fmt ∧ ∀ c ≤ infMagnitude fmt,
    roundingError fmt m sh mag ≤ roundingError fmt m sh c
      ∧ (roundingError fmt m sh mag = roundingError fmt m sh c → c = mag ∨ mag % 2 = 0)

/-- A quiet NaN of the format: all-ones exponent, top fraction bit 1, no bit above the format's width
(46_numerics.md R260, R267). -/
def isQuietNaN (fmt : Format) (b : CellBits) : Prop :=
  numberOf fmt b = .nan ∧ b.getLsbD (precision fmt - 2) = true ∧ b.toNat < 2 ^ cellWidth fmt

/-- The number with a sign and an encoded magnitude, not NaN. -/
def signed (fmt : Format) (neg : Bool) (mag : Nat) : Number :=
  if mag = infMagnitude fmt then .inf neg else .finite neg (gridOf fmt mag)

/-! ### The exact-arithmetic reading (00_scope.md R17) -/

/-- The primitives of 00_scope.md R15 as exact real arithmetic. -/
noncomputable def exactArith : Arith ℝ where
  add x y := x + y
  sub x y := x - y
  mul x y := x * y
  neg x := -x
  zero := 0
  half := 1 / 2
  two := 2

/-- `brfrac(k)` (00_scope.md R13). -/
noncomputable def brfrac (k : Nat) : ℝ := (brNum k : ℝ) / 2 ^ bitCount k

/-- The exact coefficients (40_table_cache.md R122, R124, R125). -/
noncomputable def exactCoeffs : Coeffs ℝ where
  tw k := (Real.cos (Real.pi / 2 * brfrac k), Real.sin (Real.pi / 2 * brfrac k))
  ct i := if i = 0 then Real.cos (Real.pi / 4) else Real.cos (Real.pi / 2 * brfrac i) / 2

/-- A complex buffer of `n` points: re0, im0, re1, im1, ... (20_memory.md R63). -/
noncomputable def interleaved (n : Nat) (x : Nat → ℂ) : List ℝ :=
  (List.range (2 * n)).map fun j => if j % 2 = 0 then (x (j / 2)).re else (x (j / 2)).im

/-- A real buffer of `N` values (20_memory.md R64). -/
def cellsOf (N : Nat) (a : Nat → ℝ) : List ℝ := (List.range N).map a

/-- The real-packed spectrum: cell 0 = R[0], cell 1 = R[N/2], cells 2k and 2k+1 = R[k] and I[k] (20_memory.md R64,
43_real_adapter.md R190). -/
def packed (N : Nat) (R I : Nat → ℝ) : List ℝ :=
  cellsOf N fun j => if j = 0 then R 0 else if j = 1 then R (N / 2) else if j % 2 = 0 then R (j / 2) else I (j / 2)

/-- R[k] of a real sequence (43_real_adapter.md R190). -/
noncomputable def cosineSum (N : Nat) (a : Nat → ℝ) (k : Nat) : ℝ :=
  ∑ j ∈ Finset.range N, a j * Real.cos (2 * Real.pi * j * k / N)

/-- I[k] of a real sequence (43_real_adapter.md R190). -/
noncomputable def sineSum (N : Nat) (a : Nat → ℝ) (k : Nat) : ℝ :=
  ∑ j ∈ Finset.range N, a j * Real.sin (2 * Real.pi * j * k / N)

/-- The sum of 43_real_adapter.md R201. -/
noncomputable def synthesis (N : Nat) (R I : Nat → ℝ) (j : Nat) : ℝ :=
  R 0 / 2 + (-1) ^ j * R (N / 2) / 2
    + ∑ k ∈ Finset.Ico 1 (N / 2),
        (R k * Real.cos (2 * Real.pi * j * k / N) + I k * Real.sin (2 * Real.pi * j * k / N))

end Sys2Proof.Claims

open Sys2Proof Sys2Proof.Machine Sys2Proof.Claims

/-! ### Encoding (30_encoding.md) -/

/-- Decoding the encoded command gives it back, for every command. -/
def Obligations.DecodeOfEncodeIsTheCommand : Prop :=
  ∀ i : Instr, i.wf = true → decode (encode i) = .ok i

/-- 30_encoding.md R95: a word is legal exactly when it is one of the fifteen, and means that command. -/
def Obligations.LegalWordsAreExactlyTheFifteen : Prop :=
  ∀ (w : Word) (i : Instr), decode w = .ok i ↔ (w, i) ∈ legalWords

/-- A few words, written out from the table of R95. -/
def Obligations.WrittenOutWordsDecode : Prop :=
  decodeTableWord 32 0x00000001 = some .cdftF ∧ decodeTableWord 32 0x00000012 = some .cdftoI
    ∧ decodeTableWord 32 0x00000013 = some .rdftI ∧ decodeTableWord 32 0x00000005 = some .dctF
    ∧ decodeTableWord 32 0x00000016 = some .dstI ∧ decodeTableWord 32 0x0000000A = some .ensbr
    ∧ decodeTableWord 32 0x00000027 = none

/-- 30_encoding.md R96: which words are illegal, and that writing one to `CMD` aborts with `ILLCMD`, whatever else is in
the machine, and changes nothing else. -/
def Obligations.IllegalWordAborts : Prop :=
  ∀ (s : State) (w : Word) (rest : List HostOp),
    (illegalByFields w ↔ ∀ i, (w, i) ∉ legalWords)
      ∧ (s.seq = .idle → s.status.halt = false → s.host = .writeReg 0 w :: rest → illegalByFields w →
        step s = .next { s with host := rest, cmd := w, status := ⟨true, false, .illCmd⟩ })

/-! ### The command port (10_state.md) -/

/-- A step at which the host writes a legal word to `CMD` is that command run from the start of the template of
45_command_api.md R230: `CMD` stored, `DONE` cleared, `SEQ` at the first line. So is the step after `withFetchWord`. -/
def Obligations.StepRunsTheDecodedCommand : Prop :=
  ∀ (s : State) (w : Word) (i : Instr), s.seq = .idle → s.status.halt = false → decode w = .ok i →
    (∀ rest, s.host = .writeReg 0 w :: rest →
      step s = exec i { s with
        host := rest, cmd := w, status := { s.status with done := false }, seq := .running w 0 })
    ∧ step (s.withFetchWord 32 w.toNat) = exec i { s with
        cmd := w, status := { s.status with done := false }, seq := .running w 0 }

/-- Host writes of the registers other than `CMD`, while not halted: 1 to 3 are stored as they are, every other number
is ignored (10_state.md R21, R23 to R25). -/
def Obligations.RegisterWritesStoreOrAreIgnored : Prop :=
  ∀ (s : State) (num : Nat) (v : Word) (rest : List HostOp), s.seq = .idle → s.status.halt = false →
    s.host = .writeReg num v :: rest →
    (num = 1 → step s = .next { s with host := rest, len := v })
      ∧ (num = 2 → step s = .next { s with host := rest, src := v })
      ∧ (num = 3 → step s = .next { s with host := rest, dst := v })
      ∧ (4 ≤ num → step s = .next { s with host := rest })

/-- A host read returns the register of that number, 0 above 9, and changes nothing (10_state.md R21). What the host
read stands in the model's own field `hostRead` (log entry 8). -/
def Obligations.RegisterReadsReturnTheRegister : Prop :=
  ∀ (s : State) (num : Nat) (rest : List HostOp), s.seq = .idle → s.host = .readReg num :: rest →
    step s = .next { s with host := rest, hostRead := .register ((registers s).getD num 0#32) }

/-- 10_state.md R39: what each host operation does while halted; only reset leaves the halted state. -/
def Obligations.HaltedEngineIgnoresWrites : Prop :=
  ∀ (s : State) (rest : List HostOp), s.seq = .idle → s.status.halt = true →
    (∀ num v, s.host = .writeReg num v :: rest → step s = .next { s with host := rest })
    ∧ (∀ num, s.host = .readReg num :: rest →
        step s = .next { s with host := rest, hostRead := .register ((registers s).getD num 0#32) })
    ∧ (∀ t, step s = .next t → s.host.head? ≠ some .reset →
        t.status = s.status ∧ t.cmd = s.cmd ∧ t.len = s.len ∧ t.src = s.src ∧ t.dst = s.dst ∧ t.seq = .idle
          ∧ sameTables s t ∧ ((∀ a v, s.host.head? ≠ some (.writeCell a v)) → t.mem = s.mem))
    ∧ (s.host = .reset :: rest → ∃ t, step s = .next t ∧ t.status.halt = false)

/-- The fields of `STATUS` (10_state.md R26) and the cause codes (60_exceptions.md R285). -/
def Obligations.StatusWordHasItsFields : Prop :=
  ∀ s : Status, s.word.getLsbD 0 = s.halt ∧ s.word.getLsbD 1 = s.done ∧ s.word.extractLsb' 2 2 = 0#2
    ∧ s.word.extractLsb' 8 24 = 0#24
    ∧ (s.cause = .none → s.word.extractLsb' 4 4 = 0#4) ∧ (s.cause = .notPow2 → s.word.extractLsb' 4 4 = 1#4)
    ∧ (s.cause = .tooSmall → s.word.extractLsb' 4 4 = 2#4) ∧ (s.cause = .capacity → s.word.extractLsb' 4 4 = 3#4)
    ∧ (s.cause = .illCmd → s.word.extractLsb' 4 4 = 4#4)

/-- The bits of `BRV` and `BRP4`, and that only reset ever clears one (10_state.md R32). -/
def Obligations.BitReversalRegistersShowTheTables : Prop :=
  (∀ (s : State) (o : Nat),
    (s.brv.getLsbD o = true ↔ 1 ≤ o ∧ o ≤ log2Nmax s.inst ∧ ∃ e, s.brLookup o = some e)
      ∧ (s.brp4.getLsbD o = true ↔ 1 ≤ o ∧ o ≤ log2Nmax s.inst ∧ ∃ e, s.brLookup o = some e ∧ e.p4 = true))
  ∧ ∀ (s t : State) (o : Nat), step s = .next t → s.host.head? ≠ some .reset →
      (s.brv.getLsbD o = true → t.brv.getLsbD o = true) ∧ (s.brp4.getLsbD o = true → t.brp4.getLsbD o = true)

/-- 10_state.md R35: the fields of `ID`, and that no step changes it. -/
def Obligations.IdRegisterIsConstant : Prop :=
  (∀ s : State, (s.idWord.getLsbD 0 = true ↔ s.inst.fmt = .binary64) ∧ s.idWord.extractLsb' 1 7 = 0#7
    ∧ (s.idWord.extractLsb' 8 8).toNat = log2Nmax s.inst ∧ s.idWord.extractLsb' 16 16 = 0#16)
  ∧ ∀ s t : State, step s = .next t → t.idWord = s.idWord

/-- A cell the host stores reads back bit for bit and no other cell changes, whatever the engine's state
(10_state.md R40, 20_memory.md R62, R67). -/
def Obligations.StoredCellReadsBack : Prop :=
  ∀ (s : State) (a : Word) (v : CellBits) (rest : List HostOp), s.seq = .idle → Memory.wf s.inst.fill s.mem →
    cellFits s.inst.fmt v = true → cellPresent s.inst a.toNat = true →
    s.host = .writeCell a v :: .readCell a :: rest →
    ∃ t u, step s = .next t ∧ step t = .next u
      ∧ u = { s with host := rest, mem := t.mem, hostRead := .cell v }
      ∧ ∀ b, b ≠ a.toNat → readCell s.inst t.mem b = readCell s.inst s.mem b

/-- 20_memory.md R65: cell `a` is the `size` bytes from `size`·`a` on, least significant byte first. -/
def Obligations.CellBytesAreLittleEndian : Prop :=
  ∀ (p : Params) (m : Memory) (a i : Nat) (v : CellBits), Memory.wf p.fill m →
    (p.fmt = .binary32 → i < 4 → (writeCell p m a v).read p.fill (4 * a + i) = v.extractLsb' (8 * i) 8)
      ∧ (p.fmt = .binary64 → i < 8 → (writeCell p m a v).read p.fill (8 * a + i) = v.extractLsb' (8 * i) 8)

/-- The model's choice for a host access to a cell that does not exist (20_memory.md R62, R69; log entry 7). -/
def Obligations.AbsentCellAccessIsRefused : Prop :=
  ∀ (s : State) (a : Word) (v : CellBits) (rest : List HostOp), s.seq = .idle →
    cellPresent s.inst a.toNat = false → s.host = .writeCell a v :: rest ∨ s.host = .readCell a :: rest →
    step s = .refused .cellNotPresent

/-! ### Reset (10_state.md R38; 70_reset_and_hazards.md) and the invariant -/

/-- 10_state.md R38: what the reset event leaves, and the registers of the state the machine starts in. -/
def Obligations.ResetLeavesTheResetValues : Prop :=
  (∀ (s : State) (rest : List HostOp), s.seq = .idle → s.host = .reset :: rest →
    ∃ t, step s = .next t ∧ t.cmd = 0#32 ∧ t.len = 0#32 ∧ t.src = 0#32 ∧ t.dst = 0#32
      ∧ t.status = ⟨false, false, .none⟩ ∧ t.status.word = 0#32 ∧ t.nw = 0#32 ∧ t.tw = [] ∧ t.nc = 0#32 ∧ t.ct = []
      ∧ t.brv = 0#32 ∧ t.brp4 = 0#32 ∧ (∀ o, t.brLookup o = none) ∧ t.idWord = s.idWord ∧ t.seq = .idle
      ∧ t.mem = s.mem)
  ∧ (registers State.reset).take 9 = List.replicate 9 0#32 ∧ State.reset.seq = .idle
  ∧ State.reset.tw = [] ∧ State.reset.ct = [] ∧ ∀ o, State.reset.brLookup o = none

/-- The machine starts in a state with the invariant. -/
def Obligations.ResetStateHasTheInvariant : Prop := State.reset.Inv

/-- The invariant: valid tables (10_state.md R36) within capacity (R28, R30), a legal `STATUS` (R26), `SEQ` idle (R33),
memory in its canonical form and inside `MEMMAP`. Every step keeps it, from every state. -/
def Obligations.EveryStepKeepsTheInvariant : Prop :=
  ∀ s t : State, s.Inv → step s = .next t → t.Inv

/-! ### The checks and the abort (45_command_api.md, 60_exceptions.md) -/

/-- 45_command_api.md R233, 60_exceptions.md R281: the length checks of the twelve transforms, in their order, with the
minimum 2 or 4; and `TOOSMALL` of `ENSBR`. `CMD` and `LEN` stay as they are. -/
def Obligations.TransformLengthChecksAbort : Prop :=
  (∀ i ∈ transformCommands, ∀ s : State,
    ((¬ ∃ k, s.operandN = 2 ^ k) → exec i s = .next (abortedWith s .notPow2))
    ∧ ((∃ k, s.operandN = 2 ^ k) → s.operandN < (if i ∈ complexCommands then 2 else 4) →
        exec i s = .next (abortedWith s .tooSmall))
    ∧ ((∃ k, s.operandN = 2 ^ k) → (if i ∈ complexCommands then 2 else 4) ≤ s.operandN →
        nmax s.inst < s.operandN → exec i s = .next (abortedWith s .capacity)))
  ∧ ∀ s : State, s.operandN = 0 → exec .ensbr s = .next (abortedWith s .tooSmall)

/-- The capacity checks of the cache commands (40_table_cache.md R130, R131; 41_bitrev_permuter.md R149). -/
def Obligations.CacheSizeChecksAbort : Prop :=
  ∀ s : State, (twCap s.inst < s.operandN → exec .enstw s = .next (abortedWith s .capacity))
    ∧ (ctCap s.inst < s.operandN → exec .ensct s = .next (abortedWith s .capacity))
    ∧ (log2Nmax s.inst < s.operandN → exec .ensbr s = .next (abortedWith s .capacity))

/-- 60_exceptions.md R287: after a `CMD` write that aborts, only `CMD`, `DONE`, `HALT` and `CAUSE` have changed, and
the cause is one of the four; a `CMD` write that does not abort has completed. -/
def Obligations.AbortChangesNothingElse : Prop :=
  ∀ (s t : State) (w : Word) (rest : List HostOp), s.seq = .idle → s.status.halt = false →
    s.host = .writeReg 0 w :: rest → step s = .next t →
    (t.status.halt = true →
      t = { s with host := rest, cmd := w, status := ⟨true, false, t.status.cause⟩ } ∧ t.status.cause ≠ .none)
    ∧ (t.status.halt = false → t.status = { s.status with done := true })

/-! ### The transform commands complete (42_butterfly_engine.md, 43_real_adapter.md, 44_dct_dst_adapter.md) -/

/-- `CDFT.F`, `CDFT.I` complete (42_butterfly_engine.md R172, R173). NaN results are free (log entry 4). -/
def Obligations.ComplexInPlaceCommandsComplete : Prop :=
  completesInPlace .cdftF (fun p n => stagesCdftF (ieee p.fmt) (romCoeffs p) (buildBr (log2 n)) n)
    ∧ completesInPlace .cdftI (fun p n => stagesCdftI (ieee p.fmt) (romCoeffs p) (buildBr (log2 n)) n)

/-- `CDFTO.F`, `CDFTO.I` complete (42_butterfly_engine.md R174, R175). NaN results are free (log entry 4). -/
def Obligations.ComplexOutOfPlaceCommandsComplete : Prop :=
  completesOutOfPlace .cdftoF (fun p n => stagesCdftoF (ieee p.fmt) (romCoeffs p) n)
    ∧ completesOutOfPlace .cdftoI (fun p n => stagesCdftoI (ieee p.fmt) (romCoeffs p) n)

/-- `RDFT.F`, `RDFT.I` complete (43_real_adapter.md R196, R197). NaN results are free (log entry 4). -/
def Obligations.RealInPlaceCommandsComplete : Prop :=
  completesInPlace .rdftF (fun p n => stagesRdftF (ieee p.fmt) (romCoeffs p) (buildBr (log2 n - 1)) n)
    ∧ completesInPlace .rdftI (fun p n => stagesRdftI (ieee p.fmt) (romCoeffs p) (buildBr (log2 n - 1)) n)

/-- `RDFTO.F`, `RDFTO.I` complete (43_real_adapter.md R198, R199). NaN results are free (log entry 4). -/
def Obligations.RealOutOfPlaceCommandsComplete : Prop :=
  completesOutOfPlace .rdftoF (fun p n => stagesRdftoF (ieee p.fmt) (romCoeffs p) (buildBr (log2 n - 1)) n)
    ∧ completesOutOfPlace .rdftoI (fun p n => stagesRdftoI (ieee p.fmt) (romCoeffs p) (buildBr (log2 n - 1)) n)

/-- `DCT.F`, `DCT.I`, `DST.F`, `DST.I` complete (44_dct_dst_adapter.md R217 to R220). NaN results are free (log entry
4). -/
def Obligations.CosineAndSineCommandsComplete : Prop :=
  completesInPlace .dctF (fun p n => stagesDctF (ieee p.fmt) (romCoeffs p) (buildBr (log2 n - 1)) n)
    ∧ completesInPlace .dctI (fun p n => stagesDctI (ieee p.fmt) (romCoeffs p) (buildBr (log2 n - 1)) n)
    ∧ completesInPlace .dstF (fun p n => stagesDstF (ieee p.fmt) (romCoeffs p) (buildBr (log2 n - 1)) n)
    ∧ completesInPlace .dstI (fun p n => stagesDstI (ieee p.fmt) (romCoeffs p) (buildBr (log2 n - 1)) n)

/-- What every command that answers a next state leaves alone: `CMD`, `LEN`, `SRC`, `DST` (10_state.md R22 to R25), and
every byte outside its own cells at `DST` (20_memory.md R77), none at all for a cache command. -/
def Obligations.CommandsTouchOnlyTheirBuffer : Prop :=
  ∀ (i : Instr) (s t : State), exec i s = .next t →
    sameArguments s t ∧ t.seq = .idle ∧ memoryFrame s t s.operandD (i.cells s.operandN)
      ∧ (i ∉ transformCommands → t.mem = s.mem) ∧ (Memory.wf s.inst.fill s.mem → Memory.wf t.inst.fill t.mem)

/-! ### The Table Cache (40_table_cache.md) -/

/-- `ENSTW` completes: `NW` becomes the larger of the two sizes, the old entries stay, the new ones are `TWROM`
(40_table_cache.md R126, R130). -/
def Obligations.EnsureTwiddleCommandGrowsTheTable : Prop :=
  ∀ s : State, s.twValid → s.operandN ≤ twCap s.inst →
    ∃ t, exec .enstw s = .next t
      ∧ t = { s with nw := t.nw, tw := t.tw, status := { s.status with done := true }, seq := .idle }
      ∧ t.nw.toNat = max s.nw.toNat s.operandN ∧ t.tw.length = t.nw.toNat ∧ s.tw <+: t.tw
      ∧ ∀ k < t.nw.toNat, t.tw[k]? = some (twRom s.inst k)

/-- `ENSCT` completes: the same for `CT` and `CTROM` (40_table_cache.md R127, R131). -/
def Obligations.EnsureCosineCommandGrowsTheTable : Prop :=
  ∀ s : State, s.ctValid → s.operandN ≤ ctCap s.inst →
    ∃ t, exec .ensct s = .next t
      ∧ t = { s with nc := t.nc, ct := t.ct, status := { s.status with done := true }, seq := .idle }
      ∧ t.nc.toNat = max s.nc.toNat s.operandN ∧ t.ct.length = t.nc.toNat ∧ s.ct <+: t.ct
      ∧ ∀ i < t.nc.toNat, t.ct[i]? = some (ctRom s.inst i)

/-- `ENSBR` completes: the table of the order is cached with the content of 41_bitrev_permuter.md R141, and every other
order is as it was (41_bitrev_permuter.md R140, R149). -/
def Obligations.EnsureOrderCommandCachesTheTable : Prop :=
  ∀ s : State, s.brTablesValid → 1 ≤ s.operandN → s.operandN ≤ log2Nmax s.inst →
    ∃ t, exec .ensbr s = .next t
      ∧ t = { s with br := t.br, status := { s.status with done := true }, seq := .idle }
      ∧ ∀ o, t.brLookup o = if o = s.operandN
          then some ⟨o, decide (o % 2 = 0), 2 ^ ((o - 1) / 2),
            (List.range (2 ^ ((o - 1) / 2))).map fun j => rev ((o - 1) / 2) j * (2 ^ o / 2 ^ ((o - 1) / 2))⟩
          else s.brLookup o

/-- The tables only grow: valid entries stay as they are in every step but a reset (40_table_cache.md R120, R128;
10_state.md R31). -/
def Obligations.ValidTableEntriesNeverChange : Prop :=
  ∀ s t : State, s.tablesValid → step s = .next t → s.host.head? ≠ some .reset →
    s.nw.toNat ≤ t.nw.toNat ∧ s.nc.toNat ≤ t.nc.toNat ∧ s.tw <+: t.tw ∧ s.ct <+: t.ct
      ∧ ∀ o e, s.brLookup o = some e → t.brLookup o = some e

/-- A command whose requests are already served changes no table (40_table_cache.md R134). -/
def Obligations.ServedCommandsLeaveTheTables : Prop :=
  ∀ (i : Instr) (s t : State), s.served i s.operandN → exec i s = .next t → sameTables s t

/-- After a warming line for an admitted length, the matching transforms of that length change no table
(30_encoding.md R100, 70_reset_and_hazards.md R314). -/
def Obligations.WarmedTransformsChangeNoTable : Prop :=
  ∀ (s : State) (n : Word), s.status.halt = false →
    (lengthAdmitted s.inst 2 n.toNat →
      ∃ t, runOps (expand (.warmC n)) s = .next t ∧ t.status.halt = false ∧ warmedFor complexCommands n t)
    ∧ (lengthAdmitted s.inst 4 n.toNat →
      ∃ t, runOps (expand (.warmR n)) s = .next t ∧ t.status.halt = false ∧ warmedFor realCommands n t)
    ∧ (lengthAdmitted s.inst 4 n.toNat →
      ∃ t, runOps (expand (.warmD n)) s = .next t ∧ t.status.halt = false ∧ warmedFor cosineCommands n t)

/-- The fill level of the tables never changes a result: from two states that differ in their valid tables alone, a
command leaves states that differ in their tables alone (10_state.md R36, R42; 40_table_cache.md R128). -/
def Obligations.ResultsIgnoreTheFillLevel : Prop :=
  ∀ (i : Instr) (s s' t : State), s.tablesValid → s'.tablesValid → differInTables s s' → exec i s = .next t →
    ∃ t', exec i s' = .next t' ∧ differInTables t t'

/-- `TWROM` and `CTROM` at the entries the spec writes out, where the instance lists no value of its own, and the
properties P2 and P4 of the generator of every instance (40_table_cache.md R123 to R125). What an instance does not list
is the model's own computation (log entry 2). -/
def Obligations.RomHasItsNamedValues : Prop :=
  ∀ p : Params,
    (p.rom = [] → p.fmt = .binary64 →
      twRom p 0 = (0x3FF0000000000000#64, 0#64) ∧ twRom p 1 = (0x3FE6A09E667F3BCD#64, 0x3FE6A09E667F3BCD#64)
        ∧ ctRom p 0 = 0x3FE6A09E667F3BCD#64 ∧ ctRom p 1 = 0x3FD6A09E667F3BCD#64)
    ∧ (p.rom = [] → p.fmt = .binary32 →
      twRom p 0 = (0x3F800000#64, 0#64) ∧ twRom p 1 = (0x3F3504F3#64, 0x3F3504F3#64))
    ∧ ∀ num d : Nat, Sample.bits (romCos p 0 d) = fone p.fmt ∧ Sample.bits (romSin p 0 d) = fzero
      ∧ (0 < num → num < 2 ^ d → romCos p num d = romSin p (2 ^ d - num) d)

/-- The cosine lookup `HC(num, d)` finds half the cosine of (π/2)·num/2^d (40_table_cache.md R129). -/
def Obligations.CosineLookupFindsTheHalvedCosine : Prop :=
  ∀ (s : State) (num d : Nat), s.ctValid → 0 < num → num < 2 ^ d → 2 ^ d ≤ s.nc.toNat →
    1 ≤ rev d num ∧ rev d num < 2 ^ d ∧ halfCosine s.coeffs num d = .bits (romHalfCos s.inst num d)

/-- Bit reversal undoes itself, and `brfrac(rev(d, x))` = x / 2^d, however many leading zeros (00_scope.md R13). -/
def Obligations.BitReversalReadsTheFraction : Prop :=
  ∀ d x : Nat, x < 2 ^ d → rev d (rev d x) = x ∧ brfrac (rev d x) = (x : ℝ) / 2 ^ d

/-! ### The Bit-Reversal Permuter (41_bitrev_permuter.md) -/

/-- 41_bitrev_permuter.md R141: the closed form of the table that `permutation_for` builds. -/
def Obligations.BuiltTableHasTheClosedForm : Prop :=
  ∀ o, 1 ≤ o → (buildBr o).m = 2 ^ ((o - 1) / 2) ∧ (buildBr o).ip.length = (buildBr o).m
    ∧ (∀ j < (buildBr o).m, seed (buildBr o) j = rev (log2 (buildBr o).m) j * (2 ^ o / (buildBr o).m))
    ∧ ((buildBr o).p4 = true ↔ o % 2 = 0)
    ∧ (seedLoop o [0] 1 (2 ^ o)).2.2 = 2 ^ o / (buildBr o).m
    ∧ (o % 2 = 0 → 2 ^ o / (buildBr o).m = 4 * (buildBr o).m)
    ∧ (o % 2 = 1 → 2 ^ o / (buildBr o).m = 2 * (buildBr o).m)

/-- 41_bitrev_permuter.md R144: what the list of swap pairs is, for every order. -/
def Obligations.SwapPairsRealiseBitReversal : Prop :=
  ∀ o, 1 ≤ o →
    (∀ jk ∈ swapPairs (buildBr o), jk.2 = rev o jk.1 ∧ jk.1 ≠ jk.2 ∧ jk.1 < 2 ^ o)
    ∧ (∀ p < 2 ^ o, p ≠ rev o p →
        ((p, rev o p) ∈ swapPairs (buildBr o) ∨ (rev o p, p) ∈ swapPairs (buildBr o)))
    ∧ ((swapPairs (buildBr o)).flatMap fun jk => [jk.1, jk.2]).Nodup
    ∧ (swapPairs (buildBr o)).length = (2 ^ o - 2 ^ ((o + 1) / 2)) / 2

/-- The effect of `PERM`: the point at p is afterwards at rev(p), bit for bit, and nothing else moves; for n ≤ 4 nothing
moves at all (41_bitrev_permuter.md R145, R148, R151). -/
def Obligations.PermMovesEachPointToItsReversal : Prop :=
  ∀ (α : Type) (A : Arith α) (o : Nat) (b : List α), 1 ≤ o → 2 * 2 ^ o ≤ b.length →
    (∀ p < 2 ^ o, point A (perm A (buildBr o) (2 ^ o) b) (if 4 < 2 ^ o then rev o p else p) = point A b p)
      ∧ (perm A (buildBr o) (2 ^ o) b).length = b.length
      ∧ ∀ j, 2 * 2 ^ o ≤ j → cellAt A (perm A (buildBr o) (2 ^ o) b) j = cellAt A b j

/-- The effect of `PERMC`: the same, with every imaginary part negated exactly once (41_bitrev_permuter.md R146). -/
def Obligations.PermCNegatesEachImaginaryPartOnce : Prop :=
  ∀ (α : Type) (A : Arith α) (o : Nat) (b : List α), 1 ≤ o → 2 * 2 ^ o ≤ b.length →
    (∀ p < 2 ^ o, point A (permC A (buildBr o) (2 ^ o) b) (if 4 < 2 ^ o then rev o p else p)
        = (re A b p, A.neg (im A b p)))
      ∧ (permC A (buildBr o) (2 ^ o) b).length = b.length
      ∧ ∀ j, 2 * 2 ^ o ≤ j → cellAt A (permC A (buildBr o) (2 ^ o) b) j = cellAt A b j

/-- The permuting copies leave bit for bit what the permutation would, had the source first been copied
(41_bitrev_permuter.md R147). -/
def Obligations.PermutingCopyEqualsPermutation : Prop :=
  ∀ (α : Type) (A : Arith α) (o : Nat) (src dst : List α), 1 ≤ o →
    src.length = 2 * 2 ^ o → dst.length = 2 * 2 ^ o →
    pcopy A (2 ^ o) src dst = perm A (buildBr o) (2 ^ o) src
      ∧ pcopyC A (2 ^ o) src dst = permC A (buildBr o) (2 ^ o) src

/-! ### In place and out of place -/

/-- 42_butterfly_engine.md R176 (43_real_adapter.md R198, R199 for the real commands): on equal input cells the two
forms store one and the same list of values, and leave the same tables. So their cells are equal bit for bit but where
both hold a computed NaN, whose pattern is free each time it is drawn (93_implementation_defined.md U4, log entry 4). -/
def Obligations.InPlaceEqualsOutOfPlace : Prop :=
  ∀ pr ∈ [(Instr.cdftF, Instr.cdftoF), (.cdftI, .cdftoI), (.rdftF, .rdftoF), (.rdftI, .rdftoI)],
    ∀ s s' : State, s'.inst = s.inst → s'.len = s.len → sameTables s s' →
      s.tablesValid → Memory.wf s.inst.fill s.mem → Memory.wf s.inst.fill s'.mem →
      lengthAdmitted s.inst pr.1.minLen s.operandN →
      bufferPresent s.inst s.operandD (pr.1.cells s.operandN) = true →
      bufferPresent s.inst s'.operandS (pr.1.cells s.operandN) = true →
      bufferPresent s.inst s'.operandD (pr.1.cells s.operandN) = true →
      buffersDisjoint s'.operandS s'.operandD (pr.1.cells s.operandN) = true →
      loadCells s.inst s'.mem s'.operandS (pr.1.cells s.operandN)
        = loadCells s.inst s.mem s.operandD (pr.1.cells s.operandN) →
      ∃ t t' b, exec pr.1 s = .next t ∧ exec pr.2 s' = .next t' ∧ sameTables t t'
        ∧ b.length = pr.1.cells s.operandN
        ∧ loadCells s.inst t.mem s.operandD (pr.1.cells s.operandN) = settleSamples s.inst.fmt s.freeCount b
        ∧ loadCells s.inst t'.mem s'.operandD (pr.1.cells s.operandN) = settleSamples s.inst.fmt s'.freeCount b

/-! ### Where a command has no meaning (93_implementation_defined.md U1, U2) -/

/-- Buffers that share a cell: the model refuses, as 93_implementation_defined.md U1 says (70_reset_and_hazards.md R321;
log entry 6). -/
def Obligations.OverlappingBuffersAreRefused : Prop :=
  ∀ i ∈ outOfPlaceCommands, ∀ s : State, lengthAdmitted s.inst i.minLen s.operandN →
    bufferPresent s.inst s.operandS (i.cells s.operandN) = true →
    bufferPresent s.inst s.operandD (i.cells s.operandN) = true →
    (∃ a, s.operandS ≤ a ∧ a < s.operandS + i.cells s.operandN
      ∧ s.operandD ≤ a ∧ a < s.operandD + i.cells s.operandN) →
    exec i s = .refused .buffersOverlap

/-- A buffer that is not all in `MEMMAP` or wraps: the model refuses, as 93_implementation_defined.md U2 says
(20_memory.md R69, 70_reset_and_hazards.md R322; log entry 7). -/
def Obligations.AbsentBufferIsRefused : Prop :=
  ∀ i ∈ transformCommands, ∀ s : State, lengthAdmitted s.inst i.minLen s.operandN →
    (bufferPresent s.inst s.operandD (i.cells s.operandN) = false
      ∨ (i ∈ outOfPlaceCommands ∧ bufferPresent s.inst s.operandS (i.cells s.operandN) = false)) →
    exec i s = .refused .bufferNotPresent

/-- A machine whose sequencer is idle never faults; it stops only at a host access to a cell that does not exist and at
a transform of an admitted length, by the name of what is wrong with its buffers: one does not exist, or the two of an
out-of-place command share a cell (log entries 6, 7, 9). -/
def Obligations.StepStopsOnlyForBuffers : Prop :=
  ∀ s : State, s.seq = .idle →
    (∃ t, step s = .next t ∧ t.seq = .idle)
    ∨ (step s = .refused .cellNotPresent
        ∧ ∃ a rest, (s.host = .readCell a :: rest ∨ ∃ v, s.host = .writeCell a v :: rest)
          ∧ cellPresent s.inst a.toNat = false)
    ∨ (s.status.halt = false
        ∧ ∃ w rest i, s.host = .writeReg 0 w :: rest ∧ decode w = .ok i ∧ i ∈ transformCommands
          ∧ lengthAdmitted s.inst i.minLen s.operandN
          ∧ ((step s = .refused .bufferNotPresent
              ∧ (bufferPresent s.inst s.operandD (i.cells s.operandN) = false
                ∨ (i ∈ outOfPlaceCommands ∧ bufferPresent s.inst s.operandS (i.cells s.operandN) = false)))
            ∨ (step s = .refused .buffersOverlap ∧ i ∈ outOfPlaceCommands
              ∧ bufferPresent s.inst s.operandS (i.cells s.operandN) = true
              ∧ bufferPresent s.inst s.operandD (i.cells s.operandN) = true
              ∧ buffersDisjoint s.operandS s.operandD (i.cells s.operandN) = false)))

/-! ### The Butterfly Engine (42_butterfly_engine.md) -/

/-- The two smallest lengths, worked in full, in any arithmetic (42_butterfly_engine.md R178). -/
def Obligations.SmallestLengthsWorkedOut : Prop :=
  ∀ (α : Type) (A : Arith α) (T : Coeffs α) (e : BrEntry) (a b c d f g h k : α),
    stagesCdftF A T e 2 [a, b, c, d] = [A.add a c, A.add b d, A.sub a c, A.sub b d]
    ∧ stagesCdftF A T e 4 [a, b, c, d, f, g, h, k] =
      [A.add (A.add a f) (A.add c h), A.add (A.add b g) (A.add d k),
       A.sub (A.sub a f) (A.sub d k), A.add (A.sub b g) (A.sub c h),
       A.sub (A.add a f) (A.add c h), A.sub (A.add b g) (A.add d k),
       A.add (A.sub a f) (A.sub d k), A.sub (A.sub b g) (A.sub c h)]

/-- 42_butterfly_engine.md R170: the passes of n points read no twiddle entry from number n/4 on, whatever arithmetic;
with n ≤ 4 they read none. -/
def Obligations.PassesReadOnlyRequestedTwiddles : Prop :=
  ∀ (α : Type) (A : Arith α) (T T' : Coeffs α) (k : Nat) (b : List α), 1 ≤ k →
    (∀ j < 2 ^ k / 4, 4 < 2 ^ k → T.tw j = T'.tw j) → passes A T (2 ^ k) b = passes A T' (2 ^ k) b

/-- 42_butterfly_engine.md R171: in exact arithmetic the forward stages compute the transform with exponent sign +, the
inverse stages the one with sign -, unscaled, in natural order, for every power of two from 2 on. -/
def Obligations.ComplexStagesComputeTheTransform : Prop :=
  ∀ (m : Nat) (x : Nat → ℂ), 1 ≤ m →
    stagesCdftF exactArith exactCoeffs (buildBr m) (2 ^ m) (interleaved (2 ^ m) x)
      = interleaved (2 ^ m) (fun k =>
          ∑ j ∈ Finset.range (2 ^ m), x j * Complex.exp (2 * Real.pi * Complex.I * j * k / (2 ^ m : Nat)))
    ∧ stagesCdftI exactArith exactCoeffs (buildBr m) (2 ^ m) (interleaved (2 ^ m) x)
      = interleaved (2 ^ m) (fun k =>
          ∑ j ∈ Finset.range (2 ^ m), x j * Complex.exp (-(2 * Real.pi * Complex.I * j * k / (2 ^ m : Nat))))

/-! ### The Real-Transform Adapter (43_real_adapter.md) -/

/-- 43_real_adapter.md R200: in exact arithmetic `RDFT.F` and `RDFTO.F` compute the packed spectrum. -/
def Obligations.RealForwardStagesComputeTheSpectrum : Prop :=
  ∀ (m : Nat) (a : Nat → ℝ) (dst : List ℝ), 2 ≤ m → dst.length = 2 ^ m →
    stagesRdftF exactArith exactCoeffs (buildBr (m - 1)) (2 ^ m) (cellsOf (2 ^ m) a)
      = packed (2 ^ m) (cosineSum (2 ^ m) a) (sineSum (2 ^ m) a)
    ∧ stagesRdftoF exactArith exactCoeffs (buildBr (m - 1)) (2 ^ m) (cellsOf (2 ^ m) a) dst
      = packed (2 ^ m) (cosineSum (2 ^ m) a) (sineSum (2 ^ m) a)

/-- 43_real_adapter.md R201: in exact arithmetic `RDFT.I` and `RDFTO.I` compute the synthesis sum, so that `RDFT.I`
after `RDFT.F` gives N/2 times the input. -/
def Obligations.RealInverseStagesComputeTheSynthesis : Prop :=
  ∀ (m : Nat) (R I a : Nat → ℝ) (dst : List ℝ), 2 ≤ m → dst.length = 2 ^ m →
    stagesRdftI exactArith exactCoeffs (buildBr (m - 1)) (2 ^ m) (packed (2 ^ m) R I)
      = cellsOf (2 ^ m) (synthesis (2 ^ m) R I)
    ∧ stagesRdftoI exactArith exactCoeffs (buildBr (m - 1)) (2 ^ m) (packed (2 ^ m) R I) dst
      = cellsOf (2 ^ m) (synthesis (2 ^ m) R I)
    ∧ stagesRdftI exactArith exactCoeffs (buildBr (m - 1)) (2 ^ m)
        (stagesRdftF exactArith exactCoeffs (buildBr (m - 1)) (2 ^ m) (cellsOf (2 ^ m) a))
      = cellsOf (2 ^ m) fun j => (2 ^ m : ℝ) / 2 * a j

/-! ### The Cosine/Sine Transform Adapter (44_dct_dst_adapter.md) -/

/-- 44_dct_dst_adapter.md R221: in exact arithmetic `DCT.F` computes the type II and `DCT.I` the type III cosine sums. -/
def Obligations.CosineStagesComputeTheSums : Prop :=
  ∀ (m : Nat) (a : Nat → ℝ), 2 ≤ m →
    stagesDctF exactArith exactCoeffs (buildBr (m - 1)) (2 ^ m) (cellsOf (2 ^ m) a)
      = cellsOf (2 ^ m) (fun k =>
          ∑ j ∈ Finset.range (2 ^ m), a j * Real.cos (Real.pi * (j + 1 / 2) * k / (2 ^ m : Nat)))
    ∧ stagesDctI exactArith exactCoeffs (buildBr (m - 1)) (2 ^ m) (cellsOf (2 ^ m) a)
      = cellsOf (2 ^ m) (fun k =>
          ∑ j ∈ Finset.range (2 ^ m), a j * Real.cos (Real.pi * j * (k + 1 / 2) / (2 ^ m : Nat)))

/-- 44_dct_dst_adapter.md R222: in exact arithmetic `DST.F` computes the type II and `DST.I` the type III sine sums,
with index N in cell 0. -/
def Obligations.SineStagesComputeTheSums : Prop :=
  ∀ (m : Nat) (a : Nat → ℝ), 2 ≤ m →
    stagesDstF exactArith exactCoeffs (buildBr (m - 1)) (2 ^ m) (cellsOf (2 ^ m) a)
      = cellsOf (2 ^ m) (fun k => ∑ j ∈ Finset.range (2 ^ m),
          a j * Real.sin (Real.pi * (j + 1 / 2) * (if k = 0 then 2 ^ m else k : Nat) / (2 ^ m : Nat)))
    ∧ stagesDstI exactArith exactCoeffs (buildBr (m - 1)) (2 ^ m) (cellsOf (2 ^ m) a)
      = cellsOf (2 ^ m) (fun k => ∑ j ∈ Finset.Icc 1 (2 ^ m),
          a (if j = 2 ^ m then 0 else j) * Real.sin (Real.pi * j * (k + 1 / 2) / (2 ^ m : Nat)))

/-! ### Numerics (46_numerics.md) -/

/-- 46_numerics.md R261: `fadd` is the exact sum rounded once to nearest, ties to even, with its special cases. -/
def Obligations.AdditionIsTheSumRoundedOnce : Prop :=
  ∀ (fmt : Format) (x y : Sample),
    (x.number fmt = .nan ∨ y.number fmt = .nan → (fadd fmt x y).number fmt = .nan)
    ∧ (∀ a b, x.number fmt = .inf a → y.number fmt = .inf b →
        (fadd fmt x y).number fmt = if a = b then .inf a else .nan)
    ∧ (∀ a b g, x.number fmt = .inf a → y.number fmt = .finite b g → (fadd fmt x y).number fmt = .inf a)
    ∧ (∀ a g b, x.number fmt = .finite a g → y.number fmt = .inf b → (fadd fmt x y).number fmt = .inf b)
    ∧ ∀ a g b h, x.number fmt = .finite a g → y.number fmt = .finite b h →
        (signedGrid a g + signedGrid b h = 0 → (fadd fmt x y).number fmt = .finite (a && b) 0)
        ∧ (signedGrid a g + signedGrid b h ≠ 0 →
          ∃ mag, nearestEven fmt (signedGrid a g + signedGrid b h).natAbs 0 mag
            ∧ (fadd fmt x y).number fmt = signed fmt (decide (signedGrid a g + signedGrid b h < 0)) mag)

/-- 46_numerics.md R263: `fmul` is the exact product rounded once to nearest, ties to even, with its special cases. -/
def Obligations.MultiplicationIsTheProductRoundedOnce : Prop :=
  ∀ (fmt : Format) (x y : Sample),
    (x.number fmt = .nan ∨ y.number fmt = .nan → (fmul fmt x y).number fmt = .nan)
    ∧ (∀ a b, x.number fmt = .inf a → y.number fmt = .inf b → (fmul fmt x y).number fmt = .inf (a ^^ b))
    ∧ (∀ a b g, x.number fmt = .inf a → y.number fmt = .finite b g →
        (fmul fmt x y).number fmt = if g = 0 then .nan else .inf (a ^^ b))
    ∧ (∀ a g b, x.number fmt = .finite a g → y.number fmt = .inf b →
        (fmul fmt x y).number fmt = if g = 0 then .nan else .inf (a ^^ b))
    ∧ ∀ a g b h, x.number fmt = .finite a g → y.number fmt = .finite b h →
        ∃ mag, nearestEven fmt (g * h) (gridScale fmt) mag ∧ (fmul fmt x y).number fmt = signed fmt (a ^^ b) mag

/-- 46_numerics.md R262: `fsub` is `fadd` of the negation, and its worked cases. -/
def Obligations.SubtractionAddsTheNegation : Prop :=
  ∀ (fmt : Format) (x y : Sample),
    fsub fmt x y = fadd fmt x (fneg fmt y)
    ∧ (x.number fmt = .nan ∨ y.number fmt = .nan → (fsub fmt x y).number fmt = .nan)
    ∧ (∀ a g, x.number fmt = .finite a g → fsub fmt x x = fzero)
    ∧ (x.number fmt = .inf false → (fsub fmt x x).number fmt = .nan)
    ∧ fsub fmt fzero fzero = fzero ∧ fsub fmt (fneg fmt fzero) fzero = fneg fmt fzero
    ∧ fsub fmt fzero (fneg fmt fzero) = fzero

/-- 46_numerics.md R264: `fneg` inverts the sign bit and nothing else, and rounding is symmetric in the sign, with the
one exception of an exactly cancelling sum. -/
def Obligations.NegationIsSymmetric : Prop :=
  ∀ (fmt : Format) (x y : Sample),
    (∀ (b : CellBits) (j : Nat), j < 64 → ∃ c, fneg fmt (.bits b) = .bits c
      ∧ c.getLsbD j = (if j = cellWidth fmt - 1 then !b.getLsbD j else b.getLsbD j))
    ∧ ((fmul fmt x y).number fmt ≠ .nan → fmul fmt (fneg fmt x) y = fneg fmt (fmul fmt x y))
    ∧ ((fadd fmt x y).number fmt ≠ .nan →
        ¬ (∃ a g b h, x.number fmt = .finite a g ∧ y.number fmt = .finite b h
            ∧ signedGrid a g + signedGrid b h = 0 ∧ a ≠ b) →
        fadd fmt (fneg fmt x) (fneg fmt y) = fneg fmt (fadd fmt x y))
    ∧ ∀ a g b h, x.number fmt = .finite a g → y.number fmt = .finite b h →
        signedGrid a g + signedGrid b h = 0 → a ≠ b →
        fadd fmt x y = fzero ∧ fadd fmt (fneg fmt x) (fneg fmt y) = fzero

/-- Doubling is exact but for overflow, halving but for an odd subnormal grid value, which rounds to even
(46_numerics.md R270). -/
def Obligations.DoublingAndHalvingAreExact : Prop :=
  ∀ (fmt : Format) (x : Sample) (a : Bool) (g : Nat), x.number fmt = .finite a g →
    ((fmul fmt (ftwo fmt) x).number fmt
      = if 2 * g < gridOf fmt (infMagnitude fmt) then .finite a (2 * g) else .inf a)
    ∧ (fmul fmt (fhalf fmt) x).number fmt = .finite a (if g % 2 = 0 then g / 2 else g / 2 + g / 2 % 2)

/-- What a stored buffer leaves in its cells (46_numerics.md R267, 20_memory.md R62, 93_implementation_defined.md U4).
Value number j of the buffer leaves its own bits, or, if it is a computed NaN, a quiet NaN of the format; the sign and
payload are a free pattern's, and every quiet NaN is some pattern's (log entry 4). A NaN that `fadd` or `fmul` computes
is always such a value. -/
def Obligations.NaNResultsAreAnyQuietNaN : Prop :=
  ∀ fmt : Format,
    (∀ n, isQuietNaN fmt (Sample.quietNaN.toCell fmt n)
      ∧ Sample.quietNaN.toCell fmt n = quietNaNBits fmt (Config.freeNaN n))
    ∧ (∀ (b : CellBits) (n : Nat), cellFits fmt b = true → (Sample.bits b).toCell fmt n = b)
    ∧ (∀ (free : Nat) (b : List Sample) (j : Nat),
        (settleSamples fmt free b)[j]? = b[j]?.map fun v => v.toCell fmt (free + j))
    ∧ (∀ x y : Sample, ((fadd fmt x y).number fmt = .nan → fadd fmt x y = .quietNaN)
        ∧ ((fmul fmt x y).number fmt = .nan → fmul fmt x y = .quietNaN))
    ∧ ∀ free : CellBits, isQuietNaN fmt (quietNaNBits fmt free)
        ∧ (isQuietNaN fmt free → quietNaNBits fmt free = free)

/-! ### The coefficient generator (40_table_cache.md) -/

/-- The generator is a parameter (00_scope.md R10, 40_table_cache.md R123): whatever values an instance lists, by rising
argument and each with the property P3, are the values of its `ROMCOS` (P3 is asked with 2^-200 to spare, which every
correctly rounded value has: `EveryGeneratorIsWithinOneUlp`). Every instance has the properties P1 (the value depends on f
alone) and P5 (`ROMHCOS` is the halved `ROMCOS`); P2 and P4 are in `RomHasItsNamedValues`. -/
def Obligations.EveryNamedGeneratorIsAnInstance : Prop :=
  (∀ p : Params, p.rom.Pairwise (fun x y => x.num < y.num) →
    (∀ e ∈ p.rom, 0 < e.num ∧ e.num < 2 ^ 30
      ∧ isClearlyWithinUlp p.fmt (Real.cos (romAngle e.num 30)) e.value) →
    romWf p = true ∧ ∀ e ∈ p.rom, romCos p e.num 30 = e.value)
  ∧ ∀ (p : Params) (num d : Nat), num < 2 ^ d →
    (∀ num' d' : Nat, num' < 2 ^ d' → num * 2 ^ d' = num' * 2 ^ d →
      romCos p num d = romCos p num' d' ∧ romSin p num d = romSin p num' d'
        ∧ romHalfCos p num d = romHalfCos p num' d')
    ∧ Sample.bits (romHalfCos p num d) = fmul p.fmt (fhalf p.fmt) (.bits (romCos p num d))

/-- The property P3 of 40_table_cache.md R123: the generator of every instance, whatever it lists, is finite, in [0, 1] and
within one unit in the last place of the exact value, at every argument. The series, where an instance lists nothing, is
correctly rounded at every argument with up to 10 fraction bits (R122; the series is the model's own, log entry 2), and a
correctly rounded value has P3 with 2^-200 to spare. -/
def Obligations.EveryGeneratorIsWithinOneUlp : Prop :=
  (∀ p : Params, romWithinUlp p)
  ∧ (∀ p : Params, p.rom = [] → romRounded p 10)
  ∧ ∀ (fmt : Format) (y : ℝ) (b : CellBits), 1 / 2 ^ 31 ≤ y → y ≤ 1 → isRounded fmt y b →
    isClearlyWithinUlp fmt y b
end

