-- ==== Sys2Proof/Laws/Memory.lean ====
section
/-! SUPPORT. Laws of sample memory: a byte reads as last written, every memory operation keeps the canonical form, and
cells read back bit for bit. -/

namespace Sys2Proof.Machine

/-! ### Bytes -/

@[simp] theorem Memory.read_nil (fill : Byte) (a : Nat) : Memory.read fill [] a = fill := rfl

theorem Memory.read_cons (fill : Byte) (c : Host.Cell) (m : Memory) (a : Nat) :
    Memory.read fill (c :: m) a = if c.1 = a then c.2 else Memory.read fill m a := rfl

/-- An address not listed reads as the power-up byte. -/
theorem Memory.read_of_forall_ne {fill : Byte} {m : Memory} {a : Nat} (h : ∀ c ∈ m, c.1 ≠ a) :
    Memory.read fill m a = fill := by
  induction m with
  | nil => rfl
  | cons c m ih =>
    rw [Memory.read_cons, if_neg (h c (by simp))]
    exact ih fun d hd => h d (by simp [hd])

theorem Memory.wf_nil (fill : Byte) : Memory.wf fill [] := by simp [Memory.wf]

theorem Memory.wf_cons {fill : Byte} {c : Host.Cell} {m : Memory} :
    Memory.wf fill (c :: m) ↔ c.2 ≠ fill ∧ (∀ d ∈ m, c.1 < d.1) ∧ Memory.wf fill m := by
  simp only [Memory.wf, List.pairwise_cons, List.forall_mem_cons]
  tauto

/-- What a write does to the listed entries: it adds at most the entry it writes. -/
theorem Memory.mem_write {fill : Byte} {m : Memory} {a : Nat} {v : Byte} {d : Host.Cell}
    (h : d ∈ Memory.write fill m a v) : d ∈ m ∨ (d = (a, v) ∧ v ≠ fill) := by
  induction m with
  | nil => by_cases hv : v = fill <;> simp_all [Memory.write]
  | cons c m ih =>
    simp only [Memory.write] at h
    split at h
    · split at h
      · exact .inl h
      · rcases List.mem_cons.mp h with rfl | h
        · exact .inr ⟨rfl, ‹_›⟩
        · exact .inl h
    · split at h
      · split at h
        · exact .inl (by simp [h])
        · rcases List.mem_cons.mp h with rfl | h
          · exact .inr ⟨rfl, ‹_›⟩
          · exact .inl (by simp [h])
      · rcases List.mem_cons.mp h with rfl | h
        · exact .inl (by simp)
        · rcases ih h with h | h
          · exact .inl (by simp [h])
          · exact .inr h

/-- A write keeps the canonical form. -/
theorem Memory.write_wf {fill : Byte} {m : Memory} (a : Nat) (v : Byte) (h : Memory.wf fill m) :
    Memory.wf fill (Memory.write fill m a v) := by
  induction m with
  | nil => by_cases hv : v = fill <;> simp [Memory.write, Memory.wf, hv]
  | cons c m ih =>
    obtain ⟨hc, hlt, hm⟩ := Memory.wf_cons.mp h
    simp only [Memory.write]
    split
    · split
      · exact h
      · refine Memory.wf_cons.mpr ⟨‹_›, ?_, h⟩
        intro d hd
        rcases List.mem_cons.mp hd with rfl | hd
        · assumption
        · exact lt_trans ‹_› (hlt d hd)
    · split
      · split
        · exact hm
        · exact Memory.wf_cons.mpr ⟨‹_›, fun d hd => ‹a = c.1› ▸ hlt d hd, hm⟩
      · refine Memory.wf_cons.mpr ⟨hc, fun d hd => ?_, ih hm⟩
        rcases Memory.mem_write hd with hd | ⟨rfl, -⟩
        · exact hlt d hd
        · simp only; omega

/-- A write leaves every other byte as it was. -/
theorem Memory.read_write_other {fill : Byte} (m : Memory) {a b : Nat} (v : Byte) (h : b ≠ a) :
    Memory.read fill (Memory.write fill m a v) b = Memory.read fill m b := by
  induction m with
  | nil => by_cases hv : v = fill <;> simp [Memory.write, Memory.read_cons, hv, h.symm]
  | cons c m ih =>
    simp only [Memory.write]
    split
    · split
      · rfl
      · rw [Memory.read_cons, if_neg h.symm]
    · split
      · subst_vars
        split <;> simp [Memory.read_cons, h.symm]
      · simp only [Memory.read_cons, ih]

/-- A byte reads as last written. -/
theorem Memory.read_write_same {fill : Byte} {m : Memory} (a : Nat) (v : Byte) (h : Memory.wf fill m) :
    Memory.read fill (Memory.write fill m a v) a = v := by
  induction m with
  | nil => by_cases hv : v = fill <;> simp [Memory.write, Memory.read_cons, hv]
  | cons c m ih =>
    obtain ⟨hc, hlt, hm⟩ := Memory.wf_cons.mp h
    simp only [Memory.write]
    split
    · split
      · subst_vars
        refine Memory.read_of_forall_ne fun d hd => ?_
        rcases List.mem_cons.mp hd with rfl | hd
        · omega
        · have := hlt d hd; omega
      · simp [Memory.read_cons]
    · split
      · split
        · subst_vars
          exact Memory.read_of_forall_ne fun d hd => (hlt d hd).ne'
        · simp [Memory.read_cons]
      · rw [Memory.read_cons, if_neg (by omega), ih hm]

/-- Two memories in the canonical form that read alike are equal. -/
theorem Memory.ext_of_read {fill : Byte} {m m' : Memory} (h : Memory.wf fill m) (h' : Memory.wf fill m')
    (hr : ∀ a, Memory.read fill m a = Memory.read fill m' a) : m = m' := by
  induction m generalizing m' with
  | nil =>
    cases m' with
    | nil => rfl
    | cons d m' =>
      obtain ⟨hd, -, -⟩ := Memory.wf_cons.mp h'
      have := hr d.1
      simp [Memory.read_cons] at this
      exact absurd this.symm hd
  | cons c m ih =>
    obtain ⟨hc, hlt, hm⟩ := Memory.wf_cons.mp h
    cases m' with
    | nil =>
      have := hr c.1
      simp [Memory.read_cons] at this
      exact absurd this hc
    | cons d m' =>
      obtain ⟨hd, hlt', hm'⟩ := Memory.wf_cons.mp h'
      have hcd : c.1 = d.1 := by
        rcases lt_trichotomy c.1 d.1 with hl | hl | hl
        · have h1 := hr c.1
          rw [Memory.read_cons, if_pos rfl, Memory.read_of_forall_ne] at h1
          · exact absurd h1 hc
          · intro e he
            rcases List.mem_cons.mp he with rfl | he
            · omega
            · have := hlt' e he; omega
        · exact hl
        · have h1 := hr d.1
          rw [Memory.read_cons _ d, if_pos rfl, Memory.read_of_forall_ne] at h1
          · exact absurd h1.symm hd
          · intro e he
            rcases List.mem_cons.mp he with rfl | he
            · omega
            · have := hlt e he; omega
      have hv : c.2 = d.2 := by
        have := hr c.1
        simpa [Memory.read_cons, hcd] using this
      have hcd' : c = d := Prod.ext hcd hv
      subst hcd'
      congr 1
      refine ih hm hm' fun a => ?_
      by_cases ha : c.1 = a
      · subst ha
        rw [Memory.read_of_forall_ne fun e he => (hlt e he).ne',
          Memory.read_of_forall_ne fun e he => (hlt' e he).ne']
      · have := hr a
        simpa [Memory.read_cons, ha] using this

/-! ### Cells -/

theorem cellBytes_pos (fmt : Format) : 0 < cellBytes fmt := by cases fmt <;> decide

/-- `writeCell` as `n` byte writes. -/
def writeBytes (fill : Byte) (m : Memory) (base : Nat) (v : CellBits) (n : Nat) : Memory :=
  loop n (fun i acc => acc.write fill (base + i) (byteOf v i)) m

theorem writeCell_eq (p : Params) (m : Memory) (a : Nat) (v : CellBits) :
    writeCell p m a v = writeBytes p.fill m (cellBytes p.fmt * a) v (cellBytes p.fmt) := rfl

theorem writeBytes_wf {fill : Byte} {m : Memory} (base : Nat) (v : CellBits) (n : Nat)
    (h : Memory.wf fill m) : Memory.wf fill (writeBytes fill m base v n) := by
  induction n with
  | zero => exact h
  | succ n ih => exact Memory.write_wf _ _ ih

theorem writeBytes_read_inside {fill : Byte} {m : Memory} (base : Nat) (v : CellBits) {n i : Nat}
    (h : Memory.wf fill m) (hi : i < n) :
    (writeBytes fill m base v n).read fill (base + i) = byteOf v i := by
  induction n with
  | zero => omega
  | succ n ih =>
    by_cases hin : i = n
    · subst hin
      exact Memory.read_write_same _ _ (writeBytes_wf base v i h)
    · exact (Memory.read_write_other _ _ (by omega)).trans (ih (by omega))

theorem writeBytes_read_outside (fill : Byte) (m : Memory) (base : Nat) (v : CellBits) {n a : Nat}
    (ha : a < base ∨ base + n ≤ a) :
    (writeBytes fill m base v n).read fill a = m.read fill a := by
  induction n with
  | zero => rfl
  | succ n ih => exact (Memory.read_write_other _ _ (by omega)).trans (ih (by omega))

theorem writeBytes_mem {fill : Byte} {m : Memory} {base : Nat} {v : CellBits} {n : Nat} {c : Host.Cell}
    (h : c ∈ writeBytes fill m base v n) : c ∈ m ∨ (base ≤ c.1 ∧ c.1 < base + n) := by
  induction n with
  | zero => exact .inl h
  | succ n ih =>
    rcases Memory.mem_write h with h | ⟨rfl, -⟩
    · rcases ih h with h | h
      · exact .inl h
      · exact .inr (by omega)
    · exact .inr (by simp)

/-- A cell write keeps the canonical form. -/
theorem writeCell_wf {p : Params} {m : Memory} (a : Nat) (v : CellBits) (h : Memory.wf p.fill m) :
    Memory.wf p.fill (writeCell p m a v) := writeBytes_wf _ _ _ h

/-- The bytes of a written cell (20_memory.md R65). -/
theorem writeCell_read_inside {p : Params} {m : Memory} (a : Nat) (v : CellBits) {i : Nat}
    (h : Memory.wf p.fill m) (hi : i < cellBytes p.fmt) :
    (writeCell p m a v).read p.fill (cellBytes p.fmt * a + i) = byteOf v i :=
  writeBytes_read_inside _ _ h hi

/-- A cell write leaves every byte outside the cell as it was. -/
theorem writeCell_read_outside (p : Params) (m : Memory) (a : Nat) (v : CellBits) {b : Nat}
    (hb : b < cellBytes p.fmt * a ∨ cellBytes p.fmt * (a + 1) ≤ b) :
    (writeCell p m a v).read p.fill b = m.read p.fill b :=
  writeBytes_read_outside _ _ _ _ (by rw [Nat.mul_succ] at hb; exact hb)

theorem littleEndian_congr {f g : Nat → Byte} {n : Nat} (h : ∀ i < n, f i = g i) :
    littleEndian f n = littleEndian g n := by
  induction n with
  | zero => rfl
  | succ n ih => simp only [littleEndian, h n (by omega), ih fun i hi => h i (by omega)]

theorem littleEndian_byteOf (v : CellBits) {n : Nat} (hn : n ≤ 8) :
    littleEndian (byteOf v) n = v.toNat % 256 ^ n := by
  induction n with
  | zero => simp [littleEndian, Nat.mod_one]
  | succ n ih =>
    have hb : (byteOf v n).toNat = v.toNat / 256 ^ n % 256 := by
      simp [byteOf, BitVec.extractLsb'_toNat, Nat.shiftRight_eq_div_pow, pow_mul]
    rw [littleEndian, ih (by omega), hb, pow_succ, Nat.mod_mul, Nat.mul_comm (256 ^ n)]

theorem pow_cellBytes (fmt : Format) : 256 ^ cellBytes fmt = 2 ^ cellWidth fmt := by
  cases fmt <;> norm_num [cellBytes, cellWidth]

/-- The bits a cell keeps of a value: its low 32 or 64 (20_memory.md R61). -/
def cellOf (fmt : Format) (v : CellBits) : CellBits := BitVec.ofNat 64 (v.toNat % 2 ^ cellWidth fmt)

theorem cellOf_of_fits {fmt : Format} {v : CellBits} (h : v.toNat < 2 ^ cellWidth fmt) : cellOf fmt v = v := by
  rw [cellOf, Nat.mod_eq_of_lt h, BitVec.ofNat_toNat, BitVec.setWidth_eq]

/-- A cell reads back as written. -/
theorem readCell_writeCell_same {p : Params} {m : Memory} (a : Nat) (v : CellBits)
    (h : Memory.wf p.fill m) : readCell p (writeCell p m a v) a = cellOf p.fmt v := by
  rw [readCell, littleEndian_congr (g := byteOf v) fun i hi => writeCell_read_inside a v h hi,
    littleEndian_byteOf v (by cases p.fmt <;> decide), pow_cellBytes, cellOf]

/-- A cell write leaves every other cell as it was. -/
theorem readCell_writeCell_other (p : Params) (m : Memory) {a b : Nat} (v : CellBits) (hab : b ≠ a) :
    readCell p (writeCell p m a v) b = readCell p m b := by
  unfold readCell
  congr 1
  refine littleEndian_congr fun i hi => writeCell_read_outside p m a v ?_
  rcases Nat.lt_or_gt_of_ne hab with h | h
  · left
    have := Nat.mul_le_mul_left (cellBytes p.fmt) (Nat.succ_le_of_lt h)
    rw [Nat.mul_succ] at this
    omega
  · right
    have := Nat.mul_le_mul_left (cellBytes p.fmt) (Nat.succ_le_of_lt h)
    rw [Nat.succ_eq_add_one] at this
    omega

/-! ### Buffers -/

@[simp] theorem loadCells_length (p : Params) (m : Memory) (base n : Nat) :
    (loadCells p m base n).length = n := by
  induction n generalizing base with
  | zero => rfl
  | succ n ih => simp [loadCells, ih]

@[simp] theorem loadSamples_length (p : Params) (m : Memory) (base n : Nat) :
    (loadSamples p m base n).length = n := by simp [loadSamples]

theorem loadCells_congr {p : Params} {m m' : Memory} {base n : Nat}
    (h : ∀ j < n, readCell p m (base + j) = readCell p m' (base + j)) :
    loadCells p m base n = loadCells p m' base n := by
  induction n generalizing base with
  | zero => rfl
  | succ n ih =>
    simp only [loadCells]
    congr 1
    · simpa using h 0 (by omega)
    · refine ih fun j hj => ?_
      have := h (j + 1) (by omega)
      rwa [show base + 1 + j = base + (j + 1) by omega]

/-- Storing a buffer keeps the canonical form. -/
theorem storeCells_wf {p : Params} {m : Memory} (base : Nat) (vs : List CellBits)
    (h : Memory.wf p.fill m) : Memory.wf p.fill (storeCells p m base vs) := by
  induction vs generalizing m base with
  | nil => exact h
  | cons v vs ih => exact ih _ (writeCell_wf _ _ h)

/-- Storing a buffer leaves every byte outside it as it was (20_memory.md R77). -/
theorem storeCells_read_outside (p : Params) (m : Memory) (base : Nat) (vs : List CellBits) {a : Nat}
    (ha : a < cellBytes p.fmt * base ∨ cellBytes p.fmt * (base + vs.length) ≤ a) :
    (storeCells p m base vs).read p.fill a = m.read p.fill a := by
  induction vs generalizing m base with
  | nil => rfl
  | cons v vs ih =>
    have h1 : cellBytes p.fmt * (base + 1) ≤ cellBytes p.fmt * (base + (v :: vs).length) :=
      Nat.mul_le_mul_left _ (by simp)
    have h2 : cellBytes p.fmt * base ≤ cellBytes p.fmt * (base + 1) := Nat.mul_le_mul_left _ (by omega)
    rw [storeCells, ih, writeCell_read_outside]
    · omega
    · rw [show base + 1 + vs.length = base + (v :: vs).length by simp; omega]
      omega

theorem storeCells_readCell_outside (p : Params) (m : Memory) (base : Nat) (vs : List CellBits) {b : Nat}
    (hb : b < base ∨ base + vs.length ≤ b) :
    readCell p (storeCells p m base vs) b = readCell p m b := by
  induction vs generalizing m base with
  | nil => rfl
  | cons v vs ih =>
    rw [List.length_cons] at hb
    rw [storeCells, ih _ _ (by omega), readCell_writeCell_other _ _ _ (by omega)]

/-- A stored buffer loads back. -/
theorem loadCells_storeCells_same {p : Params} {m : Memory} (base : Nat) (vs : List CellBits)
    (h : Memory.wf p.fill m) :
    loadCells p (storeCells p m base vs) base vs.length = vs.map (cellOf p.fmt) := by
  induction vs generalizing m base with
  | nil => rfl
  | cons v vs ih =>
    rw [List.length_cons, loadCells, storeCells, ih _ (writeCell_wf _ _ h),
      storeCells_readCell_outside _ _ _ _ (by omega), readCell_writeCell_same _ _ h, List.map_cons]

/-- Storing a buffer lists no byte outside it that was not listed. -/
theorem storeCells_mem {p : Params} {m : Memory} {base : Nat} {vs : List CellBits} {c : Host.Cell}
    (h : c ∈ storeCells p m base vs) :
    c ∈ m ∨ (base ≤ c.1 / cellBytes p.fmt ∧ c.1 / cellBytes p.fmt < base + vs.length) := by
  induction vs generalizing m base with
  | nil => exact .inl h
  | cons v vs ih =>
    rcases ih h with h | h
    · rcases writeBytes_mem h with h | ⟨h1, h2⟩
      · exact .inl h
      · right
        have h3 : c.1 / cellBytes p.fmt = base := by
          refine Nat.div_eq_of_lt_le ?_ ?_
          · rwa [Nat.mul_comm]
          · rwa [Nat.succ_mul, Nat.mul_comm base]
        simp [h3]
    · right
      simp only [List.length_cons]
      omega

@[simp] theorem settleSamples_length (fmt : Format) (free : Nat) (b : List Sample) :
    (settleSamples fmt free b).length = b.length := by
  induction b generalizing free with
  | nil => rfl
  | cons v b ih => simp [settleSamples, ih]

end Sys2Proof.Machine
end

