-- ==== Sys2Proof/Laws/Stages.lean ====
section
/-! SUPPORT. Laws of the stages, for any arithmetic: every stage keeps the length of its buffer, and a stage reads only
the table entries its command has asked for (40_table_cache.md R133, 42_butterfly_engine.md R170). -/

namespace Sys2Proof.Machine

variable {α β : Type}

/-! ### Loops and integers -/

@[simp] theorem loop_zero (f : Nat → β → β) (b : β) : loop 0 f b = b := rfl

theorem loop_succ (n : Nat) (f : Nat → β → β) (b : β) : loop (n + 1) f b = f n (loop n f b) := rfl

/-- What every round of a loop keeps, the loop keeps. -/
theorem loop_keeps {P : β → Prop} {n : Nat} {f : Nat → β → β} {b : β} (h0 : P b)
    (hs : ∀ i < n, ∀ b, P b → P (f i b)) : P (loop n f b) := by
  induction n with
  | zero => exact h0
  | succ n ih => exact hs n (by omega) _ (ih fun i hi => hs i (by omega))

theorem loop_congr {n : Nat} {f g : Nat → β → β} (b : β) (h : ∀ i < n, ∀ b, f i b = g i b) :
    loop n f b = loop n g b := by
  induction n with
  | zero => rfl
  | succ n ih => rw [loop_succ, loop_succ, h n (by omega), ih fun i hi => h i (by omega)]

theorem rev_lt (d x : Nat) : rev d x < 2 ^ d := by
  induction d generalizing x with
  | zero => simp [rev]
  | succ d ih =>
    have h1 := ih (x / 2)
    have h2 : x % 2 * 2 ^ d ≤ 1 * 2 ^ d := Nat.mul_le_mul_right _ (by omega)
    rw [rev, pow_succ]
    omega

theorem two_pow_log2_le {m : Nat} (h : m ≠ 0) : 2 ^ log2 m ≤ m := Nat.log2_self_le h

/-- A cosine lookup of step count 2^`log2 m` stays below `m` (40_table_cache.md R129). -/
theorem rev_log2_lt {m : Nat} (x : Nat) (h : m ≠ 0) : rev (log2 m) x < m :=
  lt_of_lt_of_le (rev_lt _ _) (two_pow_log2_le h)

/-! ### Every stage keeps the length of its buffer -/

@[simp] theorem setIm_length (b : List α) (p : Nat) (v : α) : (setIm b p v).length = b.length := by
  simp [setIm]

@[simp] theorem setPoint_length (b : List α) (p : Nat) (y : α × α) : (setPoint b p y).length = b.length := by
  simp [setPoint]

@[simp] theorem swapPoints_length (A : Arith α) (b : List α) (J K : Nat) :
    (swapPoints A b J K).length = b.length := by simp [swapPoints]

@[simp] theorem swapConjugated_length (A : Arith α) (b : List α) (J K : Nat) :
    (swapConjugated A b J K).length = b.length := by simp [swapConjugated]

@[simp] theorem negateIm_length (A : Arith α) (b : List α) (p : Nat) :
    (negateIm A b p).length = b.length := by simp [negateIm]

theorem foldl_length {γ : Type} {f : List α → γ → List α} (hf : ∀ b c, (f b c).length = b.length)
    (cs : List γ) (b : List α) : (cs.foldl f b).length = b.length := by
  induction cs generalizing b with
  | nil => rfl
  | cons c cs ih => rw [List.foldl_cons, ih, hf]

theorem loop_length {n : Nat} {f : Nat → List α → List α} (hf : ∀ i b, (f i b).length = b.length)
    (b : List α) : (loop n f b).length = b.length :=
  loop_keeps (P := fun c => c.length = b.length) rfl fun i _ c hc => (hf i c).trans hc

@[simp] theorem perm_length (A : Arith α) (e : BrEntry) (n : Nat) (b : List α) :
    (perm A e n b).length = b.length := by
  unfold perm
  split
  · rfl
  · exact foldl_length (fun b c => by simp) _ _

@[simp] theorem permC_length (A : Arith α) (e : BrEntry) (n : Nat) (b : List α) :
    (permC A e n b).length = b.length := by
  unfold permC
  split
  · exact loop_length (fun i b => by simp) _
  · rw [loop_length (fun i b => by split <;> simp), foldl_length (fun b c => by simp)]

@[simp] theorem pcopy_length (A : Arith α) (n : Nat) (src dst : List α) :
    (pcopy A n src dst).length = dst.length := loop_length (fun i b => by simp) _

@[simp] theorem pcopyC_length (A : Arith α) (n : Nat) (src dst : List α) :
    (pcopyC A n src dst).length = dst.length := loop_length (fun i b => by simp) _

@[simp] theorem passButterfly_length (A : Arith α) (T : Coeffs α) (l k j : Nat) (b : List α) :
    (passButterfly A T l k j b).length = b.length := by simp [passButterfly]

@[simp] theorem pass4_length (A : Arith α) (T : Coeffs α) (n l : Nat) (b : List α) :
    (pass4 A T n l b).length = b.length :=
  loop_length (fun i b => loop_length (fun j b => by simp) _) _

@[simp] theorem fin4_length (A : Arith α) (n l : Nat) (b : List α) : (fin4 A n l b).length = b.length :=
  loop_length (fun i b => by simp) _

@[simp] theorem fin2_length (A : Arith α) (l : Nat) (b : List α) : (fin2 A l b).length = b.length :=
  loop_length (fun i b => by simp) _

@[simp] theorem conj_length (A : Arith α) (n : Nat) (b : List α) : (conj A n b).length = b.length :=
  loop_length (fun i b => by simp) _

theorem passesFrom_length (A : Arith α) (T : Coeffs α) (n fuel l : Nat) (b : List α) :
    (passesFrom A T n fuel l b).length = b.length := by
  induction fuel generalizing l b with
  | zero => rfl
  | succ fuel ih =>
    unfold passesFrom
    split
    · rw [ih, pass4_length]
    · split <;> simp

@[simp] theorem passes_length (A : Arith α) (T : Coeffs α) (n : Nat) (b : List α) :
    (passes A T n b).length = b.length := passesFrom_length ..

@[simp] theorem rftf_length (A : Arith α) (T : Coeffs α) (N : Nat) (b : List α) :
    (rftf A T N b).length = b.length := loop_length (fun i b => by simp [rftfPair]) _

@[simp] theorem negateCell_length (A : Arith α) (b : List α) (j : Nat) :
    (negateCell A b j).length = b.length := by simp [negateCell]

@[simp] theorem rftb_length (A : Arith α) (T : Coeffs α) (N : Nat) (b : List α) :
    (rftb A T N b).length = b.length := by
  rw [rftb, negateCell_length, loop_length (fun i b => by simp [rftbPair]), negateCell_length]

@[simp] theorem dcnyqF_length (A : Arith α) (b : List α) : (dcnyqF A b).length = b.length := by simp [dcnyqF]

@[simp] theorem dcnyqB_length (A : Arith α) (b : List α) : (dcnyqB A b).length = b.length := by simp [dcnyqB]

@[simp] theorem copyCells_length (A : Arith α) (N : Nat) (src dst : List α) :
    (copyCells A N src dst).length = dst.length := loop_length (fun i b => by simp) _

@[simp] theorem scaleMidpoint_length (A : Arith α) (T : Coeffs α) (N : Nat) (b : List α) :
    (scaleMidpoint A T N b).length = b.length := by simp [scaleMidpoint]

@[simp] theorem dctSub_length (A : Arith α) (T : Coeffs α) (N : Nat) (b : List α) :
    (dctSub A T N b).length = b.length := by
  rw [dctSub, scaleMidpoint_length, loop_length fun i b => by simp [dctSubPair]]

@[simp] theorem dstSub_length (A : Arith α) (T : Coeffs α) (N : Nat) (b : List α) :
    (dstSub A T N b).length = b.length := by
  rw [dstSub, scaleMidpoint_length, loop_length fun i b => by simp [dstSubPair]]

@[simp] theorem dctPre_length (A : Arith α) (N : Nat) (b : List α) : (dctPre A N b).length = b.length := by
  simp only [dctPre, List.length_set]
  exact loop_length (fun i b => by simp) _

@[simp] theorem dctPost_length (A : Arith α) (N : Nat) (b : List α) : (dctPost A N b).length = b.length := by
  simp only [dctPost, List.length_set]
  rw [loop_length fun i b => by simp, List.length_set]

@[simp] theorem dstPre_length (A : Arith α) (N : Nat) (b : List α) : (dstPre A N b).length = b.length := by
  simp only [dstPre, List.length_set]
  exact loop_length (fun i b => by simp) _

@[simp] theorem dstPost_length (A : Arith α) (N : Nat) (b : List α) : (dstPost A N b).length = b.length := by
  simp only [dstPost, List.length_set]
  rw [loop_length fun i b => by simp, List.length_set]

@[simp] theorem stagesCdftF_length (A : Arith α) (T : Coeffs α) (e : BrEntry) (n : Nat) (b : List α) :
    (stagesCdftF A T e n b).length = b.length := by simp [stagesCdftF]

@[simp] theorem stagesCdftI_length (A : Arith α) (T : Coeffs α) (e : BrEntry) (n : Nat) (b : List α) :
    (stagesCdftI A T e n b).length = b.length := by simp [stagesCdftI]

@[simp] theorem stagesCdftoF_length (A : Arith α) (T : Coeffs α) (n : Nat) (src dst : List α) :
    (stagesCdftoF A T n src dst).length = dst.length := by simp [stagesCdftoF]

@[simp] theorem stagesCdftoI_length (A : Arith α) (T : Coeffs α) (n : Nat) (src dst : List α) :
    (stagesCdftoI A T n src dst).length = dst.length := by simp [stagesCdftoI]

@[simp] theorem stagesRdftF_length (A : Arith α) (T : Coeffs α) (e : BrEntry) (N : Nat) (b : List α) :
    (stagesRdftF A T e N b).length = b.length := by simp [stagesRdftF]

@[simp] theorem stagesRdftI_length (A : Arith α) (T : Coeffs α) (e : BrEntry) (N : Nat) (b : List α) :
    (stagesRdftI A T e N b).length = b.length := by simp [stagesRdftI]

@[simp] theorem stagesRdftoF_length (A : Arith α) (T : Coeffs α) (e : BrEntry) (N : Nat) (src dst : List α) :
    (stagesRdftoF A T e N src dst).length = dst.length := by simp [stagesRdftoF]

@[simp] theorem stagesRdftoI_length (A : Arith α) (T : Coeffs α) (e : BrEntry) (N : Nat) (src dst : List α) :
    (stagesRdftoI A T e N src dst).length = dst.length := by simp [stagesRdftoI]

@[simp] theorem stagesDctF_length (A : Arith α) (T : Coeffs α) (e : BrEntry) (N : Nat) (b : List α) :
    (stagesDctF A T e N b).length = b.length := by simp [stagesDctF, backwardCore]

@[simp] theorem stagesDctI_length (A : Arith α) (T : Coeffs α) (e : BrEntry) (N : Nat) (b : List α) :
    (stagesDctI A T e N b).length = b.length := by simp [stagesDctI, forwardCore]

@[simp] theorem stagesDstF_length (A : Arith α) (T : Coeffs α) (e : BrEntry) (N : Nat) (b : List α) :
    (stagesDstF A T e N b).length = b.length := by simp [stagesDstF, backwardCore]

@[simp] theorem stagesDstI_length (A : Arith α) (T : Coeffs α) (e : BrEntry) (N : Nat) (b : List α) :
    (stagesDstI A T e N b).length = b.length := by simp [stagesDstI, forwardCore]

/-! ### Which table entries a stage reads -/

/-- Two sets of coefficients that agree on the first `nt` twiddle and the first `nc` cosine entries. -/
def Coeffs.agree (T T' : Coeffs α) (nt nc : Nat) : Prop :=
  (∀ k < nt, T.tw k = T'.tw k) ∧ ∀ i < nc, T.ct i = T'.ct i

theorem twiddles_congr (A : Arith α) {T T' : Coeffs α} {k nt : Nat} (h : ∀ k < nt, T.tw k = T'.tw k)
    (hk : k < nt) : twiddles A T k = twiddles A T' k := by
  have h2 : T.tw (k / 2) = T'.tw (k / 2) := h _ (by omega)
  simp only [twiddles, h k hk, h2]

theorem pass4_congr (A : Arith α) {T T' : Coeffs α} {n l : Nat} (h : ∀ k < n / 4, T.tw k = T'.tw k)
    (hl : 1 ≤ l) (b : List α) : pass4 A T n l b = pass4 A T' n l b := by
  refine loop_congr _ fun k hk b => loop_congr _ fun j _ b => ?_
  have : k < n / 4 := by
    have : n / (4 * l) ≤ n / 4 := Nat.div_le_div_left (by omega) (by omega)
    omega
  simp only [passButterfly, twiddles_congr A h this]

theorem passesFrom_congr (A : Arith α) {T T' : Coeffs α} {n : Nat} (h : ∀ k < n / 4, T.tw k = T'.tw k)
    (fuel : Nat) {l : Nat} (hl : 1 ≤ l) (b : List α) :
    passesFrom A T n fuel l b = passesFrom A T' n fuel l b := by
  induction fuel generalizing l b with
  | zero => rfl
  | succ fuel ih =>
    simp only [passesFrom, pass4_congr A h hl]
    split
    · exact ih (by omega) _
    · rfl

/-- `PASSES` reads only the first n/4 twiddle entries (42_butterfly_engine.md R170). -/
theorem passes_congr (A : Arith α) {T T' : Coeffs α} {n : Nat} (h : ∀ k < n / 4, T.tw k = T'.tw k)
    (b : List α) : passes A T n b = passes A T' n b := passesFrom_congr A h _ (by omega) b

theorem halfCosine_congr {T T' : Coeffs α} {m : Nat} (h : ∀ i < m, T.ct i = T'.ct i) (hm : m ≠ 0) (x : Nat) :
    halfCosine T x (log2 m) = halfCosine T' x (log2 m) := h _ (rev_log2_lt x hm)

theorem realTwiddle_congr (A : Arith α) {T T' : Coeffs α} {N : Nat} (h : ∀ i < N / 4, T.ct i = T'.ct i)
    (hN : 4 ≤ N) (t : Nat) : realTwiddle A T N t = realTwiddle A T' N t := by
  simp only [realTwiddle, halfCosine_congr h (show N / 4 ≠ 0 by omega)]

/-- `RFTF` reads only the first N/4 cosine entries (43_real_adapter.md R192). -/
theorem rftf_congr (A : Arith α) {T T' : Coeffs α} {N : Nat} (h : ∀ i < N / 4, T.ct i = T'.ct i)
    (hN : 4 ≤ N) (b : List α) : rftf A T N b = rftf A T' N b :=
  loop_congr _ fun i _ b => by simp only [rftfPair, realTwiddle_congr A h hN]

/-- `RFTB` reads only the first N/4 cosine entries (43_real_adapter.md R193). -/
theorem rftb_congr (A : Arith α) {T T' : Coeffs α} {N : Nat} (h : ∀ i < N / 4, T.ct i = T'.ct i)
    (hN : 4 ≤ N) (b : List α) : rftb A T N b = rftb A T' N b := by
  unfold rftb
  congr 1
  exact loop_congr _ fun i _ b => by simp only [rftbPair, realTwiddle_congr A h hN]

theorem cosTwiddle_congr (A : Arith α) {T T' : Coeffs α} {N : Nat} (h : ∀ i < N, T.ct i = T'.ct i)
    (hN : N ≠ 0) (j : Nat) : cosTwiddle A T N j = cosTwiddle A T' N j := by
  simp only [cosTwiddle, halfCosine_congr h hN]

/-- `DCTSUB` reads only the first N cosine entries (44_dct_dst_adapter.md R211). -/
theorem dctSub_congr (A : Arith α) {T T' : Coeffs α} {N : Nat} (h : ∀ i < N, T.ct i = T'.ct i)
    (hN : N ≠ 0) (b : List α) : dctSub A T N b = dctSub A T' N b := by
  simp only [dctSub, scaleMidpoint, h 0 (by omega), dctSubPair, cosTwiddle_congr A h hN]

/-- `DSTSUB` reads only the first N cosine entries (44_dct_dst_adapter.md R212). -/
theorem dstSub_congr (A : Arith α) {T T' : Coeffs α} {N : Nat} (h : ∀ i < N, T.ct i = T'.ct i)
    (hN : N ≠ 0) (b : List α) : dstSub A T N b = dstSub A T' N b := by
  simp only [dstSub, scaleMidpoint, h 0 (by omega), dstSubPair, cosTwiddle_congr A h hN]

end Sys2Proof.Machine
end

