-- ==== Sys2Proof/Laws/State.lean ====
section
/-! SUPPORT. What each update of the state leaves in each field: true by definition, for simp. -/

namespace Sys2Proof.Machine

/-! ### The fields of `STATUS` -/

@[simp] theorem Status.started_halt (s : Status) : (s.started).halt = s.halt := rfl
@[simp] theorem Status.started_done (s : Status) : (s.started).done = false := rfl
@[simp] theorem Status.started_cause (s : Status) : (s.started).cause = s.cause := rfl
@[simp] theorem Status.completed_halt (s : Status) : (s.completed).halt = s.halt := rfl
@[simp] theorem Status.completed_done (s : Status) : (s.completed).done = true := rfl
@[simp] theorem Status.completed_cause (s : Status) : (s.completed).cause = s.cause := rfl
@[simp] theorem Status.aborted_halt (s : Status) (c : Cause) : (s.aborted c).halt = true := rfl
@[simp] theorem Status.aborted_done (s : Status) (c : Cause) : (s.aborted c).done = s.done := rfl
@[simp] theorem Status.aborted_cause (s : Status) (c : Cause) : (s.aborted c).cause = c := rfl

/-! ### startCommand -/

@[simp] theorem State.startCommand_inst (s : State) (w : Word) : (s.startCommand w).inst = s.inst := rfl
@[simp] theorem State.startCommand_cmd (s : State) (w : Word) : (s.startCommand w).cmd = w := rfl
@[simp] theorem State.startCommand_len (s : State) (w : Word) : (s.startCommand w).len = s.len := rfl
@[simp] theorem State.startCommand_src (s : State) (w : Word) : (s.startCommand w).src = s.src := rfl
@[simp] theorem State.startCommand_dst (s : State) (w : Word) : (s.startCommand w).dst = s.dst := rfl
@[simp] theorem State.startCommand_status (s : State) (w : Word) :
    (s.startCommand w).status = s.status.started := rfl
@[simp] theorem State.startCommand_nw (s : State) (w : Word) : (s.startCommand w).nw = s.nw := rfl
@[simp] theorem State.startCommand_nc (s : State) (w : Word) : (s.startCommand w).nc = s.nc := rfl
@[simp] theorem State.startCommand_tw (s : State) (w : Word) : (s.startCommand w).tw = s.tw := rfl
@[simp] theorem State.startCommand_ct (s : State) (w : Word) : (s.startCommand w).ct = s.ct := rfl
@[simp] theorem State.startCommand_br (s : State) (w : Word) : (s.startCommand w).br = s.br := rfl
@[simp] theorem State.startCommand_seq (s : State) (w : Word) : (s.startCommand w).seq = .running w 0 := rfl
@[simp] theorem State.startCommand_mem (s : State) (w : Word) : (s.startCommand w).mem = s.mem := rfl
@[simp] theorem State.startCommand_host (s : State) (w : Word) : (s.startCommand w).host = s.host := rfl
@[simp] theorem State.startCommand_hostRead (s : State) (w : Word) : (s.startCommand w).hostRead = s.hostRead := rfl
@[simp] theorem State.startCommand_freeCount (s : State) (w : Word) :
    (s.startCommand w).freeCount = s.freeCount := rfl

/-! ### abort -/

@[simp] theorem State.abort_inst (s : State) (c : Cause) : (s.abort c).inst = s.inst := rfl
@[simp] theorem State.abort_cmd (s : State) (c : Cause) : (s.abort c).cmd = s.cmd := rfl
@[simp] theorem State.abort_len (s : State) (c : Cause) : (s.abort c).len = s.len := rfl
@[simp] theorem State.abort_src (s : State) (c : Cause) : (s.abort c).src = s.src := rfl
@[simp] theorem State.abort_dst (s : State) (c : Cause) : (s.abort c).dst = s.dst := rfl
@[simp] theorem State.abort_status (s : State) (c : Cause) : (s.abort c).status = s.status.aborted c := rfl
@[simp] theorem State.abort_nw (s : State) (c : Cause) : (s.abort c).nw = s.nw := rfl
@[simp] theorem State.abort_nc (s : State) (c : Cause) : (s.abort c).nc = s.nc := rfl
@[simp] theorem State.abort_tw (s : State) (c : Cause) : (s.abort c).tw = s.tw := rfl
@[simp] theorem State.abort_ct (s : State) (c : Cause) : (s.abort c).ct = s.ct := rfl
@[simp] theorem State.abort_br (s : State) (c : Cause) : (s.abort c).br = s.br := rfl
@[simp] theorem State.abort_seq (s : State) (c : Cause) : (s.abort c).seq = .idle := rfl
@[simp] theorem State.abort_mem (s : State) (c : Cause) : (s.abort c).mem = s.mem := rfl
@[simp] theorem State.abort_host (s : State) (c : Cause) : (s.abort c).host = s.host := rfl
@[simp] theorem State.abort_hostRead (s : State) (c : Cause) : (s.abort c).hostRead = s.hostRead := rfl
@[simp] theorem State.abort_freeCount (s : State) (c : Cause) : (s.abort c).freeCount = s.freeCount := rfl

/-! ### complete -/

@[simp] theorem State.complete_inst (s : State) : (s.complete).inst = s.inst := rfl
@[simp] theorem State.complete_cmd (s : State) : (s.complete).cmd = s.cmd := rfl
@[simp] theorem State.complete_len (s : State) : (s.complete).len = s.len := rfl
@[simp] theorem State.complete_src (s : State) : (s.complete).src = s.src := rfl
@[simp] theorem State.complete_dst (s : State) : (s.complete).dst = s.dst := rfl
@[simp] theorem State.complete_status (s : State) : (s.complete).status = s.status.completed := rfl
@[simp] theorem State.complete_nw (s : State) : (s.complete).nw = s.nw := rfl
@[simp] theorem State.complete_nc (s : State) : (s.complete).nc = s.nc := rfl
@[simp] theorem State.complete_tw (s : State) : (s.complete).tw = s.tw := rfl
@[simp] theorem State.complete_ct (s : State) : (s.complete).ct = s.ct := rfl
@[simp] theorem State.complete_br (s : State) : (s.complete).br = s.br := rfl
@[simp] theorem State.complete_seq (s : State) : (s.complete).seq = .idle := rfl
@[simp] theorem State.complete_mem (s : State) : (s.complete).mem = s.mem := rfl
@[simp] theorem State.complete_host (s : State) : (s.complete).host = s.host := rfl
@[simp] theorem State.complete_hostRead (s : State) : (s.complete).hostRead = s.hostRead := rfl
@[simp] theorem State.complete_freeCount (s : State) : (s.complete).freeCount = s.freeCount := rfl

/-! ### storeSamples -/

@[simp] theorem State.storeSamples_inst (s : State) (base : Nat) (b : List Sample) :
    (s.storeSamples base b).inst = s.inst := rfl
@[simp] theorem State.storeSamples_cmd (s : State) (base : Nat) (b : List Sample) :
    (s.storeSamples base b).cmd = s.cmd := rfl
@[simp] theorem State.storeSamples_len (s : State) (base : Nat) (b : List Sample) :
    (s.storeSamples base b).len = s.len := rfl
@[simp] theorem State.storeSamples_src (s : State) (base : Nat) (b : List Sample) :
    (s.storeSamples base b).src = s.src := rfl
@[simp] theorem State.storeSamples_dst (s : State) (base : Nat) (b : List Sample) :
    (s.storeSamples base b).dst = s.dst := rfl
@[simp] theorem State.storeSamples_status (s : State) (base : Nat) (b : List Sample) :
    (s.storeSamples base b).status = s.status := rfl
@[simp] theorem State.storeSamples_nw (s : State) (base : Nat) (b : List Sample) :
    (s.storeSamples base b).nw = s.nw := rfl
@[simp] theorem State.storeSamples_nc (s : State) (base : Nat) (b : List Sample) :
    (s.storeSamples base b).nc = s.nc := rfl
@[simp] theorem State.storeSamples_tw (s : State) (base : Nat) (b : List Sample) :
    (s.storeSamples base b).tw = s.tw := rfl
@[simp] theorem State.storeSamples_ct (s : State) (base : Nat) (b : List Sample) :
    (s.storeSamples base b).ct = s.ct := rfl
@[simp] theorem State.storeSamples_br (s : State) (base : Nat) (b : List Sample) :
    (s.storeSamples base b).br = s.br := rfl
@[simp] theorem State.storeSamples_seq (s : State) (base : Nat) (b : List Sample) :
    (s.storeSamples base b).seq = s.seq := rfl
@[simp] theorem State.storeSamples_mem (s : State) (base : Nat) (b : List Sample) :
    (s.storeSamples base b).mem = storeCells s.inst s.mem base (settleSamples s.inst.fmt s.freeCount b) := rfl
@[simp] theorem State.storeSamples_host (s : State) (base : Nat) (b : List Sample) :
    (s.storeSamples base b).host = s.host := rfl
@[simp] theorem State.storeSamples_hostRead (s : State) (base : Nat) (b : List Sample) :
    (s.storeSamples base b).hostRead = s.hostRead := rfl
@[simp] theorem State.storeSamples_freeCount (s : State) (base : Nat) (b : List Sample) :
    (s.storeSamples base b).freeCount = s.freeCount + b.length := rfl

/-! ### engineReset -/

@[simp] theorem State.engineReset_inst (s : State) : (s.engineReset).inst = s.inst := rfl
@[simp] theorem State.engineReset_cmd (s : State) : (s.engineReset).cmd = State.reset.cmd := rfl
@[simp] theorem State.engineReset_len (s : State) : (s.engineReset).len = State.reset.len := rfl
@[simp] theorem State.engineReset_src (s : State) : (s.engineReset).src = State.reset.src := rfl
@[simp] theorem State.engineReset_dst (s : State) : (s.engineReset).dst = State.reset.dst := rfl
@[simp] theorem State.engineReset_status (s : State) : (s.engineReset).status = State.reset.status := rfl
@[simp] theorem State.engineReset_nw (s : State) : (s.engineReset).nw = State.reset.nw := rfl
@[simp] theorem State.engineReset_nc (s : State) : (s.engineReset).nc = State.reset.nc := rfl
@[simp] theorem State.engineReset_tw (s : State) : (s.engineReset).tw = State.reset.tw := rfl
@[simp] theorem State.engineReset_ct (s : State) : (s.engineReset).ct = State.reset.ct := rfl
@[simp] theorem State.engineReset_br (s : State) : (s.engineReset).br = State.reset.br := rfl
@[simp] theorem State.engineReset_seq (s : State) : (s.engineReset).seq = State.reset.seq := rfl
@[simp] theorem State.engineReset_mem (s : State) : (s.engineReset).mem = s.mem := rfl
@[simp] theorem State.engineReset_host (s : State) : (s.engineReset).host = s.host := rfl
@[simp] theorem State.engineReset_hostRead (s : State) : (s.engineReset).hostRead = s.hostRead := rfl
@[simp] theorem State.engineReset_freeCount (s : State) : (s.engineReset).freeCount = s.freeCount := rfl

end Sys2Proof.Machine
end

