-- ==== Sys2Proof/Laws/Tables.lean ====
section
/-! SUPPORT. Laws of the operand checks and of the table procedures: what `ensure_twiddle`, `ensure_cosine` and
`permutation_for` do to the tables, and that they do nothing else. -/

namespace Sys2Proof.Machine

/-! ### Powers of two and the checks -/

/-- `ispow2` (00_scope.md R13) is being a power of two. -/
theorem isPow2_iff (n : Nat) : isPow2 n = true ↔ ∃ k, n = 2 ^ k := by
  constructor
  · intro h
    simp only [isPow2, bne_iff_ne, ne_eq, Bool.and_eq_true, beq_iff_eq] at h
    obtain ⟨h0, h1⟩ := h
    have h0 : n ≠ 0 := by simpa using h0
    refine ⟨Nat.log2 n, ?_⟩
    by_contra hne
    have hle : 2 ^ Nat.log2 n ≤ n - 1 := by have := Nat.log2_self_le h0; omega
    have hlt : n < 2 ^ (Nat.log2 n + 1) := (Nat.log2_lt h0).mp (Nat.lt_succ_self _)
    have t1 : n.testBit (Nat.log2 n) = true := Nat.testBit_log2 h0
    have t2 : (n - 1).testBit (Nat.log2 n) = true :=
      Nat.testBit_of_two_pow_le_and_two_pow_add_one_gt hle (by omega)
    have t3 := congrArg (fun x => x.testBit (Nat.log2 n)) h1
    simp [t1, t2] at t3
  · rintro ⟨k, rfl⟩
    simp only [isPow2, bne_iff_ne, ne_eq, Bool.and_eq_true, beq_iff_eq]
    exact ⟨by simp, Nat.and_two_pow_sub_one_eq_mod _ _ ▸ by simp⟩

@[simp] theorem log2_two_pow (k : Nat) : log2 (2 ^ k) = k := Nat.log2_two_pow

theorem log2Nmax_le (p : Params) : log2Nmax p ≤ 30 := by unfold log2Nmax; omega

theorem two_le_log2Nmax (p : Params) : 2 ≤ log2Nmax p := by unfold log2Nmax; omega

theorem nmax_le (p : Params) : nmax p ≤ 2 ^ 30 := Nat.pow_le_pow_right (by omega) (log2Nmax_le p)

/-- `CHECKLEN` passes exactly the admitted lengths (45_command_api.md R233). -/
theorem checkLen_eq_none_iff (p : Params) (n min : Nat) :
    checkLen p n min = none ↔ lengthAdmitted p min n := by
  unfold checkLen lengthAdmitted
  rw [← isPow2_iff]
  cases isPow2 n <;> simp
  split
  · simp; omega
  · split <;> simp <;> omega

theorem lengthAdmitted.le_order {p : Params} {min k : Nat} (h : lengthAdmitted p min (2 ^ k)) :
    k ≤ log2Nmax p := (Nat.pow_le_pow_iff_right (by omega)).mp h.2.2

/-! ### The coefficient generator (40_table_cache.md R122, R123) -/

@[simp] theorem romCos_zero (p : Params) (d : Nat) : romCos p 0 d = oneBits p.fmt := rfl

@[simp] theorem romSin_zero (p : Params) (d : Nat) : romSin p 0 d = 0#64 := rfl

/-- Everything `ROMSIN` is at f ≠ 0. -/
theorem romSin_of_ne_zero (p : Params) {num : Nat} (d : Nat) (h : num ≠ 0) :
    romSin p num d = romCos p (2 ^ d - num) d := if_neg h

/-- A value the instance lists and that has the property P3 is its own. -/
theorem romCos_of_listed {p : Params} {num d : Nat} {v : CellBits} (h : num ≠ 0) (hv : romListed p num d = some v) :
    romCos p num d = v := by simp [romCos, h, hv]

/-- A value the instance does not list is that of the series. -/
theorem romCos_of_unlisted {p : Params} {num d : Nat} (h : num ≠ 0) (hv : romListed p num d = none) :
    romCos p num d = seriesCos p.fmt num d := by simp [romCos, h, hv]

/-- An instance that lists nothing has the series everywhere. -/
theorem romListed_of_rom_nil {p : Params} (h : p.rom = []) (num d : Nat) : romListed p num d = none := by
  simp [romListed, h]

/-! ### What the table procedures leave alone -/

theorem ensureTwiddle_eq (m : Nat) (s : State) :
    ensureTwiddle m s = { s with
      tw := (ensureTwiddle m s).tw
      nw := (ensureTwiddle m s).nw } := by
  unfold ensureTwiddle; split <;> rfl

theorem ensureCosine_eq (m : Nat) (s : State) :
    ensureCosine m s = { s with
      ct := (ensureCosine m s).ct
      nc := (ensureCosine m s).nc } := by
  unfold ensureCosine; split <;> rfl

theorem permutationFor_eq (o : Nat) (s : State) :
    permutationFor o s = { s with br := (permutationFor o s).br } := by
  unfold permutationFor; split <;> rfl

theorem prepareComplex_eq (n : Nat) (s : State) :
    prepareComplex n s = { s with
      tw := (prepareComplex n s).tw
      nw := (prepareComplex n s).nw
      br := (prepareComplex n s).br } := by
  unfold prepareComplex
  split
  · rw [permutationFor_eq, ensureTwiddle_eq]
  · rw [ensureTwiddle_eq]

theorem prepareReal_eq (N c : Nat) (s : State) :
    prepareReal N c s = { s with
      tw := (prepareReal N c s).tw
      nw := (prepareReal N c s).nw
      ct := (prepareReal N c s).ct
      nc := (prepareReal N c s).nc
      br := (prepareReal N c s).br } := by
  unfold prepareReal
  split
  · rw [permutationFor_eq, ensureCosine_eq, ensureTwiddle_eq]
  · rw [ensureCosine_eq, ensureTwiddle_eq]

/-! ### The coefficient tables -/

theorem growTable_prefix {α : Type} (t : List α) (hi : Nat) (rom : Nat → α) :
    t <+: growTable t t.length hi rom := by simp [growTable]

theorem growTable_valid {α : Type} {t : List α} {lo hi : Nat} {rom : Nat → α} (hl : t.length = lo) (hlo : lo ≤ hi)
    (ht : ∀ k < lo, t[k]? = some (rom k)) :
    (growTable t lo hi rom).length = hi ∧ ∀ k < hi, (growTable t lo hi rom)[k]? = some (rom k) := by
  subst hl
  refine ⟨by simp [growTable]; omega, fun k hk => ?_⟩
  simp only [growTable, List.take_length]
  by_cases h : k < t.length
  · rw [List.getElem?_append_left h, ht k h]
  · rw [List.getElem?_append_right (by omega), List.getElem?_map, List.getElem?_range (by omega), Option.map_some,
      show t.length + (k - t.length) = k by omega]

/-- After `ensure_twiddle(m)`, `NW` = max(old `NW`, m) (40_table_cache.md R126). -/
theorem ensureTwiddle_nw {m : Nat} (s : State) (hm : m < 2 ^ 32) :
    (ensureTwiddle m s).nw.toNat = max s.nw.toNat m := by
  unfold ensureTwiddle
  split
  · omega
  · simp only [BitVec.toNat_ofNat, Nat.mod_eq_of_lt hm]; omega

theorem ensureTwiddle_valid {m : Nat} {s : State} (hm : m < 2 ^ 32) (h : s.twValid) :
    (ensureTwiddle m s).twValid := by
  unfold ensureTwiddle
  split
  · exact h
  · simp only [State.twValid, BitVec.toNat_ofNat, Nat.mod_eq_of_lt hm]
    exact growTable_valid h.1 (by omega) h.2

theorem ensureTwiddle_prefix {s : State} (m : Nat) (h : s.twValid) : s.tw <+: (ensureTwiddle m s).tw := by
  unfold ensureTwiddle
  split
  · exact List.prefix_refl _
  · rw [← h.1]; exact growTable_prefix ..

theorem ensureCosine_nc {m : Nat} (s : State) (hm : m < 2 ^ 32) :
    (ensureCosine m s).nc.toNat = max s.nc.toNat m := by
  unfold ensureCosine
  split
  · omega
  · simp only [BitVec.toNat_ofNat, Nat.mod_eq_of_lt hm]; omega

theorem ensureCosine_valid {m : Nat} {s : State} (hm : m < 2 ^ 32) (h : s.ctValid) :
    (ensureCosine m s).ctValid := by
  unfold ensureCosine
  split
  · exact h
  · simp only [State.ctValid, BitVec.toNat_ofNat, Nat.mod_eq_of_lt hm]
    exact growTable_valid h.1 (by omega) h.2

theorem ensureCosine_prefix {s : State} (m : Nat) (h : s.ctValid) : s.ct <+: (ensureCosine m s).ct := by
  unfold ensureCosine
  split
  · exact List.prefix_refl _
  · rw [← h.1]; exact growTable_prefix ..

/-! ### The bit-reversal tables -/

theorem seedLoop_length (fuel : Nat) (ip : List Nat) (m rest : Nat) (h : ip.length = m) :
    (seedLoop fuel ip m rest).1.length = (seedLoop fuel ip m rest).2.1 := by
  induction fuel generalizing ip m rest with
  | zero => exact h
  | succ fuel ih =>
    unfold seedLoop
    split
    · exact ih _ _ _ (by simp [h]; omega)
    · exact h

@[simp] theorem buildBr_order (o : Nat) : (buildBr o).order = o := rfl

theorem mem_insertBr {e x : BrEntry} {l : List BrEntry} : x ∈ insertBr e l ↔ x = e ∨ x ∈ l := by
  induction l with
  | nil => simp [insertBr]
  | cons y l ih =>
    unfold insertBr
    split
    · simp
    · simp only [List.mem_cons, ih]; tauto

theorem insertBr_pairwise {e : BrEntry} {l : List BrEntry} (h : l.Pairwise fun x y => x.order < y.order)
    (he : ∀ x ∈ l, x.order ≠ e.order) : (insertBr e l).Pairwise fun x y => x.order < y.order := by
  induction l with
  | nil => simp [insertBr]
  | cons y l ih =>
    rw [List.pairwise_cons] at h
    unfold insertBr
    split
    · refine List.pairwise_cons.mpr ⟨fun x hx => ?_, List.pairwise_cons.mpr h⟩
      rcases List.mem_cons.mp hx with rfl | hx
      · assumption
      · exact lt_trans ‹_› (h.1 x hx)
    · refine List.pairwise_cons.mpr ⟨fun x hx => ?_, ih h.2 fun x hx => he x (by simp [hx])⟩
      rcases mem_insertBr.mp hx with rfl | hx
      · have := he y (by simp); omega
      · exact h.1 x hx

/-- In a valid store, looking up an order finds exactly the listed entry of that order. -/
theorem State.brLookup_eq_some_iff {s : State} (h : s.brTablesValid) {o : Nat} {e : BrEntry} :
    s.brLookup o = some e ↔ e ∈ s.br ∧ e.order = o := by
  constructor
  · intro hf
    exact ⟨List.mem_of_find?_eq_some hf, by simpa using List.find?_some hf⟩
  · rintro ⟨he, rfl⟩
    cases hf : s.brLookup e.order with
    | none =>
      have := List.find?_eq_none.mp hf e he
      simp at this
    | some x =>
      have hx := List.mem_of_find?_eq_some hf
      have ho : x.order = e.order := by simpa using List.find?_some hf
      rw [(h.1 x hx).1, ho, ← (h.1 e he).1]

theorem State.brLookup_eq_buildBr {s : State} (h : s.brTablesValid) {o : Nat} {e : BrEntry}
    (he : s.brLookup o = some e) : e = buildBr o := by
  obtain ⟨hm, rfl⟩ := (State.brLookup_eq_some_iff h).mp he
  exact (h.1 e hm).1

theorem State.brLookup_eq_none_iff (s : State) (o : Nat) : s.brLookup o = none ↔ ∀ e ∈ s.br, e.order ≠ o := by
  simp [State.brLookup]

theorem permutationFor_valid {o : Nat} {s : State} (h : s.brTablesValid) (h1 : 1 ≤ o)
    (h2 : o ≤ log2Nmax s.inst) : (permutationFor o s).brTablesValid := by
  unfold permutationFor
  split
  · exact h
  · rename_i hc
    have hn : ∀ e ∈ s.br, e.order ≠ o := (s.brLookup_eq_none_iff o).mp (Option.not_isSome_iff_eq_none.mp hc)
    refine ⟨fun e he => ?_, insertBr_pairwise h.2 hn⟩
    rcases mem_insertBr.mp he with rfl | he
    · exact ⟨rfl, h1, h2⟩
    · exact h.1 e he

/-- After `permutation_for(o)` the table of order `o` is cached and every other order is as it was
(41_bitrev_permuter.md R140). -/
theorem permutationFor_lookup {o : Nat} {s : State} (h : s.brTablesValid) (h1 : 1 ≤ o)
    (h2 : o ≤ log2Nmax s.inst) (x : Nat) :
    (permutationFor o s).brLookup x = if x = o then some (buildBr o) else s.brLookup x := by
  have hv := permutationFor_valid h h1 h2
  by_cases hc : (s.brLookup o).isSome
  · rw [permutationFor, if_pos hc]
    split
    · subst x
      obtain ⟨e, he⟩ := Option.isSome_iff_exists.mp hc
      rw [he, State.brLookup_eq_buildBr h he]
    · rfl
  · have hbr : (permutationFor o s).br = insertBr (buildBr o) s.br := by rw [permutationFor, if_neg hc]
    split
    · subst x
      exact (State.brLookup_eq_some_iff hv).mpr ⟨hbr ▸ mem_insertBr.mpr (.inl rfl), rfl⟩
    · cases hx : s.brLookup x with
      | none =>
        rw [State.brLookup_eq_none_iff] at hx ⊢
        intro e he
        rcases mem_insertBr.mp (hbr ▸ he) with rfl | he
        · exact fun hh => ‹¬ x = o› hh.symm
        · exact hx e he
      | some e =>
        obtain ⟨he, ho⟩ := (State.brLookup_eq_some_iff h).mp hx
        exact (State.brLookup_eq_some_iff hv).mpr ⟨hbr ▸ mem_insertBr.mpr (.inr he), ho⟩

theorem State.brEntry_eq {s : State} (h : s.brTablesValid) (o : Nat) : s.brEntry o = buildBr o := by
  unfold State.brEntry
  cases hx : s.brLookup o with
  | none => rfl
  | some e => simp [State.brLookup_eq_buildBr h hx]

/-! ### What the stages read of valid tables -/

/-- The valid entries of a state's tables are those of the coefficient generator. -/
theorem State.coeffs_tw {s : State} (h : s.twValid) {k : Nat} (hk : k < s.nw.toNat) :
    s.coeffs.tw k = (romCoeffs s.inst).tw k := by
  simp [State.coeffs, State.twEntry, romCoeffs, List.getD_eq_getElem?_getD, h.2 k hk]

theorem State.coeffs_ct {s : State} (h : s.ctValid) {i : Nat} (hi : i < s.nc.toNat) :
    s.coeffs.ct i = (romCoeffs s.inst).ct i := by
  simp [State.coeffs, State.ctEntry, romCoeffs, List.getD_eq_getElem?_getD, h.2 i hi]

/-- What a complex transform's table requests leave (40_table_cache.md R133). -/
theorem prepareComplex_spec {s : State} (h : s.tablesValid) {k : Nat} (hk : k ≤ log2Nmax s.inst) :
    (prepareComplex (2 ^ k) s).tablesValid
      ∧ (prepareComplex (2 ^ k) s).nw.toNat = max s.nw.toNat (2 ^ k / 4)
      ∧ ∀ o, (prepareComplex (2 ^ k) s).brLookup o
          = if 4 < 2 ^ k ∧ o = k then some (buildBr k) else s.brLookup o := by
  have hn : 2 ^ k / 4 < 2 ^ 32 := by
    have := Nat.pow_le_pow_right (n := 2) (by omega) (hk.trans (log2Nmax_le s.inst)); omega
  obtain ⟨ht, hc, hb⟩ := h
  have hb' : (ensureTwiddle (2 ^ k / 4) s).brTablesValid := by rw [ensureTwiddle_eq]; exact hb
  have hi : (ensureTwiddle (2 ^ k / 4) s).inst = s.inst := by rw [ensureTwiddle_eq]
  have hlk : ∀ o, (ensureTwiddle (2 ^ k / 4) s).brLookup o = s.brLookup o := by
    intro o; rw [ensureTwiddle_eq]; rfl
  have hw := ensureTwiddle_valid hn ht
  have hcv : (ensureTwiddle (2 ^ k / 4) s).ctValid := by rw [ensureTwiddle_eq]; exact hc
  have hnw := ensureTwiddle_nw s hn
  unfold prepareComplex
  by_cases h4 : 4 < 2 ^ k
  · have hk1 : 1 ≤ k := by rcases k with _ | k <;> simp at h4 ⊢
    simp only [h4, if_true, log2_two_pow, true_and]
    refine ⟨⟨?_, ?_, permutationFor_valid hb' hk1 (hi ▸ hk)⟩, ?_, fun o => ?_⟩
    · rw [permutationFor_eq]; exact hw
    · rw [permutationFor_eq]; exact hcv
    · rw [permutationFor_eq]; exact hnw
    · rw [permutationFor_lookup hb' hk1 (hi ▸ hk), hlk]
  · simp only [h4, if_false, false_and]
    exact ⟨⟨hw, hcv, hb'⟩, hnw, hlk⟩

theorem two_pow_half (k : Nat) : 2 ^ (k + 1) / 2 = 2 ^ k := by rw [pow_succ]; omega

/-- What a real, cosine or sine transform's table requests leave (40_table_cache.md R133). -/
theorem prepareReal_spec {s : State} (h : s.tablesValid) {k c : Nat} (hk : k + 1 ≤ log2Nmax s.inst)
    (hcn : c ≤ 2 ^ (k + 1)) :
    (prepareReal (2 ^ (k + 1)) c s).tablesValid
      ∧ (prepareReal (2 ^ (k + 1)) c s).nw.toNat = max s.nw.toNat (2 ^ (k + 1) / 8)
      ∧ (prepareReal (2 ^ (k + 1)) c s).nc.toNat = max s.nc.toNat c
      ∧ ∀ o, (prepareReal (2 ^ (k + 1)) c s).brLookup o
          = if 8 < 2 ^ (k + 1) ∧ o = k then some (buildBr k) else s.brLookup o := by
  have hN : 2 ^ (k + 1) ≤ 2 ^ 30 := Nat.pow_le_pow_right (by omega) (hk.trans (log2Nmax_le s.inst))
  obtain ⟨ht, hc, hb⟩ := h
  generalize hs1 : ensureTwiddle (2 ^ (k + 1) / 8) s = s1
  have e1 : s1 = { s with tw := s1.tw, nw := s1.nw } := by rw [← hs1]; exact ensureTwiddle_eq ..
  have ht1 : s1.twValid := hs1 ▸ ensureTwiddle_valid (by omega) ht
  have hn1 : s1.nw.toNat = max s.nw.toNat (2 ^ (k + 1) / 8) := hs1 ▸ ensureTwiddle_nw s (by omega)
  have hc1 : s1.ctValid := by rw [e1]; exact hc
  generalize hs2 : ensureCosine c s1 = s2
  have e2 : s2 = { s1 with ct := s2.ct, nc := s2.nc } := by rw [← hs2]; exact ensureCosine_eq ..
  have hc2 : s2.ctValid := hs2 ▸ ensureCosine_valid (by omega) hc1
  have hm2 : s2.nc.toNat = max s.nc.toNat c := by
    rw [← hs2, ensureCosine_nc s1 (by omega)]
    rw [e1]
  have ht2 : s2.twValid := by rw [e2]; exact ht1
  have hn2 : s2.nw.toNat = max s.nw.toNat (2 ^ (k + 1) / 8) := by rw [e2]; exact hn1
  have hb2 : s2.brTablesValid := by rw [e2, e1]; exact hb
  have hi2 : s2.inst = s.inst := by rw [e2, e1]
  have hlk : ∀ o, s2.brLookup o = s.brLookup o := by intro o; rw [e2, e1]; rfl
  simp only [prepareReal, hs1, hs2, two_pow_half, log2_two_pow]
  have h48 : 8 < 2 ^ (k + 1) ↔ 4 < 2 ^ k := by rw [pow_succ]; omega
  by_cases h4 : 4 < 2 ^ k
  · have hk1 : 1 ≤ k := by rcases k with _ | k <;> simp at h4 ⊢
    simp only [h4, h48, if_true, true_and]
    refine ⟨⟨?_, ?_, permutationFor_valid hb2 hk1 (by rw [hi2]; omega)⟩, ?_, ?_, fun o => ?_⟩
    · rw [permutationFor_eq]; exact ht2
    · rw [permutationFor_eq]; exact hc2
    · rw [permutationFor_eq]; exact hn2
    · rw [permutationFor_eq]; exact hm2
    · rw [permutationFor_lookup hb2 hk1 (by rw [hi2]; omega), hlk]
  · simp only [h4, h48, if_false, false_and]
    exact ⟨⟨ht2, hc2, hb2⟩, hn2, hm2, hlk⟩

end Sys2Proof.Machine
end

