-- ==== Sys2Proof/Laws/Exec.lean ====
section
/-! SUPPORT. Laws of the shared operations and of `exec`: once, everything a command can do. -/

namespace Sys2Proof.Machine

/-! ### The shared operations -/

theorem State.checked_some (s : State) (c : Cause) (go : State → Host.Outcome State Fault Refusal) :
    s.checked (some c) go = .next (s.abort c) := rfl

theorem State.checked_none (s : State) (go : State → Host.Outcome State Fault Refusal) :
    s.checked none go = go s := rfl

/-- Everything a check does: abort with the cause, or go on. -/
theorem State.checked_cases {s t : State} {c : Option Cause} {go : State → Host.Outcome State Fault Refusal}
    (h : s.checked c go = .next t) : (∃ x, c = some x ∧ t = s.abort x) ∨ (c = none ∧ go s = .next t) := by
  cases c with
  | some x => exact .inl ⟨x, rfl, by simpa [State.checked] using h.symm⟩
  | none => exact .inr ⟨rfl, h⟩

theorem State.checked_fault {s : State} {c : Option Cause} {go : State → Host.Outcome State Fault Refusal} {f : Fault}
    (h : s.checked c go = .fault f) : c = none ∧ go s = .fault f := by
  cases c with
  | some x => simp [State.checked] at h
  | none => exact ⟨rfl, h⟩

theorem State.checked_refused {s : State} {c : Option Cause} {go : State → Host.Outcome State Fault Refusal}
    {r : Refusal} (h : s.checked c go = .refused r) : c = none ∧ go s = .refused r := by
  cases c with
  | some x => simp [State.checked] at h
  | none => exact ⟨rfl, h⟩

/-- Everything an in-place command does once it has checked out. -/
theorem State.transformInPlace_next {s t : State} {cells : Nat} {f : List Sample → List Sample} :
    s.transformInPlace cells f = .next t ↔ bufferPresent s.inst s.operandD cells = true
      ∧ t = ((s.storeSamples s.operandD (f (loadSamples s.inst s.mem s.operandD cells))).complete) := by
  unfold State.transformInPlace
  split <;> simp [*, eq_comm]

/-- Everything an out-of-place command does once it has checked out. -/
theorem State.transformOutOfPlace_next {s t : State} {cells : Nat} {f : List Sample → List Sample → List Sample} :
    s.transformOutOfPlace cells f = .next t ↔ bufferPresent s.inst s.operandS cells = true
      ∧ bufferPresent s.inst s.operandD cells = true ∧ buffersDisjoint s.operandS s.operandD cells = true
      ∧ t = ((s.storeSamples s.operandD (f (loadSamples s.inst s.mem s.operandS cells)
          (loadSamples s.inst s.mem s.operandD cells))).complete) := by
  unfold State.transformOutOfPlace
  cases bufferPresent s.inst s.operandS cells <;> cases bufferPresent s.inst s.operandD cells <;>
    cases buffersDisjoint s.operandS s.operandD cells <;> simp [eq_comm]

/-! ### What a settled buffer leaves in memory -/

theorem Sample.toCell_fits (fmt : Format) (n : Nat) (v : Sample) : cellOf fmt (v.toCell fmt n) = v.toCell fmt n := by
  refine cellOf_of_fits ?_
  cases v with
  | bits b =>
    have h1 : b.toNat % 2 ^ cellWidth fmt < 2 ^ cellWidth fmt := Nat.mod_lt _ (by positivity)
    exact lt_of_le_of_lt (by simpa [Sample.toCell] using Nat.mod_le _ _) h1
  | quietNaN =>
    cases fmt with
    | binary64 => exact BitVec.isLt _
    | binary32 =>
      simp only [Sample.toCell, quietNaNBits, cellWidth, BitVec.toNat_or, BitVec.toNat_and]
      refine Nat.or_lt_two_pow (by decide) (lt_of_le_of_lt Nat.and_le_right (by decide))

theorem settleSamples_cellOf (fmt : Format) (free : Nat) (b : List Sample) :
    (settleSamples fmt free b).map (cellOf fmt) = settleSamples fmt free b := by
  induction b generalizing free with
  | nil => rfl
  | cons v b ih => simp [settleSamples, ih, Sample.toCell_fits]

/-- The destination after a store holds the settled buffer. -/
theorem loadCells_storeSamples {s : State} (base : Nat) (b : List Sample) (h : Memory.wf s.inst.fill s.mem) :
    loadCells s.inst (s.storeSamples base b).mem base b.length = settleSamples s.inst.fmt s.freeCount b := by
  have := loadCells_storeCells_same base (settleSamples s.inst.fmt s.freeCount b) h
  rwa [settleSamples_length, settleSamples_cellOf] at this

theorem memoryFrame_storeSamples (s : State) (base : Nat) (b : List Sample) :
    memoryFrame s (s.storeSamples base b) base b.length := by
  intro a ha
  exact storeCells_read_outside _ _ _ _ (by simpa using ha)

/-! ### Growing the tables -/

/-- `s'` is `s` with its tables grown, and nothing else changed (40_table_cache.md R120, R134). -/
structure Grown (s s' : State) : Prop where
  eq : s' = { s with tw := s'.tw, nw := s'.nw, ct := s'.ct, nc := s'.nc, br := s'.br }
  nw : s.nw.toNat ≤ s'.nw.toNat
  nc : s.nc.toNat ≤ s'.nc.toNat
  valid : s.tablesValid → s'.tablesValid
  kept : s.tablesValid → s.tw <+: s'.tw ∧ s.ct <+: s'.ct ∧ ∀ o e, s.brLookup o = some e → s'.brLookup o = some e
  capacity : s.withinCapacity → s'.withinCapacity

theorem Grown.refl (s : State) : Grown s s :=
  ⟨rfl, le_refl _, le_refl _, id, fun _ => ⟨List.prefix_refl _, List.prefix_refl _, fun _ _ => id⟩, id⟩

theorem Grown.trans {s t u : State} (h : Grown s t) (h' : Grown t u) : Grown s u := by
  refine ⟨?_, h.nw.trans h'.nw, h.nc.trans h'.nc, fun v => h'.valid (h.valid v), fun v => ?_,
    fun c => h'.capacity (h.capacity c)⟩
  · rw [h'.eq, h.eq]
  · obtain ⟨a1, a2, a3⟩ := h.kept v
    obtain ⟨b1, b2, b3⟩ := h'.kept (h.valid v)
    exact ⟨a1.trans b1, a2.trans b2, fun o e he => b3 o e (a3 o e he)⟩

theorem Grown.inst {s s' : State} (h : Grown s s') : s'.inst = s.inst := by rw [h.eq]

theorem grown_ensureTwiddle {s : State} {m : Nat} (hm : m ≤ twCap s.inst) : Grown s (ensureTwiddle m s) := by
  have h32 : m < 2 ^ 32 := by have := nmax_le s.inst; unfold twCap at hm; omega
  have e := ensureTwiddle_eq m s
  refine ⟨by rw [e], ?_, by rw [e], fun v => ⟨ensureTwiddle_valid h32 v.1, ?_, ?_⟩,
    fun v => ⟨ensureTwiddle_prefix m v.1, ?_, ?_⟩, fun c => ⟨?_, ?_⟩⟩
  · rw [ensureTwiddle_nw s h32]; omega
  · rw [e]; exact v.2.1
  · rw [e]; exact v.2.2
  · rw [e]
  · intro o x hx; rw [e]; exact hx
  · rw [ensureTwiddle_nw s h32, e]; exact max_le c.1 hm
  · rw [e]; exact c.2

theorem grown_ensureCosine {s : State} {m : Nat} (hm : m ≤ ctCap s.inst) : Grown s (ensureCosine m s) := by
  have h32 : m < 2 ^ 32 := by have := nmax_le s.inst; unfold ctCap at hm; omega
  have e := ensureCosine_eq m s
  refine ⟨by rw [e], by rw [e], ?_, fun v => ⟨?_, ensureCosine_valid h32 v.2.1, ?_⟩,
    fun v => ⟨?_, ensureCosine_prefix m v.2.1, ?_⟩, fun c => ⟨?_, ?_⟩⟩
  · rw [ensureCosine_nc s h32]; omega
  · rw [e]; exact v.1
  · rw [e]; exact v.2.2
  · rw [e]
  · intro o x hx; rw [e]; exact hx
  · rw [e]; exact c.1
  · rw [ensureCosine_nc s h32, e]; exact max_le c.2 hm

theorem grown_permutationFor {s : State} {o : Nat} (h1 : 1 ≤ o) (h2 : o ≤ log2Nmax s.inst) :
    Grown s (permutationFor o s) := by
  have e := permutationFor_eq o s
  refine ⟨by rw [e], by rw [e], by rw [e], fun v => ⟨?_, ?_, permutationFor_valid v.2.2 h1 h2⟩,
    fun v => ⟨by rw [e], by rw [e], ?_⟩, fun c => ?_⟩
  · rw [e]; exact v.1
  · rw [e]; exact v.2.1
  · intro x y hy
    rw [permutationFor_lookup v.2.2 h1 h2]
    split
    · subst x; rw [State.brLookup_eq_buildBr v.2.2 hy]
    · exact hy
  · rw [e]; exact c

theorem lengthAdmitted.div_le_twCap {p : Params} {min n d : Nat} (h : lengthAdmitted p min n) (hd : 4 ≤ d) :
    n / d ≤ twCap p := (Nat.div_le_div_left hd (by omega)).trans (Nat.div_le_div_right h.2.2)

theorem grown_prepareComplex {s : State} {n : Nat} (h : lengthAdmitted s.inst complexMin n) :
    Grown s (prepareComplex n s) := by
  have g1 := grown_ensureTwiddle (h.div_le_twCap (d := 4) (by omega))
  obtain ⟨⟨k, rfl⟩, -, -⟩ := id h
  unfold prepareComplex
  split
  · rw [log2_two_pow]
    refine g1.trans (grown_permutationFor ?_ ?_)
    · rcases k with _ | k <;> simp at *
    · rw [g1.inst]; exact h.le_order
  · exact g1

theorem grown_prepareReal {s : State} {N c : Nat} (h : lengthAdmitted s.inst realMin N) (hc : c ≤ N) :
    Grown s (prepareReal N c s) := by
  have g1 := grown_ensureTwiddle (h.div_le_twCap (d := 8) (by omega))
  have g2 := grown_ensureCosine (s := ensureTwiddle (N / 8) s) (m := c) (by rw [g1.inst]; exact hc.trans h.2.2)
  obtain ⟨⟨k, rfl⟩, h4, -⟩ := id h
  unfold prepareReal
  obtain ⟨k, rfl⟩ : ∃ j, k = j + 1 := ⟨k - 1, by rcases k with _ | k <;> simp [realMin] at *⟩
  rw [two_pow_half, log2_two_pow]
  split
  · refine (g1.trans g2).trans (grown_permutationFor ?_ ?_)
    · rcases k with _ | k <;> simp at *
    · rw [(g1.trans g2).inst]; have := h.le_order; omega
  · exact g1.trans g2

/-! ### Everything a command can do -/

/-- Everything a command that answers a next state has done: it aborted with a cause and changed nothing else, or it
grew the tables and stored a buffer of its own length at `DST` (nothing, for a cache command). -/
def CommandEffect (i : Instr) (s t : State) : Prop :=
  (∃ c, c ≠ Cause.none ∧ t = s.abort c)
    ∨ ∃ s' b, Grown s s' ∧ b.length = i.cells s.operandN
        ∧ bufferPresent s.inst s.operandD (i.cells s.operandN) = true
        ∧ t = (s'.storeSamples s.operandD b).complete

theorem checkLen_ne_none {p : Params} {n min : Nat} {c : Cause} (h : checkLen p n min = some c) : c ≠ .none := by
  unfold checkLen at h
  rintro rfl
  split at h
  · simp at h
  · split at h
    · simp at h
    · split at h <;> simp at h

theorem effect_inPlace {i : Instr} {s t : State} {min : Nat} {prep : State → State}
    {f : State → State → List Sample → List Sample}
    (hg : lengthAdmitted s.inst min s.operandN → Grown s (prep s))
    (hlen : ∀ u v b, (f u v b).length = b.length)
    (h : s.checked (checkLen s.inst s.operandN min)
      (fun s => (prep s).transformInPlace (i.cells s.operandN) (f s (prep s))) = .next t) : CommandEffect i s t := by
  rcases State.checked_cases h with ⟨c, hc, rfl⟩ | ⟨hc, h⟩
  · exact .inl ⟨c, checkLen_ne_none hc, rfl⟩
  · have g := hg ((checkLen_eq_none_iff ..).mp hc)
    have hd : (prep s).operandD = s.operandD := by rw [g.eq]; rfl
    obtain ⟨hb, ht⟩ := State.transformInPlace_next.mp h
    rw [hd] at ht
    rw [hd, g.inst] at hb
    exact .inr ⟨prep s, _, g, (hlen _ _ _).trans (loadSamples_length ..), hb, ht⟩

theorem effect_outOfPlace {i : Instr} {s t : State} {min : Nat} {prep : State → State}
    {f : State → State → List Sample → List Sample → List Sample}
    (hg : lengthAdmitted s.inst min s.operandN → Grown s (prep s))
    (hlen : ∀ u v b d, (f u v b d).length = d.length)
    (h : s.checked (checkLen s.inst s.operandN min)
      (fun s => (prep s).transformOutOfPlace (i.cells s.operandN) (f s (prep s))) = .next t) : CommandEffect i s t := by
  rcases State.checked_cases h with ⟨c, hc, rfl⟩ | ⟨hc, h⟩
  · exact .inl ⟨c, checkLen_ne_none hc, rfl⟩
  · have g := hg ((checkLen_eq_none_iff ..).mp hc)
    have hd : (prep s).operandD = s.operandD := by rw [g.eq]; rfl
    obtain ⟨-, hb, -, ht⟩ := State.transformOutOfPlace_next.mp h
    rw [hd] at ht
    rw [hd, g.inst] at hb
    exact .inr ⟨prep s, _, g, (hlen _ _ _ _).trans (loadSamples_length ..), hb, ht⟩

theorem effect_cache {i : Instr} {s t : State} {c : Option Cause} {prep : State → State} (hi : ∀ n, i.cells n = 0)
    (hD : s.operandD ≤ 2 ^ 32) (hne : ∀ x, c = some x → x ≠ .none) (hg : c = none → Grown s (prep s))
    (h : s.checked c (fun s => .next (prep s).complete) = .next t) : CommandEffect i s t := by
  rcases State.checked_cases h with ⟨x, hx, rfl⟩ | ⟨hc, h⟩
  · exact .inl ⟨x, hne x hx, rfl⟩
  · refine .inr ⟨prep s, [], hg hc, by simp [hi], by simpa [hi, bufferPresent] using hD, ?_⟩
    cases h
    rfl

theorem operandD_le (s : State) : s.operandD ≤ 2 ^ 32 := le_of_lt s.dst.isLt

theorem checkTwiddleSize_eq_none {p : Params} {m : Nat} (h : checkTwiddleSize p m = none) : m ≤ twCap p := by
  unfold checkTwiddleSize at h; split at h <;> simp at h; omega

theorem checkCosineSize_eq_none {p : Params} {m : Nat} (h : checkCosineSize p m = none) : m ≤ ctCap p := by
  unfold checkCosineSize at h; split at h <;> simp at h; omega

theorem checkOrder_eq_none {p : Params} {o : Nat} (h : checkOrder p o = none) : 1 ≤ o ∧ o ≤ log2Nmax p := by
  unfold checkOrder at h
  split at h
  · simp at h
  · split at h <;> simp at h; omega

/-- Everything a command can do (45_command_api.md R230). -/
theorem exec_cases {i : Instr} {s t : State} (h : exec i s = .next t) : CommandEffect i s t := by
  have hC := fun ha => grown_prepareComplex (s := s) (n := s.operandN) ha
  have hR := fun ha => grown_prepareReal (s := s) (N := s.operandN) (c := s.operandN / 4) ha (Nat.div_le_self _ _)
  have hT := fun ha => grown_prepareReal (s := s) (N := s.operandN) (c := s.operandN) ha (le_refl _)
  cases i with
  | cdftF =>
    exact effect_inPlace (i := .cdftF) (prep := fun s => prepareComplex s.operandN s)
      (f := fun s u => stagesCdftF (ieee u.inst.fmt) u.coeffs (u.brEntry (log2 s.operandN)) s.operandN) hC (by simp) h
  | cdftI =>
    exact effect_inPlace (i := .cdftI) (prep := fun s => prepareComplex s.operandN s)
      (f := fun s u => stagesCdftI (ieee u.inst.fmt) u.coeffs (u.brEntry (log2 s.operandN)) s.operandN) hC (by simp) h
  | cdftoF =>
    exact effect_outOfPlace (i := .cdftoF) (prep := fun s => prepareComplex s.operandN s)
      (f := fun s u => stagesCdftoF (ieee u.inst.fmt) u.coeffs s.operandN) hC (by simp) h
  | cdftoI =>
    exact effect_outOfPlace (i := .cdftoI) (prep := fun s => prepareComplex s.operandN s)
      (f := fun s u => stagesCdftoI (ieee u.inst.fmt) u.coeffs s.operandN) hC (by simp) h
  | rdftF =>
    exact effect_inPlace (i := .rdftF) (prep := fun s => prepareReal s.operandN (s.operandN / 4) s)
      (f := fun s u => stagesRdftF (ieee u.inst.fmt) u.coeffs (u.brEntry (log2 (s.operandN / 2))) s.operandN)
      hR (by simp) h
  | rdftI =>
    exact effect_inPlace (i := .rdftI) (prep := fun s => prepareReal s.operandN (s.operandN / 4) s)
      (f := fun s u => stagesRdftI (ieee u.inst.fmt) u.coeffs (u.brEntry (log2 (s.operandN / 2))) s.operandN)
      hR (by simp) h
  | rdftoF =>
    exact effect_outOfPlace (i := .rdftoF) (prep := fun s => prepareReal s.operandN (s.operandN / 4) s)
      (f := fun s u => stagesRdftoF (ieee u.inst.fmt) u.coeffs (u.brEntry (log2 (s.operandN / 2))) s.operandN)
      hR (by simp) h
  | rdftoI =>
    exact effect_outOfPlace (i := .rdftoI) (prep := fun s => prepareReal s.operandN (s.operandN / 4) s)
      (f := fun s u => stagesRdftoI (ieee u.inst.fmt) u.coeffs (u.brEntry (log2 (s.operandN / 2))) s.operandN)
      hR (by simp) h
  | dctF =>
    exact effect_inPlace (i := .dctF) (prep := fun s => prepareReal s.operandN s.operandN s)
      (f := fun s u => stagesDctF (ieee u.inst.fmt) u.coeffs (u.brEntry (log2 (s.operandN / 2))) s.operandN)
      hT (by simp) h
  | dctI =>
    exact effect_inPlace (i := .dctI) (prep := fun s => prepareReal s.operandN s.operandN s)
      (f := fun s u => stagesDctI (ieee u.inst.fmt) u.coeffs (u.brEntry (log2 (s.operandN / 2))) s.operandN)
      hT (by simp) h
  | dstF =>
    exact effect_inPlace (i := .dstF) (prep := fun s => prepareReal s.operandN s.operandN s)
      (f := fun s u => stagesDstF (ieee u.inst.fmt) u.coeffs (u.brEntry (log2 (s.operandN / 2))) s.operandN)
      hT (by simp) h
  | dstI =>
    exact effect_inPlace (i := .dstI) (prep := fun s => prepareReal s.operandN s.operandN s)
      (f := fun s u => stagesDstI (ieee u.inst.fmt) u.coeffs (u.brEntry (log2 (s.operandN / 2))) s.operandN)
      hT (by simp) h
  | enstw =>
    exact effect_cache (i := .enstw) (prep := fun s => ensureTwiddle s.operandN s) (fun _ => rfl)
      (operandD_le s) (by unfold checkTwiddleSize; intro x; split <;> simp; rintro rfl; simp)
      (fun hc => grown_ensureTwiddle (checkTwiddleSize_eq_none hc)) h
  | ensct =>
    exact effect_cache (i := .ensct) (prep := fun s => ensureCosine s.operandN s) (fun _ => rfl)
      (operandD_le s) (by unfold checkCosineSize; intro x; split <;> simp; rintro rfl; simp)
      (fun hc => grown_ensureCosine (checkCosineSize_eq_none hc)) h
  | ensbr =>
    exact effect_cache (i := .ensbr) (prep := fun s => permutationFor s.operandN s) (fun _ => rfl)
      (operandD_le s) (by
        unfold checkOrder; intro x
        split
        · rintro h rfl; simp at h
        · split
          · rintro h rfl; simp at h
          · simp)
      (fun hc => grown_permutationFor (checkOrder_eq_none hc).1 (checkOrder_eq_none hc).2) h

end Sys2Proof.Machine
end

