-- ==== Sys2Proof/Laws/PerInstr.lean ====
section
/-! SUPPORT. Statements made command by command: one lemma per constructor of Instr. -/

namespace Sys2Proof.Laws

/-! ### The shape of every command word (30_encoding.md R90 to R93, R98) -/

/-- The word of a command has no reserved bit set, no reserved `OP`, and `DIR` = 0 where there is no direction. -/
def CommandWordShape.Statement (i : Instr) : Prop :=
  rsvField (encode i) = 0#27 ∧ opField (encode i) ≠ 0x0#4 ∧ opField (encode i) ≠ 0x7#4
    ∧ (opField (encode i)).toNat < 0xB ∧ (i.shape = .lengthOnly → dirField (encode i) = 0#1)

theorem CommandWordShape.cdftF : CommandWordShape.Statement .cdftF := by unfold CommandWordShape.Statement; decide
theorem CommandWordShape.cdftI : CommandWordShape.Statement .cdftI := by unfold CommandWordShape.Statement; decide
theorem CommandWordShape.cdftoF : CommandWordShape.Statement .cdftoF := by unfold CommandWordShape.Statement; decide
theorem CommandWordShape.cdftoI : CommandWordShape.Statement .cdftoI := by unfold CommandWordShape.Statement; decide
theorem CommandWordShape.rdftF : CommandWordShape.Statement .rdftF := by unfold CommandWordShape.Statement; decide
theorem CommandWordShape.rdftI : CommandWordShape.Statement .rdftI := by unfold CommandWordShape.Statement; decide
theorem CommandWordShape.rdftoF : CommandWordShape.Statement .rdftoF := by unfold CommandWordShape.Statement; decide
theorem CommandWordShape.rdftoI : CommandWordShape.Statement .rdftoI := by unfold CommandWordShape.Statement; decide
theorem CommandWordShape.dctF : CommandWordShape.Statement .dctF := by unfold CommandWordShape.Statement; decide
theorem CommandWordShape.dctI : CommandWordShape.Statement .dctI := by unfold CommandWordShape.Statement; decide
theorem CommandWordShape.dstF : CommandWordShape.Statement .dstF := by unfold CommandWordShape.Statement; decide
theorem CommandWordShape.dstI : CommandWordShape.Statement .dstI := by unfold CommandWordShape.Statement; decide
theorem CommandWordShape.enstw : CommandWordShape.Statement .enstw := by unfold CommandWordShape.Statement; decide
theorem CommandWordShape.ensct : CommandWordShape.Statement .ensct := by unfold CommandWordShape.Statement; decide
theorem CommandWordShape.ensbr : CommandWordShape.Statement .ensbr := by unfold CommandWordShape.Statement; decide

end Sys2Proof.Laws
end

