-- ==== Sys2Proof/Laws/Rom.lean ====
section
/-! SUPPORT. Laws of the coefficient generator: the fixed-point series lies within its slack of the exact cosine, so that
a listed value that `romAdmits` takes has the property P3 of 40_table_cache.md R123. -/

namespace Sys2Proof.Machine

open Finset

/-! ### The fixed point of π, by Machin's formula -/

/-- `n` terms of the series of arctan(1/`q`). -/
def arctanSum (q : ℚ) (n : Nat) : ℚ := ∑ k ∈ range n, (-1) ^ k * (q⁻¹ ^ (2 * k + 1) / (2 * k + 1))

theorem arctanSum_bounds (q : ℕ) (hq : 2 ≤ q) (n : ℕ) :
    (arctanSum q (2 * n) : ℝ) ≤ Real.arctan (q : ℝ)⁻¹ ∧ Real.arctan (q : ℝ)⁻¹ ≤ (arctanSum q (2 * n + 1) : ℝ) := by
  have hq' : (2 : ℝ) ≤ q := by exact_mod_cast hq
  have h0 : (0 : ℝ) < (q : ℝ)⁻¹ := by positivity
  have h1 : (q : ℝ)⁻¹ < 1 := inv_lt_one_of_one_lt₀ (by linarith)
  have ha : Antitone fun k : ℕ => (q : ℝ)⁻¹ ^ (2 * k + 1) / ((2 * k + 1 : ℕ) : ℝ) := fun a b h =>
    div_le_div₀ (by positivity) (pow_le_pow_of_le_one h0.le h1.le (by omega)) (by positivity)
      (by exact_mod_cast (by omega))
  have hs : Filter.Tendsto (fun m => ∑ k ∈ range m, (-1) ^ k * ((q : ℝ)⁻¹ ^ (2 * k + 1) / ((2 * k + 1 : ℕ) : ℝ)))
      Filter.atTop (nhds (Real.arctan (q : ℝ)⁻¹)) := by
    refine (Real.hasSum_arctan (by rwa [Real.norm_eq_abs, abs_of_pos h0])).tendsto_sum_nat.congr fun m =>
      sum_congr rfl fun k _ => ?_
    rw [mul_div_assoc]
  have e : ∀ m, (arctanSum q m : ℝ)
      = ∑ k ∈ range m, (-1) ^ k * ((q : ℝ)⁻¹ ^ (2 * k + 1) / ((2 * k + 1 : ℕ) : ℝ)) := by
    intro m; unfold arctanSum; push_cast; rfl
  rw [e, e]
  exact ⟨ha.alternating_series_le_tendsto hs n, ha.tendsto_le_alternating_series hs n⟩

/-- The real number 2^`romBits`, of which the fixed-point numbers are multiples of the inverse. -/
@[irreducible] noncomputable def romUnit : ℝ := 2 ^ romBits

theorem romUnit_def : romUnit = 2 ^ romBits := by rw [romUnit]

theorem romUnit_large : (2 : ℝ) ^ 20 ≤ romUnit := by
  rw [romUnit]; exact pow_le_pow_right₀ (by norm_num) (by decide)

theorem romUnit_pos : 0 < romUnit := lt_of_lt_of_le (by norm_num) romUnit_large

theorem cast_two_pow_romBits : ((2 ^ romBits : ℕ) : ℝ) = romUnit := by rw [romUnit]; push_cast; rfl

theorem piFixed_bounds : (piFixed : ℝ) ≤ romUnit * Real.pi ∧ romUnit * Real.pi ≤ piFixed + 1 := by
  have h5 := arctanSum_bounds 5 (by norm_num) 30
  have h239 := arctanSum_bounds 239 (by norm_num) 9
  have hm := Real.four_mul_arctan_inv_5_sub_arctan_inv_239
  have l : (piFixed : ℚ) ≤ 2 ^ romBits * (4 * (4 * arctanSum 5 60 - arctanSum 239 19)) := by decide +kernel
  have u : 2 ^ romBits * (4 * (4 * arctanSum 5 61 - arctanSum 239 18)) ≤ (piFixed : ℚ) + 1 := by decide +kernel
  have e : ((2 ^ romBits : ℚ) : ℝ) = romUnit := by rw [romUnit]; push_cast; rfl
  have l' := Rat.cast_le (K := ℝ).mpr l
  have u' := Rat.cast_le (K := ℝ).mpr u
  rw [Rat.cast_mul, e] at l' u'
  push_cast at l' u'
  norm_num at h5 h239 hm
  have hp := romUnit_pos
  exact ⟨l'.trans (by gcongr; linarith [h5.1, h239.2]), le_trans (by gcongr; linarith [h5.2, h239.1]) u'⟩

/-! ### The Taylor polynomial of the cosine -/

theorem cos_taylor_error (θ : ℝ) (n : ℕ) (h : |θ| / (2 * n + 1) ≤ 1 / 2) :
    |Real.cos θ - ∑ k ∈ range n, (-1) ^ k * (θ ^ (2 * k) / (2 * k).factorial)|
      ≤ |θ| ^ (2 * n) / (2 * n).factorial * 2 := by
  have hb := Complex.exp_bound' (x := θ * Complex.I) (n := 2 * n) (by simpa using h)
  have hr : ∀ n : ℕ, (∑ m ∈ range (2 * n), (θ * Complex.I) ^ m / m.factorial).re
      = ∑ k ∈ range n, (-1) ^ k * (θ ^ (2 * k) / (2 * k).factorial) := by
    intro n
    induction n with
    | zero => simp
    | succ n ih =>
      have e1 : ((θ * Complex.I) ^ (2 * n) / ((2 * n).factorial : ℂ))
          = (((-1) ^ n * (θ ^ (2 * n) / (2 * n).factorial) : ℝ) : ℂ) := by
        rw [mul_pow, pow_mul Complex.I, Complex.I_sq]; push_cast; ring
      have e2 : ((θ * Complex.I) ^ (2 * n + 1) / ((2 * n + 1).factorial : ℂ))
          = (((-1) ^ n * (θ ^ (2 * n + 1) / (2 * n + 1).factorial) : ℝ) : ℂ) * Complex.I := by
        rw [mul_pow, pow_succ Complex.I, pow_mul Complex.I, Complex.I_sq]; push_cast; ring
      rw [show 2 * (n + 1) = 2 * n + 1 + 1 by ring, sum_range_succ, sum_range_succ, sum_range_succ, Complex.add_re,
        Complex.add_re, ih, e1, e2, Complex.ofReal_re, Complex.re_ofReal_mul, Complex.I_re, mul_zero, add_zero]
  rw [← hr, ← Complex.exp_ofReal_mul_I_re, ← Complex.sub_re]
  exact (Complex.abs_re_le_norm _).trans (hb.trans (by simp))

/-! ### The fixed-point series -/

/-- Floor division of naturals lies at most 1 below the quotient. -/
theorem floorDiv_bounds (a b : ℕ) (hb : 0 < b) :
    ((a / b : ℕ) : ℝ) ≤ (a : ℝ) / b ∧ (a : ℝ) / b ≤ ((a / b : ℕ) : ℝ) + 1 := by
  refine ⟨Nat.cast_div_le, ?_⟩
  rw [div_le_iff₀ (by exact_mod_cast hb)]
  have h : a ≤ (a / b + 1) * b := by nlinarith [Nat.div_add_mod a b, Nat.mod_lt a hb]
  exact_mod_cast h

/-- Term number `k` of the series, exact, in fixed point. -/
noncomputable def exactTerm (θ : ℝ) (k : ℕ) : ℝ := romUnit * (θ ^ (2 * k) / (2 * k).factorial)

theorem exactTerm_zero (θ : ℝ) : exactTerm θ 0 = romUnit := by simp [exactTerm]

theorem exactTerm_succ (θ : ℝ) (k : ℕ) :
    exactTerm θ (k + 1) = exactTerm θ k * θ ^ 2 / ((2 * k + 1) * (2 * k + 2)) := by
  unfold exactTerm
  rw [show 2 * (k + 1) = 2 * k + 1 + 1 by ring, Nat.factorial_succ, Nat.factorial_succ, pow_succ, pow_succ]
  push_cast
  field_simp
  ring

theorem exactTerm_nonneg (θ : ℝ) (k : ℕ) : 0 ≤ exactTerm θ k := by
  have := romUnit_pos
  unfold exactTerm; rw [pow_mul]; positivity

theorem exactTerm_le {θ : ℝ} (hθ : θ ^ 2 ≤ 5 / 2) (k : ℕ) : exactTerm θ k ≤ 2 * romUnit := by
  have hu := romUnit_pos
  rcases k with _ | k
  · rw [exactTerm_zero]; linarith
  induction k with
  | zero => rw [exactTerm_succ, exactTerm_zero, div_le_iff₀ (by positivity)]; push_cast; nlinarith
  | succ k ih =>
    rw [exactTerm_succ, div_le_iff₀ (by positivity)]
    push_cast
    have hk : (0 : ℝ) ≤ k := by positivity
    nlinarith [mul_le_mul ih hθ (by positivity) (by positivity), mul_nonneg hu.le hk, mul_nonneg (mul_nonneg hu.le hk) hk]

/-- The error of one step of the series. -/
theorem nextTerm_error {θ : ℝ} (hθ : θ ^ 2 ≤ 5 / 2) {x2 t k : ℕ} {e : ℝ} (hx : |(x2 : ℝ) - romUnit * θ ^ 2| ≤ 9)
    (ht : |(t : ℝ) - exactTerm θ k| ≤ e) :
    |((t * x2 / (2 ^ romBits * ((2 * k + 1) * (2 * k + 2))) : ℕ) : ℝ) - exactTerm θ (k + 1)|
      ≤ 1 + (3 * e + 18) / ((2 * k + 1) * (2 * k + 2)) := by
  have hu := romUnit_pos
  have hU := romUnit_large
  have hf := floorDiv_bounds (t * x2) (2 ^ romBits * ((2 * k + 1) * (2 * k + 2))) (by positivity)
  generalize ((t * x2 / (2 ^ romBits * ((2 * k + 1) * (2 * k + 2))) : ℕ) : ℝ) = q at hf ⊢
  rw [Nat.cast_mul (2 ^ romBits), cast_two_pow_romBits] at hf
  push_cast at hf
  have he : 0 ≤ e := (abs_nonneg _).trans ht
  have hxn : (x2 : ℝ) / romUnit ≤ 3 := by
    rw [div_le_iff₀ hu]
    nlinarith [(abs_le.mp hx).2]
  have hm : |(t : ℝ) * x2 / romUnit - exactTerm θ k * θ ^ 2| ≤ 3 * e + 18 := by
    have e1 : (t : ℝ) * x2 / romUnit - exactTerm θ k * θ ^ 2
        = (t - exactTerm θ k) * (x2 / romUnit) + exactTerm θ k / romUnit * (x2 - romUnit * θ ^ 2) := by
      field_simp; ring
    rw [e1]
    refine (abs_add_le _ _).trans ?_
    rw [abs_mul, abs_mul, abs_of_nonneg (show (0 : ℝ) ≤ x2 / romUnit by positivity),
      abs_of_nonneg (div_nonneg (exactTerm_nonneg θ k) hu.le)]
    have a1 := mul_le_mul ht hxn (by positivity) he
    have a2 : exactTerm θ k / romUnit ≤ 2 := by rw [div_le_iff₀ hu]; exact exactTerm_le hθ k
    have a3 := mul_le_mul a2 hx (abs_nonneg _) (by norm_num)
    linarith
  have hq : |(t : ℝ) * x2 / (romUnit * ((2 * k + 1) * (2 * k + 2))) - exactTerm θ (k + 1)|
      ≤ (3 * e + 18) / ((2 * k + 1) * (2 * k + 2)) := by
    rw [exactTerm_succ, ← div_div, ← sub_div, abs_div, abs_of_pos (show (0 : ℝ) < (2 * k + 1) * (2 * k + 2) by positivity)]
    gcongr
  rw [abs_le] at hq ⊢
  constructor <;> linarith [hq.1, hq.2, hf.1, hf.2]

/-- The alternating sum of the exact terms, taken apart at its first term. -/
theorem sum_exactTerm_succ (θ : ℝ) (k n : ℕ) : ∑ j ∈ range (n + 1), (-1 : ℝ) ^ j * exactTerm θ (k + j)
    = exactTerm θ k - ∑ j ∈ range n, (-1 : ℝ) ^ j * exactTerm θ (k + 1 + j) := by
  rw [sum_range_succ', sub_eq_neg_add, ← sum_neg_distrib]
  congr 1
  · refine sum_congr rfl fun j _ => ?_
    rw [pow_succ, show k + (j + 1) = k + 1 + j by ring]; ring
  · simp

theorem cosineTail_error {θ : ℝ} (hθ : θ ^ 2 ≤ 5 / 2) {x2 : ℕ} (hx : |(x2 : ℝ) - romUnit * θ ^ 2| ≤ 9) (fuel : ℕ) :
    ∀ {k t : ℕ}, 1 ≤ k → |(t : ℝ) - exactTerm θ k| ≤ 10 →
      |(cosineTail x2 fuel k t : ℝ) - ∑ j ∈ range fuel, (-1) ^ j * exactTerm θ (k + j)| ≤ 10 * fuel := by
  induction fuel with
  | zero => intro k t _ _; simp [cosineTail]
  | succ fuel ih =>
    intro k t hk ht
    have hk' : (1 : ℝ) ≤ k := by exact_mod_cast hk
    have hs : (3 * (10 : ℝ) + 18) / ((2 * k + 1) * (2 * k + 2)) ≤ 9 := by
      rw [div_le_iff₀ (by positivity)]; nlinarith
    have hi := ih (k := k + 1) (by omega) ((nextTerm_error hθ hx ht).trans (by linarith))
    rw [sum_exactTerm_succ, cosineTail]
    push_cast at hi ⊢
    rw [abs_le] at *
    constructor <;> linarith [ht.1, ht.2, hi.1, hi.2]

theorem angleFixed_error {num d : ℕ} (h : num < 2 ^ d) :
    |(angleFixed num d : ℝ) - romUnit * romAngle num d| ≤ 2 := by
  have hf := floorDiv_bounds (piFixed * num) (2 ^ (d + 1)) (by positivity)
  obtain ⟨hp, hp'⟩ := piFixed_bounds
  have hr : (num : ℝ) / 2 ^ d ≤ 1 := by rw [div_le_one (by positivity)]; exact_mod_cast h.le
  have hr0 : (0 : ℝ) ≤ (num : ℝ) / 2 ^ d := by positivity
  have e : ((piFixed * num : ℕ) : ℝ) / ((2 ^ (d + 1) : ℕ) : ℝ) = piFixed * (num / 2 ^ d) / 2 := by
    push_cast; rw [pow_succ]; field_simp
  rw [e] at hf
  unfold angleFixed romAngle
  rw [abs_le]
  constructor <;> nlinarith [hf.1, hf.2]

theorem square_error {x : ℕ} {θ : ℝ} (h0 : 0 ≤ θ) (h1 : θ ≤ 1.575) (h : |(x : ℝ) - romUnit * θ| ≤ 2) :
    |((x * x / 2 ^ romBits : ℕ) : ℝ) - romUnit * θ ^ 2| ≤ 9 := by
  have hu := romUnit_pos
  have hU := romUnit_large
  have hf := floorDiv_bounds (x * x) (2 ^ romBits) (by positivity)
  have e : ((x * x : ℕ) : ℝ) / romUnit
      = romUnit * θ ^ 2 + (x - romUnit * θ) * (2 * θ + (x - romUnit * θ) / romUnit) := by
    push_cast; field_simp; ring
  have h2 : |(x - romUnit * θ) * (2 * θ + (x - romUnit * θ) / romUnit)| ≤ 2 * 4 := by
    have : |((x : ℝ) - romUnit * θ) / romUnit| ≤ 1 / 2 := by
      rw [abs_div, abs_of_pos hu, div_le_iff₀ hu]; linarith
    rw [abs_mul]
    refine mul_le_mul h ?_ (abs_nonneg _) (by norm_num)
    rw [abs_le] at *
    constructor <;> linarith [this.1, this.2]
  rw [cast_two_pow_romBits, e] at hf
  rw [abs_le] at *
  constructor <;> linarith [hf.1, hf.2, h2.1, h2.2]

theorem romAngle_bounds {num d : ℕ} (h : num < 2 ^ d) : 0 ≤ romAngle num d ∧ romAngle num d ≤ Real.pi / 2 := by
  have hr : (num : ℝ) / 2 ^ d ≤ 1 := by rw [div_le_one (by positivity)]; exact_mod_cast h.le
  have hp := Real.pi_pos
  unfold romAngle
  exact ⟨by positivity, by nlinarith⟩

/-- The exact terms the series takes miss the cosine by less than one unit. -/
theorem sum_exactTerm_error {θ : ℝ} (h0 : 0 ≤ θ) (h1 : θ ≤ 1.575) :
    |∑ k ∈ range 40, (-1 : ℝ) ^ k * exactTerm θ (0 + k) - romUnit * Real.cos θ| ≤ 1 := by
  have hu := romUnit_pos
  have hT := cos_taylor_error θ 40 (by rw [abs_of_nonneg h0, div_le_iff₀ (by positivity)]; push_cast; linarith)
  have hscale : ∑ k ∈ range 40, (-1 : ℝ) ^ k * exactTerm θ (0 + k)
      = romUnit * ∑ k ∈ range 40, (-1 : ℝ) ^ k * (θ ^ (2 * k) / (2 * k).factorial) := by
    rw [mul_sum]; refine sum_congr rfl fun k _ => ?_; rw [zero_add]; unfold exactTerm; ring
  have hpow : |θ| ^ (2 * 40) ≤ (1.575 : ℝ) ^ 80 := by
    rw [abs_of_nonneg h0]; exact pow_le_pow_left₀ h0 h1 80
  have hn : romUnit * ((1.575 : ℝ) ^ 80 / ((2 * 40).factorial : ℝ) * 2) ≤ 1 := by
    rw [romUnit]; norm_num [romBits, Nat.factorial]
  rw [hscale, ← mul_sub, abs_mul, abs_of_pos hu, abs_sub_comm]
  refine le_trans ?_ hn
  gcongr
  exact hT.trans (by gcongr)

/-- The fixed-point cosine lies within its slack of the exact one. -/
theorem cosineFixed_error {num d : ℕ} (h : num < 2 ^ d) :
    |(cosineFixed num d : ℝ) - romUnit * Real.cos (romAngle num d)| ≤ romSlack := by
  obtain ⟨h0, hπ⟩ := romAngle_bounds h
  have h1 : romAngle num d ≤ 1.575 := by linarith [Real.pi_lt_d2]
  have hcos : 0 ≤ romUnit * Real.cos (romAngle num d) :=
    mul_nonneg romUnit_pos.le (Real.cos_nonneg_of_neg_pi_div_two_le_of_le (by linarith [Real.pi_pos]) hπ)
  have hx2 := square_error h0 h1 (angleFixed_error h)
  simp only [cosineFixed]
  generalize romAngle num d = θ at *
  have hθ : θ ^ 2 ≤ 5 / 2 := by nlinarith
  generalize angleFixed num d * angleFixed num d / 2 ^ romBits = x2 at *
  have hz : |((2 ^ romBits : ℕ) : ℝ) - exactTerm θ 0| ≤ 0 := by rw [cast_two_pow_romBits, exactTerm_zero]; simp
  have ht := cosineTail_error hθ hx2 39 (k := 0 + 1) (by omega) ((nextTerm_error hθ hx2 hz).trans (by norm_num))
  have hT := sum_exactTerm_error h0 h1
  rw [sum_exactTerm_succ, exactTerm_zero] at hT
  have hmain : |(cosineTail x2 40 0 (2 ^ romBits) : ℝ) - romUnit * Real.cos θ| ≤ 1000 := by
    rw [cosineTail, Int.cast_sub, Int.cast_natCast, cast_two_pow_romBits]
    rw [abs_le] at *
    constructor <;> linarith [ht.1, ht.2, hT.1, hT.2]
  generalize cosineTail x2 40 0 (2 ^ romBits) = c at *
  have hn : ((c.toNat : ℕ) : ℝ) = max (c : ℝ) 0 := by
    have : ((c.toNat : ℤ) : ℝ) = ((max c 0 : ℤ) : ℝ) := by rw [Int.toNat_eq_max]
    push_cast at this; exact_mod_cast this
  rw [hn, show ((romSlack : ℕ) : ℝ) = 65536 by norm_num [romSlack]]
  rw [abs_le] at *
  rcases max_cases (c : ℝ) 0 with ⟨hm, _⟩ | ⟨hm, hc⟩ <;> rw [hm] <;> constructor <;> linarith [hmain.1, hmain.2]

/-! ### The property P3 of a listed value -/

/-- Every cosine the generator gives is at least 2^-30, far inside the normal range (40_table_cache.md R122). -/
theorem cos_romAngle_ge {num d : ℕ} (h : num < 2 ^ d) (hd : d ≤ 30) : 1 / 2 ^ 30 ≤ Real.cos (romAngle num d) := by
  obtain ⟨h0, hπ⟩ := romAngle_bounds h
  have hp := Real.pi_pos
  have hj := Real.mul_le_sin (x := Real.pi / 2 - romAngle num d) (by linarith) (by linarith)
  rw [Real.sin_pi_div_two_sub] at hj
  refine le_trans ?_ hj
  have h2 : (0 : ℝ) < 2 ^ d := by positivity
  have e : 2 / Real.pi * (Real.pi / 2 - romAngle num d) = (2 ^ d - num) / 2 ^ d := by
    unfold romAngle; field_simp
  have h1 : (1 : ℝ) ≤ 2 ^ d - num := by
    have : (num : ℝ) + 1 ≤ 2 ^ d := by exact_mod_cast h
    linarith
  rw [e]
  gcongr
  norm_num

/-- Where the exact cosine lies, in fixed point. -/
theorem cosineFixed_bounds {num d : ℕ} (h : num < 2 ^ d) (hd : d ≤ 30) :
    2 ^ 225 ≤ cosineFixed num d - romSlack
      ∧ ((cosineFixed num d - romSlack : ℕ) : ℝ) ≤ romUnit * Real.cos (romAngle num d)
      ∧ romUnit * Real.cos (romAngle num d) ≤ cosineFixed num d + romSlack := by
  obtain ⟨he, he'⟩ := abs_le.mp (cosineFixed_error h)
  have hs : romSlack = 65536 := rfl
  have hc : (2 ^ 225 + 65536 : ℝ) ≤ cosineFixed num d := by
    have hu : (2 : ℝ) ^ 226 ≤ romUnit * Real.cos (romAngle num d) := by
      refine le_trans ?_ (mul_le_mul_of_nonneg_left (cos_romAngle_ge h hd) romUnit_pos.le)
      rw [romUnit, romBits]; norm_num
    rw [hs] at he
    push_cast at he
    linarith [show (2 : ℝ) ^ 225 + 65536 + 65536 ≤ 2 ^ 226 by norm_num]
  have hn : 2 ^ 225 + 65536 ≤ cosineFixed num d := by exact_mod_cast hc
  refine ⟨by rw [hs]; omega, ?_, by linarith⟩
  rw [Nat.cast_sub (by rw [hs]; omega)]
  linarith

/-- The unit `romAdmits` measures with is at most one in the last place of the exact cosine. -/
theorem ulpFixed_le (fmt : Format) {num d : ℕ} (h : num < 2 ^ d) (hd : d ≤ 30) :
    (ulpFixed fmt num d : ℝ) ≤ romUnit * ulp fmt (Real.cos (romAngle num d)) := by
  obtain ⟨hl, hlo, -⟩ := cosineFixed_bounds h hd
  have hy : 0 < Real.cos (romAngle num d) := lt_of_lt_of_le (by positivity) (cos_romAngle_ge h hd)
  unfold ulpFixed ulp
  generalize cosineFixed num d - romSlack = L at *
  have hL : L ≠ 0 := by omega
  have hlog : 225 ≤ Nat.log2 L := by
    rw [Nat.le_log2 hL]; exact hl
  have hpow : ((2 ^ Nat.log2 L : ℕ) : ℝ) ≤ L := by exact_mod_cast Nat.log2_self_le hL
  have hp : precision fmt - 1 ≤ Nat.log2 L ∧ 1 ≤ precision fmt := by cases fmt <;> simp [precision] <;> omega
  have hk : (Nat.log2 L : ℤ) - romBits ≤ Int.log 2 (Real.cos (romAngle num d)) := by
    rw [← Int.zpow_le_iff_le_log (by norm_num) hy, zpow_sub₀ (by norm_num), zpow_natCast, zpow_natCast, Nat.cast_ofNat,
      ← romUnit_def, div_le_iff₀ romUnit_pos]
    push_cast at hpow
    linarith
  have hz : ((2 ^ (Nat.log2 L - (precision fmt - 1)) : ℕ) : ℝ)
      = romUnit * 2 ^ ((Nat.log2 L : ℤ) - romBits - ((precision fmt : ℤ) - 1)) := by
    rw [romUnit_def, ← zpow_natCast, ← zpow_add₀ (by norm_num)]
    push_cast
    rw [← zpow_natCast]
    congr 1
    omega
  rw [hz]
  exact mul_le_mul_of_nonneg_left (zpow_le_zpow_right₀ (by norm_num) (by linarith)) romUnit_pos.le

/-- A value `romAdmits` takes has the property P3 (40_table_cache.md R123). -/
theorem isWithinUlp_of_romAdmits {fmt : Format} {num d : ℕ} {v : CellBits} (h : num < 2 ^ d) (hd : d ≤ 30)
    (ha : romAdmits fmt num d v = true) : isWithinUlp fmt (Real.cos (romAngle num d)) v := by
  obtain ⟨h1, h2, h3⟩ := of_decide_eq_true ha
  obtain ⟨hl, hlo, hhi⟩ := cosineFixed_bounds h hd
  have hu := ulpFixed_le fmt h hd
  have hc : romSlack ≤ cosineFixed num d := by omega
  have hg : (0 : ℝ) < 2 ^ gridScale fmt := by positivity
  have hU := romUnit_pos
  rw [Nat.cast_sub hc] at hlo
  have h2' : ((cosineFixed num d : ℝ) + romSlack) * 2 ^ gridScale fmt
      ≤ gridOf fmt v.toNat * romUnit + ulpFixed fmt num d * 2 ^ gridScale fmt := by
    rw [romUnit_def]; exact_mod_cast h2
  have h3' : (gridOf fmt v.toNat : ℝ) * romUnit + romSlack * 2 ^ gridScale fmt
      ≤ (cosineFixed num d + ulpFixed fmt num d) * 2 ^ gridScale fmt := by
    rw [romUnit_def]; exact_mod_cast h3
  have e : romUnit * cellReal fmt v.toNat * 2 ^ gridScale fmt = gridOf fmt v.toNat * romUnit := by
    unfold cellReal; field_simp
  rw [← e] at h2' h3'
  rw [← add_mul, mul_le_mul_iff_left₀ hg] at h2' h3'
  refine ⟨h1, abs_le.mpr ⟨?_, ?_⟩⟩
  · refine le_of_mul_le_mul_left ?_ hU; linarith
  · refine le_of_mul_le_mul_left ?_ hU; linarith

/-- A value of its own that the instance has for `ROMCOS` has the property P3 (40_table_cache.md R123). -/
theorem isWithinUlp_of_romListed {p : Params} {num d : ℕ} {v : CellBits} (h : num < 2 ^ d) (hd : d ≤ 30)
    (hv : romListed p num d = some v) : isWithinUlp p.fmt (Real.cos (romAngle num d)) v := by
  obtain ⟨e, he, rfl⟩ := Option.map_eq_some_iff.mp hv
  have := List.find?_some he
  exact isWithinUlp_of_romAdmits h hd (Bool.and_eq_true_iff.mp this).2

end Sys2Proof.Machine
end

