-- ==== Sys2Proof/Tests/Slice0.lean ====
section
/-! SUPPORT. Tests of the model against the spec's own worked values, the ill-formed terms that WellFormed refuses, and a
witness for the hypotheses of every statement. Expected values come from spec/, not from the model. -/

namespace Sys2Proof.Tests

open Sys2Proof Sys2Proof.Machine Sys2Proof.Claims

-- One theorem at a time: each evaluation in the kernel would else take a thread and an arena of its own.
set_option Elab.async false

/-! ### Helpers -/

/-- A small instance: `LOG2_NMAX` = 12, the cells 0 to 0x7FF exist, unwritten bytes read as 0, the generator is the
series alone. -/
def smallInst (fmt : Format) : Params := ⟨fmt, 10, [⟨0, 0x800⟩], [], 0⟩

/-- An instance whose generator has the values of the list for its own. -/
def ownRom (rom : List RomEntry) : Params := { smallInst .binary32 with rom := rom }

/-- The machine after reset with argument registers set and cells from `base` on written. -/
def machine (fmt : Format) (len src dst base : Nat) (cells : List Nat) : State :=
  { State.reset with
    inst := smallInst fmt
    len := BitVec.ofNat 32 len
    src := BitVec.ofNat 32 src
    dst := BitVec.ofNat 32 dst
    mem := storeCells (smallInst fmt) [] base (cells.map (BitVec.ofNat 64)) }

/-- The same with operations of the host pending. -/
def pending (s : State) (ops : List HostOp) : State := { s with host := ops }

/-- The step that runs command word `w`: `STATUS`, `NW`, `NC`, `BRV`, `BRP4` and `n` cells at `DST` after it. -/
def commandResult (w : Nat) (s : State) (n : Nat) : Option (Nat × Nat × Nat × Nat × Nat × List Nat) :=
  match step (s.withFetchWord 32 w) with
  | .next t => some (t.status.word.toNat, t.nw.toNat, t.nc.toNat, t.brv.toNat, t.brp4.toNat,
      (loadCells t.inst t.mem s.operandD n).map BitVec.toNat)
  | _ => none

/-- The stop a step ends in, if it does. -/
def stopOf (s : State) : Option Refusal :=
  match step s with
  | .refused r => some r
  | _ => none

/-- The stop a command ends in, if it does. -/
def refusalOf (w : Nat) (s : State) : Option Refusal := stopOf (s.withFetchWord 32 w)

/-! ### WellFormed: each check refuses an ill-formed term and takes a well-formed one -/

theorem test_wf_cell_too_wide : HostOp.wf .binary32 (.writeCell 0 0x100000000#64) = false := by decide
theorem test_wf_cell_fits : HostOp.wf .binary32 (.writeCell 0 0xFFFFFFFF#64) = true := by decide
theorem test_wf_region_past_the_end : Params.wf ⟨.binary32, 0, [⟨0xFFFFFFFF, 2⟩], [], 0⟩ = false := by decide
theorem test_wf_region_to_the_end : Params.wf ⟨.binary32, 0, [⟨0xFFFFFFFF, 1⟩], [], 0⟩ = true := by decide
theorem test_wf_rom_argument_zero : (ownRom [⟨0, 0x3F800000⟩]).wf = false := by decide +kernel
theorem test_wf_rom_argument_one : (ownRom [⟨0x40000000, 0⟩]).wf = false := by decide +kernel
theorem test_wf_rom_value_above_one : (ownRom [⟨1, 0x3F800001⟩]).wf = false := by decide +kernel
theorem test_wf_rom_value_past_one_ulp : (ownRom [⟨0x20000000, 0x3F3504F2⟩]).wf = false := by decide +kernel
theorem test_wf_rom_not_rising : (ownRom [⟨2, 0x3F800000⟩, ⟨2, 0x3F7FFFFF⟩]).wf = false := by decide +kernel
theorem test_wf_rom_listed : (ownRom [⟨1, 0x3F800000⟩, ⟨0x3FFFFFFF, 0x30C90FDB⟩]).wf = true := by decide +kernel
theorem test_wf_line_value_too_wide : AsmLine.wf .binary32 (.st 0 0x100000000#64) = false := by decide
theorem test_wf_line_in_place_shape : AsmLine.wf .binary32 (.inPlace .cdftoF 4 0) = false := by decide
theorem test_wf_line_out_of_place_shape : AsmLine.wf .binary32 (.outOfPlace .dctF 4 0 0) = false := by decide
theorem test_wf_line_cache_shape : AsmLine.wf .binary32 (.cache .rdftI 4) = false := by decide
theorem test_wf_lines_of_their_shape : (AsmLine.wf .binary32 (.inPlace .dctF 4 0)
    && AsmLine.wf .binary32 (.outOfPlace .cdftoF 4 0 8) && AsmLine.wf .binary32 (.cache .ensbr 4)) = true := by decide
theorem test_wf_warm_not_a_power : AsmLine.wf .binary32 (.warmC 6) = false := by decide
theorem test_wf_warm_complex_too_small : AsmLine.wf .binary32 (.warmC 1) = false := by decide
theorem test_wf_warm_real_too_small : AsmLine.wf .binary32 (.warmR 2) = false := by decide
theorem test_wf_warm_cosine_too_small : AsmLine.wf .binary32 (.warmD 2) = false := by decide
theorem test_wf_warm_smallest : (AsmLine.wf .binary32 (.warmC 2) && AsmLine.wf .binary32 (.warmR 4)
    && AsmLine.wf .binary32 (.warmD 4)) = true := by decide

/-! ### Decoding: every command's word, written out bit by bit from 30_encoding.md R90 to R92 (`DIR`, then `OP`) -/

theorem test_decode_cdftF : decodeTableWord 32 0b0_0001 = some .cdftF := by decide
theorem test_decode_cdftI : decodeTableWord 32 0b1_0001 = some .cdftI := by decide
theorem test_decode_cdftoF : decodeTableWord 32 0b0_0010 = some .cdftoF := by decide
theorem test_decode_cdftoI : decodeTableWord 32 0b1_0010 = some .cdftoI := by decide
theorem test_decode_rdftF : decodeTableWord 32 0b0_0011 = some .rdftF := by decide
theorem test_decode_rdftI : decodeTableWord 32 0b1_0011 = some .rdftI := by decide
theorem test_decode_rdftoF : decodeTableWord 32 0b0_0100 = some .rdftoF := by decide
theorem test_decode_rdftoI : decodeTableWord 32 0b1_0100 = some .rdftoI := by decide
theorem test_decode_dctF : decodeTableWord 32 0b0_0101 = some .dctF := by decide
theorem test_decode_dctI : decodeTableWord 32 0b1_0101 = some .dctI := by decide
theorem test_decode_dstF : decodeTableWord 32 0b0_0110 = some .dstF := by decide
theorem test_decode_dstI : decodeTableWord 32 0b1_0110 = some .dstI := by decide
theorem test_decode_enstw : decodeTableWord 32 0b0_1000 = some .enstw := by decide
theorem test_decode_ensct : decodeTableWord 32 0b0_1001 = some .ensct := by decide
theorem test_decode_ensbr : decodeTableWord 32 0b0_1010 = some .ensbr := by decide

/-- 30_encoding.md R96: reserved `OP`, `DIR` = 1 on a cache command, each end of `RSV`. -/
theorem test_decode_refuses :
    [0x00, 0x07, 0x0B, 0x0C, 0x0D, 0x0E, 0x0F, 0x17, 0x18, 0x19, 0x1A, 0x21, 0x27, 0x80000001].all
      (fun w => decodeTableWord 32 w == none) = true := by decide

/-! ### Tables (95_test_vectors.md section 2) -/

/-- 40_table_cache.md R124, R125; 95_test_vectors.md 2.1, 2.2: entries 1 to 7, binary64. -/
theorem test_twiddle_entries_binary64 : (List.range' 1 7).map (twRom (smallInst .binary64)) =
    [(0x3FE6A09E667F3BCD, 0x3FE6A09E667F3BCD), (0x3FED906BCF328D46, 0x3FD87DE2A6AEA963),
     (0x3FD87DE2A6AEA963, 0x3FED906BCF328D46), (0x3FEF6297CFF75CB0, 0x3FC8F8B83C69A60B),
     (0x3FE1C73B39AE68C8, 0x3FEA9B66290EA1A3), (0x3FEA9B66290EA1A3, 0x3FE1C73B39AE68C8),
     (0x3FC8F8B83C69A60B, 0x3FEF6297CFF75CB0)] := by decide +kernel

/-- 40_table_cache.md R123: a generator with its own `ROMCOS`(1/2), the representable value above the rounded one; P4 and P5 give
`ROMSIN`(1/2) and `ROMHCOS`(1/2) from it, and `ROMCOS`(1/4) is as in 95_test_vectors.md 2.1. -/
theorem test_other_generator :
    twRom (ownRom [⟨0x20000000, 0x3F3504F4⟩]) 1 = (0x3F3504F4, 0x3F3504F4)
      ∧ ctRom (ownRom [⟨0x20000000, 0x3F3504F4⟩]) 1 = 0x3EB504F4
      ∧ (twRom (ownRom [⟨0x20000000, 0x3F3504F4⟩]) 2).1 = 0x3F6C835E := by decide +kernel

/-- 40_table_cache.md R123 P3: of values two units below the exact cos(π/4), above 1, negative or a NaN none is taken. -/
theorem test_generator_keeps_P3 :
    [0x3F3504F2, 0x3F800001, 0xBF3504F3, 0x7FC00000].all (fun v =>
      twRom (ownRom [⟨0x20000000, v⟩]) 1 == (0x3F3504F3, 0x3F3504F3)) = true := by decide +kernel

/-- 95_test_vectors.md 2.2: `w2` and `w3` of blocks 1, 2, 5, binary64. -/
theorem test_block_twiddles_binary64 :
    [1, 2, 5].map (fun k => (twiddles (ieee .binary64) (romCoeffs (smallInst .binary64)) k).2) =
    [((.bits 0x8000000000000000, .bits 0x3FF0000000000000), (.bits 0xBFE6A09E667F3BCD, .bits 0x3FE6A09E667F3BCD)),
     ((.bits 0x3FE6A09E667F3BCD, .bits 0x3FE6A09E667F3BCD), (.bits 0x3FD87DE2A6AEA962, .bits 0x3FED906BCF328D46)),
     ((.bits 0xBFD87DE2A6AEA963, .bits 0x3FED906BCF328D46), (.bits 0xBFEF6297CFF75CB0, .bits 0x3FC8F8B83C69A604))] := by
  decide +kernel

/-- 95_test_vectors.md 2.2: `w3` of blocks 2 and 7, binary32. -/
theorem test_block_twiddles_binary32 :
    [2, 7].map (fun k => (twiddles (ieee .binary32) (romCoeffs (smallInst .binary32)) k).2.2) =
    [(.bits 0x3EC3EF14, .bits 0x3F6C835E), (.bits 0xBF0E39DA, .bits 0xBF54DB31)] := by decide +kernel

/-- 41_bitrev_permuter.md R141: the tables of orders 5 and 6. -/
theorem test_built_tables : [5, 6].map buildBr =
    [⟨5, false, 4, [0, 16, 8, 24]⟩, ⟨6, true, 4, [0, 32, 16, 48]⟩] := by decide

/-- 41_bitrev_permuter.md R143: `PAIRS` of orders 1 to 5. -/
theorem test_swap_pairs : [1, 2, 3, 4, 5].map (fun o => swapPairs (buildBr o)) =
    [[], [(1, 2)], [(4, 1), (6, 3)], [(2, 4), (8, 1), (10, 5), (12, 3), (14, 7), (11, 13)],
     [(16, 1), (20, 5), (8, 2), (12, 6), (9, 18), (13, 22), (24, 3), (28, 7), (25, 19), (29, 23), (26, 11), (30, 15)]] := by
  decide

/-! ### Numerics (46_numerics.md R261 to R263) -/

/-- R261, R268: the largest finite value plus itself overflows; half a unit in the last place ties to even. -/
theorem test_fadd_overflow_and_tie :
    (fadd .binary32 (.bits 0x7F7FFFFF) (.bits 0x7F7FFFFF) = .bits 0x7F800000)
      ∧ fadd .binary32 (.bits 0x3F800000) (.bits 0x33800000) = .bits 0x3F800000
      ∧ fadd .binary32 (.bits 0x3F800001) (.bits 0x33800000) = .bits 0x3F800002 := by decide +kernel

/-- R261: (+∞) + (-∞) is a NaN, 1 + (-1) is +0.0, (-0.0) + (-0.0) is -0.0. -/
theorem test_fadd_special :
    (fadd .binary32 (.bits 0x7F800000) (.bits 0xFF800000) = .quietNaN)
      ∧ fadd .binary32 (.bits 0x3F800000) (.bits 0xBF800000) = .bits 0
      ∧ fadd .binary32 (.bits 0x80000000) (.bits 0x80000000) = .bits 0x80000000 := by decide +kernel

/-- R263: 0 times ∞ is a NaN; the smallest subnormal times 0.5 rounds to +0.0, times -1 changes its sign. -/
theorem test_fmul_special :
    (fmul .binary64 (.bits 0) (.bits 0x7FF0000000000000) = .quietNaN)
      ∧ fmul .binary64 (.bits 1) (.bits 0x3FE0000000000000) = .bits 0
      ∧ fmul .binary64 (.bits 1) (.bits 0xBFF0000000000000) = .bits 0x8000000000000001 := by decide +kernel

/-! ### One step of each command, against 95_test_vectors.md -/

/-- 95_test_vectors.md V-C3, binary64. -/
theorem test_cdftF_V_C3 :
    commandResult 0x01 (machine .binary64 4 0 0 0
     [0x3FF0000000000000, 0, 0x4000000000000000, 0, 0x4008000000000000, 0, 0x4010000000000000, 0]) 8 = some (0x2, 1, 0, 0x0, 0x0,
     [0x4024000000000000, 0, 0xC000000000000000, 0xC000000000000000, 0xC000000000000000, 0, 0xC000000000000000,
      0x4000000000000000]) := by
  decide +kernel

/-- 95_test_vectors.md V-C6, binary32. -/
theorem test_cdftF_V_C6 :
    commandResult 0x01 (machine .binary32 8 0 0 0
     [0x3F800000, 0xC0000000, 0x40000000, 0xBF800000, 0x40400000, 0x40000000, 0x40800000, 0x40000000,
      0x40A00000, 0xBF800000, 0x40C00000, 0xC0000000, 0x40E00000, 0xBF800000, 0x41000000, 0x40000000]) 16 = some (0x2, 2, 0, 0x8, 0x0,
     [0x42100000, 0xBF800000, 0xC0F6A09E, 0xC11F322A, 0x40400000, 0xC1000000, 0xBFDA827A, 0xC0574B24,
      0xC0800000, 0xC0400000, 0xC0C95F62, 0xBD4DD600, 0xC1300000, 0, 0xBE95F618, 0x4115D2C9]) := by
  decide +kernel

/-- 95_test_vectors.md V-C4, binary64. -/
theorem test_cdftI_V_C4 :
    commandResult 0x11 (machine .binary64 4 0 0 0
     [0x3FF0000000000000, 0, 0x4000000000000000, 0, 0x4008000000000000, 0, 0x4010000000000000, 0]) 8 = some (0x2, 1, 0, 0x0, 0x0,
     [0x4024000000000000, 0, 0xC000000000000000, 0x4000000000000000, 0xC000000000000000, 0x8000000000000000,
      0xC000000000000000, 0xC000000000000000]) := by
  decide +kernel

/-- 95_test_vectors.md V-C7, binary32. -/
theorem test_cdftI_V_C7 :
    commandResult 0x11 (machine .binary32 8 0 0 0
     [0x3F800000, 0xC0000000, 0x40000000, 0xBF800000, 0x40400000, 0x40000000, 0x40800000, 0x40000000,
      0x40A00000, 0xBF800000, 0x40C00000, 0xC0000000, 0x40E00000, 0xBF800000, 0x41000000, 0x40000000]) 16 = some (0x2, 2, 0, 0x8, 0x0,
     [0x42100000, 0xBF800000, 0xBE95F618, 0x4115D2C9, 0xC1300000, 0x80000000, 0xC0C95F62, 0xBD4DD600,
      0xC0800000, 0xC0400000, 0xBFDA827A, 0xC0574B24, 0x40400000, 0xC1000000, 0xC0F6A09E, 0xC11F322A]) := by
  decide +kernel

/-- 95_test_vectors.md V-C15, binary64. -/
theorem test_cdftoF_V_C15 :
    commandResult 0x02 (machine .binary64 2 256 1024 256
     [0x3FF0000000000000, 0x4000000000000000, 0x4008000000000000, 0x4014000000000000]) 4 = some (0x2, 0, 0, 0x0, 0x0,
     [0x4010000000000000, 0x401C000000000000, 0xC000000000000000, 0xC008000000000000]) := by
  decide +kernel

/-- 95_test_vectors.md V-C13, binary32. -/
theorem test_cdftoF_V_C13 :
    commandResult 0x02 (machine .binary32 8 256 1024 256
     [0x3F800000, 0xC0000000, 0x40000000, 0xBF800000, 0x40400000, 0x40000000, 0x40800000, 0x40000000,
      0x40A00000, 0xBF800000, 0x40C00000, 0xC0000000, 0x40E00000, 0xBF800000, 0x41000000, 0x40000000]) 16 = some (0x2, 2, 0, 0x8, 0x0,
     [0x42100000, 0xBF800000, 0xC0F6A09E, 0xC11F322A, 0x40400000, 0xC1000000, 0xBFDA827A, 0xC0574B24,
      0xC0800000, 0xC0400000, 0xC0C95F62, 0xBD4DD600, 0xC1300000, 0, 0xBE95F618, 0x4115D2C9]) := by
  decide +kernel

/-- 95_test_vectors.md V-C14, binary32. -/
theorem test_cdftoI_V_C14 :
    commandResult 0x12 (machine .binary32 4 256 1024 256
     [0x3F800000, 0, 0x40000000, 0, 0x40400000, 0, 0x40800000, 0]) 8 = some (0x2, 1, 0, 0x0, 0x0,
     [0x41200000, 0, 0xC0000000, 0x40000000, 0xC0000000, 0x80000000, 0xC0000000, 0xC0000000]) := by
  decide +kernel

/-- 95_test_vectors.md V-R1, binary64. -/
theorem test_rdftF_V_R1 :
    commandResult 0x03 (machine .binary64 4 0 0 0
     [0x3FF0000000000000, 0x4000000000000000, 0x4008000000000000, 0x4010000000000000]) 4 = some (0x2, 0, 1, 0x0, 0x0,
     [0x4024000000000000, 0xC000000000000000, 0xC000000000000000, 0xC000000000000000]) := by
  decide +kernel

/-- 95_test_vectors.md V-R3, binary32. -/
theorem test_rdftF_V_R3 :
    commandResult 0x03 (machine .binary32 8 0 0 0
     [0x3F800000, 0x40000000, 0x40400000, 0x40800000, 0x40A00000, 0x40C00000, 0x40E00000, 0x41000000]) 8 = some (0x2, 1, 2, 0x0, 0x0,
     [0x42100000, 0xC0800000, 0xC0800000, 0xC11A827A, 0xC0800000, 0xC0800000, 0xC0800000, 0xBFD413CC]) := by
  decide +kernel

/-- 95_test_vectors.md V-R2, binary64. -/
theorem test_rdftI_V_R2 :
    commandResult 0x13 (machine .binary64 4 0 0 0
     [0x4024000000000000, 0xC000000000000000, 0xC000000000000000, 0xC000000000000000]) 4 = some (0x2, 0, 1, 0x0, 0x0,
     [0x4000000000000000, 0x4010000000000000, 0x4018000000000000, 0x4020000000000000]) := by
  decide +kernel

/-- 95_test_vectors.md V-R8, binary32. -/
theorem test_rdftoF_V_R8 :
    commandResult 0x04 (machine .binary32 8 256 1024 256
     [0x3F800000, 0x40000000, 0x40400000, 0x40800000, 0x40A00000, 0x40C00000, 0x40E00000, 0x41000000]) 8 = some (0x2, 1, 2, 0x0, 0x0,
     [0x42100000, 0xC0800000, 0xC0800000, 0xC11A827A, 0xC0800000, 0xC0800000, 0xC0800000, 0xBFD413CC]) := by
  decide +kernel

/-- 95_test_vectors.md V-R9, binary32. -/
theorem test_rdftoI_V_R9 :
    commandResult 0x14 (machine .binary32 8 256 1024 256
     [0x42100000, 0xC0800000, 0xC0800000, 0xC1100000, 0xC0800000, 0xC0800000, 0xC0800000, 0xBF800000]) 8 = some (0x2, 1, 2, 0x0, 0x0,
     [0x40800000, 0x410EDCE8, 0x41400000, 0x41876E74, 0x41A00000, 0x41B8918C, 0x41E00000, 0x41F8918C]) := by
  decide +kernel

/-- 95_test_vectors.md V-D-DCT.F-4, binary64. -/
theorem test_dctF_V_D_DCTF_4 :
    commandResult 0x05 (machine .binary64 4 0 0 0
     [0x3FF0000000000000, 0x4000000000000000, 0x4008000000000000, 0x4010000000000000]) 4 = some (0x2, 0, 4, 0x0, 0x0,
     [0x4024000000000000, 0xC0093C0D303BBF21, 0, 0xBFCCB1A0AB4DC340]) := by
  decide +kernel

/-- 95_test_vectors.md V-D-DCT.F-8, binary32. -/
theorem test_dctF_V_D_DCTF_8 :
    commandResult 0x05 (machine .binary32 8 0 0 0
     [0x3F800000, 0x40000000, 0x40400000, 0x40800000, 0x40A00000, 0x40C00000, 0x40E00000, 0x41000000]) 8 = some (0x2, 1, 8, 0x0, 0x0,
     [0x42100000, 0xC14E2782, 0, 0xBFAC678A, 0, 0xBECDB97E, 0, 0xBDCFAD00]) := by
  decide +kernel

/-- 95_test_vectors.md V-D-DCT.I-4, binary64. -/
theorem test_dctI_V_D_DCTI_4 :
    commandResult 0x15 (machine .binary64 4 0 0 0
     [0x3FF0000000000000, 0x4000000000000000, 0x4008000000000000, 0x4010000000000000]) 4 = some (0x2, 0, 4, 0x0, 0x0,
     [0x4019FFCF03E80418, 0xC01034B4F93327E4, 0x3FFCF0F8B14EEC26, 0xBFD07583708973D8]) := by
  decide +kernel

/-- 95_test_vectors.md V-D-DCT.I-8, binary32. -/
theorem test_dctI_V_D_DCTI_8 :
    commandResult 0x15 (machine .binary32 8 0 0 0
     [0x3F800000, 0x40000000, 0x40400000, 0x40800000, 0x40A00000, 0x40C00000, 0x40E00000, 0x41000000]) 8 = some (0x2, 1, 8, 0x0, 0x0,
     [0x41A15724, 0xC18A6923, 0x40F96763, 0xC0B357B0, 0x4071944C, 0xC00E82AB, 0x3FCBC876, 0xBE485500]) := by
  decide +kernel

/-- 95_test_vectors.md V-D-DST.F-4, binary64. -/
theorem test_dstF_V_D_DSTF_4 :
    commandResult 0x06 (machine .binary64 4 0 0 0
     [0x3FF0000000000000, 0x4000000000000000, 0x4008000000000000, 0x4010000000000000]) 4 = some (0x2, 0, 4, 0x0, 0x0,
     [0xC000000000000000, 0x401A219A35962D3B, 0xC006A09E667F3BCD, 0x4005A5D91AD206B9]) := by
  decide +kernel

/-- 95_test_vectors.md V-D-DST.F-8, binary32. -/
theorem test_dstF_V_D_DSTF_8 :
    commandResult 0x06 (machine .binary32 8 0 0 0
     [0x3F800000, 0x40000000, 0x40400000, 0x40800000, 0x40A00000, 0x40C00000, 0x40E00000, 0x41000000]) 8 = some (0x2, 1, 8, 0x0, 0x0,
     [0xC0800000, 0x41B887A7, 0xC1273D74, 0x410198BA, 0xC0B504F3, 0x40AD2FF6, 0xC08A8BD4, 0x4092D235]) := by
  decide +kernel

/-- 95_test_vectors.md V-D-DST.I-4, binary64. -/
theorem test_dstI_V_D_DSTI_4 :
    commandResult 0x16 (machine .binary64 4 0 0 0
     [0x3FF0000000000000, 0x4000000000000000, 0x4008000000000000, 0x4010000000000000]) 4 = some (0x2, 0, 4, 0x0, 0x0,
     [0x401E542DA2DED23D, 0x3FF70376C242BD96, 0xBFE9BCC8E275EBA4, 0x3FF56EDB57FD958C]) := by
  decide +kernel

/-- 95_test_vectors.md V-D-DST.I-8, binary32. -/
theorem test_dstI_V_D_DSTI_8 :
    commandResult 0x16 (machine .binary32 8 0 0 0
     [0x3F800000, 0x40000000, 0x40400000, 0x40800000, 0x40A00000, 0x40C00000, 0x40E00000, 0x41000000]) 8 = some (0x2, 1, 8, 0x0, 0x0,
     [0x41DCC952, 0x400B9CF7, 0xBFB84278, 0x405F3C72, 0xC02AF646, 0x405C887C, 0xC044D210, 0x4052FF1C]) := by
  decide +kernel

/-- 40_table_cache.md R130: after reset `ENSTW 3` leaves `NW` = 3; with `NW` = 3, `ENSTW 2` leaves 3. -/
theorem test_enstw_grows : commandResult 0x08 (machine .binary32 3 0 0 0 []) 0 = some (2, 3, 0, 0, 0, []) := by
  decide +kernel

theorem test_enstw_never_shrinks :
    commandResult 0x08 (ensureTwiddle 3 (machine .binary32 2 0 0 0 [])) 0 = some (2, 3, 0, 0, 0, []) := by decide +kernel

/-- 40_table_cache.md R127: after reset `ensure_cosine(4)` sets `NC` = 4; R131: a size above `CTCAP` aborts. -/
theorem test_ensct_grows : commandResult 0x09 (machine .binary64 4 0 0 0 []) 0 = some (2, 0, 4, 0, 0, []) := by
  decide +kernel

theorem test_ensct_capacity : commandResult 0x09 (machine .binary64 4097 0 0 0 []) 0 = some (0x31, 0, 0, 0, 0, []) := by
  decide +kernel

/-- 41_bitrev_permuter.md R149: `ENSBR 4`, then `ENSBR 3`. -/
theorem test_ensbr_even_order : commandResult 0x0A (machine .binary32 4 0 0 0 []) 0 = some (2, 0, 0, 0x10, 0x10, []) := by
  decide +kernel

theorem test_ensbr_second_order :
    commandResult 0x0A (permutationFor 4 (machine .binary32 3 0 0 0 [])) 0 = some (2, 0, 0, 0x18, 0x10, []) := by
  decide +kernel

/-! ### Aborts and stops -/

/-- 60_exceptions.md R286: an illegal word with `LEN` = 6 reports `ILLCMD`; N = 6 `NOTPOW2`; N = 1 `TOOSMALL`; a power
of two above `NMAX` `CAPACITY` (45_command_api.md R233). -/
theorem test_abort_causes :
    [(0x27, 6), (0x01, 6), (0x01, 0), (0x12, 1), (0x03, 2), (0x01, 0x80000000), (0x0A, 0)].map
      (fun c => (commandResult c.1 (machine .binary32 c.2 0 0 0 []) 0).map fun r => r.1)
    = [some 0x41, some 0x11, some 0x11, some 0x21, some 0x21, some 0x31, some 0x21] := by decide +kernel

/-- 93_implementation_defined.md U1, U2: overlap, a missing cell, a buffer that wraps. -/
theorem test_refusals : refusalOf 0x02 (machine .binary32 2 0 3 0 []) = some .buffersOverlap
    ∧ refusalOf 0x01 (machine .binary32 2 0 0x7FD 0 []) = some .bufferNotPresent
    ∧ refusalOf 0x01 (machine .binary32 2 0 0xFFFFFFFE 0 []) = some .bufferNotPresent := by decide +kernel

/-- 00_scope.md R10: the command word is run as the first after reset, whatever the parameters of the instance. -/
theorem test_first_command_after_reset :
    (match step (State.reset.withFetchWord 32 0x08) with | .next t => t.status.done | _ => false) = true := by decide

/-! ### Witnesses: a concrete state and operands that meet the hypotheses of each statement -/

theorem machine_tablesValid (fmt : Format) (len src dst base : Nat) (cells : List Nat) :
    (machine fmt len src dst base cells).tablesValid := by
  refine ⟨⟨rfl, ?_⟩, ⟨rfl, ?_⟩, ?_, ?_⟩ <;> simp [machine, State.reset]

theorem pending_tablesValid (fmt : Format) (len src dst base : Nat) (cells : List Nat) (ops : List HostOp) :
    (pending (machine fmt len src dst base cells) ops).tablesValid := machine_tablesValid fmt len src dst base cells

theorem machine_memory_wf (fmt : Format) (len src dst base : Nat) (cells : List Nat) :
    Memory.wf (machine fmt len src dst base cells).inst.fill (machine fmt len src dst base cells).mem :=
  storeCells_wf (p := smallInst fmt) base (cells.map (BitVec.ofNat 64)) (Memory.wf_nil _)

theorem machine_inv (fmt : Format) (len src dst : Nat) (ops : List HostOp) :
    (pending (machine fmt len src dst 0 []) ops).Inv := by
  refine ⟨pending_tablesValid .., ?_, ?_, rfl, ?_⟩
  · simp [State.withinCapacity, pending, machine, State.reset]
  · simp [Status.legal, pending, machine, State.reset]
  · simp [State.memoryValid, pending, machine, State.reset, storeCells, Memory.wf]

theorem witness_DecodeOfEncodeIsTheCommand : Instr.wf .cdftF = true := rfl

/-- One illegal word of each kind: a reserved `OP`, `DIR` on a cache command, a bit of `RSV`. -/
theorem witness_IllegalWordAborts :
    (illegalByFields 0x0F ∧ illegalByFields 0x1A ∧ illegalByFields 0x21)
      ∧ (pending (machine .binary32 6 0 0 0 []) [.writeReg 0 0x21]).seq = .idle
      ∧ (pending (machine .binary32 6 0 0 0 []) [.writeReg 0 0x21]).status.halt = false := by
  unfold illegalByFields
  decide

theorem witness_StepRunsTheDecodedCommand :
    (pending (machine .binary32 2 0 0 0 []) [.writeReg 0 0x01]).seq = .idle
      ∧ (pending (machine .binary32 2 0 0 0 []) [.writeReg 0 0x01]).status.halt = false
      ∧ decode 0x01 = .ok .cdftF := ⟨rfl, rfl, rfl⟩

/-- The clauses of the statement at numbers 1, 2, 3, and at 4 and 10, the ends of the ignored numbers. -/
theorem witness_RegisterWritesStoreOrAreIgnored : ∀ num ∈ [1, 2, 3, 4, 9, 10],
    (pending (machine .binary32 0 0 0 0 []) [.writeReg num 7]).host = .writeReg num 7 :: []
      ∧ (pending (machine .binary32 0 0 0 0 []) [.writeReg num 7]).seq = .idle
      ∧ (pending (machine .binary32 0 0 0 0 []) [.writeReg num 7]).status.halt = false :=
  fun _ _ => ⟨rfl, rfl, rfl⟩

theorem witness_RegisterReadsReturnTheRegister : ∀ num ∈ [0, 9, 10],
    (pending (machine .binary32 0 0 0 0 []) [.readReg num]).host = .readReg num :: []
      ∧ (pending (machine .binary32 0 0 0 0 []) [.readReg num]).seq = .idle := fun _ _ => ⟨rfl, rfl⟩

/-- A halted machine with a register write, a register read, a cell store or a reset pending; the first three answer a
next state. -/
def halted (op : HostOp) : State :=
  { pending (machine .binary32 6 0 0 0 []) [op] with status := ⟨true, false, .notPow2⟩ }

theorem witness_HaltedEngineIgnoresWrites : (halted .reset).seq = .idle ∧ (halted .reset).status.halt = true
    ∧ (halted .reset).host = .reset :: []
    ∧ (∃ t, step (halted (.writeReg 0 1)) = .next t) ∧ (halted (.writeReg 0 1)).host.head? ≠ some .reset
    ∧ (∀ a v, (halted (.writeReg 0 1)).host.head? ≠ some (.writeCell a v))
    ∧ (∃ t, step (halted (.readReg 4)) = .next t) ∧ ∃ t, step (halted (.writeCell 0x7FF 1)) = .next t := by
  refine ⟨rfl, rfl, rfl, ⟨_, rfl⟩, by decide, by simp [halted, pending], ⟨_, rfl⟩, ⟨_, rfl⟩⟩

theorem witness_StatusWordHasItsFields : ∀ c ∈ [Cause.none, .notPow2, .tooSmall, .capacity, .illCmd],
    ∃ s : Status, s.cause = c := fun c _ => ⟨⟨false, false, c⟩, rfl⟩

/-- A state with the tables of orders 3 and 4 cached and a command pending. -/
def withOrders : State := permutationFor 4 (permutationFor 3 (pending (machine .binary32 0 0 0 0 []) [.writeReg 0 8]))

theorem witness_BitReversalRegistersShowTheTables : (∃ t, step withOrders = .next t)
    ∧ withOrders.host.head? ≠ some .reset ∧ withOrders.brv.getLsbD 4 = true ∧ withOrders.brp4.getLsbD 4 = true := by
  refine ⟨⟨_, rfl⟩, by decide, by decide, by decide⟩

theorem witness_IdRegisterIsConstant : ∃ t, step (pending (machine .binary32 0 0 0 0 []) [.writeReg 0 8]) = .next t :=
  ⟨_, rfl⟩

/-- The last cell there is, and the widest value it holds. -/
theorem witness_StoredCellReadsBack :
    (pending (machine .binary32 0 0 0 0 []) [.writeCell 0x7FF 0xFFFFFFFF, .readCell 0x7FF]).seq = .idle
      ∧ Memory.wf 0 (machine .binary32 0 0 0 0 []).mem ∧ cellFits .binary32 0xFFFFFFFF = true
      ∧ cellPresent (smallInst .binary32) 0x7FF = true := by decide

theorem witness_CellBytesAreLittleEndian :
    Memory.wf (smallInst .binary32).fill [] ∧ (smallInst .binary32).fmt = .binary32 ∧ 3 < 4
      ∧ Memory.wf (smallInst .binary64).fill [] ∧ (smallInst .binary64).fmt = .binary64 ∧ 7 < 8 := by decide

/-- The first cell that does not exist. -/
theorem witness_AbsentCellAccessIsRefused :
    (pending (machine .binary32 0 0 0 0 []) [.readCell 0x800]).seq = .idle
      ∧ cellPresent (smallInst .binary32) 0x800 = false
      ∧ (pending (machine .binary32 0 0 0 0 []) [.readCell 0x800]).host = .readCell 0x800 :: []
      ∧ (pending (machine .binary32 0 0 0 0 []) [.writeCell 0x800 1]).host = .writeCell 0x800 1 :: [] := by decide

theorem witness_ResetLeavesTheResetValues :
    (halted .reset).seq = .idle ∧ (halted .reset).host = .reset :: [] := ⟨rfl, rfl⟩

theorem witness_EveryStepKeepsTheInvariant : (pending (machine .binary32 3 0 0 0 []) [.writeReg 0 8]).Inv
    ∧ ∃ t, step (pending (machine .binary32 3 0 0 0 []) [.writeReg 0 8]) = .next t := ⟨machine_inv .., ⟨_, rfl⟩⟩

/-- Lengths 0 and 6; 1 for a complex and 2 for a real command; the power of two above `NMAX`; order 0. -/
theorem witness_TransformLengthChecksAbort :
    Instr.cdftF ∈ transformCommands ∧ Instr.dstI ∈ transformCommands
      ∧ isPow2 (machine .binary32 0 0 0 0 []).operandN = false ∧ isPow2 (machine .binary32 6 0 0 0 []).operandN = false
      ∧ (machine .binary32 1 0 0 0 []).operandN = 2 ^ 0 ∧ (machine .binary32 1 0 0 0 []).operandN < 2
      ∧ (machine .binary32 2 0 0 0 []).operandN = 2 ^ 1 ∧ (machine .binary32 2 0 0 0 []).operandN < 4
      ∧ (machine .binary32 8192 0 0 0 []).operandN = 2 ^ 13 ∧ 4 ≤ (machine .binary32 8192 0 0 0 []).operandN
      ∧ nmax (smallInst .binary32) < (machine .binary32 8192 0 0 0 []).operandN
      ∧ (machine .binary32 0 0 0 0 []).operandN = 0 := by decide

theorem witness_length_six_is_no_power : ¬ ∃ k, (machine .binary32 6 0 0 0 []).operandN = 2 ^ k :=
  fun h => absurd ((isPow2_iff _).mpr h) (by decide)

/-- One past each capacity: 1024 pairs, 4096 entries, order 12. -/
theorem witness_CacheSizeChecksAbort :
    twCap (smallInst .binary32) < (machine .binary32 1025 0 0 0 []).operandN
      ∧ ctCap (smallInst .binary32) < (machine .binary32 4097 0 0 0 []).operandN
      ∧ log2Nmax (smallInst .binary32) < (machine .binary32 13 0 0 0 []).operandN := by decide

theorem witness_AbortChangesNothingElse :
    (∃ t, step (pending (machine .binary32 6 0 0 0 []) [.writeReg 0 1]) = .next t ∧ t.status.halt = true)
      ∧ ∃ t, step (pending (machine .binary32 6 0 0 0 []) [.writeReg 0 8]) = .next t ∧ t.status.halt = false :=
  ⟨⟨_, rfl, rfl⟩, ⟨_, rfl, rfl⟩⟩

/-- For every in-place command its smallest length, at the end of the cells there are. -/
theorem witness_completesInPlace : ∀ i ∈ [Instr.cdftF, .cdftI, .rdftF, .rdftI, .dctF, .dctI, .dstF, .dstI],
    let s := machine .binary32 i.minLen 0 0x7FC 0x7FC [0x3F800000, 0x40000000, 0x40400000, 0x40800000]
    s.tablesValid ∧ Memory.wf s.inst.fill s.mem ∧ lengthAdmitted s.inst i.minLen s.operandN
      ∧ bufferPresent s.inst s.operandD (i.cells s.operandN) = true := by
  intro i hi
  refine ⟨machine_tablesValid .., machine_memory_wf .., (checkLen_eq_none_iff ..).mp ?_, ?_⟩
  all_goals revert i; decide

/-- For every out-of-place command its smallest length, two buffers that touch. -/
theorem witness_completesOutOfPlace : ∀ i ∈ [Instr.cdftoF, .cdftoI, .rdftoF, .rdftoI],
    let s := machine .binary32 i.minLen 0x7F8 0x7FC 0x7F8 [0x3F800000, 0x40000000, 0x40400000, 0x40800000]
    s.tablesValid ∧ Memory.wf s.inst.fill s.mem ∧ lengthAdmitted s.inst i.minLen s.operandN
      ∧ bufferPresent s.inst s.operandS (i.cells s.operandN) = true
      ∧ bufferPresent s.inst s.operandD (i.cells s.operandN) = true
      ∧ buffersDisjoint s.operandS s.operandD (i.cells s.operandN) = true := by
  intro i hi
  refine ⟨machine_tablesValid .., machine_memory_wf .., (checkLen_eq_none_iff ..).mp ?_, ?_, ?_, ?_⟩
  all_goals revert i; decide

theorem witness_CommandsTouchOnlyTheirBuffer :
    (∃ t, exec .enstw (machine .binary32 3 0 0 0 []) = .next t) ∧ Instr.enstw ∉ transformCommands
      ∧ Memory.wf 0 (machine .binary32 3 0 0 0 []).mem := ⟨⟨_, rfl⟩, by decide, by decide⟩

/-- The largest size each cache command takes. -/
theorem witness_cache_commands_complete :
    (machine .binary32 1024 0 0 0 []).twValid ∧ (machine .binary32 1024 0 0 0 []).operandN ≤ twCap (smallInst .binary32)
      ∧ (machine .binary32 4096 0 0 0 []).ctValid
      ∧ (machine .binary32 4096 0 0 0 []).operandN ≤ ctCap (smallInst .binary32)
      ∧ (machine .binary32 12 0 0 0 []).brTablesValid ∧ 1 ≤ (machine .binary32 12 0 0 0 []).operandN
      ∧ (machine .binary32 12 0 0 0 []).operandN ≤ log2Nmax (smallInst .binary32) :=
  ⟨(machine_tablesValid ..).1, by decide, (machine_tablesValid ..).2.1, by decide, (machine_tablesValid ..).2.2,
    by decide, by decide⟩

theorem witness_ValidTableEntriesNeverChange :
    (pending (machine .binary32 3 0 0 0 []) [.writeReg 0 8]).tablesValid
      ∧ (∃ t, step (pending (machine .binary32 3 0 0 0 []) [.writeReg 0 8]) = .next t)
      ∧ (pending (machine .binary32 3 0 0 0 []) [.writeReg 0 8]).host.head? ≠ some .reset :=
  ⟨pending_tablesValid .., ⟨_, rfl⟩, by decide⟩

/-- `CDFT.F` of two points asks for nothing, and of 16 points for four pairs and order 4. -/
theorem witness_ServedCommandsLeaveTheTables :
    (machine .binary32 2 0 0 0 []).served .cdftF 2
      ∧ (permutationFor 4 (ensureTwiddle 4 (machine .binary32 16 0 0 0 []))).served .cdftF 16
      ∧ (match exec .cdftF (machine .binary32 2 0 0 0 []) with | .next _ => true | _ => false) = true := by
  refine ⟨?_, ?_, by decide +kernel⟩
  · unfold State.served; decide
  · refine ⟨by decide, by decide, ?_⟩
    intro o ho
    obtain rfl : 4 = o := Option.some.inj ((show some 4 = Instr.brRequest .cdftF 16 by decide).trans ho)
    decide

theorem witness_WarmedTransformsChangeNoTable : (machine .binary32 0 0 0 0 []).status.halt = false
    ∧ lengthAdmitted (smallInst .binary32) 2 (2#32).toNat ∧ lengthAdmitted (smallInst .binary32) 4 (4#32).toNat
    ∧ lengthAdmitted (smallInst .binary32) 4 (4096#32).toNat :=
  ⟨rfl, (checkLen_eq_none_iff ..).mp (by decide), (checkLen_eq_none_iff ..).mp (by decide),
    (checkLen_eq_none_iff ..).mp (by decide)⟩

theorem witness_ResultsIgnoreTheFillLevel :
    (machine .binary32 2 0 0 0 []).tablesValid ∧ (ensureTwiddle 4 (machine .binary32 2 0 0 0 [])).tablesValid
      ∧ differInTables (machine .binary32 2 0 0 0 []) (ensureTwiddle 4 (machine .binary32 2 0 0 0 []))
      ∧ (machine .binary32 2 0 0 0 []).nw ≠ (ensureTwiddle 4 (machine .binary32 2 0 0 0 [])).nw
      ∧ (match exec .cdftF (machine .binary32 2 0 0 0 []) with | .next _ => true | _ => false) = true :=
  ⟨machine_tablesValid .., (grown_ensureTwiddle (by decide)).valid (machine_tablesValid ..),
    (grown_ensureTwiddle (by decide)).eq, by decide, by decide +kernel⟩

/-- Four entries, looked up at each end of the range. -/
theorem witness_CosineLookupFindsTheHalvedCosine :
    (ensureCosine 4 (machine .binary32 0 0 0 0 [])).ctValid ∧ 0 < 1 ∧ 3 < 2 ^ 2
      ∧ 2 ^ 2 ≤ (ensureCosine 4 (machine .binary32 0 0 0 0 [])).nc.toNat :=
  ⟨ensureCosine_valid (by decide) (machine_tablesValid ..).2.1, by decide, by decide, by decide⟩

theorem witness_RomHasItsNamedValues : (smallInst .binary64).rom = [] ∧ (smallInst .binary64).fmt = .binary64
    ∧ (smallInst .binary32).rom = [] ∧ (smallInst .binary32).fmt = .binary32 ∧ 0 < 1 ∧ 1 < 2 ^ 1 := by decide

/-- The value above cos(π/4), which is not the rounded one, is clearly within one unit in the last place. -/
theorem other_value_isClearlyWithinUlp :
    isClearlyWithinUlp .binary32 (Real.cos (romAngle 0x20000000 30)) 0x3F3504F4 := by
  have hc : Real.cos (romAngle 0x20000000 30) = √2 / 2 := by
    rw [← Real.cos_pi_div_four]; congr 1; unfold romAngle; push_cast; ring
  have hv : cellReal .binary32 (0x3F3504F4#64).toNat = 0xB504F4 / 2 ^ 24 := by
    have hg : gridOf .binary32 (0x3F3504F4#64).toNat = 0xB504F4 * 2 ^ 125 := by decide +kernel
    rw [cellReal, hg]; norm_num [gridScale]
  have h1 : (1.41421356 : ℝ) ≤ √2 := Real.le_sqrt_of_sq_le (by norm_num)
  have h2 : √2 ≤ 1.41421357 := Real.sqrt_le_iff.mpr ⟨by norm_num, by norm_num⟩
  refine ⟨by decide, fun z w hz hw => ?_⟩
  rw [hc] at hz hw
  change |cellReal .binary32 (0x3F3504F4#64).toNat - z| ≤ _
  rw [hv]
  have hr : (1 : ℝ) / 2 ^ 200 ≤ 1 / 10 ^ 10 := by norm_num
  obtain ⟨z1, z2⟩ := abs_le.mp (hz.trans hr)
  obtain ⟨w1, w2⟩ := abs_le.mp (hw.trans hr)
  have hlog : (-1 : ℤ) ≤ Int.log 2 w := by
    rw [← Int.zpow_le_iff_le_log (by norm_num) (by linarith)]; norm_num; linarith
  have hulp : (1 : ℝ) / 2 ^ 24 ≤ ulp .binary32 w := by
    refine le_trans (by norm_num) (zpow_le_zpow_right₀ (n := Int.log 2 w - 23) (by norm_num) (by linarith : (-24 : ℤ) ≤ _))
  refine le_trans (abs_le.mpr ⟨?_, ?_⟩) hulp <;> norm_num <;> linarith

/-- An instance with that one value of its own; f = 1/2 as 1/2 and 2/4. -/
theorem witness_EveryNamedGeneratorIsAnInstance :
    (ownRom [⟨0x20000000, 0x3F3504F4⟩]).rom.Pairwise (fun x y => x.num < y.num)
      ∧ (∀ e ∈ (ownRom [⟨0x20000000, 0x3F3504F4⟩]).rom, 0 < e.num ∧ e.num < 2 ^ 30
        ∧ isClearlyWithinUlp .binary32 (Real.cos (romAngle e.num 30)) e.value)
      ∧ 1 < 2 ^ 1 ∧ 2 < 2 ^ 2 ∧ 1 * 2 ^ 2 = 2 * 2 ^ 1 := by
  refine ⟨by decide, fun e he => ?_, by decide, by decide, by decide⟩
  obtain rfl := List.mem_singleton.mp he
  exact ⟨by decide, by decide, other_value_isClearlyWithinUlp⟩

/-- 1 is its own rounding. -/
theorem witness_EveryGeneratorIsWithinOneUlp : (smallInst .binary32).rom = []
    ∧ (1 / 2 ^ 31 : ℝ) ≤ 1 ∧ isRounded .binary32 1 (oneBits .binary32) := by
  have h : cellReal .binary32 (oneBits .binary32).toNat = 1 := by
    have hg : gridOf .binary32 (oneBits .binary32).toNat = 2 ^ gridScale .binary32 := by decide +kernel
    rw [cellReal, hg]; norm_num
  refine ⟨rfl, by norm_num, by decide, fun c _ => ⟨?_, fun _ => .inr (by decide)⟩⟩
  rw [h, sub_self, abs_zero]
  exact abs_nonneg _

theorem witness_BitReversalReadsTheFraction : 0 < 2 ^ 0 ∧ 7 < 2 ^ 3 := by decide

theorem witness_BuiltTableHasTheClosedForm : 1 ≤ 1 ∧ 1 % 2 = 1 ∧ 1 ≤ 2 ∧ 2 % 2 = 0 ∧ 0 < (buildBr 1).m := by decide

/-- Order 3, the first with a pair, and order 4; a point that moves in each. -/
theorem witness_SwapPairsRealiseBitReversal :
    1 ≤ 3 ∧ (4, 1) ∈ swapPairs (buildBr 3) ∧ 1 < 2 ^ 3 ∧ 1 ≠ rev 3 1 ∧ (11, 13) ∈ swapPairs (buildBr 4) := by decide

/-- A buffer of four points (the bypass) and one of eight. -/
theorem witness_permutations :
    1 ≤ 2 ∧ 2 * 2 ^ 2 ≤ (List.range 9).length ∧ 1 ≤ 3 ∧ 2 * 2 ^ 3 ≤ (List.range 17).length
      ∧ (List.range 16).length = 2 * 2 ^ 3 := by decide

/-- Two machines with the same input cells, one at `DST`, one at `SRC`, that have drawn different numbers of patterns. -/
theorem witness_InPlaceEqualsOutOfPlace :
    let s := machine .binary32 4 0 0x10 0x10 [0x3F800000, 0, 0x40000000, 0, 0x40400000, 0, 0x40800000, 0]
    let s' := { machine .binary32 4 0x20 0x30 0x20 [0x3F800000, 0, 0x40000000, 0, 0x40400000, 0, 0x40800000, 0] with
      freeCount := 5 }
    s'.inst = s.inst ∧ s'.len = s.len ∧ sameTables s s' ∧ s'.freeCount ≠ s.freeCount ∧ s.tablesValid
      ∧ Memory.wf s.inst.fill s.mem ∧ Memory.wf s.inst.fill s'.mem ∧ lengthAdmitted s.inst 2 s.operandN
      ∧ lengthAdmitted s.inst 4 s.operandN
      ∧ bufferPresent s.inst s.operandD 8 = true ∧ bufferPresent s.inst s'.operandS 8 = true
      ∧ bufferPresent s.inst s'.operandD 8 = true ∧ buffersDisjoint s'.operandS s'.operandD 8 = true
      ∧ loadCells s.inst s'.mem s'.operandS 8 = loadCells s.inst s.mem s.operandD 8 := by
  refine ⟨rfl, rfl, ⟨rfl, rfl, rfl, rfl, rfl⟩, by decide, machine_tablesValid .., machine_memory_wf ..,
    machine_memory_wf .binary32 4 0x20 0x30 0x20 _, (checkLen_eq_none_iff ..).mp ?_, (checkLen_eq_none_iff ..).mp ?_, ?_⟩
  · decide
  · decide
  · decide +kernel

/-- Buffers of four cells that share one cell, and the same buffer twice. -/
theorem witness_OverlappingBuffersAreRefused : Instr.cdftoF ∈ outOfPlaceCommands ∧ Instr.rdftoI ∈ outOfPlaceCommands
    ∧ lengthAdmitted (smallInst .binary32) 2 (machine .binary32 2 0 3 0 []).operandN
    ∧ bufferPresent (smallInst .binary32) 0 4 = true ∧ bufferPresent (smallInst .binary32) 3 4 = true
    ∧ (0 ≤ 3 ∧ 3 < 0 + 4 ∧ 3 ≤ 3 ∧ 3 < 3 + 4)
    ∧ lengthAdmitted (smallInst .binary32) 4 (machine .binary32 4 0 0 0 []).operandN :=
  ⟨by decide, by decide, (checkLen_eq_none_iff ..).mp (by decide), by decide, by decide, by decide,
    (checkLen_eq_none_iff ..).mp (by decide)⟩

/-- A buffer whose last cell is the first that does not exist, at `DST` and at `SRC`. -/
theorem witness_AbsentBufferIsRefused : Instr.cdftF ∈ transformCommands ∧ Instr.cdftoF ∈ transformCommands
    ∧ Instr.cdftoF ∈ outOfPlaceCommands
    ∧ lengthAdmitted (smallInst .binary32) 2 (machine .binary32 2 0x7FD 0x7FD 0 []).operandN
    ∧ bufferPresent (smallInst .binary32) (machine .binary32 2 0x7FD 0x7FD 0 []).operandD 4 = false
    ∧ bufferPresent (smallInst .binary32) (machine .binary32 2 0x7FD 0x7FD 0 []).operandS 4 = false :=
  ⟨by decide, by decide, by decide, (checkLen_eq_none_iff ..).mp (by decide), by decide, by decide⟩

/-- Each outcome happens: a next state, an absent cell, an absent buffer at `DST` and at `SRC`, buffers that share a cell;
words 0x1 and 0x2 are `CDFT.F` and `CDFTO.F`. -/
theorem witness_StepStopsOnlyForBuffers : (machine .binary32 2 0 0 0 []).seq = .idle
    ∧ stopOf (pending (machine .binary32 2 0 0 0 []) [.readCell 0x800]) = some .cellNotPresent
    ∧ cellPresent (smallInst .binary32) 0x800 = false ∧ cellPresent (smallInst .binary32) 0x7FF = true
    ∧ refusalOf 0x1 (machine .binary32 2 0 0x7FD 0 []) = some .bufferNotPresent
    ∧ refusalOf 0x1 (machine .binary32 2 0x7FD 0x7FC 0 []) = none
    ∧ refusalOf 0x2 (machine .binary32 2 0x7FD 0 0 []) = some .bufferNotPresent
    ∧ refusalOf 0x2 (machine .binary32 2 0 3 0 []) = some .buffersOverlap
    ∧ refusalOf 0x2 (machine .binary32 2 0 4 0 []) = none := by decide +kernel

/-- Two points, where no entry is read at all, and eight, where entries 0 and 1 may be. -/
theorem witness_PassesReadOnlyRequestedTwiddles :
    let T : Coeffs Nat := ⟨fun _ => (1, 0), fun _ => 0⟩
    let T' : Coeffs Nat := ⟨fun k => if k < 2 then (1, 0) else (0, 1), fun _ => 0⟩
    1 ≤ 1 ∧ (∀ j < 2 ^ 1 / 4, 4 < 2 ^ 1 → T.tw j = T'.tw j)
      ∧ 1 ≤ 3 ∧ (∀ j < 2 ^ 3 / 4, 4 < 2 ^ 3 → T.tw j = T'.tw j) ∧ T.tw 2 ≠ T'.tw 2 := by decide

theorem witness_exact_readings : 1 ≤ 1 ∧ 2 ≤ 2 ∧ (List.replicate 4 (0 : ℝ)).length = 2 ^ 2 := by simp

/-- One operand of each kind, and sums that cancel and do not. -/
theorem witness_addition_and_multiplication :
    (Sample.bits 0x7FC00000).number .binary32 = .nan ∧ (Sample.bits 0xFF800000).number .binary32 = .inf true
      ∧ (Sample.bits 0x7F800000).number .binary32 = .inf false
      ∧ (Sample.bits 1).number .binary32 = .finite false 1
      ∧ (Sample.bits 0x80000001).number .binary32 = .finite true 1
      ∧ (Sample.bits 0x80000000).number .binary32 = .finite true 0
      ∧ signedGrid false 1 + signedGrid true 1 = 0 ∧ signedGrid false 1 + signedGrid false 1 ≠ 0 := by decide

theorem witness_SubtractionAddsTheNegation : (Sample.quietNaN).number .binary32 = .nan
    ∧ (Sample.bits 0x7F7FFFFF).number .binary32 = .finite false (0xFFFFFF * 2 ^ 253)
    ∧ (Sample.bits 0x7F800000).number .binary32 = .inf false := by decide +kernel

theorem witness_NegationIsSymmetric : 31 < 64
    ∧ (fmul .binary32 (.bits 0x3F800000) (.bits 0x40000000)).number .binary32 ≠ .nan
    ∧ (fadd .binary32 (.bits 0x3F800000) (.bits 0x40000000)).number .binary32 ≠ .nan
    ∧ (Sample.bits 1).number .binary32 = .finite false 1 ∧ (Sample.bits 0x80000001).number .binary32 = .finite true 1
    ∧ signedGrid false 1 + signedGrid true 1 = 0 ∧ signedGrid false 1 + signedGrid false 1 ≠ 0 := by decide +kernel

/-- A value that doubles past the largest finite one, and an odd subnormal, which halves to an even one. -/
theorem witness_DoublingAndHalvingAreExact :
    (Sample.bits 0x7F7FFFFF).number .binary32 = .finite false (0xFFFFFF * 2 ^ 253)
      ∧ (Sample.bits 3).number .binary32 = .finite false 3 := by decide +kernel

/-- The values at the ends of the ranges: the widest binary32 cell, an infinity minus itself, a quiet NaN of each
format with bits of its own. -/
theorem witness_NaNResultsAreAnyQuietNaN : cellFits .binary32 0xFFFFFFFF = true ∧ cellFits .binary32 0x100000000 = false
    ∧ (fadd .binary32 (.bits 0x7F800000) (.bits 0xFF800000)).number .binary32 = .nan
    ∧ (fmul .binary64 (.bits 0) (.bits 0x7FF0000000000000)).number .binary64 = .nan
    ∧ isQuietNaN .binary32 0xFFC00001 ∧ isQuietNaN .binary64 0xFFF8000000000001 := by
  unfold isQuietNaN; decide +kernel

end Sys2Proof.Tests
end

section
/-! SUPPORT. Scope (00_scope.md): bit reversal and the fraction it reads (R13), and the coefficient generator as a
parameter (R10, with 40_table_cache.md R122, R123). -/

namespace Sys2Proof.Scope

open Sys2Proof.Machine Sys2Proof.Claims

/-! ### Bit reversal (R13) -/

@[simp] theorem rev_zero (x : Nat) : rev 0 x = 0 := rfl

/-- `rev` taken apart at the low bit of its argument, which becomes the top bit. -/
theorem rev_succ (d x : Nat) : rev (d + 1) x = x % 2 * 2 ^ d + rev d (x / 2) := rfl

/-- `rev` taken apart at the top bit of its argument, which becomes the low bit. -/
theorem rev_succ_top {d y b : Nat} (hy : y < 2 ^ d) (hb : b < 2) :
    rev (d + 1) (b * 2 ^ d + y) = 2 * rev d y + b := by
  induction d generalizing y with
  | zero =>
    obtain rfl : y = 0 := by simpa using hy
    simp [rev_succ, Nat.mod_eq_of_lt hb]
  | succ d ih =>
    have heven : b * 2 ^ (d + 1) = 2 * (b * 2 ^ d) := by ring
    have hhalf : (b * 2 ^ (d + 1) + y) / 2 = b * 2 ^ d + y / 2 := by omega
    have hlow : (b * 2 ^ (d + 1) + y) % 2 = y % 2 := by omega
    rw [rev_succ (d + 1), hhalf, hlow, ih (by omega), rev_succ d y]
    ring

theorem rev_rev {d x : Nat} (hx : x < 2 ^ d) : rev d (rev d x) = x := by
  induction d generalizing x with
  | zero => simpa using (Nat.lt_one_iff.mp hx).symm
  | succ d ih =>
    calc rev (d + 1) (rev (d + 1) x)
        = 2 * rev d (rev d (x / 2)) + x % 2 := by
          rw [rev_succ d x, rev_succ_top (rev_lt d _) (Nat.mod_lt x (by decide))]
      _ = x := by rw [ih (by rw [pow_succ] at hx; omega)]; omega

/-- Each leading zero of the argument doubles the reversal. -/
theorem rev_add_of_lt {d k : Nat} (e : Nat) (hk : k < 2 ^ d) : rev (d + e) k = 2 ^ e * rev d k := by
  induction e with
  | zero => simp
  | succ e ih =>
    have hlt : k < 2 ^ (d + e) := hk.trans_le (Nat.pow_le_pow_right (by decide) (Nat.le_add_right d e))
    have htop := rev_succ_top hlt (b := 0) (by decide)
    rw [Nat.zero_mul, Nat.zero_add, Nat.add_zero, ih] at htop
    rw [← Nat.add_assoc, htop, pow_succ]
    ring

theorem lt_two_pow_bitCount (k : Nat) : k < 2 ^ bitCount k := by
  unfold bitCount
  split
  · omega
  · exact Nat.lt_log2_self

theorem bitCount_le_of_lt {d k : Nat} (hk : k < 2 ^ d) : bitCount k ≤ d := by
  unfold bitCount
  split
  · exact d.zero_le
  · next h0 => exact (Nat.log2_lt h0).mpr hk

/-- `brfrac` may be read with any number of leading zeros. -/
theorem brfrac_eq_of_lt {d k : Nat} (hk : k < 2 ^ d) : brfrac k = (rev d k : ℝ) / 2 ^ d := by
  obtain ⟨e, rfl⟩ := Nat.exists_eq_add_of_le (bitCount_le_of_lt hk)
  rw [rev_add_of_lt e (lt_two_pow_bitCount k), brfrac, brNum]
  push_cast
  rw [pow_add, mul_comm ((2 : ℝ) ^ e), mul_div_mul_right _ _ (by positivity)]

/-- Settles O36: the reversal is an involution by induction on the number of bits, taking the argument apart at its low
bit outside and at its top bit inside; `brfrac` reads a reversal whatever its leading zeros. -/
theorem bitReversalReadsTheFraction : Obligations.BitReversalReadsTheFraction := by
  intro d x hx
  refine ⟨rev_rev hx, ?_⟩
  rw [brfrac_eq_of_lt (rev_lt d x), rev_rev hx]

/-! ### Looking up a listed value -/

/-- A value found is that of an entry for the argument, and passed the test. -/
theorem exists_entry_of_romListed {p : Params} {num d : Nat} {v : CellBits} (h : romListed p num d = some v) :
    ∃ e ∈ p.rom, e.num = romKey num d ∧ e.value = v ∧ romAdmits p.fmt num d v = true := by
  obtain ⟨e, hfind, rfl⟩ := Option.map_eq_some_iff.mp h
  have hpass := List.find?_some hfind
  rw [Bool.and_eq_true_iff, beq_iff_eq] at hpass
  exact ⟨e, List.mem_of_find?_eq_some hfind, hpass.1, rfl, hpass.2⟩

theorem romListed_isSome_of_mem {p : Params} {num d : Nat} {e : RomEntry} (he : e ∈ p.rom) (hkey : e.num = romKey num d)
    (hadm : romAdmits p.fmt num d e.value = true) : (romListed p num d).isSome = true := by
  rw [romListed, Option.isSome_map, List.find?_isSome]
  exact ⟨e, he, by simp [hkey, hadm]⟩

/-- A list by rising argument lists one value an argument. -/
theorem eq_of_num_eq {rom : List RomEntry} (hord : rom.Pairwise fun x y => x.num < y.num) {e f : RomEntry}
    (he : e ∈ rom) (hf : f ∈ rom) (h : e.num = f.num) : e = f :=
  List.inj_on_of_nodup_map (List.pairwise_map.mpr (hord.imp fun hlt => hlt.ne)) he hf h

/-- A listed value that the test takes is the value found. -/
theorem romListed_eq_of_mem {p : Params} (hord : p.rom.Pairwise fun x y => x.num < y.num) {num d : Nat} {e : RomEntry}
    (he : e ∈ p.rom) (hkey : e.num = romKey num d) (hadm : romAdmits p.fmt num d e.value = true) :
    romListed p num d = some e.value := by
  obtain ⟨v, hv⟩ := Option.isSome_iff_exists.mp (romListed_isSome_of_mem he hkey hadm)
  obtain ⟨f, hf, hfkey, rfl, -⟩ := exists_entry_of_romListed hv
  rw [hv, eq_of_num_eq hord hf he (hfkey.trans hkey.symm)]

theorem romKey_thirty (num : Nat) : romKey num 30 = num := Nat.mul_div_cancel _ (by decide)

theorem romWf_iff (p : Params) : romWf p = true ↔ p.rom.Pairwise (fun x y => x.num < y.num)
    ∧ ∀ e ∈ p.rom, (0 < e.num ∧ e.num < 2 ^ 30) ∧ romAdmits p.fmt e.num 30 e.value = true := by
  simp only [romWf, Bool.and_eq_true, decide_eq_true_eq, List.all_eq_true]

/-! ### Property P1: the generator depends on the fraction alone -/

/-- The floor of a multiple of a dyadic fraction does not depend on how the fraction is written. -/
theorem mul_div_two_pow_congr {num num' d d' : Nat} (c : Nat) (h : num * 2 ^ d' = num' * 2 ^ d) :
    c * num / 2 ^ d = c * num' / 2 ^ d' := by
  calc c * num / 2 ^ d
      = c * num * 2 ^ d' / (2 ^ d * 2 ^ d') := (Nat.mul_div_mul_right _ _ (by positivity)).symm
    _ = c * num' * 2 ^ d / (2 ^ d' * 2 ^ d) := by rw [Nat.mul_assoc, h, Nat.mul_assoc, Nat.mul_comm (2 ^ d)]
    _ = c * num' / 2 ^ d' := Nat.mul_div_mul_right _ _ (by positivity)

section SameFraction

variable {num num' d d' : Nat}

theorem eq_zero_congr (h : num * 2 ^ d' = num' * 2 ^ d) : num = 0 ↔ num' = 0 := by
  constructor <;> rintro rfl <;> simpa using h

theorem cosineFixed_congr (h : num * 2 ^ d' = num' * 2 ^ d) : cosineFixed num d = cosineFixed num' d' := by
  have hangle : angleFixed num d = angleFixed num' d' :=
    mul_div_two_pow_congr piFixed (by rw [pow_succ, pow_succ, ← Nat.mul_assoc, ← Nat.mul_assoc, h])
  simp only [cosineFixed, hangle]

theorem romAdmits_congr (fmt : Format) (v : CellBits) (h : num * 2 ^ d' = num' * 2 ^ d) :
    romAdmits fmt num d v = romAdmits fmt num' d' v := by
  unfold romAdmits ulpFixed
  rw [cosineFixed_congr h]

theorem romListed_congr (p : Params) (h : num * 2 ^ d' = num' * 2 ^ d) : romListed p num d = romListed p num' d' := by
  have hkey : romKey num d = romKey num' d' := by
    simpa only [romKey, Nat.mul_comm] using mul_div_two_pow_congr (2 ^ 30) h
  simp only [romListed, hkey, romAdmits_congr _ _ h]

theorem romCos_congr (p : Params) (h : num * 2 ^ d' = num' * 2 ^ d) : romCos p num d = romCos p num' d' := by
  simp only [romCos, seriesCos, eq_zero_congr h, romListed_congr p h, cosineFixed_congr h]

theorem romSin_congr (p : Params) (h : num * 2 ^ d' = num' * 2 ^ d) : romSin p num d = romSin p num' d' := by
  have hrest : (2 ^ d - num) * 2 ^ d' = (2 ^ d' - num') * 2 ^ d := by
    rw [Nat.sub_mul, Nat.sub_mul, h, Nat.mul_comm (2 ^ d)]
  simp only [romSin, eq_zero_congr h, romCos_congr p hrest]

end SameFraction

/-! ### Property P5: the halved cosine is a product -/

/-- A magnitude up to that of infinity is a number. -/
theorem numberOf_ne_nan {fmt : Format} {b : CellBits} (h : b.toNat ≤ infMagnitude fmt) : numberOf fmt b ≠ .nan := by
  have hmag : ¬ infMagnitude fmt < magnitudeOf fmt b := by
    have := Nat.mod_le b.toNat (2 ^ (cellWidth fmt - 1))
    unfold magnitudeOf
    omega
  rw [numberOf, if_neg hmag]
  split <;> simp

theorem roundMagnitude_le (fmt : Format) (m sh : Nat) : roundMagnitude fmt m sh ≤ infMagnitude fmt :=
  Nat.min_le_right _ _

theorem oneBits_lt_infMagnitude (fmt : Format) : (oneBits fmt).toNat < infMagnitude fmt := by
  cases fmt <;> decide

/-- What the generator lists lies in [0, 1]. -/
theorem romListed_le_one {p : Params} {num d : Nat} {v : CellBits} (h : romListed p num d = some v) :
    v.toNat ≤ (oneBits p.fmt).toNat := by
  obtain ⟨e, -, -, -, hadm⟩ := exists_entry_of_romListed h
  exact (of_decide_eq_true hadm).1

theorem seriesCos_le (fmt : Format) (num d : Nat) : (seriesCos fmt num d).toNat ≤ infMagnitude fmt :=
  (Nat.mod_le _ _).trans (roundMagnitude_le ..)

theorem romCos_le (p : Params) (num d : Nat) : (romCos p num d).toNat ≤ infMagnitude p.fmt := by
  have hone := (oneBits_lt_infMagnitude p.fmt).le
  by_cases h0 : num = 0
  · rw [h0, romCos_zero]; exact hone
  · cases hl : romListed p num d with
    | none => rw [romCos_of_unlisted h0 hl]; exact seriesCos_le ..
    | some v => rw [romCos_of_listed h0 hl]; exact (romListed_le_one hl).trans hone

/-- `HALF` is the positive number of this grid value. -/
theorem fhalf_number (fmt : Format) : (fhalf fmt).number fmt = .finite false (2 ^ (gridScale fmt - 1)) := by
  cases fmt <;> decide +kernel

/-- Halving a number answers bits: the product is no computed NaN. -/
theorem fmul_fhalf_eq_bits {fmt : Format} {x : CellBits} (h : numberOf fmt x ≠ .nan) :
    ∃ b, fmul fmt (fhalf fmt) (.bits x) = .bits b := by
  unfold fmul
  rw [fhalf_number, show (Sample.bits x).number fmt = numberOf fmt x from rfl]
  cases hx : numberOf fmt x with
  | nan => exact absurd hx h
  | inf neg => exact ⟨_, if_neg (by positivity)⟩
  | finite neg grid => exact ⟨_, rfl⟩

theorem bits_halfBits {fmt : Format} {x : CellBits} (h : numberOf fmt x ≠ .nan) :
    Sample.bits (halfBits fmt x) = fmul fmt (fhalf fmt) (.bits x) := by
  obtain ⟨b, hb⟩ := fmul_fhalf_eq_bits h
  rw [halfBits, hb]

theorem bits_romHalfCos (p : Params) (num d : Nat) :
    Sample.bits (romHalfCos p num d) = fmul p.fmt (fhalf p.fmt) (.bits (romCos p num d)) :=
  bits_halfBits (numberOf_ne_nan (romCos_le p num d))

/-! ### Property P3: what is clearly within one unit is taken -/

/-- At the lower end of the slack, the unit in the last place is no more than the one `romAdmits` measures with. -/
theorem romUnit_mul_ulp_le (fmt : Format) {num d : Nat} (h : num < 2 ^ d) (hd : d ≤ 30) :
    romUnit * ulp fmt (((cosineFixed num d - romSlack : ℕ) : ℝ) / romUnit) ≤ ulpFixed fmt num d := by
  obtain ⟨hl, -, -⟩ := cosineFixed_bounds h hd
  have hU := romUnit_pos
  unfold ulpFixed ulp
  generalize cosineFixed num d - romSlack = L at *
  have hL0 : L ≠ 0 := by omega
  have hlog : 225 ≤ Nat.log2 L := (Nat.le_log2 hL0).mpr hl
  have hp : precision fmt - 1 ≤ Nat.log2 L ∧ 1 ≤ precision fmt := by cases fmt <;> simp [precision] <;> omega
  have hpos : (0 : ℝ) < (L : ℝ) / romUnit := div_pos (by exact_mod_cast Nat.pos_of_ne_zero hL0) hU
  have htop : Int.log 2 ((L : ℝ) / romUnit) < (Nat.log2 L : ℤ) + 1 - romBits := by
    rw [← Int.lt_zpow_iff_log_lt (by norm_num) hpos, zpow_sub₀ (by norm_num), zpow_natCast, Nat.cast_ofNat,
      ← romUnit_def]
    gcongr
    exact_mod_cast (Nat.lt_log2_self (n := L))
  have hunit : ((2 ^ (Nat.log2 L - (precision fmt - 1)) : ℕ) : ℝ)
      = romUnit * 2 ^ ((Nat.log2 L : ℤ) - romBits - ((precision fmt : ℤ) - 1)) := by
    rw [romUnit_def, ← zpow_natCast, ← zpow_add₀ (by norm_num)]
    push_cast
    rw [← zpow_natCast]
    congr 1
    omega
  rw [hunit]
  exact mul_le_mul_of_nonneg_left (zpow_le_zpow_right₀ (by norm_num) (by omega)) hU.le

/-- Twice the slack, in units of 2^-256, is less than 2^-200. -/
theorem abs_div_romUnit_sub_le {x y : ℝ} (h : |x - romUnit * y| ≤ 2 * romSlack) : |x / romUnit - y| ≤ 1 / 2 ^ 200 := by
  have hU := romUnit_pos
  have hsmall : 2 * (romSlack : ℝ) / romUnit ≤ 1 / 2 ^ 200 := by
    rw [romUnit_def]; norm_num [romSlack, romBits]
  calc |x / romUnit - y| = |x - romUnit * y| / romUnit := by
        rw [← abs_of_pos hU, ← abs_div, abs_of_pos hU, sub_div, mul_div_cancel_left₀ _ hU.ne']
    _ ≤ 2 * romSlack / romUnit := by gcongr
    _ ≤ 1 / 2 ^ 200 := hsmall

/-- What `romAdmits` tests, as real numbers in units of 2^-256. -/
theorem romAdmits_iff (fmt : Format) (num d : Nat) (v : CellBits) :
    romAdmits fmt num d v = true ↔ v.toNat ≤ (oneBits fmt).toNat
      ∧ (cosineFixed num d + romSlack : ℝ) ≤ romUnit * cellReal fmt v.toNat + ulpFixed fmt num d
      ∧ romUnit * cellReal fmt v.toNat + romSlack ≤ (cosineFixed num d + ulpFixed fmt num d : ℝ) := by
  have hg : (0 : ℝ) < 2 ^ gridScale fmt := by positivity
  have hcell : (gridOf fmt v.toNat : ℝ) * 2 ^ romBits = romUnit * cellReal fmt v.toNat * 2 ^ gridScale fmt := by
    rw [romUnit_def, cellReal]; field_simp
  rw [romAdmits, decide_eq_true_eq, ← Nat.cast_le (α := ℝ) (m := (cosineFixed num d + romSlack) * _),
    ← Nat.cast_le (α := ℝ) (m := gridOf fmt v.toNat * _ + _)]
  push_cast
  rw [hcell, ← add_mul, ← add_mul, mul_le_mul_iff_left₀ hg, mul_le_mul_iff_left₀ hg]

/-- The test of the generator takes every value with the property P3 and 2^-200 to spare. -/
theorem romAdmits_of_isClearlyWithinUlp {fmt : Format} {num d : Nat} {v : CellBits} (h : num < 2 ^ d) (hd : d ≤ 30)
    (hv : isClearlyWithinUlp fmt (Real.cos (romAngle num d)) v) : romAdmits fmt num d v = true := by
  obtain ⟨hone, hclose⟩ := hv
  obtain ⟨hlarge, -, -⟩ := cosineFixed_bounds h hd
  obtain ⟨herr, herr'⟩ := abs_le.mp (cosineFixed_error h)
  have hulp := romUnit_mul_ulp_le fmt h hd
  rw [Nat.cast_sub (by omega)] at hulp
  have hU := romUnit_pos
  generalize Real.cos (romAngle num d) = y at *
  have hlow : |(cosineFixed num d - romSlack : ℝ) / romUnit - y| ≤ 1 / 2 ^ 200 :=
    abs_div_romUnit_sub_le (abs_le.mpr ⟨by linarith, by linarith⟩)
  have hhigh : |(cosineFixed num d + romSlack : ℝ) / romUnit - y| ≤ 1 / 2 ^ 200 :=
    abs_div_romUnit_sub_le (abs_le.mpr ⟨by linarith, by linarith⟩)
  have habove := mul_le_mul_of_nonneg_left (neg_le_of_abs_le (hclose _ _ hhigh hlow)) hU.le
  have hbelow := mul_le_mul_of_nonneg_left (le_of_abs_le (hclose _ _ hlow hlow)) hU.le
  rw [mul_sub, mul_div_cancel₀ _ hU.ne'] at habove hbelow
  exact (romAdmits_iff ..).mpr ⟨hone, by linarith, by linarith⟩

/-! ### The generator is a parameter -/

/-- Settles O59: the fixed-point test takes a value with 2^-200 to spare, so a listed value is found and is the
generator's; P1 because every intermediate value is a floor of a multiple of the fraction; P5 because the cosine is
never a NaN. -/
theorem everyNamedGeneratorIsAnInstance : Obligations.EveryNamedGeneratorIsAnInstance := by
  constructor
  · intro p hord hrom
    have hadm : ∀ e ∈ p.rom, (0 < e.num ∧ e.num < 2 ^ 30) ∧ romAdmits p.fmt e.num 30 e.value = true := by
      intro e he
      obtain ⟨hpos, hlt, hclear⟩ := hrom e he
      exact ⟨⟨hpos, hlt⟩, romAdmits_of_isClearlyWithinUlp hlt le_rfl hclear⟩
    refine ⟨(romWf_iff p).mpr ⟨hord, hadm⟩, fun e he => ?_⟩
    obtain ⟨⟨hpos, -⟩, htaken⟩ := hadm e he
    exact romCos_of_listed hpos.ne' (romListed_eq_of_mem hord he (romKey_thirty _).symm htaken)
  · intro p num d _
    refine ⟨fun num' d' _ heq => ⟨romCos_congr p heq, romSin_congr p heq, ?_⟩, bits_romHalfCos p num d⟩
    rw [romHalfCos, romHalfCos, romCos_congr p heq]

end Sys2Proof.Scope
end

section
/-! SUPPORT. The state of the engine (10_state.md): what the host port and the commands do to it, what every step keeps,
and what the registers show. -/

namespace Sys2Proof.EngineState

open Sys2Proof.Machine Sys2Proof.Claims

/-! ### The one shape of every command -/

/-- The check a command starts with (45_command_api.md R233, R234). -/
def checkOf (i : Instr) (p : Params) (n : Nat) : Option Cause :=
  match i with
  | .enstw => checkTwiddleSize p n
  | .ensct => checkCosineSize p n
  | .ensbr => checkOrder p n
  | _ => checkLen p n i.minLen

/-- The table requests of a command (40_table_cache.md R133). -/
def prepare (i : Instr) (n : Nat) (s : State) : State :=
  match i with
  | .cdftF | .cdftI | .cdftoF | .cdftoI => prepareComplex n s
  | .rdftF | .rdftI | .rdftoF | .rdftoI => prepareReal n (n / 4) s
  | .dctF | .dctI | .dstF | .dstI => prepareReal n n s
  | .enstw => ensureTwiddle n s
  | .ensct => ensureCosine n s
  | .ensbr => permutationFor n s

/-- The order of the bit-reversal table the stages of a transform read. -/
def permOrder (i : Instr) (n : Nat) : Nat :=
  match i with
  | .cdftF | .cdftI | .cdftoF | .cdftoI => log2 n
  | _ => log2 (n / 2)

/-- The stages of a transform, from the buffer at `SRC`, which the out-of-place commands alone read, and the one at
`DST`. -/
def stagesOf {α : Type} (i : Instr) (A : Arith α) (T : Coeffs α) (e : BrEntry) (n : Nat) (src dst : List α) : List α :=
  match i with
  | .cdftF => stagesCdftF A T e n dst
  | .cdftI => stagesCdftI A T e n dst
  | .cdftoF => stagesCdftoF A T n src dst
  | .cdftoI => stagesCdftoI A T n src dst
  | .rdftF => stagesRdftF A T e n dst
  | .rdftI => stagesRdftI A T e n dst
  | .rdftoF => stagesRdftoF A T e n src dst
  | .rdftoI => stagesRdftoI A T e n src dst
  | .dctF => stagesDctF A T e n dst
  | .dctI => stagesDctI A T e n dst
  | .dstF => stagesDstF A T e n dst
  | .dstI => stagesDstI A T e n dst
  | .enstw | .ensct | .ensbr => dst

/-- The stages with the format's arithmetic and a state's own tables. -/
def stagesAt (i : Instr) (n : Nat) (u : State) (src dst : List Sample) : List Sample :=
  stagesOf i (ieee u.inst.fmt) u.coeffs (u.brEntry (permOrder i n)) n src dst

/-- What is left of a command once its tables are there. -/
def finish (i : Instr) (n : Nat) (u : State) : Host.Outcome State Fault Refusal :=
  match i.shape with
  | .inPlace => u.transformInPlace (i.cells n) (stagesAt i n u [])
  | .outOfPlace => u.transformOutOfPlace (i.cells n) (stagesAt i n u)
  | .lengthOnly => .next u.complete

/-- Every command is its check, its table requests and its stages (45_command_api.md R230). -/
theorem exec_eq (i : Instr) (s : State) : exec i s = s.checked (checkOf i s.inst s.operandN) fun s =>
    finish i s.operandN (prepare i s.operandN s) := by
  cases i <;> rfl

theorem checkOf_of_transform {i : Instr} (h : i.shape ≠ .lengthOnly) (p : Params) (n : Nat) :
    checkOf i p n = checkLen p n i.minLen := by
  cases i with
  | enstw | ensct | ensbr => exact absurd rfl h
  | _ => rfl

theorem checkOf_eq_none_iff {i : Instr} (h : i.shape ≠ .lengthOnly) (p : Params) (n : Nat) :
    checkOf i p n = none ↔ lengthAdmitted p i.minLen n := by
  rw [checkOf_of_transform h, checkLen_eq_none_iff]

theorem mem_transformCommands_iff (i : Instr) : i ∈ transformCommands ↔ i.shape ≠ .lengthOnly := by
  cases i <;> decide

theorem mem_outOfPlaceCommands_iff (i : Instr) : i ∈ outOfPlaceCommands ↔ i.shape = .outOfPlace := by
  cases i <;> decide

/-! ### What the grown state shares with the old one -/

section Grown

variable {s s' : State} (g : Grown s s')
include g

theorem grown_operandS : s'.operandS = s.operandS := by rw [g.eq]; rfl

theorem grown_operandD : s'.operandD = s.operandD := by rw [g.eq]; rfl

theorem grown_mem : s'.mem = s.mem := by rw [g.eq]

theorem grown_status : s'.status = s.status := by rw [g.eq]

theorem grown_sameArguments : sameArguments s s' := by
  rw [g.eq]
  exact ⟨rfl, rfl, rfl, rfl, rfl, rfl, rfl⟩

theorem grown_differInTables : differInTables s s' := by
  rw [g.eq]
  rfl

end Grown

/-- A command that has checked out only grows the tables (40_table_cache.md R120). -/
theorem grown_prepare {i : Instr} {n : Nat} {s : State} (h : checkOf i s.inst n = none) : Grown s (prepare i n s) := by
  cases i with
  | cdftF | cdftI | cdftoF | cdftoI => exact grown_prepareComplex ((checkLen_eq_none_iff ..).mp h)
  | rdftF | rdftI | rdftoF | rdftoI => exact grown_prepareReal ((checkLen_eq_none_iff ..).mp h) (Nat.div_le_self ..)
  | dctF | dctI | dstF | dstI => exact grown_prepareReal ((checkLen_eq_none_iff ..).mp h) le_rfl
  | enstw => exact grown_ensureTwiddle (checkTwiddleSize_eq_none h)
  | ensct => exact grown_ensureCosine (checkCosineSize_eq_none h)
  | ensbr => exact grown_permutationFor (checkOrder_eq_none h).1 (checkOrder_eq_none h).2

/-! ### The stages read only what the command has asked for (40_table_cache.md R133) -/

theorem prepareComplex_serves {s : State} {n : Nat} (hv : s.tablesValid) (ha : lengthAdmitted s.inst complexMin n) :
    n / 4 ≤ (prepareComplex n s).nw.toNat := by
  obtain ⟨k, rfl⟩ := ha.1
  rw [(prepareComplex_spec hv ha.le_order).2.1]
  exact le_max_right ..

theorem prepareReal_serves {s : State} {n c : Nat} (hv : s.tablesValid) (ha : lengthAdmitted s.inst realMin n)
    (hc : c ≤ n) : n / 8 ≤ (prepareReal n c s).nw.toNat ∧ c ≤ (prepareReal n c s).nc.toNat := by
  obtain ⟨⟨k, rfl⟩, hmin, -⟩ := id ha
  obtain ⟨k, rfl⟩ : ∃ j, k = j + 1 := ⟨k - 1, by rcases k with _ | k <;> simp [realMin] at *⟩
  obtain ⟨-, hnw, hnc, -⟩ := prepareReal_spec hv ha.le_order hc
  rw [hnw, hnc]
  exact ⟨le_max_right .., le_max_right ..⟩

/-- After its table requests a transform has every entry it asked for. -/
theorem prepare_serves {i : Instr} {n : Nat} {s : State} (hi : i.shape ≠ .lengthOnly) (hv : s.tablesValid)
    (ha : lengthAdmitted s.inst i.minLen n) :
    i.twRequest n ≤ (prepare i n s).nw.toNat ∧ i.ctRequest n ≤ (prepare i n s).nc.toNat := by
  cases i with
  | cdftF | cdftI | cdftoF | cdftoI => exact ⟨prepareComplex_serves hv ha, Nat.zero_le _⟩
  | rdftF | rdftI | rdftoF | rdftoI => exact prepareReal_serves hv ha (Nat.div_le_self ..)
  | dctF | dctI | dstF | dstI => exact prepareReal_serves hv ha le_rfl
  | enstw | ensct | ensbr => exact absurd rfl hi

section ReadBounds

variable {α : Type} (A : Arith α) {T T' : Coeffs α} {n : Nat}

/-- The passes over the half-length view read the first N/8 twiddle entries. -/
theorem halfPasses_congr (h : ∀ k < n / 8, T.tw k = T'.tw k) (b : List α) :
    passes A T (n / 2) b = passes A T' (n / 2) b :=
  passes_congr A (by rwa [Nat.div_div_eq_div_mul]) b

theorem backwardCore_congr (e : BrEntry) (ht : ∀ k < n / 8, T.tw k = T'.tw k) (hc : ∀ i < n / 4, T.ct i = T'.ct i)
    (hn : 4 ≤ n) (b : List α) : backwardCore A T e n b = backwardCore A T' e n b := by
  simp only [backwardCore, halfPasses_congr A ht, rftb_congr A hc hn]

theorem forwardCore_congr (e : BrEntry) (ht : ∀ k < n / 8, T.tw k = T'.tw k) (hc : ∀ i < n / 4, T.ct i = T'.ct i)
    (hn : 4 ≤ n) (b : List α) : forwardCore A T e n b = forwardCore A T' e n b := by
  simp only [forwardCore, halfPasses_congr A ht, rftf_congr A hc hn]

/-- The stages of a command are the same over any two sets of coefficients that agree on what it asks for. -/
theorem stagesOf_congr {i : Instr} (e : BrEntry) (hn : i.minLen ≤ n)
    (h : Coeffs.agree T T' (i.twRequest n) (i.ctRequest n)) (src dst : List α) :
    stagesOf i A T e n src dst = stagesOf i A T' e n src dst := by
  obtain ⟨ht, hc⟩ := h
  cases i with
  | cdftF | cdftI | cdftoF | cdftoI =>
    simp only [stagesOf, stagesCdftF, stagesCdftI, stagesCdftoF, stagesCdftoI, passes_congr A ht]
  | rdftF | rdftoF => exact congrArg (dcnyqF A) (forwardCore_congr A e ht hc hn _)
  | rdftI | rdftoI => exact backwardCore_congr A e ht hc hn _
  | dctF | dctI | dstF | dstI =>
    have hall : ∀ i < n, T.ct i = T'.ct i := hc
    have hquarter : ∀ i < n / 4, T.ct i = T'.ct i := fun i hi => hall i (hi.trans_le (Nat.div_le_self ..))
    have hn0 : n ≠ 0 := (Nat.lt_of_lt_of_le (by decide) hn).ne'
    simp only [stagesOf, stagesDctF, stagesDctI, stagesDstF, stagesDstI, backwardCore_congr A e ht hquarter hn,
      forwardCore_congr A e ht hquarter hn, dctSub_congr A hall hn0, dstSub_congr A hall hn0]
  | enstw | ensct | ensbr => rfl

end ReadBounds

theorem coeffs_agree_romCoeffs {s : State} {nt nc : Nat} (hv : s.tablesValid) (ht : nt ≤ s.nw.toNat)
    (hc : nc ≤ s.nc.toNat) : Coeffs.agree s.coeffs (romCoeffs s.inst) nt nc :=
  ⟨fun _ hk => State.coeffs_tw hv.1 (hk.trans_le ht), fun _ hi => State.coeffs_ct hv.2.1 (hi.trans_le hc)⟩

/-- The stages of a transform that has checked out do not see how far the tables are filled: they run with the values
of the generator and the table of the order (10_state.md R36, 40_table_cache.md R128). -/
theorem stagesAt_prepare {i : Instr} {n : Nat} {s : State} (hi : i.shape ≠ .lengthOnly) (hv : s.tablesValid)
    (ha : lengthAdmitted s.inst i.minLen n) (src dst : List Sample) :
    stagesAt i n (prepare i n s) src dst
      = stagesOf i (ieee s.inst.fmt) (romCoeffs s.inst) (buildBr (permOrder i n)) n src dst := by
  have g := grown_prepare ((checkOf_eq_none_iff hi _ _).mpr ha)
  have hv' := g.valid hv
  obtain ⟨ht, hc⟩ := prepare_serves hi hv ha
  rw [stagesAt, State.brEntry_eq hv'.2.2, stagesOf_congr _ _ ha.2.1 (coeffs_agree_romCoeffs hv' ht hc), g.inst]

/-! ### Two runs from different tables -/

theorem differInTables_symm {s t : State} (h : differInTables s t) : differInTables t s := by
  rw [h]; rfl

theorem differInTables_trans {s t u : State} (h : differInTables s t) (h' : differInTables t u) :
    differInTables s u := by
  rw [h', h]; rfl

theorem differInTables_complete {s t : State} (h : differInTables s t) : differInTables s.complete t.complete := by
  rw [h]; rfl

theorem differInTables_abort {s t : State} (h : differInTables s t) (c : Cause) :
    differInTables (s.abort c) (t.abort c) := by
  rw [h]; rfl

theorem differInTables_storeSamples {s t : State} (h : differInTables s t) (base : Nat) (b : List Sample) :
    differInTables (s.storeSamples base b) (t.storeSamples base b) := by
  rw [h]; rfl

/-- What a command does from its checked-out state on sees the tables only through its stages. -/
theorem finish_differInTables {i : Instr} {n : Nat} {u u' t : State} (hd : differInTables u u')
    (hstages : i.shape ≠ .lengthOnly → stagesAt i n u' = stagesAt i n u) (h : finish i n u = .next t) :
    ∃ t', finish i n u' = .next t' ∧ differInTables t t' := by
  have hinst : u'.inst = u.inst := by rw [hd]
  have hS : u'.operandS = u.operandS := by rw [hd]; rfl
  have hD : u'.operandD = u.operandD := by rw [hd]; rfl
  have hmem : u'.mem = u.mem := by rw [hd]
  unfold finish at h ⊢
  cases hsh : i.shape with
  | inPlace =>
    simp only [hsh] at h ⊢
    obtain ⟨hb, rfl⟩ := State.transformInPlace_next.mp h
    refine ⟨_, State.transformInPlace_next.mpr ⟨by rwa [hinst, hD], rfl⟩, ?_⟩
    rw [hinst, hD, hmem, hstages (by simp [hsh])]
    exact differInTables_complete (differInTables_storeSamples hd _ _)
  | outOfPlace =>
    simp only [hsh] at h ⊢
    obtain ⟨hbS, hbD, hdis, rfl⟩ := State.transformOutOfPlace_next.mp h
    refine ⟨_, State.transformOutOfPlace_next.mpr
      ⟨by rwa [hinst, hS], by rwa [hinst, hD], by rwa [hS, hD], rfl⟩, ?_⟩
    rw [hinst, hS, hD, hmem, hstages (by simp [hsh])]
    exact differInTables_complete (differInTables_storeSamples hd _ _)
  | lengthOnly =>
    simp only [hsh] at h ⊢
    obtain rfl : u.complete = t := by simpa using h
    exact ⟨_, rfl, differInTables_complete hd⟩

/-- Settles O33: both runs pass or fail the same check; after the check each runs stages that depend on the generator
alone, since both have asked for the entries they read. -/
theorem resultsIgnoreTheFillLevel : Obligations.ResultsIgnoreTheFillLevel := by
  intro i s s' t hv hv' hd h
  have hinst : s'.inst = s.inst := by rw [hd]
  have hN : s'.operandN = s.operandN := by rw [hd]; rfl
  rw [exec_eq] at h ⊢
  rw [hinst, hN]
  rcases State.checked_cases h with ⟨c, hc, rfl⟩ | ⟨hc, h⟩
  · exact ⟨_, by rw [hc, State.checked_some], differInTables_abort hd c⟩
  · rw [hc, State.checked_none, hN]
    have g := grown_differInTables (grown_prepare hc)
    have g' := grown_differInTables (grown_prepare (s := s') (hinst ▸ hc))
    have hprepared := differInTables_trans (differInTables_symm g) (differInTables_trans hd g')
    refine finish_differInTables hprepared (fun hi => ?_) h
    have ha := (checkOf_eq_none_iff hi _ _).mp hc
    funext src dst
    rw [stagesAt_prepare hi hv ha, stagesAt_prepare hi hv' (hinst ▸ ha), hinst]

/-! ### What a command leaves -/

/-- A command that aborts or stores nothing keeps memory, and one that stores lists no byte outside its buffer. -/
theorem commandEffect_mem {i : Instr} {s t : State} (h : CommandEffect i s t) : ∃ vs : List CellBits,
    vs.length ≤ i.cells s.operandN
      ∧ (vs ≠ [] → bufferPresent s.inst s.operandD (i.cells s.operandN) = true)
      ∧ t.mem = storeCells s.inst s.mem s.operandD vs := by
  rcases h with ⟨c, -, rfl⟩ | ⟨s', b, g, hlen, hpresent, rfl⟩
  · exact ⟨[], Nat.zero_le _, fun h => absurd rfl h, rfl⟩
  · refine ⟨settleSamples s'.inst.fmt s'.freeCount b, by simp [hlen], fun _ => hpresent, ?_⟩
    rw [State.complete_mem, State.storeSamples_mem, g.inst, grown_mem g]

theorem commandEffect_sameArguments {i : Instr} {s t : State} (h : CommandEffect i s t) : sameArguments s t := by
  rcases h with ⟨c, -, rfl⟩ | ⟨s', b, g, -, -, rfl⟩
  · exact ⟨rfl, rfl, rfl, rfl, rfl, rfl, rfl⟩
  · have hargs : sameArguments s s' := grown_sameArguments g
    exact hargs

theorem commandEffect_idle {i : Instr} {s t : State} (h : CommandEffect i s t) : t.seq = .idle := by
  rcases h with ⟨c, -, rfl⟩ | ⟨s', b, -, -, -, rfl⟩ <;> rfl

/-- An abort sets `HALT` and a cause and keeps `DONE`; a completion sets `DONE` (10_state.md R26). -/
theorem commandEffect_status {i : Instr} {s t : State} (h : CommandEffect i s t) :
    (∃ c, c ≠ Cause.none ∧ t.status = s.status.aborted c) ∨ t.status = s.status.completed := by
  rcases h with ⟨c, hc, rfl⟩ | ⟨s', b, g, -, -, rfl⟩
  · exact .inl ⟨c, hc, rfl⟩
  · refine .inr ?_
    rw [State.complete_status, State.storeSamples_status, grown_status g]

/-- A command grows the tables or keeps them. -/
theorem commandEffect_tables {i : Instr} {s t : State} (h : CommandEffect i s t) :
    ∃ s', Grown s s' ∧ sameTables s' t := by
  rcases h with ⟨c, -, rfl⟩ | ⟨s', b, g, -, -, rfl⟩
  · exact ⟨s, Grown.refl s, rfl, rfl, rfl, rfl, rfl⟩
  · exact ⟨s', g, rfl, rfl, rfl, rfl, rfl⟩

theorem cells_eq_zero_of_not_transform {i : Instr} (h : i ∉ transformCommands) (n : Nat) : i.cells n = 0 := by
  cases i with
  | enstw | ensct | ensbr => rfl
  | _ => exact absurd (by decide) h

/-- Settles O26: a command that answers a next state aborted, or grew the tables and stored one buffer at `DST`. -/
theorem commandsTouchOnlyTheirBuffer : Obligations.CommandsTouchOnlyTheirBuffer := by
  intro i s t h
  have heff := exec_cases h
  have hargs := commandEffect_sameArguments heff
  obtain ⟨vs, hlen, -, hmem⟩ := commandEffect_mem heff
  refine ⟨hargs, commandEffect_idle heff, fun a ha => ?_, fun hi => ?_, fun hwf => ?_⟩
  · have hle := Nat.mul_le_mul_left (cellBytes s.inst.fmt) (Nat.add_le_add_left hlen s.operandD)
    rw [hmem, storeCells_read_outside _ _ _ _ (ha.imp_right hle.trans)]
  · rw [cells_eq_zero_of_not_transform hi] at hlen
    rw [hmem, List.eq_nil_of_length_eq_zero (Nat.le_zero.mp hlen)]
    rfl
  · rw [hmem, hargs.1]
    exact storeCells_wf _ _ hwf

/-! ### One step -/

theorem step_of_host_nil {s : State} (hseq : s.seq = .idle) (hhost : s.host = []) : step s = .next s := by
  simp only [step, hseq, hhost]

theorem step_of_host_cons {s : State} {op : HostOp} {rest : List HostOp} (hseq : s.seq = .idle)
    (hhost : s.host = op :: rest) : step s = hostStep op { s with host := rest } := by
  simp only [step, hseq, hhost]

/-- Everything a host operation that answers a next state has done. -/
inductive HostEffect (s : State) : HostOp → State → Prop
  /-- A register or cell was read, an argument register written, or a register write ignored; while halted every
  register write is. -/
  | port {op : HostOp} (hop : op ≠ .reset) (len src dst : Word) (hostRead : HostRead)
      (hhalted : s.status.halt = true → len = s.len ∧ src = s.src ∧ dst = s.dst) :
      HostEffect s op { s with len := len, src := src, dst := dst, hostRead := hostRead }
  /-- A cell that exists was written. -/
  | store {a : Word} {v : CellBits} (hcell : cellPresent s.inst a.toNat = true) :
      HostEffect s (.writeCell a v) { s with mem := storeCells s.inst s.mem a.toNat [v] }
  /-- A word that is no command was written to `CMD`. -/
  | illegal {w : Word} {e : Illegal} (hhalt : s.status.halt = false) (hdec : decode w = .error e) :
      HostEffect s (.writeReg 0 w) ((s.startCommand w).abort .illCmd)
  /-- A command was written to `CMD` and run. -/
  | command {w : Word} {i : Instr} {t : State} (hhalt : s.status.halt = false)
      (hdec : decode w = .ok i) (hexec : exec i (s.startCommand w) = .next t) : HostEffect s (.writeReg 0 w) t
  /-- The engine was reset. -/
  | reset : HostEffect s .reset s.engineReset

/-- An operation that the engine does not see at all. -/
theorem HostEffect.unseen {s : State} {op : HostOp} (hop : op ≠ .reset) : HostEffect s op s :=
  .port hop s.len s.src s.dst s.hostRead fun _ => ⟨rfl, rfl, rfl⟩

theorem runCommand_cases {w : Word} {s t : State} (h : runCommand w s = .next t) :
    HostEffect s (.writeReg 0 w) t := by
  unfold runCommand at h
  cases hhalt : s.status.halt with
  | true =>
    obtain rfl : s = t := by simpa [hhalt] using h
    exact .unseen (by simp)
  | false =>
    cases hdec : decode w with
    | ok i => exact .command hhalt hdec (by simpa [hhalt, hdec] using h)
    | error e =>
      obtain rfl : (s.startCommand w).abort .illCmd = t := by simpa [hhalt, hdec] using h
      exact .illegal hhalt hdec

theorem writeArgument_cases {s written t : State} (h : writeArgument s written = .next t) :
    t = s ∨ (s.status.halt = false ∧ t = written) := by
  unfold writeArgument at h
  split at h <;> simp_all

theorem writeRegister_cases {num : Nat} {v : Word} {s t : State} (h : writeRegister num v s = .next t) :
    HostEffect s (.writeReg num v) t := by
  have hop : HostOp.writeReg num v ≠ .reset := by simp
  match num, h with
  | 0, h => exact runCommand_cases h
  | 1, h =>
    rcases writeArgument_cases h with rfl | ⟨hhalt, rfl⟩
    · exact .unseen hop
    · exact .port hop v s.src s.dst s.hostRead (by simp [hhalt])
  | 2, h =>
    rcases writeArgument_cases h with rfl | ⟨hhalt, rfl⟩
    · exact .unseen hop
    · exact .port hop s.len v s.dst s.hostRead (by simp [hhalt])
  | 3, h =>
    rcases writeArgument_cases h with rfl | ⟨hhalt, rfl⟩
    · exact .unseen hop
    · exact .port hop s.len s.src v s.hostRead (by simp [hhalt])
  | _ + 4, h =>
    cases h
    exact .unseen hop

theorem hostStep_cases {op : HostOp} {s t : State} (h : hostStep op s = .next t) : HostEffect s op t := by
  cases op with
  | writeReg num v => exact writeRegister_cases h
  | readReg num =>
    cases h
    exact .port (by simp) s.len s.src s.dst _ fun _ => ⟨rfl, rfl, rfl⟩
  | writeCell a v =>
    simp only [hostStep] at h
    split at h
    · cases h
      exact .store ‹_›
    · simp at h
  | readCell a =>
    simp only [hostStep] at h
    split at h
    · cases h
      exact .port (by simp) s.len s.src s.dst _ fun _ => ⟨rfl, rfl, rfl⟩
    · simp at h
  | reset =>
    cases h
    exact .reset

/-- Everything a step that answers a next state has done: nothing, or the host's next operation. -/
theorem step_cases {s t : State} (h : step s = .next t) : s.seq = .idle ∧ ((s.host = [] ∧ t = s)
    ∨ ∃ op rest, s.host = op :: rest ∧ HostEffect { s with host := rest } op t) := by
  have hseq : s.seq = .idle := by
    cases hrun : s.seq with
    | idle => rfl
    | running w line => simp [step, hrun] at h
  refine ⟨hseq, ?_⟩
  cases hhost : s.host with
  | nil =>
    rw [step_of_host_nil hseq hhost] at h
    cases h
    exact .inl ⟨rfl, rfl⟩
  | cons op rest =>
    rw [step_of_host_cons hseq hhost] at h
    exact .inr ⟨op, rest, rfl, hostStep_cases h⟩

/-! ### What a step does to the tables -/

theorem find_insertBr_of_ne {e : BrEntry} {x : Nat} (hne : e.order ≠ x) (l : List BrEntry) :
    ((insertBr e l).find? fun y => y.order == x) = l.find? fun y => y.order == x := by
  have hskip : (e.order == x) = false := beq_false_of_ne hne
  induction l with
  | nil => simp [insertBr, hskip]
  | cons y l ih =>
    unfold insertBr
    split
    · rw [List.find?_cons, hskip]
    · rw [List.find?_cons, List.find?_cons, ih]

/-- Caching another order keeps every lookup, whatever is listed. -/
theorem permutationFor_keeps_brLookup (o : Nat) {s : State} {x : Nat} {e : BrEntry} (h : s.brLookup x = some e) :
    (permutationFor o s).brLookup x = some e := by
  unfold permutationFor
  split
  · exact h
  · next hnone =>
    have hne : (buildBr o).order ≠ x := by
      rintro rfl
      exact hnone (Option.isSome_iff_exists.mpr ⟨e, h⟩)
    exact (find_insertBr_of_ne hne s.br).trans h

theorem ensureTwiddle_brLookup (m : Nat) (s : State) (x : Nat) : (ensureTwiddle m s).brLookup x = s.brLookup x := by
  rw [ensureTwiddle_eq]; rfl

theorem ensureCosine_brLookup (m : Nat) (s : State) (x : Nat) : (ensureCosine m s).brLookup x = s.brLookup x := by
  rw [ensureCosine_eq]; rfl

theorem prepareComplex_keeps_brLookup (n : Nat) {s : State} {x : Nat} {e : BrEntry} (h : s.brLookup x = some e) :
    (prepareComplex n s).brLookup x = some e := by
  have hgrown : (ensureTwiddle (n / 4) s).brLookup x = some e := (ensureTwiddle_brLookup ..).trans h
  unfold prepareComplex
  split
  · exact permutationFor_keeps_brLookup _ hgrown
  · exact hgrown

theorem prepareReal_keeps_brLookup (n c : Nat) {s : State} {x : Nat} {e : BrEntry} (h : s.brLookup x = some e) :
    (prepareReal n c s).brLookup x = some e := by
  have hgrown : (ensureCosine c (ensureTwiddle (n / 8) s)).brLookup x = some e :=
    (ensureCosine_brLookup ..).trans ((ensureTwiddle_brLookup ..).trans h)
  unfold prepareReal
  split
  · exact permutationFor_keeps_brLookup _ hgrown
  · exact hgrown

theorem prepare_keeps_brLookup (i : Instr) (n : Nat) {s : State} {x : Nat} {e : BrEntry}
    (h : s.brLookup x = some e) : (prepare i n s).brLookup x = some e := by
  cases i with
  | cdftF | cdftI | cdftoF | cdftoI => exact prepareComplex_keeps_brLookup n h
  | rdftF | rdftI | rdftoF | rdftoI => exact prepareReal_keeps_brLookup n _ h
  | dctF | dctI | dstF | dstI => exact prepareReal_keeps_brLookup n _ h
  | enstw => exact (ensureTwiddle_brLookup ..).trans h
  | ensct => exact (ensureCosine_brLookup ..).trans h
  | ensbr => exact permutationFor_keeps_brLookup n h

/-- The stages write no table. -/
theorem finish_br {i : Instr} {n : Nat} {u t : State} (h : finish i n u = .next t) : t.br = u.br := by
  unfold finish at h
  split at h
  · obtain ⟨-, rfl⟩ := State.transformInPlace_next.mp h
    rfl
  · obtain ⟨-, -, -, rfl⟩ := State.transformOutOfPlace_next.mp h
    rfl
  · cases h
    rfl

/-- A command keeps every cached bit-reversal table, from every state (10_state.md R31). -/
theorem exec_keeps_brLookup {i : Instr} {s t : State} (h : exec i s = .next t) {x : Nat} {e : BrEntry}
    (he : s.brLookup x = some e) : t.brLookup x = some e := by
  rw [exec_eq] at h
  rcases State.checked_cases h with ⟨c, -, rfl⟩ | ⟨-, h⟩
  · exact he
  · rw [State.brLookup, finish_br h]
    exact prepare_keeps_brLookup i _ he

theorem step_inst {s t : State} (h : step s = .next t) : t.inst = s.inst := by
  obtain ⟨-, ⟨-, rfl⟩ | ⟨op, rest, -, heff⟩⟩ := step_cases h
  · rfl
  · cases heff with
    | command hhalt hdec hexec => exact (commandEffect_sameArguments (exec_cases hexec)).1
    | port | store | illegal | reset => rfl

/-- A step that is not the host's reset keeps every cached bit-reversal table, from every state. -/
theorem step_keeps_brLookup {s t : State} (h : step s = .next t) (hop : s.host.head? ≠ some .reset) {x : Nat}
    {e : BrEntry} (he : s.brLookup x = some e) : t.brLookup x = some e := by
  obtain ⟨-, ⟨-, rfl⟩ | ⟨op, rest, hhost, heff⟩⟩ := step_cases h
  · exact he
  · cases heff with
    | command hhalt hdec hexec => exact exec_keeps_brLookup hexec he
    | port | store | illegal => exact he
    | reset => simp [hhost] at hop

/-- A step that is not the host's reset grows the tables or keeps them (40_table_cache.md R120). -/
theorem step_grows {s t : State} (h : step s = .next t) (hop : s.host.head? ≠ some .reset) :
    ∃ u u', sameTables s u ∧ u.inst = s.inst ∧ Grown u u' ∧ sameTables u' t := by
  have hsame (v : State) : sameTables v v := ⟨rfl, rfl, rfl, rfl, rfl⟩
  obtain ⟨-, ⟨-, rfl⟩ | ⟨op, rest, hhost, heff⟩⟩ := step_cases h
  · exact ⟨t, t, hsame t, rfl, Grown.refl t, hsame t⟩
  · cases heff with
    | command hhalt hdec hexec =>
      obtain ⟨u', hgrown, htables⟩ := commandEffect_tables (exec_cases hexec)
      refine ⟨_, u', ?_, ?_, hgrown, htables⟩
      · exact hsame s
      · rfl
    | port | store | illegal => exact ⟨s, s, hsame s, rfl, Grown.refl s, hsame s⟩
    | reset => simp [hhost] at hop

/-! ### The invariant -/

theorem tablesValid_congr {s t : State} (ht : sameTables s t) (hinst : t.inst = s.inst) :
    t.tablesValid ↔ s.tablesValid := by
  obtain ⟨hnw, hnc, htw, hct, hbr⟩ := ht
  simp only [State.tablesValid, State.twValid, State.ctValid, State.brTablesValid, hnw, hnc, htw, hct, hbr, hinst]

theorem withinCapacity_congr {s t : State} (ht : sameTables s t) (hinst : t.inst = s.inst) :
    t.withinCapacity ↔ s.withinCapacity := by
  obtain ⟨hnw, hnc, -, -, -⟩ := ht
  simp only [State.withinCapacity, hnw, hnc, hinst]

theorem tablesValid_of_empty {s : State} (hnw : s.nw = 0#32) (hnc : s.nc = 0#32) (htw : s.tw = []) (hct : s.ct = [])
    (hbr : s.br = []) : s.tablesValid := by
  simp [State.tablesValid, State.twValid, State.ctValid, State.brTablesValid, *]

theorem engineReset_tablesValid (s : State) : s.engineReset.tablesValid := tablesValid_of_empty rfl rfl rfl rfl rfl

theorem engineReset_withinCapacity (s : State) : s.engineReset.withinCapacity := ⟨Nat.zero_le _, Nat.zero_le _⟩

theorem bufferPresent_cell {p : Params} {base len a : Nat} (h : bufferPresent p base len = true) (hlo : base ≤ a)
    (hhi : a < base + len) : cellPresent p a = true := by
  obtain ⟨-, hall⟩ := Bool.and_eq_true_iff.mp h
  obtain ⟨j, rfl⟩ := Nat.exists_eq_add_of_le hlo
  exact List.all_eq_true.mp hall j (List.mem_range.mpr (by omega))

/-- Storing cells that exist keeps memory canonical and inside `MEMMAP`. -/
theorem memoryValid_storeCells {s t : State} {base : Nat} {vs : List CellBits} (hinst : t.inst = s.inst)
    (hmem : t.mem = storeCells s.inst s.mem base vs)
    (hcells : ∀ a, base ≤ a → a < base + vs.length → cellPresent s.inst a = true) (h : s.memoryValid) :
    t.memoryValid := by
  obtain ⟨hwf, hlisted⟩ := h
  rw [State.memoryValid, hinst, hmem]
  refine ⟨storeCells_wf _ _ hwf, fun c hc => ?_⟩
  rcases storeCells_mem hc with hold | ⟨hlo, hhi⟩
  · exact hlisted c hold
  · exact hcells _ hlo hhi

theorem commandEffect_memoryValid {i : Instr} {s t : State} (h : CommandEffect i s t) (hm : s.memoryValid) :
    t.memoryValid := by
  obtain ⟨vs, hlen, hpresent, hmem⟩ := commandEffect_mem h
  refine memoryValid_storeCells (commandEffect_sameArguments h).1 hmem (fun a hlo hhi => ?_) hm
  have hne : vs ≠ [] := by
    rintro rfl
    exact absurd hhi (Nat.not_lt.mpr hlo)
  exact bufferPresent_cell (hpresent hne) hlo (by omega)

/-- A command started from a legal `STATUS` that is not halted leaves a legal one. -/
theorem commandEffect_legal {i : Instr} {s t : State} {w : Word} (h : CommandEffect i (s.startCommand w) t)
    (hhalt : s.status.halt = false) (hlegal : s.status.legal) : t.status.legal := by
  have hnone : s.status.cause = .none := hlegal.2.mpr hhalt
  rcases commandEffect_status h with ⟨c, hc, hstatus⟩ | hstatus <;> rw [hstatus]
  · exact ⟨fun _ => rfl, by simp [hc]⟩
  · exact ⟨fun hh => by simp [hhalt] at hh, by simp [hhalt, hnone]⟩

theorem engineReset_inv {s : State} (hm : s.memoryValid) : s.engineReset.Inv where
  tables := engineReset_tablesValid s
  capacity := engineReset_withinCapacity s
  status := ⟨fun _ => rfl, iff_of_true rfl rfl⟩
  idle := rfl
  memory := hm

theorem hostEffect_inv {op : HostOp} {s t : State} (h : HostEffect s op t) (hi : s.Inv) : t.Inv := by
  obtain ⟨htables, hcapacity, hstatus, hidle, hmemory⟩ := hi
  cases h with
  | port hop len src dst hostRead hhalted => exact ⟨htables, hcapacity, hstatus, hidle, hmemory⟩
  | store hcell =>
    refine ⟨htables, hcapacity, hstatus, hidle, memoryValid_storeCells (s := s) rfl rfl (fun b hlo hhi => ?_) hmemory⟩
    rwa [Nat.le_antisymm (Nat.lt_succ_iff.mp hhi) hlo]
  | illegal hhalt hdec => exact ⟨htables, hcapacity, ⟨fun _ => rfl, by simp⟩, rfl, hmemory⟩
  | command hhalt hdec hexec =>
    have heff := exec_cases hexec
    obtain ⟨s', hgrown, hsame⟩ := commandEffect_tables heff
    have hinst := (commandEffect_sameArguments heff).1.trans hgrown.inst.symm
    exact ⟨(tablesValid_congr hsame hinst).mpr (hgrown.valid htables),
      (withinCapacity_congr hsame hinst).mpr (hgrown.capacity hcapacity), commandEffect_legal heff hhalt hstatus,
      commandEffect_idle heff, commandEffect_memoryValid heff hmemory⟩
  | reset => exact engineReset_inv hmemory

/-- Settles O17: a step does nothing, or has one of the effects of a host operation, and each keeps the invariant. -/
theorem everyStepKeepsTheInvariant : Obligations.EveryStepKeepsTheInvariant := by
  intro s t hi h
  obtain ⟨-, ⟨-, rfl⟩ | ⟨op, rest, -, heff⟩⟩ := step_cases h
  · exact hi
  · exact hostEffect_inv heff ⟨hi.tables, hi.capacity, hi.status, hi.idle, hi.memory⟩

/-- Settles O16: the start state is its own engine reset, and lists no memory. -/
theorem resetStateHasTheInvariant : Obligations.ResetStateHasTheInvariant :=
  engineReset_inv (s := State.reset) ⟨Memory.wf_nil _, fun _ hc => absurd hc List.not_mem_nil⟩

/-- Settles O30: of every grown store of tables the old one is a part. -/
theorem validTableEntriesNeverChange : Obligations.ValidTableEntriesNeverChange := by
  intro s t hv h hop
  obtain ⟨u, u', hsame, hinst, hgrown, hsame'⟩ := step_grows h hop
  have hkept := hgrown.kept ((tablesValid_congr hsame hinst).mpr hv)
  obtain ⟨hnw, hnc, htw, hct, -⟩ := hsame
  obtain ⟨hnw', hnc', htw', hct', -⟩ := hsame'
  refine ⟨?_, ?_, ?_, ?_, fun o e => step_keeps_brLookup h hop⟩
  · rw [hnw', ← hnw]; exact hgrown.nw
  · rw [hnc', ← hnc]; exact hgrown.nc
  · rw [htw', ← htw]; exact hkept.1
  · rw [hct', ← hct]; exact hkept.2.1

/-! ### The command port -/

theorem getD_registers (s : State) (num : Nat) : (registers s).getD num 0#32 = registerValue s num := by
  match num with
  | 0 | 1 | 2 | 3 | 4 | 5 | 6 | 7 | 8 | 9 => rfl
  | _ + 10 => rfl

theorem runCommand_of_halted {s : State} (h : s.status.halt = true) (w : Word) : runCommand w s = .next s := by
  simp [runCommand, h]

theorem runCommand_of_decode {s : State} {w : Word} {i : Instr} (h : s.status.halt = false) (hd : decode w = .ok i) :
    runCommand w s = exec i (s.startCommand w) := by
  simp [runCommand, h, hd]

theorem writeArgument_of_halted {s : State} (h : s.status.halt = true) (written : State) :
    writeArgument s written = .next s := by
  simp [writeArgument, h]

theorem writeArgument_of_running {s : State} (h : s.status.halt = false) (written : State) :
    writeArgument s written = .next written := by
  simp [writeArgument, h]

/-- While halted a write of any register is ignored (10_state.md R39). -/
theorem writeRegister_of_halted {s : State} (h : s.status.halt = true) (num : Nat) (v : Word) :
    writeRegister num v s = .next s := by
  match num with
  | 0 => exact runCommand_of_halted h v
  | 1 | 2 | 3 => exact writeArgument_of_halted h _
  | _ + 4 => rfl

theorem hostWord_toNat (w : Word) : hostWord 32 w.toNat = w := by
  rw [hostWord, Nat.mod_eq_of_lt w.isLt, BitVec.ofNat_toNat, BitVec.setWidth_eq]

/-- Settles O5: a `CMD` write while not halted runs the decoded command, wherever the operation came from. -/
theorem stepRunsTheDecodedCommand : Obligations.StepRunsTheDecodedCommand := by
  intro s w i hseq hhalt hdec
  have hrun : ∀ u : State, u.seq = .idle → u.status.halt = false → ∀ rest, u.host = .writeReg 0 w :: rest →
      step u = exec i (State.startCommand { u with host := rest } w) := fun u hseq hhalt rest hhost =>
    (step_of_host_cons hseq hhost).trans (runCommand_of_decode (s := { u with host := rest }) hhalt hdec)
  refine ⟨hrun s hseq hhalt, hrun (s.withFetchWord 32 w.toNat) hseq hhalt s.host ?_⟩
  rw [State.withFetchWord, hostWord_toNat, commandWrite]

/-- Settles O6: the write of an argument register by its number, and every number from 4 on. -/
theorem registerWritesStoreOrAreIgnored : Obligations.RegisterWritesStoreOrAreIgnored := by
  intro s num v rest hseq hhalt hhost
  rw [step_of_host_cons hseq hhost]
  refine ⟨?_, ?_, ?_, fun h4 => ?_⟩
  · rintro rfl
    exact writeArgument_of_running (s := { s with host := rest }) hhalt _
  · rintro rfl
    exact writeArgument_of_running (s := { s with host := rest }) hhalt _
  · rintro rfl
    exact writeArgument_of_running (s := { s with host := rest }) hhalt _
  · obtain ⟨k, rfl⟩ := Nat.exists_eq_add_of_le' h4
    rfl

/-- Settles O7: the list of the registers in their order is the value a read returns. -/
theorem registerReadsReturnTheRegister : Obligations.RegisterReadsReturnTheRegister := by
  intro s num rest hseq hhost
  rw [step_of_host_cons hseq hhost, getD_registers]
  rfl

/-- While halted an operation that is not the reset keeps everything of the engine, and memory too if it is no cell
write. -/
theorem hostEffect_of_halted {op : HostOp} {s t : State} (h : HostEffect s op t) (hhalt : s.status.halt = true)
    (hop : op ≠ .reset) : t.status = s.status ∧ t.cmd = s.cmd ∧ t.len = s.len ∧ t.src = s.src ∧ t.dst = s.dst
      ∧ t.seq = s.seq ∧ sameTables s t ∧ ((∀ a v, op ≠ .writeCell a v) → t.mem = s.mem) := by
  have hsame : sameTables s s := ⟨rfl, rfl, rfl, rfl, rfl⟩
  cases h with
  | port hop len src dst hostRead hhalted =>
    obtain ⟨hlen, hsrc, hdst⟩ := hhalted hhalt
    exact ⟨rfl, rfl, hlen, hsrc, hdst, rfl, hsame, fun _ => rfl⟩
  | store hcell => exact ⟨rfl, rfl, rfl, rfl, rfl, rfl, hsame, fun hno => absurd rfl (hno _ _)⟩
  | illegal hrun | command hrun => simp [hhalt] at hrun
  | reset => exact absurd rfl hop

/-- Settles O8: register writes fall through, and of the effects of a host operation a halted engine has three. -/
theorem haltedEngineIgnoresWrites : Obligations.HaltedEngineIgnoresWrites := by
  intro s rest hseq hhalt
  refine ⟨fun num v hhost => ?_, fun num hhost => registerReadsReturnTheRegister s num rest hseq hhost,
    fun t h hop => ?_, fun hhost => ⟨_, step_of_host_cons hseq hhost, rfl⟩⟩
  · rw [step_of_host_cons hseq hhost]
    exact writeRegister_of_halted (s := { s with host := rest }) hhalt num v
  · obtain ⟨-, ⟨-, rfl⟩ | ⟨op, rest, hhost, heff⟩⟩ := step_cases h
    · exact ⟨rfl, rfl, rfl, rfl, rfl, hseq, ⟨rfl, rfl, rfl, rfl, rfl⟩, fun _ => rfl⟩
    · simp only [hhost, List.head?_cons, ne_eq, Option.some.injEq] at hop ⊢
      obtain ⟨hstatus, hcmd, hlen, hsrc, hdst, hidle, htables, hmem⟩ := hostEffect_of_halted heff hhalt hop
      exact ⟨hstatus, hcmd, hlen, hsrc, hdst, hidle.trans hseq, htables, hmem⟩

theorem step_writeCell {s : State} {a : Word} {v : CellBits} {rest : List HostOp} (hseq : s.seq = .idle)
    (hcell : cellPresent s.inst a.toNat = true) (hhost : s.host = .writeCell a v :: rest) :
    step s = .next { s with host := rest, mem := writeCell s.inst s.mem a.toNat v } :=
  (step_of_host_cons hseq hhost).trans (if_pos hcell)

theorem step_readCell {s : State} {a : Word} {rest : List HostOp} (hseq : s.seq = .idle)
    (hcell : cellPresent s.inst a.toNat = true) (hhost : s.host = .readCell a :: rest) :
    step s = .next { s with host := rest, hostRead := .cell (readCell s.inst s.mem a.toNat) } :=
  (step_of_host_cons hseq hhost).trans (if_pos hcell)

theorem toNat_lt_of_cellFits {fmt : Format} {v : CellBits} (h : cellFits fmt v = true) :
    v.toNat < 2 ^ cellWidth fmt := by
  cases fmt with
  | binary32 => exact of_decide_eq_true h
  | binary64 => exact v.isLt

/-- Settles O12: a cell reads as last written, and a write leaves the other cells alone. -/
theorem storedCellReadsBack : Obligations.StoredCellReadsBack := by
  intro s a v rest hseq hwf hfits hcell hhost
  have hread : readCell s.inst (writeCell s.inst s.mem a.toNat v) a.toNat = v := by
    rw [readCell_writeCell_same _ _ hwf, cellOf_of_fits (toNat_lt_of_cellFits hfits)]
  refine ⟨_, _, step_writeCell hseq hcell hhost, step_readCell hseq hcell rfl, ?_,
    fun b hb => readCell_writeCell_other _ _ _ hb⟩
  rw [hread]

/-! ### The bits of the registers -/

theorem extractLsb'_eq_iff {w : Word} {start len : Nat} {v : BitVec len} :
    w.extractLsb' start len = v ↔ w.toNat / 2 ^ start % 2 ^ len = v.toNat := by
  rw [← BitVec.toNat_inj, BitVec.extractLsb'_toNat, Nat.shiftRight_eq_div_pow]

theorem getLsbD_iff {w : Word} {j : Nat} : w.getLsbD j = true ↔ w.toNat / 2 ^ j % 2 = 1 := by
  rw [← BitVec.testBit_toNat, Nat.testBit_eq_decide_div_mod_eq, decide_eq_true_eq]

theorem cause_code_le (c : Cause) : c.code ≤ 4 := by
  cases c <;> decide

theorem status_word_toNat (s : Status) : s.word.toNat = s.halt.toNat + 2 * s.done.toNat + 16 * s.cause.code := by
  have hh := s.halt.toNat_le
  have hd := s.done.toNat_le
  have hc := cause_code_le s.cause
  rw [Status.word, BitVec.toNat_ofNat, Nat.mod_eq_of_lt (by omega)]

theorem status_word_cause (s : Status) : s.word.toNat / 2 ^ 4 % 2 ^ 4 = s.cause.code := by
  have hh := s.halt.toNat_le
  have hd := s.done.toNat_le
  have hc := cause_code_le s.cause
  rw [status_word_toNat]
  omega

/-- Settles O9: `STATUS` as a number is `HALT` + 2·`DONE` + 16·`CAUSE`, so each field is a digit of it. -/
theorem statusWordHasItsFields : Obligations.StatusWordHasItsFields := by
  intro s
  have hh := s.halt.toNat_le
  have hd := s.done.toNat_le
  have hc := cause_code_le s.cause
  have hword := status_word_toNat s
  have hcause : ∀ c : Cause, s.cause = c → s.word.extractLsb' 4 4 = BitVec.ofNat 4 c.code := fun c heq => by
    rw [extractLsb'_eq_iff, status_word_cause, heq, BitVec.toNat_ofNat, Nat.mod_eq_of_lt]
    exact (cause_code_le c).trans_lt (by decide)
  refine ⟨?_, ?_, extractLsb'_eq_iff.mpr ?_, extractLsb'_eq_iff.mpr ?_,
    hcause _, hcause _, hcause _, hcause _, hcause _⟩
  · rw [Bool.eq_iff_iff, getLsbD_iff, hword, ← Bool.toNat_eq_one]; omega
  · rw [Bool.eq_iff_iff, getLsbD_iff, hword, ← Bool.toNat_eq_one]; omega
  · rw [hword, BitVec.toNat_ofNat]; omega
  · rw [hword, BitVec.toNat_ofNat]; omega

theorem idWord_toNat (s : State) : s.idWord.toNat = formatBit s.inst.fmt + 256 * log2Nmax s.inst := by
  have hf : formatBit s.inst.fmt ≤ 1 := by cases s.inst.fmt <;> decide
  have ho := log2Nmax_le s.inst
  rw [State.idWord, BitVec.toNat_ofNat, Nat.mod_eq_of_lt (by omega)]

theorem formatBit_eq_one_iff (fmt : Format) : formatBit fmt = 1 ↔ fmt = .binary64 := by
  cases fmt <;> decide

/-- Settles O11: `ID` as a number is `PFMT` + 256·`LOG2NMAX`, and no step changes the parameters. -/
theorem idRegisterIsConstant : Obligations.IdRegisterIsConstant := by
  refine ⟨fun s => ?_, fun s t h => by rw [State.idWord, State.idWord, step_inst h]⟩
  have hf : formatBit s.inst.fmt ≤ 1 := by cases s.inst.fmt <;> decide
  have ho := log2Nmax_le s.inst
  have hword := idWord_toNat s
  refine ⟨?_, extractLsb'_eq_iff.mpr ?_, ?_, extractLsb'_eq_iff.mpr ?_⟩
  · rw [getLsbD_iff, hword, ← formatBit_eq_one_iff]; omega
  · rw [hword, BitVec.toNat_ofNat]; omega
  · rw [BitVec.extractLsb'_toNat, Nat.shiftRight_eq_div_pow, hword]; omega
  · rw [hword, BitVec.toNat_ofNat]; omega

/-- The number that `wordOfBits` sums up has the bits it is given. -/
theorem testBit_bitSum (bit : Nat → Bool) (n : Nat) :
    loop n (fun o acc => acc + (bit o).toNat * 2 ^ o) 0 < 2 ^ n
      ∧ ∀ j, (loop n (fun o acc => acc + (bit o).toNat * 2 ^ o) 0).testBit j = (decide (j < n) && bit j) := by
  induction n with
  | zero => simp
  | succ n ih =>
    obtain ⟨hlt, hbits⟩ := ih
    rw [loop_succ, Nat.add_comm, Nat.mul_comm]
    generalize loop n (fun o acc => acc + (bit o).toNat * 2 ^ o) 0 = low at hlt hbits
    constructor
    · have hbit := Nat.mul_le_mul_left (2 ^ n) (bit n).toNat_le
      rw [pow_succ]
      omega
    · intro j
      rw [Nat.testBit_two_pow_mul_add _ hlt]
      rcases Nat.lt_trichotomy j n with hj | rfl | hj
      · rw [if_pos hj, hbits]
        simp [hj, hj.trans (Nat.lt_succ_self n)]
      · cases bit j <;> simp
      · rw [if_neg (by omega), Nat.testBit_lt_two_pow, decide_eq_false (by omega), Bool.false_and]
        exact (bit n).toNat_le.trans_lt (Nat.one_lt_two_pow (by omega))

theorem getLsbD_wordOfBits (bit : Nat → Bool) (o : Nat) : (wordOfBits bit).getLsbD o = (decide (o < 32) && bit o) := by
  rw [wordOfBits, BitVec.getLsbD_ofNat, (testBit_bitSum bit 32).2, ← Bool.and_assoc, Bool.and_self]

theorem brv_bit_iff (s : State) (o : Nat) :
    s.brv.getLsbD o = true ↔ 1 ≤ o ∧ o ≤ log2Nmax s.inst ∧ ∃ e, s.brLookup o = some e := by
  have hmax := log2Nmax_le s.inst
  rw [State.brv, getLsbD_wordOfBits, State.brValid, Bool.and_eq_true, Bool.and_eq_true, decide_eq_true_eq,
    decide_eq_true_eq, Option.isSome_iff_exists, and_assoc, and_iff_right_iff_imp]
  rintro ⟨-, hle, -⟩
  omega

theorem brp4_bit_iff (s : State) (o : Nat) : s.brp4.getLsbD o = true
    ↔ 1 ≤ o ∧ o ≤ log2Nmax s.inst ∧ ∃ e, s.brLookup o = some e ∧ e.p4 = true := by
  have hbrv := brv_bit_iff s o
  rw [State.brv, getLsbD_wordOfBits] at hbrv
  rw [State.brp4, getLsbD_wordOfBits, State.brPow4, ← Bool.and_assoc, Bool.and_eq_true, hbrv, Option.any_eq_true]
  constructor
  · rintro ⟨⟨hlo, hhi, -⟩, hp4⟩
    exact ⟨hlo, hhi, hp4⟩
  · rintro ⟨hlo, hhi, e, he, hp4⟩
    exact ⟨⟨hlo, hhi, e, he⟩, e, he, hp4⟩

/-- Settles O10: the bits are the lookups, and a step that is no reset keeps every lookup and the parameters. -/
theorem bitReversalRegistersShowTheTables : Obligations.BitReversalRegistersShowTheTables := by
  refine ⟨fun s o => ⟨brv_bit_iff s o, brp4_bit_iff s o⟩, fun s t o h hop => ⟨?_, ?_⟩⟩
  · rw [brv_bit_iff, brv_bit_iff, step_inst h]
    rintro ⟨hlo, hhi, e, he⟩
    exact ⟨hlo, hhi, e, step_keeps_brLookup h hop he⟩
  · rw [brp4_bit_iff, brp4_bit_iff, step_inst h]
    rintro ⟨hlo, hhi, e, he, hp4⟩
    exact ⟨hlo, hhi, e, step_keeps_brLookup h hop he, hp4⟩

/-! ### Reset -/

theorem wordOfBits_false : wordOfBits (fun _ => false) = 0#32 := by
  decide

theorem brLookup_of_br_nil {s : State} (h : s.br = []) (o : Nat) : s.brLookup o = none := by
  rw [State.brLookup, h, List.find?_nil]

theorem brValid_of_br_nil {s : State} (h : s.br = []) : s.brValid = fun _ => false := by
  funext o
  rw [State.brValid, brLookup_of_br_nil h, Option.isSome_none, Bool.and_false]

/-- With no table cached both registers read 0. -/
theorem brv_of_br_nil {s : State} (h : s.br = []) : s.brv = 0#32 := by
  rw [State.brv, brValid_of_br_nil h, wordOfBits_false]

theorem brp4_of_br_nil {s : State} (h : s.br = []) : s.brp4 = 0#32 := by
  have hbits : s.brPow4 = fun _ => false := by
    funext o
    rw [State.brPow4, brValid_of_br_nil h, Bool.false_and]
  rw [State.brp4, hbits, wordOfBits_false]

theorem reset_status_word : State.reset.status.word = 0#32 := by
  decide

/-- Settles O15: the engine's reset writes the start values, and the start state shows them. -/
theorem resetLeavesTheResetValues : Obligations.ResetLeavesTheResetValues := by
  refine ⟨fun s rest hseq hhost => ?_, ?_, rfl, rfl, rfl, brLookup_of_br_nil rfl⟩
  · exact ⟨_, step_of_host_cons hseq hhost, rfl, rfl, rfl, rfl, rfl, reset_status_word, rfl, rfl, rfl, rfl,
      brv_of_br_nil rfl, brp4_of_br_nil rfl, brLookup_of_br_nil rfl, rfl, rfl, rfl⟩
  · have hbrv : State.reset.brv = 0#32 := brv_of_br_nil rfl
    have hbrp4 : State.reset.brp4 = 0#32 := brp4_of_br_nil rfl
    rw [registers, reset_status_word, hbrv, hbrp4]
    rfl

/-! ### Where a step stops -/

theorem transformInPlace_stops (s : State) (cells : Nat) (f : List Sample → List Sample) :
    (∃ t, s.transformInPlace cells f = .next t)
      ∨ (s.transformInPlace cells f = .refused .bufferNotPresent ∧ bufferPresent s.inst s.operandD cells = false) := by
  unfold State.transformInPlace
  split
  · exact .inl ⟨_, rfl⟩
  · next habsent => exact .inr ⟨rfl, Bool.eq_false_of_not_eq_true habsent⟩

theorem transformOutOfPlace_stops (s : State) (cells : Nat) (f : List Sample → List Sample → List Sample) :
    (∃ t, s.transformOutOfPlace cells f = .next t)
      ∨ (s.transformOutOfPlace cells f = .refused .bufferNotPresent
        ∧ (bufferPresent s.inst s.operandD cells = false ∨ bufferPresent s.inst s.operandS cells = false))
      ∨ (s.transformOutOfPlace cells f = .refused .buffersOverlap ∧ bufferPresent s.inst s.operandS cells = true
        ∧ bufferPresent s.inst s.operandD cells = true ∧ buffersDisjoint s.operandS s.operandD cells = false) := by
  unfold State.transformOutOfPlace
  cases hS : bufferPresent s.inst s.operandS cells with
  | false => exact .inr (.inl ⟨rfl, .inr rfl⟩)
  | true =>
    cases hD : bufferPresent s.inst s.operandD cells with
    | false => exact .inr (.inl ⟨rfl, .inl rfl⟩)
    | true =>
      cases hdis : buffersDisjoint s.operandS s.operandD cells with
      | false => exact .inr (.inr ⟨rfl, rfl, rfl, rfl⟩)
      | true => exact .inl ⟨_, rfl⟩

/-- The outcome of command `i` in state `s` is a refusal, for what is wrong with its buffers. -/
def refusedForBuffers (i : Instr) (s : State) (outcome : Host.Outcome State Fault Refusal) : Prop :=
  (outcome = .refused .bufferNotPresent
    ∧ (bufferPresent s.inst s.operandD (i.cells s.operandN) = false
      ∨ (i ∈ outOfPlaceCommands ∧ bufferPresent s.inst s.operandS (i.cells s.operandN) = false)))
  ∨ (outcome = .refused .buffersOverlap ∧ i ∈ outOfPlaceCommands
    ∧ bufferPresent s.inst s.operandS (i.cells s.operandN) = true
    ∧ bufferPresent s.inst s.operandD (i.cells s.operandN) = true
    ∧ buffersDisjoint s.operandS s.operandD (i.cells s.operandN) = false)

theorem finish_stops (i : Instr) {s u : State} (g : Grown s u) :
    (∃ t, finish i s.operandN u = .next t)
      ∨ (i.shape ≠ .lengthOnly ∧ refusedForBuffers i s (finish i s.operandN u)) := by
  unfold refusedForBuffers finish
  rw [← g.inst, ← grown_operandD g, ← grown_operandS g, mem_outOfPlaceCommands_iff]
  cases hsh : i.shape with
  | inPlace =>
    rcases transformInPlace_stops u (i.cells s.operandN) (stagesAt i s.operandN u []) with hnext | ⟨href, hD⟩
    · exact .inl hnext
    · exact .inr ⟨by simp, .inl ⟨href, .inl hD⟩⟩
  | outOfPlace =>
    rcases transformOutOfPlace_stops u (i.cells s.operandN) (stagesAt i s.operandN u) with
      hnext | ⟨href, habsent⟩ | ⟨href, hS, hD, hdis⟩
    · exact .inl hnext
    · exact .inr ⟨by simp, .inl ⟨href, habsent.imp_right fun hS => ⟨rfl, hS⟩⟩⟩
    · exact .inr ⟨by simp, .inr ⟨href, rfl, hS, hD, hdis⟩⟩
  | lengthOnly => exact .inl ⟨_, rfl⟩

/-- A command answers a next state, or is a transform of an admitted length that is refused for its buffers. -/
theorem exec_stops (i : Instr) (s : State) : (∃ t, exec i s = .next t)
    ∨ (i ∈ transformCommands ∧ lengthAdmitted s.inst i.minLen s.operandN ∧ refusedForBuffers i s (exec i s)) := by
  rw [exec_eq]
  cases hc : checkOf i s.inst s.operandN with
  | some c => exact .inl ⟨_, State.checked_some ..⟩
  | none =>
    rw [State.checked_none]
    rcases finish_stops i (grown_prepare hc) with hnext | ⟨hsh, href⟩
    · exact .inl hnext
    · exact .inr ⟨(mem_transformCommands_iff i).mpr hsh, (checkOf_eq_none_iff hsh _ _).mp hc, href⟩

theorem hostEffect_idle {op : HostOp} {s t : State} (h : HostEffect s op t) (hseq : s.seq = .idle) : t.seq = .idle := by
  cases h with
  | port | store => exact hseq
  | command hhalt hdec hexec => exact commandEffect_idle (exec_cases hexec)
  | illegal | reset => rfl

theorem step_idle {s t : State} (h : step s = .next t) : t.seq = .idle := by
  obtain ⟨hseq, ⟨-, rfl⟩ | ⟨op, rest, -, heff⟩⟩ := step_cases h
  · exact hseq
  · exact hostEffect_idle heff hseq

/-- A register write answers a next state, or is the `CMD` write of a command while not halted. -/
theorem writeRegister_stops (num : Nat) (v : Word) (s : State) : (∃ t, writeRegister num v s = .next t)
    ∨ (num = 0 ∧ s.status.halt = false
      ∧ ∃ i, decode v = .ok i ∧ writeRegister num v s = exec i (s.startCommand v)) := by
  cases hhalt : s.status.halt with
  | true => exact .inl ⟨_, writeRegister_of_halted hhalt num v⟩
  | false =>
    match num with
    | 0 =>
      cases hdec : decode v with
      | ok i => exact .inr ⟨rfl, rfl, i, rfl, runCommand_of_decode hhalt hdec⟩
      | error e => exact .inl ⟨(s.startCommand v).abort .illCmd, by simp [writeRegister, runCommand, hhalt, hdec]⟩
    | 1 | 2 | 3 => exact .inl ⟨_, writeArgument_of_running hhalt _⟩
    | _ + 4 => exact .inl ⟨_, rfl⟩

/-- Settles O45: of the host operations only a cell access and a `CMD` write can stop, and the `CMD` write only where
its command does. -/
theorem stepStopsOnlyForBuffers : Obligations.StepStopsOnlyForBuffers := by
  intro s hseq
  have hnext : (∃ t, step s = .next t) → ∃ t, step s = .next t ∧ t.seq = .idle :=
    fun ⟨t, ht⟩ => ⟨t, ht, step_idle ht⟩
  cases hhost : s.host with
  | nil => exact .inl (hnext ⟨s, step_of_host_nil hseq hhost⟩)
  | cons op rest =>
    have hstep := step_of_host_cons hseq hhost
    cases op with
    | readReg num => exact .inl (hnext ⟨_, hstep⟩)
    | reset => exact .inl (hnext ⟨_, hstep⟩)
    | readCell a =>
      cases hcell : cellPresent s.inst a.toNat with
      | true => exact .inl (hnext ⟨_, step_readCell hseq hcell hhost⟩)
      | false => exact .inr (.inl ⟨hstep.trans (if_neg (by simp [hcell])), a, rest, .inl rfl, hcell⟩)
    | writeCell a v =>
      cases hcell : cellPresent s.inst a.toNat with
      | true => exact .inl (hnext ⟨_, step_writeCell hseq hcell hhost⟩)
      | false => exact .inr (.inl ⟨hstep.trans (if_neg (by simp [hcell])), a, rest, .inr ⟨v, rfl⟩, hcell⟩)
    | writeReg num v =>
      rcases writeRegister_stops num v { s with host := rest } with ⟨t, ht⟩ | ⟨rfl, hhalt, i, hdec, hexec⟩
      · exact .inl (hnext ⟨t, hstep.trans ht⟩)
      · have hrun := hstep.trans hexec
        rcases exec_stops i (State.startCommand { s with host := rest } v) with ⟨t, ht⟩ | ⟨hi, hlen, href⟩
        · exact .inl (hnext ⟨t, hrun.trans ht⟩)
        · rw [← hrun] at href
          exact .inr (.inr ⟨hhalt, v, rest, i, rfl, hdec, hi, hlen, href⟩)

end Sys2Proof.EngineState
end

section
/-! SUPPORT. Sample memory (20_memory.md): the bytes of a cell (R65), what a stored value leaves in its cell (R62),
among them a computed NaN (46_numerics.md R267), accesses to what does not exist (R69), and the commands that read one
buffer and write another (R77). -/

namespace Sys2Proof.SampleMemory

open Sys2Proof.Machine Sys2Proof.Claims Sys2Proof.EngineState

/-! ### The bytes of a cell (R65) -/

/-- Settles O13: the bytes of a written cell, with the size of the cell written out for each format. -/
theorem cellBytesAreLittleEndian : Obligations.CellBytesAreLittleEndian := by
  intro p m a i v hwf
  have hbyte : i < cellBytes p.fmt → (writeCell p m a v).read p.fill (cellBytes p.fmt * a + i) = byteOf v i :=
    writeCell_read_inside a v hwf
  refine ⟨fun hfmt hi => ?_, fun hfmt hi => ?_⟩ <;> (rw [hfmt] at hbyte; exact hbyte hi)

/-! ### The bits of a quiet NaN (46_numerics.md R260, R267) -/

/-- The bits every quiet NaN has set: the exponent and the top fraction bit. -/
abbrev quietBit (fmt : Format) (j : Nat) : Prop := precision fmt - 2 ≤ j ∧ j < cellWidth fmt - 1

theorem field_eq_ones_iff (x start n : Nat) :
    x / 2 ^ start % 2 ^ n = 2 ^ n - 1 ↔ ∀ j, start ≤ j ∧ j < start + n → x.testBit j = true := by
  constructor
  · rintro h j ⟨hlo, hhi⟩
    have hbit := congrArg (fun y => y.testBit (j - start)) h
    simpa [Nat.testBit_mod_two_pow, Nat.testBit_div_two_pow, Nat.testBit_two_pow_sub_one, hlo,
      show j - start < n by omega] using hbit
  · intro h
    refine Nat.eq_of_testBit_eq fun j => ?_
    rw [Nat.testBit_mod_two_pow, Nat.testBit_div_two_pow, Nat.testBit_two_pow_sub_one]
    by_cases hj : j < n
    · simp [hj, h (j + start) (by omega)]
    · simp [hj]

theorem numberOf_eq_nan_iff (fmt : Format) (b : CellBits) :
    numberOf fmt b = .nan ↔ infMagnitude fmt < magnitudeOf fmt b := by
  unfold numberOf
  split
  · simp [*]
  · split <;> simp [*]

/-- The exponent and the top fraction bit are one field of the cell. -/
theorem isQuietNaN_iff_field (fmt : Format) (b : CellBits) : isQuietNaN fmt b ↔
    b.toNat / 2 ^ (precision fmt - 2) % 2 ^ (cellWidth fmt - precision fmt + 1)
        = 2 ^ (cellWidth fmt - precision fmt + 1) - 1
      ∧ b.toNat < 2 ^ cellWidth fmt := by
  have hlt := b.isLt
  rw [isQuietNaN, numberOf_eq_nan_iff, ← BitVec.testBit_toNat, Nat.testBit_eq_decide_div_mod_eq, decide_eq_true_eq,
    magnitudeOf]
  cases fmt <;> simp only [precision, cellWidth, infMagnitude] <;> omega

theorem isQuietNaN_iff (fmt : Format) (b : CellBits) : isQuietNaN fmt b ↔
    (∀ j, quietBit fmt j → b.getLsbD j = true) ∧ ∀ j, cellWidth fmt ≤ j → b.getLsbD j = false := by
  have hend : precision fmt - 2 + (cellWidth fmt - precision fmt + 1) = cellWidth fmt - 1 := by cases fmt <;> rfl
  rw [isQuietNaN_iff_field, field_eq_ones_iff, hend]
  simp only [← BitVec.testBit_toNat]
  exact and_congr_right' ⟨fun h j hj => Nat.testBit_lt_two_pow (h.trans_le (Nat.pow_le_pow_right (by decide) hj)),
    Nat.lt_pow_two_of_testBit _⟩

/-- A pattern with the quiet field set by one word and every bit outside the format cleared by another. -/
theorem getLsbD_setQuietField {fmt : Format} {field kept : CellBits} (free : CellBits)
    (hfield : ∀ j < 64, field.getLsbD j = decide (quietBit fmt j))
    (hkept : ∀ j < 64, kept.getLsbD j = (decide (j < cellWidth fmt) && !decide (quietBit fmt j))) {j : Nat}
    (hj : j < 64) : (field ||| (free &&& kept)).getLsbD j
      = (decide (quietBit fmt j) || (decide (j < cellWidth fmt) && free.getLsbD j)) := by
  rw [BitVec.getLsbD_or, BitVec.getLsbD_and, hfield j hj, hkept j hj]
  cases decide (quietBit fmt j) <;> simp [Bool.and_comm]

/-- The bits of a free pattern made quiet: one field set, the bits above the format cleared, every other bit its own. -/
theorem getLsbD_quietNaNBits (fmt : Format) (free : CellBits) (j : Nat) : (quietNaNBits fmt free).getLsbD j
    = (decide (quietBit fmt j) || (decide (j < cellWidth fmt) && free.getLsbD j)) := by
  by_cases hj : j < 64
  · cases fmt with
    | binary32 => exact getLsbD_setQuietField free (by decide) (by decide) hj
    | binary64 => exact getLsbD_setQuietField free (by decide) (by decide) hj
  · have hout : ¬ quietBit fmt j := by cases fmt <;> simp [quietBit, precision, cellWidth] <;> omega
    rw [BitVec.getLsbD_of_ge _ _ (by omega), BitVec.getLsbD_of_ge free _ (by omega)]
    simp [hout]

theorem quietNaNBits_isQuietNaN (fmt : Format) (free : CellBits) : isQuietNaN fmt (quietNaNBits fmt free) := by
  rw [isQuietNaN_iff]
  refine ⟨fun j hj => ?_, fun j hj => ?_⟩
  · rw [getLsbD_quietNaNBits, decide_eq_true hj, Bool.true_or]
  · have hout : ¬ quietBit fmt j := by unfold quietBit; omega
    rw [getLsbD_quietNaNBits, decide_eq_false hout, decide_eq_false (Nat.not_lt.mpr hj), Bool.false_and, Bool.or_false]

theorem quietNaNBits_of_isQuietNaN {fmt : Format} {free : CellBits} (h : isQuietNaN fmt free) :
    quietNaNBits fmt free = free := by
  obtain ⟨hset, hclear⟩ := (isQuietNaN_iff ..).mp h
  refine BitVec.eq_of_getLsbD_eq fun j _ => ?_
  rw [getLsbD_quietNaNBits]
  by_cases hq : quietBit fmt j
  · rw [decide_eq_true hq, Bool.true_or, hset j hq]
  · by_cases hw : j < cellWidth fmt
    · rw [decide_eq_false hq, decide_eq_true hw, Bool.false_or, Bool.true_and]
    · rw [hclear j (by omega), decide_eq_false hq, Bool.and_false, Bool.or_false]

/-! ### What a stored value leaves in its cell (R62) -/

theorem toCell_bits_of_fits {fmt : Format} {b : CellBits} (n : Nat) (h : cellFits fmt b = true) :
    (Sample.bits b).toCell fmt n = b := cellOf_of_fits (toNat_lt_of_cellFits h)

/-- Value number `j` of a stored list draws free pattern `free + j`. -/
theorem getElem?_settleSamples (fmt : Format) (free : Nat) (b : List Sample) (j : Nat) :
    (settleSamples fmt free b)[j]? = b[j]?.map fun v => v.toCell fmt (free + j) := by
  induction b generalizing free j with
  | nil => simp [settleSamples]
  | cons v b ih =>
    cases j with
    | zero => simp [settleSamples]
    | succ j => simp [settleSamples, ih, Nat.add_comm 1, Nat.add_assoc]

/-! ### What the datapath computes is bits of a number, or a computed NaN (46_numerics.md R267) -/

theorem infMagnitude_lt_sign (fmt : Format) : infMagnitude fmt < 2 ^ (cellWidth fmt - 1) := by
  cases fmt <;> decide

theorem magnitudeOf_pack {fmt : Format} (neg : Bool) {mag : Nat} (h : mag ≤ infMagnitude fmt) :
    magnitudeOf fmt (BitVec.ofNat 64 (if neg then 2 ^ (cellWidth fmt - 1) + mag else mag)) = mag := by
  have hmag := h.trans_lt (infMagnitude_lt_sign fmt)
  have hdvd : 2 ^ (cellWidth fmt - 1) ∣ 2 ^ 64 := pow_dvd_pow 2 (by cases fmt <;> decide)
  rw [magnitudeOf, BitVec.toNat_ofNat, Nat.mod_mod_of_dvd _ hdvd]
  cases neg <;> simp [Nat.mod_eq_of_lt hmag]

theorem number_pack_ne_nan {fmt : Format} (neg : Bool) {mag : Nat} (h : mag ≤ infMagnitude fmt) :
    (pack fmt neg mag).number fmt ≠ .nan := by
  rw [pack, Sample.number, Ne, numberOf_eq_nan_iff, magnitudeOf_pack neg h]
  exact Nat.not_lt.mpr h

/-- `v` is a computed NaN or packs a magnitude up to that of infinity. -/
def isComputed (fmt : Format) (v : Sample) : Prop :=
  v = .quietNaN ∨ ∃ neg mag, mag ≤ infMagnitude fmt ∧ v = pack fmt neg mag

theorem isComputed_pack {fmt : Format} (neg : Bool) {mag : Nat} (h : mag ≤ infMagnitude fmt) :
    isComputed fmt (pack fmt neg mag) := .inr ⟨neg, mag, h, rfl⟩

theorem isComputed_quietNaN (fmt : Format) : isComputed fmt .quietNaN := .inl rfl

theorem isComputed_ite {fmt : Format} {c : Prop} [Decidable c] {v w : Sample} (hv : isComputed fmt v)
    (hw : isComputed fmt w) : isComputed fmt (if c then v else w) := by
  split <;> assumption

theorem eq_quietNaN_of_number {fmt : Format} {v : Sample} (h : isComputed fmt v) (hnan : v.number fmt = .nan) :
    v = .quietNaN := by
  rcases h with hv | ⟨neg, mag, hmag, rfl⟩
  · exact hv
  · exact absurd hnan (number_pack_ne_nan neg hmag)

theorem addNumbers_isComputed (fmt : Format) (x y : Number) : isComputed fmt (addNumbers fmt x y) := by
  cases x with
  | nan => exact isComputed_quietNaN fmt
  | inf a =>
    cases y with
    | nan => exact isComputed_quietNaN fmt
    | inf b => exact isComputed_ite (isComputed_pack a le_rfl) (isComputed_quietNaN fmt)
    | finite b y => exact isComputed_pack a le_rfl
  | finite a x =>
    cases y with
    | nan => exact isComputed_quietNaN fmt
    | inf b => exact isComputed_pack b le_rfl
    | finite b y =>
      exact isComputed_ite (isComputed_pack _ (Nat.zero_le _)) (isComputed_pack _ (Scope.roundMagnitude_le ..))

theorem mulNumbers_isComputed (fmt : Format) (x y : Number) : isComputed fmt (mulNumbers fmt x y) := by
  cases x with
  | nan => exact isComputed_quietNaN fmt
  | inf a =>
    cases y with
    | nan => exact isComputed_quietNaN fmt
    | inf b => exact isComputed_pack _ le_rfl
    | finite b y => exact isComputed_ite (isComputed_quietNaN fmt) (isComputed_pack _ le_rfl)
  | finite a x =>
    cases y with
    | nan => exact isComputed_quietNaN fmt
    | inf b => exact isComputed_ite (isComputed_quietNaN fmt) (isComputed_pack _ le_rfl)
    | finite b y => exact isComputed_pack _ (Scope.roundMagnitude_le ..)

/-- Settles O58: a quiet NaN is known by its bits, which are those the model sets; a sum and a product are packed from a
magnitude, which is no NaN, or a computed NaN. -/
theorem nanResultsAreAnyQuietNaN : Obligations.NaNResultsAreAnyQuietNaN := by
  intro fmt
  refine ⟨fun n => ⟨quietNaNBits_isQuietNaN fmt _, rfl⟩, fun b n hfits => toCell_bits_of_fits n hfits,
    getElem?_settleSamples fmt, fun x y => ⟨?_, ?_⟩,
    fun free => ⟨quietNaNBits_isQuietNaN fmt free, quietNaNBits_of_isQuietNaN⟩⟩
  · exact eq_quietNaN_of_number (addNumbers_isComputed fmt _ _)
  · exact eq_quietNaN_of_number (mulNumbers_isComputed fmt _ _)

/-! ### Accesses to what does not exist (R69) -/

/-- Settles O14: both cell accesses test `MEMMAP` first. -/
theorem absentCellAccessIsRefused : Obligations.AbsentCellAccessIsRefused := by
  intro s a v rest hseq habsent hhost
  have hcell : ¬ cellPresent s.inst a.toNat = true := by simp [habsent]
  rcases hhost with hhost | hhost <;> exact (step_of_host_cons hseq hhost).trans (if_neg hcell)

theorem transformInPlace_of_absent {s : State} {cells : Nat} (f : List Sample → List Sample)
    (h : bufferPresent s.inst s.operandD cells = false) :
    s.transformInPlace cells f = .refused .bufferNotPresent := if_neg (by simp [h])

theorem transformOutOfPlace_of_absent {s : State} {cells : Nat} (f : List Sample → List Sample → List Sample)
    (h : bufferPresent s.inst s.operandD cells = false ∨ bufferPresent s.inst s.operandS cells = false) :
    s.transformOutOfPlace cells f = .refused .bufferNotPresent := if_neg (by rcases h with h | h <;> simp [h])

/-- A transform of an admitted length is what is left of it once its tables are there. -/
theorem exec_of_lengthAdmitted {i : Instr} {s : State} (hi : i.shape ≠ .lengthOnly)
    (ha : lengthAdmitted s.inst i.minLen s.operandN) :
    exec i s = finish i s.operandN (prepare i s.operandN s) := by
  rw [exec_eq, (checkOf_eq_none_iff hi _ _).mpr ha, State.checked_none]

theorem grown_prepare_of_lengthAdmitted {i : Instr} {s : State} (hi : i.shape ≠ .lengthOnly)
    (ha : lengthAdmitted s.inst i.minLen s.operandN) : Grown s (prepare i s.operandN s) :=
  grown_prepare ((checkOf_eq_none_iff hi _ _).mpr ha)

/-- Settles O44: growing the tables moves no buffer, and both shapes of a transform test their buffers first. -/
theorem absentBufferIsRefused : Obligations.AbsentBufferIsRefused := by
  intro i hi s ha habsent
  rw [mem_transformCommands_iff] at hi
  rw [mem_outOfPlaceCommands_iff] at habsent
  have g := grown_prepare_of_lengthAdmitted hi ha
  rw [exec_of_lengthAdmitted hi ha, finish]
  rw [← g.inst, ← grown_operandD g, ← grown_operandS g] at habsent
  cases hsh : i.shape with
  | inPlace =>
    have hD := habsent.resolve_right fun h => by simp [hsh] at h
    exact transformInPlace_of_absent _ hD
  | outOfPlace => exact transformOutOfPlace_of_absent _ (habsent.imp_right And.right)
  | lengthOnly => exact absurd hsh hi

/-! ### What the table requests of a transform leave (40_table_cache.md R133) -/

theorem prepareComplex_tables {s : State} {n : Nat} (hv : s.tablesValid) (ha : lengthAdmitted s.inst complexMin n) :
    (prepareComplex n s).nw.toNat = max s.nw.toNat (n / 4)
      ∧ (prepareComplex n s).nc.toNat = max s.nc.toNat 0
      ∧ (∀ o, (prepareComplex n s).brLookup o
          = if (if 4 < n then some (log2 n) else none) = some o then some (buildBr o) else s.brLookup o)
      ∧ (prepareComplex n s).tablesValid := by
  obtain ⟨k, rfl⟩ := ha.1
  obtain ⟨hvalid, hnw, hbr⟩ := prepareComplex_spec hv ha.le_order
  refine ⟨hnw, by rw [prepareComplex_eq, Nat.max_zero], fun o => ?_, hvalid⟩
  rw [hbr, log2_two_pow]
  by_cases h4 : 4 < 2 ^ k <;> by_cases ho : o = k <;> simp [h4, ho, Ne.symm]

theorem prepareReal_tables {s : State} {n c : Nat} (hv : s.tablesValid) (ha : lengthAdmitted s.inst realMin n)
    (hc : c ≤ n) :
    (prepareReal n c s).nw.toNat = max s.nw.toNat (n / 8)
      ∧ (prepareReal n c s).nc.toNat = max s.nc.toNat c
      ∧ (∀ o, (prepareReal n c s).brLookup o
          = if (if 8 < n then some (log2 n - 1) else none) = some o then some (buildBr o) else s.brLookup o)
      ∧ (prepareReal n c s).tablesValid := by
  obtain ⟨⟨k, rfl⟩, hmin, -⟩ := id ha
  obtain ⟨k, rfl⟩ : ∃ j, k = j + 1 := ⟨k - 1, by rcases k with _ | k <;> simp [realMin] at *⟩
  obtain ⟨hvalid, hnw, hnc, hbr⟩ := prepareReal_spec hv ha.le_order hc
  refine ⟨hnw, hnc, fun o => ?_, hvalid⟩
  rw [hbr, log2_two_pow, Nat.add_sub_cancel]
  by_cases h8 : 8 < 2 ^ (k + 1) <;> by_cases ho : o = k <;> simp [h8, ho, Ne.symm]

theorem prepare_tablesGrown {i : Instr} {s : State} (hi : i.shape ≠ .lengthOnly) (hv : s.tablesValid)
    (ha : lengthAdmitted s.inst i.minLen s.operandN) : tablesGrown i s (prepare i s.operandN s) := by
  cases i with
  | cdftF | cdftI | cdftoF | cdftoI => exact prepareComplex_tables hv ha
  | rdftF | rdftI | rdftoF | rdftoI => exact prepareReal_tables hv ha (Nat.div_le_self ..)
  | dctF | dctI | dstF | dstI => exact prepareReal_tables hv ha le_rfl
  | enstw | ensct | ensbr => exact absurd rfl hi

/-! ### A transform that stores its result -/

theorem grown_freeCount {s s' : State} (g : Grown s s') : s'.freeCount = s.freeCount := by rw [g.eq]

/-- What a store leaves in memory does not depend on the tables. -/
theorem grown_storeSamples_mem {s s' : State} (g : Grown s s') (base : Nat) (b : List Sample) :
    (s'.storeSamples base b).mem = (s.storeSamples base b).mem := by
  simp only [State.storeSamples_mem, g.inst, grown_mem g, grown_freeCount g]

@[simp] theorem stagesOf_length {α : Type} (i : Instr) (A : Arith α) (T : Coeffs α) (e : BrEntry) (n : Nat)
    (src dst : List α) : (stagesOf i A T e n src dst).length = dst.length := by
  cases i <;> simp [stagesOf]

/-- The state after transform `i` has grown the tables, stored `b` at `DST` and completed. -/
def storedBy (i : Instr) (s : State) (b : List Sample) : State :=
  ((prepare i s.operandN s).storeSamples s.operandD b).complete

section Stored

variable {i : Instr} {s : State} {b : List Sample} (hi : i.shape ≠ .lengthOnly)
  (ha : lengthAdmitted s.inst i.minLen s.operandN)
include hi ha

theorem storedBy_mem : (storedBy i s b).mem = (s.storeSamples s.operandD b).mem :=
  grown_storeSamples_mem (grown_prepare_of_lengthAdmitted hi ha) _ b

theorem storedBy_completed : completed s (storedBy i s b) := by
  refine ⟨?_, rfl⟩
  rw [storedBy, State.complete_status, State.storeSamples_status,
    grown_status (grown_prepare_of_lengthAdmitted hi ha), Status.completed]

theorem storedBy_sameArguments : sameArguments s (storedBy i s b) := by
  have hargs : sameArguments s (prepare i s.operandN s) :=
    grown_sameArguments (grown_prepare_of_lengthAdmitted hi ha)
  exact hargs

theorem storedBy_tablesGrown (hv : s.tablesValid) : tablesGrown i s (storedBy i s b) :=
  prepare_tablesGrown hi hv ha

theorem storedBy_freeCount : (storedBy i s b).freeCount = s.freeCount + b.length := by
  rw [storedBy, State.complete_freeCount, State.storeSamples_freeCount,
    grown_freeCount (grown_prepare_of_lengthAdmitted hi ha)]

theorem storedBy_memoryFrame : memoryFrame s (storedBy i s b) s.operandD b.length := by
  rw [memoryFrame, storedBy_mem hi ha]
  exact memoryFrame_storeSamples s s.operandD b

theorem loadCells_storedBy (hwf : Memory.wf s.inst.fill s.mem) :
    loadCells s.inst (storedBy i s b).mem s.operandD b.length = settleSamples s.inst.fmt s.freeCount b := by
  rw [storedBy_mem hi ha]
  exact loadCells_storeSamples s.operandD b hwf

/-- A buffer that shares no cell with the one at `DST` keeps its values (20_memory.md R77). -/
theorem loadCells_storedBy_of_disjoint {base : Nat} (hdis : buffersDisjoint base s.operandD b.length = true) :
    loadCells s.inst (storedBy i s b).mem base b.length = loadCells s.inst s.mem base b.length := by
  have hapart := of_decide_eq_true hdis
  rw [storedBy_mem hi ha]
  refine loadCells_congr fun j hj => storeCells_readCell_outside _ _ _ _ ?_
  rw [settleSamples_length]
  omega

end Stored

/-! ### The out-of-place commands (42_butterfly_engine.md R174, R175; 43_real_adapter.md R198, R199) -/

/-- The result of transform `i` on the buffers of `s`, with the coefficients and the table of the generator. -/
def resultOf (i : Instr) (s : State) : List Sample :=
  stagesOf i (ieee s.inst.fmt) (romCoeffs s.inst) (buildBr (permOrder i s.operandN)) s.operandN
    (loadSamples s.inst s.mem s.operandS (i.cells s.operandN))
    (loadSamples s.inst s.mem s.operandD (i.cells s.operandN))

theorem resultOf_length (i : Instr) (s : State) : (resultOf i s).length = i.cells s.operandN := by simp [resultOf]

/-- An out-of-place command whose buffers exist and share no cell stores its result. -/
theorem exec_outOfPlace {i : Instr} {s : State} (hsh : i.shape = .outOfPlace) (hv : s.tablesValid)
    (ha : lengthAdmitted s.inst i.minLen s.operandN)
    (hS : bufferPresent s.inst s.operandS (i.cells s.operandN) = true)
    (hD : bufferPresent s.inst s.operandD (i.cells s.operandN) = true)
    (hdis : buffersDisjoint s.operandS s.operandD (i.cells s.operandN) = true) :
    exec i s = .next (storedBy i s (resultOf i s)) := by
  have hi : i.shape ≠ .lengthOnly := by simp [hsh]
  have g := grown_prepare_of_lengthAdmitted hi ha
  rw [exec_of_lengthAdmitted hi ha, finish, hsh]
  refine State.transformOutOfPlace_next.mpr ?_
  rw [g.inst, grown_operandS g, grown_operandD g, grown_mem g, stagesAt_prepare hi hv ha]
  exact ⟨hS, hD, hdis, rfl⟩

theorem completesOutOfPlace_stagesOf {i : Instr} (hsh : i.shape = .outOfPlace) :
    completesOutOfPlace i fun p n => stagesOf i (ieee p.fmt) (romCoeffs p) (buildBr (permOrder i n)) n := by
  intro s hv hwf ha hS hD hdis
  have hi : i.shape ≠ .lengthOnly := by simp [hsh]
  have hload := loadCells_storedBy (b := resultOf i s) hi ha hwf
  have hframe := storedBy_memoryFrame (b := resultOf i s) hi ha
  have hfree := storedBy_freeCount (b := resultOf i s) hi ha
  have hsrc := loadCells_storedBy_of_disjoint (b := resultOf i s) (base := s.operandS) hi ha
  rw [resultOf_length] at hload hframe hfree hsrc
  exact ⟨storedBy i s (resultOf i s), exec_outOfPlace hsh hv ha hS hD hdis, storedBy_completed hi ha,
    storedBy_sameArguments hi ha, storedBy_tablesGrown hi ha hv, hfree, hload, hframe, hsrc hdis⟩

/-- Settles O22: the stages of both commands are the out-of-place stages, which read no bit-reversal table. -/
theorem complexOutOfPlaceCommandsComplete : Obligations.ComplexOutOfPlaceCommandsComplete :=
  ⟨completesOutOfPlace_stagesOf (i := .cdftoF) rfl, completesOutOfPlace_stagesOf (i := .cdftoI) rfl⟩

theorem log2_div_two (n : Nat) : log2 (n / 2) = log2 n - 1 := by
  rw [log2, log2, Nat.log2_eq_log_two, Nat.log2_eq_log_two, Nat.log_div_base]

/-- Settles O24: the half-length view of N values asks for the table of order log2(N) - 1. -/
theorem realOutOfPlaceCommandsComplete : Obligations.RealOutOfPlaceCommandsComplete := by
  have hF := completesOutOfPlace_stagesOf (i := .rdftoF) rfl
  have hI := completesOutOfPlace_stagesOf (i := .rdftoI) rfl
  simp only [permOrder, log2_div_two] at hF hI
  exact ⟨hF, hI⟩

end Sys2Proof.SampleMemory
end

section
/-! SUPPORT. The encoding (30_encoding.md): which words are commands (R90 to R95), what an illegal one does (R96), and
what the warming lines leave in the tables (R100). -/

namespace Sys2Proof.Encoding

open Sys2Proof.Machine Sys2Proof.Claims Sys2Proof.EngineState Sys2Proof.SampleMemory

/-! ### The command words (R90 to R95) -/

theorem decode_encode (i : Instr) : decode (encode i) = .ok i := by
  cases i <;> rfl

/-- Settles O1: the encoder and the decoder read the same row of the table for every command. -/
theorem decodeOfEncodeIsTheCommand : Obligations.DecodeOfEncodeIsTheCommand :=
  fun i _ => decode_encode i

/-- Settles O3: six words of the table, and one with a bit of `RSV` set. -/
theorem writtenOutWordsDecode : Obligations.WrittenOutWordsDecode := by
  unfold Obligations.WrittenOutWordsDecode
  decide

/-- A word without reserved bits is its fields `OP` and `DIR` (R90). -/
theorem commandWord_fields {w : Word} (h : rsvField w = 0#27) : commandWord (opField w) (dirField w) = w := by
  calc commandWord (opField w) (dirField w)
      = rsvField w ++ dirField w ++ opField w := by rw [h, commandWord]
    _ = w.extractLsb' 4 28 ++ opField w := by
      rw [rsvField, dirField, BitVec.extractLsb'_append_extractLsb'_eq_extractLsb' (by rfl)]
    _ = w := by
      rw [opField, BitVec.extractLsb'_append_extractLsb'_eq_extractLsb' (by rfl), BitVec.extractLsb'_eq_self]

theorem decode_of_rsv {w : Word} (h : rsvField w ≠ 0#27) : decode w = .error .reservedBits := if_pos h

/-- Of the 32 words without reserved bits, each that decodes to a command is that command's word. -/
theorem encode_of_decode_commandWord {op : BitVec 4} {dir : BitVec 1} {i : Instr}
    (h : decode (commandWord op dir) = .ok i) : encode i = commandWord op dir := by
  revert op dir
  cases i <;> decide

/-- The decoder and the encoder are inverse: a word decodes to a command exactly when it is that command's word. -/
theorem decode_eq_ok_iff (w : Word) (i : Instr) : decode w = .ok i ↔ w = encode i := by
  constructor
  · intro h
    by_cases hrsv : rsvField w = 0#27
    · rw [← commandWord_fields hrsv] at h ⊢
      exact (encode_of_decode_commandWord h).symm
    · rw [decode_of_rsv hrsv] at h
      cases h
  · rintro rfl
    exact decode_encode i

/-- The fifteen commands, in the order of the table of R95. -/
def commands : List Instr := transformCommands ++ [Instr.enstw, Instr.ensct, Instr.ensbr]

theorem mem_commands (i : Instr) : i ∈ commands := by
  cases i <;> decide

/-- The words written out in R95 are the encoded commands. -/
theorem legalWords_eq : legalWords = commands.map fun i => (encode i, i) := by decide

theorem mem_legalWords_iff (w : Word) (i : Instr) : (w, i) ∈ legalWords ↔ w = encode i := by
  simp [legalWords_eq, mem_commands, eq_comm]

theorem decode_eq_ok_iff_mem_legalWords (w : Word) (i : Instr) : decode w = .ok i ↔ (w, i) ∈ legalWords := by
  rw [decode_eq_ok_iff, mem_legalWords_iff]

/-- Settles O2: both sides say that the word is the command's own. -/
theorem legalWordsAreExactlyTheFifteen : Obligations.LegalWordsAreExactlyTheFifteen :=
  decode_eq_ok_iff_mem_legalWords

/-! ### The illegal words (R96) -/

theorem forall_ne_ok_iff {ε α : Type} (x : Except ε α) : (∀ a, x ≠ .ok a) ↔ x.isOk = false := by
  cases x <;> simp [Except.isOk, Except.toBool]

/-- Of the 32 words without reserved bits, those with a reserved `OP` or with `DIR` = 1 on a cache command decode to no
command, and no other. -/
theorem illegalByFields_commandWord_iff (op : BitVec 4) (dir : BitVec 1) :
    illegalByFields (commandWord op dir) ↔ ∀ i, decode (commandWord op dir) ≠ .ok i := by
  rw [forall_ne_ok_iff, illegalByFields]
  revert op dir
  decide

/-- The classes of R96 are the words that decode to no command. -/
theorem illegalByFields_iff (w : Word) : illegalByFields w ↔ ∀ i, decode w ≠ .ok i := by
  by_cases hrsv : rsvField w = 0#27
  · rw [← commandWord_fields hrsv]
    exact illegalByFields_commandWord_iff _ _
  · refine iff_of_true (.inr (.inr hrsv)) fun i => ?_
    rw [decode_of_rsv hrsv]
    simp

theorem illegalByFields_iff_not_mem_legalWords (w : Word) : illegalByFields w ↔ ∀ i, (w, i) ∉ legalWords := by
  simp only [illegalByFields_iff, ne_eq, decode_eq_ok_iff_mem_legalWords]

/-- A `CMD` write of a word that is no command aborts before anything else is looked at (R96). -/
theorem runCommand_of_illegal {s : State} {w : Word} (hhalt : s.status.halt = false) (h : ∀ i, decode w ≠ .ok i) :
    runCommand w s = .next ((s.startCommand w).abort .illCmd) := by
  cases hdec : decode w with
  | ok i => exact absurd hdec (h i)
  | error e => simp [runCommand, hhalt, hdec]

/-- Settles O4: the illegal words are those that decode to no command, and of such a word the port makes the abort. -/
theorem illegalWordAborts : Obligations.IllegalWordAborts := by
  intro s w rest
  refine ⟨illegalByFields_iff_not_mem_legalWords w, fun hseq hhalt hhost hill => ?_⟩
  have hrun := runCommand_of_illegal (s := { s with host := rest }) hhalt ((illegalByFields_iff w).mp hill)
  rw [step_of_host_cons hseq hhost]
  refine hrun.trans ?_
  rw [State.abort, State.startCommand, Status.started, Status.aborted, hseq]

/-! ### Served commands (40_table_cache.md R134) -/

section Requests

variable {s : State}

theorem ensureTwiddle_of_le {m : Nat} (h : m ≤ s.nw.toNat) : ensureTwiddle m s = s := if_pos h

theorem ensureCosine_of_le {m : Nat} (h : m ≤ s.nc.toNat) : ensureCosine m s = s := if_pos h

theorem permutationFor_of_cached {o : Nat} (h : (s.brLookup o).isSome = true) : permutationFor o s = s := if_pos h

theorem prepareComplex_of_served {n : Nat} (htw : n / 4 ≤ s.nw.toNat)
    (hbr : 4 < n → (s.brLookup (log2 n)).isSome = true) : prepareComplex n s = s := by
  rw [prepareComplex, ensureTwiddle_of_le htw]
  split
  · exact permutationFor_of_cached (hbr ‹_›)
  · rfl

theorem prepareReal_of_served {n c : Nat} (htw : n / 8 ≤ s.nw.toNat) (hct : c ≤ s.nc.toNat)
    (hbr : 8 < n → (s.brLookup (log2 n - 1)).isSome = true) : prepareReal n c s = s := by
  rw [prepareReal, ensureTwiddle_of_le htw, ensureCosine_of_le hct]
  split
  · rw [log2_div_two]
    exact permutationFor_of_cached (hbr (by omega))
  · rfl

/-- The table requests of a served command are no change. -/
theorem prepare_of_served {i : Instr} {n : Nat} (h : s.served i n) : prepare i n s = s := by
  obtain ⟨htw, hct, hbr⟩ := h
  cases i with
  | cdftF | cdftI | cdftoF | cdftoI =>
    exact prepareComplex_of_served htw fun hn => hbr _ (by simp [Instr.brRequest, hn])
  | rdftF | rdftI | rdftoF | rdftoI | dctF | dctI | dstF | dstI =>
    exact prepareReal_of_served htw hct fun hn => hbr _ (by simp [Instr.brRequest, hn])
  | enstw => exact ensureTwiddle_of_le htw
  | ensct => exact ensureCosine_of_le hct
  | ensbr => exact permutationFor_of_cached (hbr n rfl)

end Requests

/-- What is left of a command once its tables are there changes none of them. -/
theorem finish_sameTables {i : Instr} {n : Nat} {u t : State} (h : finish i n u = .next t) : sameTables u t := by
  unfold finish at h
  split at h
  · obtain ⟨-, rfl⟩ := State.transformInPlace_next.mp h
    exact ⟨rfl, rfl, rfl, rfl, rfl⟩
  · obtain ⟨-, -, -, rfl⟩ := State.transformOutOfPlace_next.mp h
    exact ⟨rfl, rfl, rfl, rfl, rfl⟩
  · cases h
    exact ⟨rfl, rfl, rfl, rfl, rfl⟩

theorem exec_sameTables_of_served {i : Instr} {s t : State} (hs : s.served i s.operandN) (h : exec i s = .next t) :
    sameTables s t := by
  rw [exec_eq] at h
  rcases State.checked_cases h with ⟨c, -, rfl⟩ | ⟨-, h⟩
  · exact ⟨rfl, rfl, rfl, rfl, rfl⟩
  · rw [prepare_of_served hs] at h
    exact finish_sameTables h

/-- A state that serves every command of a list for a length is warmed for them. -/
theorem warmedFor_of_served {l : List Instr} {n : Word} {t : State} (h : ∀ i ∈ l, t.served i n.toNat) :
    warmedFor l n t := by
  rintro i hi v u ⟨hnw, hnc, -, -, hbr⟩ - rfl hexec
  refine exec_sameTables_of_served ?_ hexec
  have hserved := h i hi
  unfold State.served State.brLookup at hserved ⊢
  rwa [hnw, hnc, hbr]

/-! ### The cache lines of a warming line (R99, R100) -/

/-- What a cache line that runs from `s` to `t` keeps: no table entry is lost, and the engine is not halted. -/
structure Warmer (s t : State) : Prop where
  running : t.status.halt = false
  inst : t.inst = s.inst
  nw : s.nw.toNat ≤ t.nw.toNat
  nc : s.nc.toNat ≤ t.nc.toNat
  br : ∀ o, (s.brLookup o).isSome = true → (t.brLookup o).isSome = true

theorem Warmer.refl {s : State} (h : s.status.halt = false) : Warmer s s :=
  ⟨h, rfl, le_rfl, le_rfl, fun _ => id⟩

theorem Warmer.trans {s t u : State} (h : Warmer s t) (h' : Warmer t u) : Warmer s u :=
  ⟨h'.running, h'.inst.trans h.inst, h.nw.trans h'.nw, h.nc.trans h'.nc, fun o => h'.br o ∘ h.br o⟩

theorem permutationFor_caches (o : Nat) (s : State) : ((permutationFor o s).brLookup o).isSome = true := by
  unfold permutationFor
  split
  · assumption
  · exact List.find?_isSome.mpr ⟨buildBr o, mem_insertBr.mpr (.inl rfl), by simp⟩

/-- A cache command that has run serves itself from then on. -/
theorem prepare_serves_cache {i : Instr} {n : Nat} (hi : i.shape = .lengthOnly) (hn : n < 2 ^ 32) (s : State) :
    (prepare i n s).served i n := by
  have hnone : ∀ o ∈ (none : Option Nat), ((prepare i n s).brLookup o).isSome = true := by simp
  cases i with
  | enstw => exact ⟨(le_max_right ..).trans_eq (ensureTwiddle_nw s hn).symm, Nat.zero_le _, hnone⟩
  | ensct => exact ⟨Nat.zero_le _, (le_max_right ..).trans_eq (ensureCosine_nc s hn).symm, hnone⟩
  | ensbr =>
    refine ⟨Nat.zero_le _, Nat.zero_le _, fun o ho => ?_⟩
    obtain rfl : n = o := Option.some.inj ho
    exact permutationFor_caches n s
  | _ => cases hi

theorem runOps_append {ops ops' : List HostOp} {s t : State} (h : runOps ops s = .next t) :
    runOps (ops ++ ops') s = runOps ops' t := by
  induction ops generalizing s with
  | nil =>
    obtain rfl : s = t := by simpa [runOps] using h
    rfl
  | cons op ops ih =>
    rw [runOps] at h
    rw [List.cons_append, runOps]
    cases hstep : hostStep op s with
    | next u => exact ih (by simpa only [hstep] using h)
    | fault r => simp [hstep] at h
    | refused r => simp [hstep] at h

/-- The state in which the command of the cache line `I size` starts. -/
def lineStart (i : Instr) (size : Word) (s : State) : State := State.startCommand { s with len := size } (encode i)

/-- The two writes of a cache line: the length is stored, then the command runs. -/
theorem runOps_expandCache {i : Instr} {size : Word} {s t : State} (hhalt : s.status.halt = false)
    (h : exec i (lineStart i size s) = .next t) :
    runOps (expandCache i size) s = .next t := by
  have hlen : hostStep (writeLen size) s = .next { s with len := size } := writeArgument_of_running hhalt _
  have hcmd : hostStep (commandWrite (encode i)) { s with len := size } = .next t :=
    (runCommand_of_decode (s := { s with len := size }) hhalt (decode_encode i)).trans h
  simp only [expandCache, runOps, hlen, hcmd]

/-- A cache line whose check passes runs, and its command is served from then on. -/
theorem cacheLine_runs {i : Instr} {size : Word} {s : State} (hi : i.shape = .lengthOnly)
    (hhalt : s.status.halt = false) (hcheck : checkOf i s.inst size.toNat = none) :
    ∃ t, runOps (expandCache i size) s = .next t ∧ Warmer s t ∧ t.served i size.toNat := by
  have hnone : checkOf i (lineStart i size s).inst (lineStart i size s).operandN = none := hcheck
  have g : Grown (lineStart i size s) (prepare i size.toNat (lineStart i size s)) := grown_prepare hnone
  refine ⟨(prepare i size.toNat (lineStart i size s)).complete, ?_, ?_, prepare_serves_cache hi size.isLt _⟩
  · refine runOps_expandCache hhalt ?_
    rw [exec_eq, hnone, State.checked_none, finish, hi]
    rfl
  · refine ⟨?_, g.inst, g.nw, g.nc, fun o ho => ?_⟩
    · rw [State.complete_status, grown_status g]
      exact hhalt
    · obtain ⟨e, he⟩ := Option.isSome_iff_exists.mp ho
      exact Option.isSome_iff_exists.mpr ⟨e, prepare_keeps_brLookup i _ he⟩

theorem toNat_ofNat_of_le {m : Nat} {n : Word} (h : m ≤ n.toNat) : (BitVec.ofNat 32 m).toNat = m :=
  Nat.mod_eq_of_lt (h.trans_lt n.isLt)

/-- The optional `ENSBR` of a warming line. -/
theorem orderLine_runs {needed : Bool} {o : Nat} {s : State} (hhalt : s.status.halt = false)
    (ho : needed = true → 1 ≤ o ∧ o ≤ log2Nmax s.inst) :
    ∃ t, runOps (expandOrder needed o) s = .next t ∧ Warmer s t
      ∧ (needed = true → (t.brLookup o).isSome = true) := by
  cases needed with
  | false => exact ⟨s, rfl, Warmer.refl hhalt, by simp⟩
  | true =>
    obtain ⟨hpos, hle⟩ := ho rfl
    have hsize : (BitVec.ofNat 32 o).toNat = o := by
      have := log2Nmax_le s.inst
      exact Nat.mod_eq_of_lt (by omega)
    have hcheck : checkOf .ensbr s.inst (BitVec.ofNat 32 o).toNat = none := by
      rw [hsize, checkOf, checkOrder, if_neg (by omega), if_neg (by omega)]
    obtain ⟨t, hrun, hwarm, -, -, hbr⟩ := cacheLine_runs rfl hhalt hcheck
    rw [hsize] at hbr
    exact ⟨t, hrun, hwarm, fun _ => hbr o rfl⟩

/-- The `ENSTW` of a warming line, which asks for no more than a quarter of an admitted length. -/
theorem twiddleLine_runs {s : State} {n : Word} {min d : Nat} (hhalt : s.status.halt = false)
    (ha : lengthAdmitted s.inst min n.toNat) (hd : 4 ≤ d) :
    ∃ t, runOps (expandCache .enstw (BitVec.ofNat 32 (n.toNat / d))) s = .next t ∧ Warmer s t
      ∧ n.toNat / d ≤ t.nw.toNat := by
  have hsize := toNat_ofNat_of_le (Nat.div_le_self n.toNat d)
  have hcheck : checkOf .enstw s.inst (BitVec.ofNat 32 (n.toNat / d)).toNat = none := by
    rw [hsize]
    exact if_neg (Nat.not_lt.mpr (ha.div_le_twCap hd))
  obtain ⟨t, hrun, hwarm, htw, -, -⟩ := cacheLine_runs rfl hhalt hcheck
  rw [hsize] at htw
  exact ⟨t, hrun, hwarm, htw⟩

/-- The `ENSCT` of a warming line, which asks for no more than an admitted length. -/
theorem cosineLine_runs {s : State} {n size : Word} {min : Nat} (hhalt : s.status.halt = false)
    (ha : lengthAdmitted s.inst min n.toNat) (hsize : size.toNat ≤ n.toNat) :
    ∃ t, runOps (expandCache .ensct size) s = .next t ∧ Warmer s t ∧ size.toNat ≤ t.nc.toNat := by
  have hcheck : checkOf .ensct s.inst size.toNat = none := if_neg (Nat.not_lt.mpr (hsize.trans ha.2.2))
  obtain ⟨t, hrun, hwarm, -, hct, -⟩ := cacheLine_runs rfl hhalt hcheck
  exact ⟨t, hrun, hwarm, hct⟩

/-! ### The warming lines (R100) -/

/-- An admitted length beyond 4 has an order that `ENSBR` takes, and so has its half. -/
theorem lengthAdmitted_log2 {p : Params} {min n : Nat} (ha : lengthAdmitted p min n) (h4 : 4 < n) :
    2 ≤ log2 n ∧ log2 n ≤ log2Nmax p := by
  obtain ⟨k, rfl⟩ := ha.1
  rw [log2_two_pow]
  exact ⟨((Nat.pow_lt_pow_iff_right (a := 2) (n := 2) (by decide)).mp h4).le, ha.le_order⟩

section WarmingLine

variable {s : State} {n : Word} (hhalt : s.status.halt = false)
include hhalt

theorem warmC_runs (ha : lengthAdmitted s.inst 2 n.toNat) :
    ∃ t, runOps (expand (.warmC n)) s = .next t ∧ t.status.halt = false ∧ n.toNat / 4 ≤ t.nw.toNat
      ∧ (4 < n.toNat → (t.brLookup (log2 n.toNat)).isSome = true) := by
  obtain ⟨t, hrun, hwarm, htw⟩ := twiddleLine_runs hhalt ha le_rfl
  have horder : decide (4 < n.toNat) = true → 1 ≤ log2 n.toNat ∧ log2 n.toNat ≤ log2Nmax t.inst := by
    intro hn
    obtain ⟨hlo, hhi⟩ := lengthAdmitted_log2 ha (of_decide_eq_true hn)
    exact ⟨by omega, hwarm.inst ▸ hhi⟩
  obtain ⟨u, hrun', hwarm', hbr⟩ := orderLine_runs hwarm.running horder
  exact ⟨u, (runOps_append hrun).trans hrun', hwarm'.running, htw.trans hwarm'.nw,
    fun hn => hbr (decide_eq_true hn)⟩

/-- `WARM.R` and `WARM.D` differ in the number of cosine entries. -/
theorem warmReal_runs {size : Word} (ha : lengthAdmitted s.inst 4 n.toNat) (hsize : size.toNat ≤ n.toNat) :
    ∃ t, runOps (expandCache .enstw (BitVec.ofNat 32 (n.toNat / 8)) ++ expandCache .ensct size
        ++ expandOrder (8 < n.toNat) (log2 n.toNat - 1)) s = .next t ∧ t.status.halt = false
      ∧ n.toNat / 8 ≤ t.nw.toNat ∧ size.toNat ≤ t.nc.toNat
      ∧ (8 < n.toNat → (t.brLookup (log2 n.toNat - 1)).isSome = true) := by
  obtain ⟨t, hrun, hwarm, htw⟩ := twiddleLine_runs hhalt ha (d := 8) (by decide)
  obtain ⟨u, hrun', hwarm', hct⟩ := cosineLine_runs hwarm.running (hwarm.inst ▸ ha) hsize
  have horder : decide (8 < n.toNat) = true → 1 ≤ log2 n.toNat - 1 ∧ log2 n.toNat - 1 ≤ log2Nmax u.inst := by
    intro hn
    obtain ⟨hlo, hhi⟩ := lengthAdmitted_log2 ha (lt_trans (by decide) (of_decide_eq_true hn))
    rw [(hwarm.trans hwarm').inst]
    exact ⟨by omega, by omega⟩
  obtain ⟨v, hrun'', hwarm'', hbr⟩ := orderLine_runs hwarm'.running horder
  refine ⟨v, ?_, hwarm''.running, htw.trans (hwarm'.trans hwarm'').nw, hct.trans hwarm''.nc,
    fun hn => hbr (decide_eq_true hn)⟩
  rw [List.append_assoc, runOps_append hrun, runOps_append hrun', hrun'']

end WarmingLine

section Served

variable {t : State} {i : Instr} {n : Nat}

theorem served_of_mem_complexCommands (hi : i ∈ complexCommands) (htw : n / 4 ≤ t.nw.toNat)
    (hbr : 4 < n → (t.brLookup (log2 n)).isSome = true) : t.served i n := by
  cases i with
  | cdftF | cdftI | cdftoF | cdftoI =>
    refine ⟨htw, Nat.zero_le _, fun o ho => ?_⟩
    obtain ⟨hn, rfl⟩ : 4 < n ∧ log2 n = o := by simpa [Instr.brRequest] using ho
    exact hbr hn
  | _ => exact absurd hi (by decide)

/-- The real, cosine and sine commands differ in the cosine entries they ask for. -/
theorem served_of_mem_halfCommands (hi : i ∈ realCommands ++ cosineCommands) (htw : n / 8 ≤ t.nw.toNat)
    (hct : i.ctRequest n ≤ t.nc.toNat) (hbr : 8 < n → (t.brLookup (log2 n - 1)).isSome = true) : t.served i n := by
  cases i with
  | rdftF | rdftI | rdftoF | rdftoI | dctF | dctI | dstF | dstI =>
    refine ⟨htw, hct, fun o ho => ?_⟩
    obtain ⟨hn, rfl⟩ : 8 < n ∧ log2 n - 1 = o := by simpa [Instr.brRequest] using ho
    exact hbr hn
  | _ => exact absurd hi (by decide)

theorem ctRequest_of_mem_realCommands (hi : i ∈ realCommands) : i.ctRequest n = n / 4 := by
  cases i with
  | rdftF | rdftI | rdftoF | rdftoI => rfl
  | _ => exact absurd hi (by decide)

theorem ctRequest_of_mem_cosineCommands (hi : i ∈ cosineCommands) : i.ctRequest n = n := by
  cases i with
  | dctF | dctI | dstF | dstI => rfl
  | _ => exact absurd hi (by decide)

end Served

/-- Settles O32: each cache line of a warming line runs and loses nothing, so that in the end every request of the
matching transforms is served. -/
theorem warmedTransformsChangeNoTable : Obligations.WarmedTransformsChangeNoTable := by
  intro s n hhalt
  refine ⟨fun ha => ?_, fun ha => ?_, fun ha => ?_⟩
  · obtain ⟨t, hrun, hrunning, htw, hbr⟩ := warmC_runs hhalt ha
    exact ⟨t, hrun, hrunning, warmedFor_of_served fun i hi => served_of_mem_complexCommands hi htw hbr⟩
  · have hsize := toNat_ofNat_of_le (Nat.div_le_self n.toNat 4)
    obtain ⟨t, hrun, hrunning, htw, hct, hbr⟩ :=
      warmReal_runs hhalt ha (hsize.trans_le (Nat.div_le_self n.toNat 4))
    rw [hsize] at hct
    exact ⟨t, hrun, hrunning, warmedFor_of_served fun i hi =>
      served_of_mem_halfCommands (List.mem_append_left _ hi) htw
        ((ctRequest_of_mem_realCommands hi).trans_le hct) hbr⟩
  · obtain ⟨t, hrun, hrunning, htw, hct, hbr⟩ := warmReal_runs hhalt ha le_rfl
    exact ⟨t, hrun, hrunning, warmedFor_of_served fun i hi =>
      served_of_mem_halfCommands (List.mem_append_right _ hi) htw
        ((ctRequest_of_mem_cosineCommands hi).trans_le hct) hbr⟩

end Sys2Proof.Encoding
end

section
/-! SUPPORT. The table cache (40_table_cache.md): what the cache commands do to the tables (R120 to R134), what a cosine
lookup finds (R129), and the transforms that work in place with what they have asked for. -/

namespace Sys2Proof.TableCache

open Sys2Proof.Machine Sys2Proof.Claims Sys2Proof.EngineState Sys2Proof.SampleMemory

/-! ### The cache commands (R126, R127, R130, R131) -/

/-- A command whose check fails aborts with the cause and changes nothing else. -/
theorem exec_of_check {i : Instr} {s : State} {c : Cause} (h : checkOf i s.inst s.operandN = some c) :
    exec i s = .next (abortedWith s c) := by
  rw [exec_eq, h, State.checked_some]
  rfl

/-- Settles O19: each check is one comparison with the capacity; an order past `LOG2_NMAX` is not 0. -/
theorem cacheSizeChecksAbort : Obligations.CacheSizeChecksAbort := by
  refine fun s => ⟨fun h => exec_of_check (if_pos h), fun h => exec_of_check (if_pos h), fun h => exec_of_check ?_⟩
  rw [checkOf, checkOrder, if_neg (Nat.ne_zero_of_lt h), if_pos h]

/-- A cache command whose check passes grows the tables and completes. -/
theorem exec_cache {i : Instr} {s : State} (hi : i.shape = .lengthOnly) (h : checkOf i s.inst s.operandN = none) :
    exec i s = .next (prepare i s.operandN s).complete := by
  rw [exec_eq, h, State.checked_none, finish, hi]

theorem operandN_lt (s : State) : s.operandN < 2 ^ 32 := s.len.isLt

/-- Settles O27: `ENSTW` is `ensure_twiddle`, which puts the values of the generator behind the entries there are. -/
theorem ensureTwiddleCommandGrowsTheTable : Obligations.EnsureTwiddleCommandGrowsTheTable := by
  intro s hv hN
  have hvalid := ensureTwiddle_valid (operandN_lt s) hv
  have heq := ensureTwiddle_eq s.operandN s
  refine ⟨_, exec_cache (i := .enstw) rfl (if_neg (Nat.not_lt.mpr hN)), ?_, ensureTwiddle_nw s (operandN_lt s),
    hvalid.1, ensureTwiddle_prefix _ hv, fun k hk => ?_⟩
  · rw [prepare, State.complete, heq, Status.completed]
  · have hentry := hvalid.2 k hk
    rwa [heq] at hentry

/-- Settles O28: `ENSCT` is `ensure_cosine`, which does the same for the cosine table. -/
theorem ensureCosineCommandGrowsTheTable : Obligations.EnsureCosineCommandGrowsTheTable := by
  intro s hv hN
  have hvalid := ensureCosine_valid (operandN_lt s) hv
  have heq := ensureCosine_eq s.operandN s
  refine ⟨_, exec_cache (i := .ensct) rfl (if_neg (Nat.not_lt.mpr hN)), ?_, ensureCosine_nc s (operandN_lt s),
    hvalid.1, ensureCosine_prefix _ hv, fun k hk => ?_⟩
  · rw [prepare, State.complete, heq, Status.completed]
  · have hentry := hvalid.2 k hk
    rwa [heq] at hentry

/-- Settles O31: the table requests of a served command are no change, and its stages change no table. -/
theorem servedCommandsLeaveTheTables : Obligations.ServedCommandsLeaveTheTables :=
  fun _ _ _ => Encoding.exec_sameTables_of_served

/-! ### The cosine lookup (R129) -/

theorem rev_pos {d x : Nat} (h0 : 0 < x) (hx : x < 2 ^ d) : 0 < rev d x := by
  induction d generalizing x with
  | zero => omega
  | succ d ih =>
    rw [Scope.rev_succ]
    rcases Nat.mod_two_eq_zero_or_one x with hlow | hlow
    · have := ih (x := x / 2) (by omega) (by rw [pow_succ] at hx; omega)
      omega
    · rw [hlow, Nat.one_mul]
      exact Nat.add_pos_left (by positivity) _

/-- `brfrac` in integers: the entry at a reversal is that of the fraction, whatever its leading zeros. -/
theorem brNum_rev {d x : Nat} (hx : x < 2 ^ d) : brNum (rev d x) * 2 ^ d = x * 2 ^ bitCount (rev d x) := by
  obtain ⟨e, he⟩ := Nat.exists_eq_add_of_le (Scope.bitCount_le_of_lt (rev_lt d x))
  have hx' := Scope.rev_rev hx
  generalize rev d x = k at *
  subst he
  rw [Scope.rev_add_of_lt e (Scope.lt_two_pow_bitCount k)] at hx'
  rw [← hx', brNum, pow_add]
  ring

/-- Settles O35: the reversal of a nonzero fraction is a regular entry, and holds half the cosine of that fraction. -/
theorem cosineLookupFindsTheHalvedCosine : Obligations.CosineLookupFindsTheHalvedCosine := by
  intro s num d hv h0 hnum hd
  have hpos := rev_pos h0 hnum
  have hlt := rev_lt d num
  refine ⟨hpos, hlt, ?_⟩
  calc halfCosine s.coeffs num d
      = .bits (ctRom s.inst (rev d num)) := State.coeffs_ct hv (hlt.trans_le hd)
    _ = .bits (romHalfCos s.inst num d) := by
      rw [ctRom, if_neg hpos.ne', romHalfCos, romHalfCos, Scope.romCos_congr s.inst (brNum_rev hnum)]

/-! ### The transforms that work in place (42_butterfly_engine.md, 43_real_adapter.md, 44_dct_dst_adapter.md) -/

/-- The stages of an in-place command read no source buffer. -/
theorem stagesOf_of_inPlace {α : Type} {i : Instr} (hsh : i.shape = .inPlace) (A : Arith α) (T : Coeffs α) (e : BrEntry)
    (n : Nat) (src src' dst : List α) : stagesOf i A T e n src dst = stagesOf i A T e n src' dst := by
  cases i with
  | cdftF | cdftI | rdftF | rdftI | dctF | dctI | dstF | dstI => rfl
  | cdftoF | cdftoI | rdftoF | rdftoI | enstw | ensct | ensbr => cases hsh

/-- An in-place command whose buffer exists stores its result. -/
theorem exec_inPlace {i : Instr} {s : State} (hsh : i.shape = .inPlace) (hv : s.tablesValid)
    (ha : lengthAdmitted s.inst i.minLen s.operandN)
    (hD : bufferPresent s.inst s.operandD (i.cells s.operandN) = true) :
    exec i s = .next (storedBy i s (resultOf i s)) := by
  have hi : i.shape ≠ .lengthOnly := by simp [hsh]
  have g := grown_prepare_of_lengthAdmitted hi ha
  rw [exec_of_lengthAdmitted hi ha, finish, hsh]
  refine State.transformInPlace_next.mpr ?_
  rw [g.inst, grown_operandD g, grown_mem g, stagesAt_prepare hi hv ha,
    stagesOf_of_inPlace hsh _ _ _ _ [] (loadSamples s.inst s.mem s.operandS (i.cells s.operandN))]
  exact ⟨hD, rfl⟩

theorem completesInPlace_stagesOf {i : Instr} (hsh : i.shape = .inPlace) :
    completesInPlace i fun p n => stagesOf i (ieee p.fmt) (romCoeffs p) (buildBr (permOrder i n)) n [] := by
  intro s hv hwf ha hD
  have hi : i.shape ≠ .lengthOnly := by simp [hsh]
  have hload := loadCells_storedBy (b := resultOf i s) hi ha hwf
  have hframe := storedBy_memoryFrame (b := resultOf i s) hi ha
  have hfree := storedBy_freeCount (b := resultOf i s) hi ha
  rw [resultOf_length] at hload hframe hfree
  refine ⟨storedBy i s (resultOf i s), exec_inPlace hsh hv ha hD, storedBy_completed hi ha,
    storedBy_sameArguments hi ha, storedBy_tablesGrown hi ha hv, hfree, ?_, hframe⟩
  rw [hload, resultOf, stagesOf_of_inPlace hsh]

/-- Settles O21: the complex commands read the table of order log2(N). -/
theorem complexInPlaceCommandsComplete : Obligations.ComplexInPlaceCommandsComplete :=
  ⟨completesInPlace_stagesOf (i := .cdftF) rfl, completesInPlace_stagesOf (i := .cdftI) rfl⟩

/-- A command on the half-length view of N values reads the table of order log2(N) - 1. -/
theorem completesInPlace_halfLength {i : Instr} (hsh : i.shape = .inPlace) (ho : permOrder i = fun n => log2 (n / 2)) :
    completesInPlace i fun p n => stagesOf i (ieee p.fmt) (romCoeffs p) (buildBr (log2 n - 1)) n [] := by
  simpa only [ho, log2_div_two] using completesInPlace_stagesOf hsh

/-- Settles O23: both real commands work on the half-length view. -/
theorem realInPlaceCommandsComplete : Obligations.RealInPlaceCommandsComplete :=
  ⟨completesInPlace_halfLength (i := .rdftF) rfl rfl, completesInPlace_halfLength (i := .rdftI) rfl rfl⟩

/-- Settles O25: so do the four cosine and sine commands, around their own passes over the cells. -/
theorem cosineAndSineCommandsComplete : Obligations.CosineAndSineCommandsComplete :=
  ⟨completesInPlace_halfLength (i := .dctF) rfl rfl, completesInPlace_halfLength (i := .dctI) rfl rfl,
    completesInPlace_halfLength (i := .dstF) rfl rfl, completesInPlace_halfLength (i := .dstI) rfl rfl⟩

end Sys2Proof.TableCache
end

section
/-! SUPPORT. The coefficient generator against the exact cosine (40_table_cache.md R122 to R125): the grid of a format
(46_numerics.md R260), what rounding to nearest leaves, and the property P3 of every generator. -/

namespace Sys2Proof.Generator

open Sys2Proof.Machine Sys2Proof.Claims

/-! ### The grid of a format (46_numerics.md R260) -/

/-- The significand of one binade's least value, 2^(p-1). -/
abbrev leadBit (fmt : Format) : Nat := 2 ^ (precision fmt - 1)

theorem leadBit_pos (fmt : Format) : 0 < leadBit fmt := by positivity

/-- The grid value by the exponent and fraction fields. -/
theorem gridOf_fields {fmt : Format} {e f : Nat} (hf : f < leadBit fmt) :
    gridOf fmt (leadBit fmt * e + f) = if e = 0 then f else (leadBit fmt + f) * 2 ^ (e - 1) := by
  obtain ⟨hdiv, hmod⟩ := (Nat.div_mod_unique (leadBit_pos fmt)).mpr ⟨Nat.add_comm f (leadBit fmt * e), hf⟩
  simp only [gridOf, hdiv, hmod]

/-- The grid value of significand `r` in units of 2^`q`; the first value of the next binade has both units. -/
theorem gridOf_scaled {fmt : Format} {q r : Nat} (hr : r ≤ 2 * leadBit fmt) (hq : q = 0 ∨ leadBit fmt ≤ r) :
    gridOf fmt (q * leadBit fmt + r) = r * 2 ^ q := by
  have hpos := leadBit_pos fmt
  rcases Nat.lt_or_ge r (leadBit fmt) with hlt | hge
  · obtain rfl : q = 0 := hq.resolve_right (by omega)
    have hfields := gridOf_fields (e := 0) hlt
    simpa using hfields
  · obtain ⟨f, rfl⟩ := Nat.exists_eq_add_of_le hge
    rcases Nat.lt_or_ge f (leadBit fmt) with hf | hf
    · have hfields := gridOf_fields (e := q + 1) hf
      rw [if_neg (Nat.succ_ne_zero q), Nat.add_sub_cancel] at hfields
      rw [← hfields]
      congr 1
      ring
    · obtain rfl : f = leadBit fmt := by omega
      have hfields := gridOf_fields (e := q + 2) hpos
      rw [if_neg (Nat.succ_ne_zero _), Nat.add_zero, Nat.add_zero, show q + 2 - 1 = q + 1 by omega] at hfields
      rw [show q * leadBit fmt + (leadBit fmt + leadBit fmt) = leadBit fmt * (q + 2) by ring, hfields, pow_succ]
      ring

/-- Every encoding is a significand in units of a power of two. -/
theorem exists_scaled (fmt : Format) (mag : Nat) : ∃ q r, mag = q * leadBit fmt + r ∧ r < 2 * leadBit fmt
    ∧ (q = 0 ∨ leadBit fmt ≤ r) := by
  have hpos := leadBit_pos fmt
  have hmod := Nat.mod_lt mag hpos
  have hdiv := Nat.div_add_mod mag (leadBit fmt)
  generalize leadBit fmt = H at *
  rcases hq : mag / H with _ | q
  · exact ⟨0, mag, by omega, by rw [hq] at hdiv; omega, .inl rfl⟩
  · refine ⟨q, H + mag % H, ?_, by omega, .inr (by omega)⟩
    rw [hq, Nat.mul_succ, Nat.mul_comm] at hdiv
    omega

theorem gridOf_strictMono (fmt : Format) : StrictMono (gridOf fmt) := by
  refine strictMono_nat_of_lt_succ fun mag => ?_
  obtain ⟨q, r, rfl, hr, hq⟩ := exists_scaled fmt mag
  rw [Nat.add_assoc, gridOf_scaled hr.le hq, gridOf_scaled hr (hq.imp_right Nat.le_succ_of_le)]
  exact Nat.mul_lt_mul_of_pos_right r.lt_succ_self (by positivity)

/-- In the normal range the next binade holds the doubled values. -/
theorem gridOf_add_leadBit {fmt : Format} {mag : Nat} (h : leadBit fmt ≤ mag) :
    gridOf fmt (mag + leadBit fmt) = 2 * gridOf fmt mag := by
  obtain ⟨q, r, rfl, hr, hq⟩ := exists_scaled fmt mag
  have hnormal : leadBit fmt ≤ r := hq.elim (fun hq => by simpa [hq] using h) id
  rw [show q * leadBit fmt + r + leadBit fmt = (q + 1) * leadBit fmt + r by ring, gridOf_scaled hr.le (.inr hnormal),
    gridOf_scaled hr.le hq, pow_succ]
  ring

theorem cellReal_strictMono (fmt : Format) : StrictMono (cellReal fmt) := fun a b h => by
  have hgrid : (gridOf fmt a : ℝ) < gridOf fmt b := by exact_mod_cast gridOf_strictMono fmt h
  unfold cellReal
  gcongr

theorem cellReal_nonneg (fmt : Format) (mag : Nat) : 0 ≤ cellReal fmt mag := by unfold cellReal; positivity

@[simp] theorem cellReal_zero (fmt : Format) : cellReal fmt 0 = 0 := by
  have hgrid : gridOf fmt 0 = 0 := by cases fmt <;> rfl
  rw [cellReal, hgrid, Nat.cast_zero, zero_div]

theorem cellReal_add_leadBit {fmt : Format} {mag : Nat} (h : leadBit fmt ≤ mag) :
    cellReal fmt (mag + leadBit fmt) = 2 * cellReal fmt mag := by
  rw [cellReal, gridOf_add_leadBit h, cellReal]
  push_cast
  ring

theorem cellReal_oneBits (fmt : Format) : cellReal fmt (oneBits fmt).toNat = 1 := by
  have hgrid : gridOf fmt (oneBits fmt).toNat = 2 ^ gridScale fmt := by cases fmt <;> decide +kernel
  rw [cellReal, hgrid]
  push_cast
  exact div_self (by positivity)

/-- The value past `ONE` is 2^-(p-1) above it. -/
theorem cellReal_oneBits_succ (fmt : Format) :
    cellReal fmt ((oneBits fmt).toNat + 1) = 1 + 1 / 2 ^ (precision fmt - 1) := by
  have hgrid : gridOf fmt ((oneBits fmt).toNat + 1) * leadBit fmt = 2 ^ gridScale fmt * (leadBit fmt + 1) := by
    cases fmt <;> decide +kernel
  have hreal : (gridOf fmt ((oneBits fmt).toNat + 1) : ℝ) * 2 ^ (precision fmt - 1)
      = 2 ^ gridScale fmt * (2 ^ (precision fmt - 1) + 1) := by exact_mod_cast hgrid
  rw [cellReal]
  field_simp
  linarith

/-- A value of at least 2^-31 lies far above the subnormals. -/
theorem four_mul_leadBit_le {fmt : Format} {mag : Nat} (h : 1 / 2 ^ 31 ≤ cellReal fmt mag) :
    4 * leadBit fmt ≤ mag := by
  refine (cellReal_strictMono fmt).le_iff_le.mp (le_trans ?_ h)
  have hgrid : gridOf fmt (4 * leadBit fmt) * 2 ^ 31 ≤ 2 ^ gridScale fmt := by cases fmt <;> decide +kernel
  have hreal : (gridOf fmt (4 * leadBit fmt) : ℝ) * 2 ^ 31 ≤ 2 ^ gridScale fmt := by exact_mod_cast hgrid
  rw [cellReal, div_le_div_iff₀ (by positivity) (by positivity)]
  linarith

/-! ### Rounding to nearest (46_numerics.md R266) -/

theorem roundHalfEven_bounds (m t : Nat) : m / 2 ^ t ≤ roundHalfEven m t ∧ roundHalfEven m t ≤ m / 2 ^ t + 1 := by
  simp only [roundHalfEven]
  split <;> omega

theorem roundHalfEven_error (m t : Nat) : |(roundHalfEven m t : ℤ) * 2 ^ t - m| * 2 ≤ 2 ^ t := by
  have hdiv : ((m / 2 ^ t : ℕ) : ℤ) * 2 ^ t + ((m % 2 ^ t : ℕ) : ℤ) = m := by
    exact_mod_cast Nat.div_add_mod' m (2 ^ t)
  have hmod : m % 2 ^ t < 2 ^ t := Nat.mod_lt m (Nat.two_pow_pos t)
  have hcast : ((2 ^ t : ℕ) : ℤ) = 2 ^ t := by push_cast; rfl
  rw [← hdiv, ← hcast]
  simp only [roundHalfEven]
  split
  · rw [Nat.cast_succ, add_one_mul, add_sub_add_left_eq_sub, abs_of_nonneg] <;> omega
  · rw [sub_add_cancel_left, abs_neg, abs_of_nonneg] <;> omega

/-- No multiple of 2^`t` is nearer than the rounded one. -/
theorem roundHalfEven_nearest (m t : Nat) (n : ℤ) : |(roundHalfEven m t : ℤ) * 2 ^ t - m| ≤ |n * 2 ^ t - m| := by
  have herr := roundHalfEven_error m t
  generalize (roundHalfEven m t : ℤ) = r at *
  rcases eq_or_ne n r with rfl | hne
  · exact le_rfl
  · have hpos : (0 : ℤ) < 2 ^ t := by positivity
    have hgap : 2 ^ t ≤ |n * 2 ^ t - r * 2 ^ t| := by
      rw [← sub_mul, abs_mul, abs_of_pos hpos]
      exact le_mul_of_one_le_left hpos.le (Int.one_le_abs (sub_ne_zero.mpr hne))
    have htri := abs_sub_le (n * 2 ^ t) (m : ℤ) (r * 2 ^ t)
    rw [abs_sub_comm (m : ℤ)] at htri
    linarith

theorem two_pow_bitCount_sub_one_le {k : Nat} (h : k ≠ 0) : 2 ^ (bitCount k - 1) ≤ k := by
  rw [bitCount, if_neg h, Nat.add_sub_cancel]
  exact Nat.log2_self_le h

/-- What is rounded to a format before the cut at infinity: a significand in units of 2^`q`, the least unit that leaves
at most p bits. -/
theorem roundMagnitude_scaled (fmt : Format) (m sh : Nat) : ∃ q,
    roundMagnitude fmt m sh = min (q * leadBit fmt + roundHalfEven m (sh + q)) (infMagnitude fmt)
      ∧ roundHalfEven m (sh + q) ≤ 2 * leadBit fmt ∧ (q = 0 ∨ leadBit fmt * 2 ^ (sh + q) ≤ m) := by
  have hp : precision fmt - 1 + 1 = precision fmt := by cases fmt <;> rfl
  refine ⟨bitCount (m / 2 ^ sh) - precision fmt, rfl, (roundHalfEven_bounds ..).2.trans ?_, ?_⟩
  · rw [Nat.succ_le_iff, pow_add, ← Nat.div_div_eq_div_mul, Nat.div_lt_iff_lt_mul (by positivity), ← pow_succ', hp,
      ← pow_add]
    exact (Scope.lt_two_pow_bitCount _).trans_le (Nat.pow_le_pow_right (by decide) (by omega))
  · rcases Nat.eq_zero_or_pos (bitCount (m / 2 ^ sh) - precision fmt) with hq | hq
    · exact .inl hq
    · have hne : m / 2 ^ sh ≠ 0 := fun h0 => by simp [h0, bitCount] at hq
      have hlow := two_pow_bitCount_sub_one_le hne
      rw [show bitCount (m / 2 ^ sh) - 1 = precision fmt - 1 + (bitCount (m / 2 ^ sh) - precision fmt) by omega,
        Nat.le_div_iff_mul_le (by positivity)] at hlow
      refine .inr (le_of_eq_of_le ?_ hlow)
      ring

/-- Before the cut at infinity, no value of the grid is nearer than the rounded one. -/
theorem roundingError_scaled_le {fmt : Format} {m sh q : Nat} (hle : roundHalfEven m (sh + q) ≤ 2 * leadBit fmt)
    (hq : q = 0 ∨ leadBit fmt * 2 ^ (sh + q) ≤ m) (c : Nat) :
    roundingError fmt m sh (q * leadBit fmt + roundHalfEven m (sh + q)) ≤ roundingError fmt m sh c := by
  have hlead : q = 0 ∨ leadBit fmt ≤ roundHalfEven m (sh + q) := hq.imp_right fun h =>
    ((Nat.le_div_iff_mul_le (by positivity)).mpr h).trans (roundHalfEven_bounds ..).1
  have hnear := roundHalfEven_nearest m (sh + q)
  have hscale : ∀ n : Nat, ((n * 2 ^ q * 2 ^ sh : Nat) : ℤ) = (n : ℤ) * 2 ^ (sh + q) := fun n => by
    push_cast; ring
  unfold roundingError
  rw [← Int.ofNat_le, Int.natCast_natAbs, Int.natCast_natAbs, gridOf_scaled hle hlead, hscale]
  obtain ⟨q', r, rfl, hr, hq'⟩ := exists_scaled fmt c
  rw [gridOf_scaled hr.le hq']
  rcases Nat.lt_or_ge q' q with hlt | hge
  · have hm := hq.resolve_left (by omega)
    have hbelow : r * 2 ^ q' * 2 ^ sh ≤ leadBit fmt * 2 ^ (sh + q) := by
      calc r * 2 ^ q' * 2 ^ sh ≤ 2 * leadBit fmt * 2 ^ q' * 2 ^ sh := by gcongr
        _ = leadBit fmt * 2 ^ (sh + (q' + 1)) := by ring
        _ ≤ leadBit fmt * 2 ^ (sh + q) := by gcongr <;> omega
    refine (hnear (leadBit fmt)).trans ?_
    have hm' : ((leadBit fmt * 2 ^ (sh + q) : ℕ) : ℤ) ≤ m := by exact_mod_cast hm
    have hbelow' : ((r * 2 ^ q' * 2 ^ sh : ℕ) : ℤ) ≤ ((leadBit fmt * 2 ^ (sh + q) : ℕ) : ℤ) := by
      exact_mod_cast hbelow
    push_cast at hm' hbelow' ⊢
    rw [abs_of_nonpos (by linarith), abs_of_nonpos (by linarith)]
    linarith
  · obtain ⟨d, rfl⟩ := Nat.exists_eq_add_of_le hge
    rw [show r * 2 ^ (q + d) * 2 ^ sh = r * 2 ^ d * 2 ^ q * 2 ^ sh by ring, hscale]
    exact hnear _

/-- The rounded magnitude is a nearest one (46_numerics.md R266). -/
theorem roundMagnitude_nearest (fmt : Format) (m sh : Nat) {c : Nat} (hc : c ≤ infMagnitude fmt) :
    roundingError fmt m sh (roundMagnitude fmt m sh) ≤ roundingError fmt m sh c := by
  obtain ⟨q, hround, hle, hq⟩ := roundMagnitude_scaled fmt m sh
  have hnear := roundingError_scaled_le hle hq
  rw [hround]
  generalize q * leadBit fmt + roundHalfEven m (sh + q) = x at *
  rcases Nat.le_total x (infMagnitude fmt) with hx | hx
  · rw [Nat.min_eq_left hx]
    exact hnear c
  · rw [Nat.min_eq_right hx]
    have hgrid := gridOf_strictMono fmt
    have hbelow : gridOf fmt c * 2 ^ sh ≤ gridOf fmt (infMagnitude fmt) * 2 ^ sh :=
      Nat.mul_le_mul_right _ (hgrid.monotone hc)
    rcases hx.eq_or_lt with rfl | hlt
    · exact hnear c
    · have habove : gridOf fmt (infMagnitude fmt) * 2 ^ sh < gridOf fmt x * 2 ^ sh :=
        Nat.mul_lt_mul_of_pos_right (hgrid hlt) (by positivity)
      have hinf := hnear (infMagnitude fmt)
      unfold roundingError at *
      omega

/-- A value of the grid rounds to itself. -/
theorem roundMagnitude_gridOf {fmt : Format} {c : Nat} (sh : Nat) (hc : c ≤ infMagnitude fmt) :
    roundMagnitude fmt (gridOf fmt c * 2 ^ sh) sh = c := by
  have hself : roundingError fmt (gridOf fmt c * 2 ^ sh) sh c = 0 := by simp [roundingError]
  have hnear := roundMagnitude_nearest fmt (gridOf fmt c * 2 ^ sh) sh hc
  rw [hself, Nat.le_zero, roundingError, Int.natAbs_eq_zero, sub_eq_zero, Int.natCast_inj] at hnear
  exact (gridOf_strictMono fmt).injective (Nat.eq_of_mul_eq_mul_right (by positivity) hnear)

/-! ### A nearest value is within one unit in the last place (40_table_cache.md R123 P3) -/

/-- No finite value of the format is nearer to `y`. -/
def isNearest (fmt : Format) (y : ℝ) (mag : Nat) : Prop :=
  ∀ c < infMagnitude fmt, |cellReal fmt mag - y| ≤ |cellReal fmt c - y|

theorem isNearest_of_isRounded {fmt : Format} {y : ℝ} {b : CellBits} (h : isRounded fmt y b) :
    isNearest fmt y b.toNat := fun c hc => (h.2 c hc).1

/-- The distances of the integers are those of the real numbers, in units of the grid. -/
theorem cast_roundingError (fmt : Format) (m sh c : Nat) : (roundingError fmt m sh c : ℝ)
    = |cellReal fmt c - (m : ℝ) / 2 ^ sh / 2 ^ gridScale fmt| * (2 ^ sh * 2 ^ gridScale fmt) := by
  have hunits : (0 : ℝ) < 2 ^ sh * 2 ^ gridScale fmt := by positivity
  rw [roundingError, Nat.cast_natAbs, Int.cast_abs, ← abs_of_pos hunits, ← abs_mul, cellReal]
  push_cast
  congr 1
  field_simp

theorem isNearest_roundMagnitude (fmt : Format) (m sh : Nat) :
    isNearest fmt ((m : ℝ) / 2 ^ sh / 2 ^ gridScale fmt) (roundMagnitude fmt m sh) := by
  intro c hc
  have hle : (roundingError fmt m sh (roundMagnitude fmt m sh) : ℝ) ≤ roundingError fmt m sh c := by
    exact_mod_cast roundMagnitude_nearest fmt m sh hc.le
  rw [cast_roundingError, cast_roundingError] at hle
  exact le_of_mul_le_mul_right hle (by positivity)

/-- The values of a binade from 2^-31 to 1 are the multiples of its unit in the last place. -/
theorem exists_cellReal_eq {fmt : Format} {k : ℤ} (hlo : -31 ≤ k) (hhi : k ≤ 0) {n : Nat} (hn : leadBit fmt ≤ n)
    (hn' : n ≤ 2 * leadBit fmt) :
    ∃ c < infMagnitude fmt, cellReal fmt c = n * (2 : ℝ) ^ (k - ((precision fmt : ℤ) - 1)) := by
  have hfmt : (precision fmt : ℤ) - 1 + 31 ≤ gridScale fmt ∧ 1 ≤ precision fmt
      ∧ (gridScale fmt - (precision fmt - 1) + 2) * leadBit fmt < infMagnitude fmt := by cases fmt <;> decide
  obtain ⟨hscale, hp, hinf⟩ := hfmt
  obtain ⟨q, hq⟩ : ∃ q : ℕ, (q : ℤ) = k - ((precision fmt : ℤ) - 1) + gridScale fmt :=
    ⟨_, Int.toNat_of_nonneg (by omega)⟩
  refine ⟨q * leadBit fmt + n, ?_, ?_⟩
  · calc q * leadBit fmt + n ≤ (q + 2) * leadBit fmt := by rw [add_mul]; omega
      _ ≤ (gridScale fmt - (precision fmt - 1) + 2) * leadBit fmt := Nat.mul_le_mul_right _ (by omega)
      _ < infMagnitude fmt := hinf
  · rw [cellReal, gridOf_scaled hn' (.inr hn), show k - ((precision fmt : ℤ) - 1) = q - gridScale fmt by omega,
      zpow_sub₀ (by norm_num), zpow_natCast, zpow_natCast]
    push_cast
    ring

/-- A power of two is the first value of its binade. -/
theorem leadBit_mul_unit (fmt : Format) (k : ℤ) :
    (leadBit fmt : ℝ) * 2 ^ (k - ((precision fmt : ℤ) - 1)) = 2 ^ k := by
  have hp : ((precision fmt - 1 : ℕ) : ℤ) = (precision fmt : ℤ) - 1 := by cases fmt <;> rfl
  rw [leadBit, Nat.cast_pow, Nat.cast_ofNat, ← zpow_natCast, ← zpow_add₀ (by norm_num), hp, add_sub_cancel]

/-- The binade of a number from 2^-31 up to 2, in units in the last place. -/
theorem binade_bounds {fmt : Format} {y : ℝ} (hlo : 1 / 2 ^ 31 ≤ y) (hhi : y < 2) :
    -31 ≤ Int.log 2 y ∧ Int.log 2 y ≤ 0 ∧ leadBit fmt * ulp fmt y ≤ y ∧ y < 2 * leadBit fmt * ulp fmt y := by
  have hy : 0 < y := lt_of_lt_of_le (by positivity) hlo
  have hlead : (leadBit fmt : ℝ) * ulp fmt y = 2 ^ Int.log 2 y := leadBit_mul_unit fmt _
  have hlow := Int.zpow_log_le_self (b := 2) (by norm_num) hy
  have hhigh := Int.lt_zpow_succ_log_self (b := 2) (by norm_num) y
  push_cast at hlow hhigh
  refine ⟨(Int.zpow_le_iff_le_log (by norm_num) hy).mp ?_, Int.lt_add_one_iff.mp
    ((Int.lt_zpow_iff_log_lt (by norm_num) hy).mp ?_), by rwa [hlead], ?_⟩
  · rw [zpow_neg]; norm_num at hlo ⊢; exact hlo
  · norm_num; exact hhi
  · rw [mul_assoc, hlead, ← zpow_one_add₀ (by norm_num), add_comm]
    exact hhigh

/-- Some value lies within half a unit in the last place. -/
theorem exists_cellReal_near {fmt : Format} {y : ℝ} (hlo : 1 / 2 ^ 31 ≤ y) (hhi : y < 2) :
    ∃ c < infMagnitude fmt, |cellReal fmt c - y| ≤ ulp fmt y / 2 := by
  obtain ⟨hk, hk', hlow, hhigh⟩ := binade_bounds (fmt := fmt) hlo hhi
  have hu : 0 < ulp fmt y := by unfold ulp; positivity
  rw [← le_div_iff₀ hu] at hlow
  rw [← div_lt_iff₀ hu] at hhigh
  have hfloor := Nat.floor_le (a := y / ulp fmt y + 1 / 2) (by have := leadBit_pos fmt; positivity)
  have hfloor' := Nat.lt_floor_add_one (y / ulp fmt y + 1 / 2)
  have hn : leadBit fmt ≤ ⌊y / ulp fmt y + 1 / 2⌋₊ := Nat.le_floor (by linarith)
  generalize ⌊y / ulp fmt y + 1 / 2⌋₊ = n at *
  have hn' : n ≤ 2 * leadBit fmt := Nat.lt_succ_iff.mp (by
    rw [← Nat.cast_lt (α := ℝ)]; push_cast at hhigh ⊢; linarith)
  obtain ⟨c, hc, hval⟩ := exists_cellReal_eq hk hk' hn hn'
  have hval : cellReal fmt c = n * ulp fmt y := hval
  refine ⟨c, hc, ?_⟩
  have hclose : |(n : ℝ) - y / ulp fmt y| ≤ 1 / 2 := abs_le.mpr ⟨by linarith, by linarith⟩
  calc |cellReal fmt c - y| = |(n : ℝ) - y / ulp fmt y| * ulp fmt y := by
        rw [hval, ← abs_of_pos hu, ← abs_mul, abs_of_pos hu, sub_mul, div_mul_cancel₀ _ hu.ne']
    _ ≤ 1 / 2 * ulp fmt y := by gcongr
    _ = ulp fmt y / 2 := by ring

/-- A nearest value of a number up to 1, or hardly above, is at most `ONE`. -/
theorem le_oneBits_of_isNearest {fmt : Format} {y : ℝ} {mag : Nat} (hy : y ≤ 1 + 1 / 2 ^ 200)
    (h : isNearest fmt y mag) : mag ≤ (oneBits fmt).toNat := by
  by_contra hgt
  have hnear := h _ (Scope.oneBits_lt_infMagnitude fmt)
  have hnext := (cellReal_strictMono fmt).monotone (Nat.succ_le_of_lt (Nat.lt_of_not_le hgt))
  have hgap : (1 : ℝ) / 2 ^ 52 ≤ 1 / 2 ^ (precision fmt - 1) := by cases fmt <;> norm_num [precision]
  rw [Nat.succ_eq_add_one, cellReal_oneBits_succ] at hnext
  rw [cellReal_oneBits] at hnear
  have hsmall : (1 : ℝ) / 2 ^ 200 + 1 / 2 ^ 200 < 1 / 2 ^ 52 := by norm_num
  have hfar := (le_abs_self _).trans hnear
  rcases le_total y 1 with h1 | h1
  · rw [abs_of_nonneg (by linarith)] at hfar
    linarith [show (0 : ℝ) < 1 / 2 ^ 52 by norm_num]
  · rw [abs_of_nonpos (by linarith)] at hfar
    linarith

theorem le_ulp {fmt : Format} {w : ℝ} {j : ℤ} (h : (2 : ℝ) ^ j ≤ w) :
    (2 : ℝ) ^ (j - ((precision fmt : ℤ) - 1)) ≤ ulp fmt w := by
  have hw : 0 < w := lt_of_lt_of_le (by positivity) h
  have hlog : j ≤ Int.log 2 w := (Int.zpow_le_iff_le_log (by norm_num) hw).mp (by exact_mod_cast h)
  exact zpow_le_zpow_right₀ (by norm_num) (by omega)

/-- The unit halves at most once down to the next binade. -/
theorem half_ulp_le {fmt : Format} {y w : ℝ} (h : (2 : ℝ) ^ (Int.log 2 y - 1) ≤ w) : ulp fmt y / 2 ≤ ulp fmt w := by
  refine le_of_eq_of_le ?_ (le_ulp h)
  rw [ulp, sub_right_comm, zpow_sub_one₀ (by norm_num), div_eq_mul_inv]

theorem ulp_pos (fmt : Format) (y : ℝ) : 0 < ulp fmt y := by unfold ulp; positivity

/-- A nearest value has the property P3, with 2^-200 to spare: half a unit is left, or the number is next to the power
of two below it, and so is the value. -/
theorem isClearlyWithinUlp_of_isNearest {fmt : Format} {y : ℝ} {b : CellBits} (hlo : 1 / 2 ^ 31 ≤ y)
    (hhi : y ≤ 1 + 1 / 2 ^ 200) (h : isNearest fmt y b.toNat) : isClearlyWithinUlp fmt y b := by
  refine ⟨le_oneBits_of_isNearest hhi h, fun z w hz hw => ?_⟩
  have hy2 : y < 2 := hhi.trans_lt (by norm_num)
  obtain ⟨hk, hk', -, -⟩ := binade_bounds (fmt := fmt) hlo hy2
  have hy : 0 < y := lt_of_lt_of_le (by positivity) hlo
  have hlow := Int.zpow_log_le_self (b := 2) (by norm_num) hy
  push_cast at hlow
  have htri := abs_sub_le (cellReal fmt b.toNat) y z
  rw [abs_sub_comm y z] at htri
  have hp : (precision fmt : ℤ) - 1 ≤ 52 := by cases fmt <;> decide
  have hsmall : 4 * (1 / 2 ^ 200) ≤ ulp fmt y :=
    le_trans (by norm_num) (zpow_le_zpow_right₀ (show (1 : ℝ) ≤ 2 by norm_num) (show -83 ≤ _ by omega))
  rcases le_or_gt ((2 : ℝ) ^ Int.log 2 y) w with hwk | hwk
  · obtain ⟨c, hc, hnear⟩ := exists_cellReal_near (fmt := fmt) hlo hy2
    have hulp : ulp fmt y ≤ ulp fmt w := le_ulp hwk
    have := h c hc
    linarith
  · obtain ⟨c, hc, hval⟩ := exists_cellReal_eq (fmt := fmt) hk hk' le_rfl (by omega)
    have hnear := h c hc
    rw [hval, leadBit_mul_unit, abs_of_nonpos (sub_nonpos.mpr hlow)] at hnear
    have hwy := neg_le_of_abs_le hw
    have hhalf : (2 : ℝ) ^ (Int.log 2 y - 1) ≤ w := by
      have hpow31 : (2 : ℝ) ^ (-31 : ℤ) ≤ 2 ^ Int.log 2 y := zpow_le_zpow_right₀ (by norm_num) hk
      rw [zpow_sub_one₀ (by norm_num)]
      linarith [show (1 : ℝ) / 2 ^ 200 ≤ 2 ^ (-31 : ℤ) / 2 by norm_num]
    have hulp := half_ulp_le (fmt := fmt) hhalf
    linarith

/-! ### The property P3 of every generator -/

/-- The series is a nearest value of its own fixed-point number, which lies within 2^-200 of the exact cosine. -/
theorem isNearest_seriesCos (fmt : Format) (num d : Nat) :
    isNearest fmt (cosineFixed num d / romUnit) (seriesCos fmt num d).toNat := by
  have hmag : (seriesCos fmt num d).toNat = roundMagnitude fmt (cosineFixed num d * 2 ^ gridScale fmt) romBits := by
    have hinf : infMagnitude fmt < 2 ^ 64 := by cases fmt <;> decide
    exact Nat.mod_eq_of_lt ((Scope.roundMagnitude_le ..).trans_lt hinf)
  have hnear := isNearest_roundMagnitude fmt (cosineFixed num d * 2 ^ gridScale fmt) romBits
  rw [hmag]
  rwa [← romUnit_def, Nat.cast_mul, Nat.cast_pow, Nat.cast_ofNat, mul_div_right_comm,
    mul_div_cancel_right₀ _ (by positivity)] at hnear

theorem isWithinUlp_seriesCos {fmt : Format} {num d : Nat} (h : num < 2 ^ d) (hd : d ≤ 30) :
    isWithinUlp fmt (Real.cos (romAngle num d)) (seriesCos fmt num d) := by
  have hy := cos_romAngle_ge h hd
  have hclose : |(cosineFixed num d : ℝ) / romUnit - Real.cos (romAngle num d)| ≤ 1 / 2 ^ 200 :=
    Scope.abs_div_romUnit_sub_le ((cosineFixed_error h).trans (by
      have : (0 : ℝ) ≤ romSlack := Nat.cast_nonneg _
      linarith))
  obtain ⟨hlow, hhigh⟩ := abs_le.mp hclose
  rw [abs_sub_comm] at hclose
  have hone := Real.cos_le_one (romAngle num d)
  obtain ⟨hle, hulp⟩ := isClearlyWithinUlp_of_isNearest (b := seriesCos fmt num d)
    (by linarith [show (1 : ℝ) / 2 ^ 31 + 1 / 2 ^ 200 ≤ 1 / 2 ^ 30 by norm_num]) (by linarith)
    (isNearest_seriesCos fmt num d)
  exact ⟨hle, hulp _ _ hclose hclose⟩

theorem isWithinUlp_one (fmt : Format) : isWithinUlp fmt 1 (oneBits fmt) := by
  refine ⟨le_rfl, ?_⟩
  rw [cellReal_oneBits, sub_self, abs_zero]
  exact (ulp_pos fmt 1).le

@[simp] theorem romAngle_zero (d : Nat) : romAngle 0 d = 0 := by simp [romAngle]

/-- Listed or from the series, `ROMCOS` has the property P3. -/
theorem isWithinUlp_romCos (p : Params) {num d : Nat} (h : num < 2 ^ d) (hd : d ≤ 30) :
    isWithinUlp p.fmt (Real.cos (romAngle num d)) (romCos p num d) := by
  rcases Nat.eq_zero_or_pos num with rfl | hpos
  · rw [romCos_zero, romAngle_zero, Real.cos_zero]
    exact isWithinUlp_one p.fmt
  · cases hv : romListed p num d with
    | none => rw [romCos_of_unlisted hpos.ne' hv]; exact isWithinUlp_seriesCos h hd
    | some v => rw [romCos_of_listed hpos.ne' hv]; exact isWithinUlp_of_romListed h hd hv

theorem sin_romAngle {num d : Nat} (h : num ≤ 2 ^ d) :
    Real.sin (romAngle num d) = Real.cos (romAngle (2 ^ d - num) d) := by
  rw [← Real.cos_pi_div_two_sub]
  congr 1
  unfold romAngle
  rw [Nat.cast_sub h]
  push_cast
  field_simp

theorem isWithinUlp_romSin (p : Params) {num d : Nat} (h : num < 2 ^ d) (hd : d ≤ 30) :
    isWithinUlp p.fmt (Real.sin (romAngle num d)) (romSin p num d) := by
  rcases Nat.eq_zero_or_pos num with rfl | hpos
  · rw [romSin_zero, romAngle_zero, Real.sin_zero]
    exact ⟨Nat.zero_le _, by simpa using (ulp_pos p.fmt 0).le⟩
  · rw [romSin_of_ne_zero p d hpos.ne', sin_romAngle h.le]
    exact isWithinUlp_romCos p (Nat.sub_lt (by positivity) hpos) hd

/-! ### Halving (46_numerics.md R270) -/

theorem numberOf_of_lt {fmt : Format} {b : CellBits} (h : b.toNat < infMagnitude fmt) :
    numberOf fmt b = .finite false (gridOf fmt b.toNat) := by
  have hsign := h.trans (SampleMemory.infMagnitude_lt_sign fmt)
  have hmag : magnitudeOf fmt b = b.toNat := Nat.mod_eq_of_lt hsign
  have hpos : signOf fmt b = false := by simp [signOf, Nat.div_eq_of_lt hsign]
  rw [numberOf, hmag, hpos, if_neg h.not_gt, if_neg h.ne]

/-- Halving a value of the normal range lowers its exponent by one. -/
theorem halfBits_toNat {fmt : Format} {b : CellBits} (hlo : 2 * leadBit fmt ≤ b.toNat)
    (hhi : b.toNat < infMagnitude fmt) : (halfBits fmt b).toNat = b.toNat - leadBit fmt := by
  have hnormal : leadBit fmt ≤ b.toNat - leadBit fmt := by omega
  have hgrid : gridOf fmt b.toNat = 2 * gridOf fmt (b.toNat - leadBit fmt) := by
    rw [← gridOf_add_leadBit hnormal, Nat.sub_add_cancel (by omega)]
  have hscale : gridScale fmt = gridScale fmt - 1 + 1 := by cases fmt <;> rfl
  have hprod : 2 ^ (gridScale fmt - 1) * gridOf fmt b.toNat
      = gridOf fmt (b.toNat - leadBit fmt) * 2 ^ gridScale fmt := by
    rw [hgrid, hscale, pow_succ]
    simp only [Nat.add_sub_cancel]
    ring
  have hhalf : Sample.bits (halfBits fmt b) = pack fmt (false ^^ false) (b.toNat - leadBit fmt) := by
    calc Sample.bits (halfBits fmt b)
        = mulNumbers fmt ((fhalf fmt).number fmt) (numberOf fmt b) :=
          Scope.bits_halfBits (Scope.numberOf_ne_nan hhi.le)
      _ = pack fmt (false ^^ false)
            (roundMagnitude fmt (2 ^ (gridScale fmt - 1) * gridOf fmt b.toNat) (gridScale fmt)) := by
          rw [Scope.fhalf_number, numberOf_of_lt hhi, mulNumbers]
      _ = pack fmt (false ^^ false) (b.toNat - leadBit fmt) := by
          rw [hprod, roundMagnitude_gridOf _ (by omega)]
  rw [Sample.bits.inj hhalf]
  exact Nat.mod_eq_of_lt ((Nat.sub_le ..).trans_lt b.isLt)

theorem cellReal_sub_leadBit {fmt : Format} {mag : Nat} (h : 2 * leadBit fmt ≤ mag) :
    cellReal fmt (mag - leadBit fmt) = cellReal fmt mag / 2 := by
  have hdouble := cellReal_add_leadBit (fmt := fmt) (mag := mag - leadBit fmt) (by omega)
  rw [Nat.sub_add_cancel (by omega)] at hdouble
  linarith

theorem two_zpow_log_sub_one_le {y : ℝ} (hy : 0 < y) : (2 : ℝ) ^ (Int.log 2 y - 1) ≤ y / 2 := by
  have hlow := Int.zpow_log_le_self (b := 2) (by norm_num) hy
  push_cast at hlow
  rw [zpow_sub_one₀ (by norm_num), ← div_eq_mul_inv]
  gcongr

/-- A value with the property P3 of a number of at least 2^-30 is at least 2^-31. -/
theorem le_cellReal_of_isWithinUlp {fmt : Format} {y : ℝ} {b : CellBits} (hy : 1 / 2 ^ 30 ≤ y)
    (h : isWithinUlp fmt y b) : 1 / 2 ^ 31 ≤ cellReal fmt b.toNat := by
  have hp : 1 ≤ (precision fmt : ℤ) - 1 := by cases fmt <;> decide
  have hulp : ulp fmt y ≤ y / 2 := (zpow_le_zpow_right₀ (by norm_num) (by omega)).trans
    (two_zpow_log_sub_one_le (lt_of_lt_of_le (by positivity) hy))
  have := neg_le_of_abs_le h.2
  linarith [show (1 : ℝ) / 2 ^ 30 / 2 = 1 / 2 ^ 31 by norm_num]

theorem isWithinUlp_halfBits {fmt : Format} {y : ℝ} {b : CellBits} (hy : 1 / 2 ^ 30 ≤ y) (h : isWithinUlp fmt y b) :
    isWithinUlp fmt (y / 2) (halfBits fmt b) := by
  have hlarge := four_mul_leadBit_le (le_cellReal_of_isWithinUlp hy h)
  obtain ⟨hone, hclose⟩ := h
  have hhalf := halfBits_toNat (fmt := fmt) (by omega) (hone.trans_lt (Scope.oneBits_lt_infMagnitude fmt))
  refine ⟨by omega, ?_⟩
  have hulp := half_ulp_le (fmt := fmt) (two_zpow_log_sub_one_le (lt_of_lt_of_le (by positivity) hy))
  rw [hhalf, cellReal_sub_leadBit (by omega), ← sub_div, abs_div, abs_two]
  linarith

/-- The generator has the property P3 at every argument, whatever its parameters list. -/
theorem romWithinUlp_of_params (p : Params) : romWithinUlp p := fun _ _ h hd =>
  ⟨isWithinUlp_romCos p h hd, isWithinUlp_romSin p h hd,
    isWithinUlp_halfBits (cos_romAngle_ge h hd) (isWithinUlp_romCos p h hd)⟩

/-! ### Correct rounding at the arguments with up to 10 fraction bits (R122) -/

/-- `y` lies strictly between the midpoints of `mag` and its two neighbours on the grid. -/
def betweenMidpoints (fmt : Format) (y : ℝ) (mag : Nat) : Prop :=
  cellReal fmt (mag - 1) + cellReal fmt mag < 2 * y ∧ 2 * y < cellReal fmt mag + cellReal fmt (mag + 1)

/-- Every other value is further away. -/
theorem abs_sub_lt_of_betweenMidpoints {fmt : Format} {y : ℝ} {mag c : Nat} (h : betweenMidpoints fmt y mag)
    (hc : c ≠ mag) : |cellReal fmt mag - y| < |cellReal fmt c - y| := by
  have hmono := cellReal_strictMono fmt
  obtain ⟨hlow, hhigh⟩ := h
  rcases Nat.lt_or_gt_of_ne hc with hlt | hgt
  · have hc' := hmono.monotone (Nat.le_sub_one_of_lt hlt)
    have hcm := hmono hlt
    refine lt_of_lt_of_le (abs_lt.mpr ⟨?_, ?_⟩) (neg_le_abs _) <;> linarith
  · have hc' := hmono.monotone (Nat.succ_le_of_lt hgt)
    have hcm := hmono hgt
    rw [Nat.succ_eq_add_one] at hc'
    refine lt_of_lt_of_le (abs_lt.mpr ⟨?_, ?_⟩) (le_abs_self _) <;> linarith

theorem le_oneBits_of_betweenMidpoints {fmt : Format} {y : ℝ} {mag : Nat} (hy : y ≤ 1)
    (h : betweenMidpoints fmt y mag) : mag ≤ (oneBits fmt).toNat := by
  by_contra hgt
  have hone := (cellReal_strictMono fmt).monotone (show (oneBits fmt).toNat ≤ mag - 1 by omega)
  have hnext := (cellReal_strictMono fmt).monotone (Nat.sub_le mag 1)
  rw [cellReal_oneBits] at hone
  linarith [h.1]

theorem isRounded_of_betweenMidpoints {fmt : Format} {y : ℝ} {b : CellBits} (hy : y ≤ 1)
    (h : betweenMidpoints fmt y b.toNat) : isRounded fmt y b := by
  refine ⟨(le_oneBits_of_betweenMidpoints hy h).trans_lt (Scope.oneBits_lt_infMagnitude fmt), fun c _ => ?_⟩
  rcases eq_or_ne c b.toNat with rfl | hne
  · exact ⟨le_rfl, fun _ => .inl rfl⟩
  · have hlt := abs_sub_lt_of_betweenMidpoints h hne
    exact ⟨hlt.le, fun heq => absurd heq hlt.ne⟩

/-- A nearest value is the one whose midpoints lie around. -/
theorem eq_of_isNearest {fmt : Format} {y : ℝ} {mag c : Nat} (h : betweenMidpoints fmt y mag)
    (hm : mag < infMagnitude fmt) (hc : isNearest fmt y c) : c = mag := by
  by_contra hne
  exact absurd (hc mag hm) (not_le.mpr (abs_sub_lt_of_betweenMidpoints h hne))

theorem betweenMidpoints_one (fmt : Format) : betweenMidpoints fmt 1 (oneBits fmt).toNat := by
  have hmono := cellReal_strictMono fmt
  have hpos : 0 < (oneBits fmt).toNat := by cases fmt <;> decide
  have hlow := hmono (Nat.sub_lt hpos one_pos)
  have hhigh := hmono (oneBits fmt).toNat.lt_succ_self
  rw [cellReal_oneBits] at hlow hhigh
  constructor <;> rw [cellReal_oneBits] <;> linarith

/-- Halving a value of the normal range halves its neighbours. -/
theorem betweenMidpoints_halfBits {fmt : Format} {y : ℝ} {b : CellBits} (hlo : 1 / 2 ^ 31 ≤ y) (hy : y ≤ 1)
    (h : betweenMidpoints fmt y b.toNat) : betweenMidpoints fmt (y / 2) (halfBits fmt b).toNat := by
  have hinf := (le_oneBits_of_betweenMidpoints hy h).trans_lt (Scope.oneBits_lt_infMagnitude fmt)
  obtain ⟨hlow, hhigh⟩ := h
  have hnext := cellReal_strictMono fmt b.toNat.lt_succ_self
  have hlarge : 4 * leadBit fmt ≤ b.toNat + 1 := four_mul_leadBit_le (by linarith)
  have hpos := leadBit_pos fmt
  rw [betweenMidpoints, halfBits_toNat (by omega) hinf, Nat.sub_right_comm,
    show b.toNat - leadBit fmt + 1 = b.toNat + 1 - leadBit fmt by omega, cellReal_sub_leadBit (by omega),
    cellReal_sub_leadBit (by omega), cellReal_sub_leadBit (by omega)]
  constructor <;> linarith

/-- The value the cosine `c`/2^256 rounds to: `c` without the bits below a significand, with the exponent put in front.
Its number of bits is counted from 2^240 on, to spare the kernel the steps of a longer count. -/
def roundedGuess (fmt : Format) (c : Nat) : Nat :=
  let q := bitCount (c / 2 ^ 240) + 240 - precision fmt
  (q + gridScale fmt - romBits) * leadBit fmt + roundHalfEven c q

/-- `mag` is a value up to `ONE` with its midpoints on either side of the whole slack around `c`/2^256. -/
def clearOfMidpoints (fmt : Format) (c mag : Nat) : Bool :=
  decide (mag ≤ (oneBits fmt).toNat
    ∧ (gridOf fmt (mag - 1) + gridOf fmt mag) * 2 ^ romBits + 2 * romSlack * 2 ^ gridScale fmt
      < 2 * c * 2 ^ gridScale fmt
    ∧ 2 * (c + romSlack) * 2 ^ gridScale fmt < (gridOf fmt mag + gridOf fmt (mag + 1)) * 2 ^ romBits)

/-- Both formats have such a value for the cosine at `num`/2^10. -/
def roundsClearly (num : Nat) : Bool :=
  clearOfMidpoints .binary32 (cosineFixed num 10) (roundedGuess .binary32 (cosineFixed num 10))
    && clearOfMidpoints .binary64 (cosineFixed num 10) (roundedGuess .binary64 (cosineFixed num 10))

/-- No cosine at a multiple of 2^-10 lies within the slack of a midpoint of either format. This is a fact about 1023
numbers, found by computing each: nothing is known that keeps a cosine away from a midpoint in general. -/
theorem all_roundsClearly : (List.range' 1 1023).all roundsClearly = true := by decide +kernel

theorem exists_clearOfMidpoints (fmt : Format) {num : Nat} (h0 : 0 < num) (h : num < 2 ^ 10) :
    ∃ mag, clearOfMidpoints fmt (cosineFixed num 10) mag = true := by
  have hnum := List.all_eq_true.mp all_roundsClearly num (List.mem_range'_1.mpr ⟨h0, by omega⟩)
  obtain ⟨h32, h64⟩ := Bool.and_eq_true_iff.mp hnum
  cases fmt with
  | binary32 => exact ⟨_, h32⟩
  | binary64 => exact ⟨_, h64⟩

/-- The midpoints lie around every number that `c`/2^256 may stand for. -/
theorem betweenMidpoints_of_clear {fmt : Format} {c mag : Nat} {y : ℝ} (h : clearOfMidpoints fmt c mag = true)
    (hy : |(c : ℝ) - romUnit * y| ≤ romSlack) : betweenMidpoints fmt y mag := by
  obtain ⟨-, hlow, hhigh⟩ := of_decide_eq_true h
  have hg : (0 : ℝ) < 2 ^ gridScale fmt := by positivity
  have hU := romUnit_pos
  have hcell : ∀ m, (gridOf fmt m : ℝ) = cellReal fmt m * 2 ^ gridScale fmt := fun m =>
    (div_mul_cancel₀ _ hg.ne').symm
  rw [← Nat.cast_lt (α := ℝ)] at hlow hhigh
  push_cast [hcell] at hlow hhigh
  rw [← romUnit_def, ← add_mul, mul_right_comm, ← add_mul, mul_lt_mul_iff_left₀ hg] at hlow
  rw [← romUnit_def, ← add_mul, mul_right_comm _ _ romUnit, mul_lt_mul_iff_left₀ hg] at hhigh
  obtain ⟨herr, herr'⟩ := abs_le.mp hy
  constructor <;> refine lt_of_mul_lt_mul_right ?_ hU.le <;> linarith

theorem betweenMidpoints_romCos {p : Params} (hp : p.rom = []) {num : Nat} (h : num < 2 ^ 10) :
    betweenMidpoints p.fmt (Real.cos (romAngle num 10)) (romCos p num 10).toNat := by
  rcases Nat.eq_zero_or_pos num with rfl | hpos
  · rw [romCos_zero, romAngle_zero, Real.cos_zero]
    exact betweenMidpoints_one p.fmt
  · obtain ⟨mag, hclear⟩ := exists_clearOfMidpoints p.fmt hpos h
    have hself : |(cosineFixed num 10 : ℝ) - romUnit * (cosineFixed num 10 / romUnit)| ≤ romSlack := by
      rw [mul_div_cancel₀ _ romUnit_pos.ne', sub_self, abs_zero]
      exact Nat.cast_nonneg _
    have hinf := (of_decide_eq_true hclear).1.trans_lt (Scope.oneBits_lt_infMagnitude p.fmt)
    rw [romCos_of_unlisted hpos.ne' (romListed_of_rom_nil hp num 10),
      eq_of_isNearest (betweenMidpoints_of_clear hclear hself) hinf (isNearest_seriesCos p.fmt num 10)]
    exact betweenMidpoints_of_clear hclear (cosineFixed_error h)

theorem isRounded_zero (fmt : Format) : isRounded fmt 0 0#64 := by
  have hinf : 0 < infMagnitude fmt := by cases fmt <;> decide
  refine ⟨hinf, fun c _ => ⟨?_, fun _ => .inr rfl⟩⟩
  simp

theorem isRounded_romSin {p : Params} (hp : p.rom = []) {num : Nat} (h : num < 2 ^ 10) :
    isRounded p.fmt (Real.sin (romAngle num 10)) (romSin p num 10) := by
  rcases Nat.eq_zero_or_pos num with rfl | hpos
  · rw [romSin_zero, romAngle_zero, Real.sin_zero]
    exact isRounded_zero p.fmt
  · rw [romSin_of_ne_zero p 10 hpos.ne', sin_romAngle h.le]
    exact isRounded_of_betweenMidpoints (Real.cos_le_one _) (betweenMidpoints_romCos hp (Nat.sub_lt (by decide) hpos))

theorem romAngle_congr {num num' d d' : Nat} (h : num * 2 ^ d' = num' * 2 ^ d) : romAngle num d = romAngle num' d' := by
  have hreal : (num : ℝ) * 2 ^ d' = num' * 2 ^ d := by exact_mod_cast h
  rw [romAngle, romAngle, (div_eq_div_iff (by positivity) (by positivity)).mpr hreal]

/-- A generator that lists nothing is correctly rounded at every argument with up to 10 fraction bits. -/
theorem romRounded_ten {p : Params} (hp : p.rom = []) : romRounded p 10 := by
  intro num d h hd
  have hscaled : num * 2 ^ 10 = num * 2 ^ (10 - d) * 2 ^ d := by rw [Nat.mul_assoc, ← pow_add, Nat.sub_add_cancel hd]
  have hlt : num * 2 ^ (10 - d) < 2 ^ 10 := by
    rw [← Nat.mul_lt_mul_right (a := 2 ^ d) (by positivity), ← hscaled, Nat.mul_comm]
    exact Nat.mul_lt_mul_of_pos_left h (by positivity)
  rw [romHalfCos, Scope.romCos_congr p hscaled, Scope.romSin_congr p hscaled, romAngle_congr hscaled]
  have hcos := betweenMidpoints_romCos hp hlt
  have hone := Real.cos_le_one (romAngle (num * 2 ^ (10 - d)) 10)
  have hmin := cos_romAngle_ge hlt (by decide)
  have hmin' := (show (1 : ℝ) / 2 ^ 31 ≤ 1 / 2 ^ 30 by norm_num).trans hmin
  exact ⟨isRounded_of_betweenMidpoints hone hcos, isRounded_romSin hp hlt,
    isRounded_of_betweenMidpoints (by linarith) (betweenMidpoints_halfBits hmin' hone hcos)⟩

/-- Settles O60: what is nearest is within one unit, and the series is nearest to a number within 2^-200 of the cosine;
up to 10 fraction bits no midpoint comes between the two. -/
theorem everyGeneratorIsWithinOneUlp : Obligations.EveryGeneratorIsWithinOneUlp := by
  refine ⟨romWithinUlp_of_params, fun _ => romRounded_ten, fun fmt y b hlo hhi h => ?_⟩
  exact isClearlyWithinUlp_of_isNearest hlo (hhi.trans (by norm_num)) (isNearest_of_isRounded h)

/-! ### The entries the spec writes out (R124, R125) -/

theorem twRom_zero (p : Params) : twRom p 0 = (oneBits p.fmt, 0#64) := rfl

theorem bitCount_one : bitCount 1 = 1 := by decide

theorem twRom_one (p : Params) : twRom p 1 = (romCos p 1 1, romCos p 1 1) := by
  rw [twRom, brNum, bitCount_one]
  rfl

theorem ctRom_one (p : Params) : ctRom p 1 = halfBits p.fmt (romCos p 1 1) := by
  rw [ctRom, brNum, bitCount_one]
  rfl

/-- cos(π/4) rounded, as 40_table_cache.md R124 gives it. -/
def cosQuarterPi : Format → CellBits
  | .binary32 => 0x3F3504F3#64
  | .binary64 => 0x3FE6A09E667F3BCD#64

theorem romCos_half {p : Params} (hp : p.rom = []) : romCos p 1 1 = cosQuarterPi p.fmt := by
  have hseries : seriesCos p.fmt 1 1 = cosQuarterPi p.fmt := by cases p.fmt <;> decide +kernel
  rw [romCos_of_unlisted one_ne_zero (romListed_of_rom_nil hp 1 1), hseries]

theorem fone_eq (fmt : Format) : fone fmt = .bits (oneBits fmt) := by cases fmt <;> rfl

/-- Settles O34: the first entries are cosines of 0 and π/4; P2 and P4 are how `romCos` and `romSin` are defined. -/
theorem romHasItsNamedValues : Obligations.RomHasItsNamedValues := by
  refine fun p => ⟨fun hp hfmt => ?_, fun hp hfmt => ?_, fun num d => ⟨?_, rfl, fun h0 h => ?_⟩⟩
  · have hct : ctRom p 0 = romCos p 1 1 := rfl
    rw [twRom_zero, twRom_one, hct, ctRom_one, romCos_half hp, hfmt]
    exact ⟨rfl, rfl, rfl, by decide +kernel⟩
  · rw [twRom_zero, twRom_one, romCos_half hp, hfmt]
    exact ⟨rfl, rfl⟩
  · rw [romCos_zero, fone_eq]
  · rw [romSin_of_ne_zero p d (Nat.sub_ne_zero_of_lt h), Nat.sub_sub_self h.le]

end Sys2Proof.Generator
end

section
/-! SUPPORT. The Bit-Reversal Permuter (41_bitrev_permuter.md): the closed form of a table (R141), the points its swap
pairs exchange (R144), and what the permuting stages do to a buffer (R145 to R151). -/

namespace Sys2Proof.Permuter

open Sys2Proof.Machine Sys2Proof.Claims

/-! ### The table `permutation_for` builds (R140, R141) -/

/-- The reversal of a number in two parts is that of the parts, exchanged. -/
theorem rev_add (a b : Nat) {x : Nat} (y : Nat) (hx : x < 2 ^ a) :
    rev (a + b) (x + 2 ^ a * y) = rev b y + 2 ^ b * rev a x := by
  induction a generalizing x with
  | zero =>
    obtain rfl : x = 0 := by simpa using hx
    simp
  | succ a ih =>
    have heven : 2 ^ (a + 1) * y = 2 * (2 ^ a * y) := by ring
    have hhalf : (x + 2 ^ (a + 1) * y) / 2 = x / 2 + 2 ^ a * y := by omega
    have hlow : (x + 2 ^ (a + 1) * y) % 2 = x % 2 := by omega
    rw [Nat.add_right_comm, Scope.rev_succ, hhalf, hlow, ih (by rw [pow_succ] at hx; omega), Scope.rev_succ]
    ring

/-- log2 of the number of seeds of order `o`: `M` = 2^`seedBits o`. -/
def seedBits (o : Nat) : Nat := (o - 1) / 2

theorem seedBits_eq (o : Nat) : seedBits o = (o - 1) / 2 := rfl

/-- The table of order `o` after `d` doublings. -/
def seeds (o d : Nat) : List Nat := (List.range (2 ^ d)).map fun j => rev d j * 2 ^ (o - d)

theorem seeds_eq (o d : Nat) : seeds o d = (List.range (2 ^ d)).map fun j => rev d j * 2 ^ (o - d) := rfl

theorem seeds_zero (o : Nat) : seeds o 0 = [0] := by simp [seeds_eq]

@[simp] theorem seeds_length (o d : Nat) : (seeds o d).length = 2 ^ d := by simp [seeds_eq]

theorem seedLoop_succ (fuel : Nat) (ip : List Nat) (m rest : Nat) : seedLoop (fuel + 1) ip m rest =
    if 4 * m < rest then seedLoop fuel (ip ++ ip.map fun i => i + rest / 2) (2 * m) (rest / 2) else (ip, m, rest) := rfl

/-- One doubling: the seeds there are, and each shifted by half of the remaining length. -/
theorem seeds_succ {o d : Nat} (hd : d < o) :
    seeds o (d + 1) = seeds o d ++ (seeds o d).map fun i => i + 2 ^ (o - d) / 2 := by
  have hrest : 2 ^ (o - d) = 2 ^ (o - (d + 1)) * 2 := by
    rw [← pow_succ]
    congr 1
    omega
  have htop : ∀ {y b : Nat}, y < 2 ^ d → b < 2 → rev (d + 1) (b * 2 ^ d + y) * 2 ^ (o - (d + 1))
      = rev d y * 2 ^ (o - d) + b * (2 ^ (o - d) / 2) := by
    intro y b hy hb
    rw [Scope.rev_succ_top hy hb, hrest, Nat.mul_div_cancel _ two_pos]
    ring
  rw [seeds_eq, pow_succ, Nat.mul_two, List.range_add, List.map_append, seeds_eq, List.map_map, List.map_map]
  congr 1 <;> refine List.map_congr_left fun y hy => ?_
  · simpa using htop (b := 0) (List.mem_range.mp hy) (by decide)
  · simpa using htop (b := 1) (List.mem_range.mp hy) (by decide)

/-- The loop doubles the seeds until their number is 2^`seedBits o`. -/
theorem seedLoop_seeds {fuel o d : Nat} (hd : d ≤ seedBits o) (hfuel : seedBits o ≤ d + fuel) :
    seedLoop fuel (seeds o d) (2 ^ d) (2 ^ (o - d))
      = (seeds o (seedBits o), 2 ^ seedBits o, 2 ^ (o - seedBits o)) := by
  have hbits := seedBits_eq o
  induction fuel generalizing d with
  | zero =>
    obtain rfl : d = seedBits o := by omega
    rfl
  | succ fuel ih =>
    have hmore : 4 * 2 ^ d < 2 ^ (o - d) ↔ d < seedBits o := by
      rw [show 4 * 2 ^ d = 2 ^ (d + 2) by ring, Nat.pow_lt_pow_iff_right (by decide)]
      omega
    rw [seedLoop_succ]
    split
    · next hlt =>
      have hlt' := hmore.mp hlt
      have hdo : d < o := by omega
      have hhalf : 2 ^ (o - d) / 2 = 2 ^ (o - (d + 1)) := by
        rw [show o - d = o - (d + 1) + 1 by omega, pow_succ, Nat.mul_div_cancel _ two_pos]
      rw [← seeds_succ hdo, hhalf, ← pow_succ', ih hlt' (by omega)]
    · next hge =>
      obtain rfl : d = seedBits o := by have := mt hmore.mpr hge; omega
      rfl

theorem seedLoop_start (o : Nat) : seedLoop o [0] 1 (2 ^ o)
    = (seeds o (seedBits o), 2 ^ seedBits o, 2 ^ (o - seedBits o)) := by
  have hbits := seedBits_eq o
  rw [← seedLoop_seeds (fuel := o) (d := 0) (Nat.zero_le _) (by omega), seeds_zero, pow_zero, Nat.sub_zero]

theorem p4Flag_seedBits {o : Nat} (ho : 1 ≤ o) :
    p4Flag (2 ^ seedBits o) (2 ^ (o - seedBits o)) = decide (o % 2 = 0) := by
  have hpow : 4 * 2 ^ seedBits o = 2 ^ (seedBits o + 2) := by ring
  have hbits := seedBits_eq o
  change (4 * 2 ^ seedBits o == 2 ^ (o - seedBits o)) = decide (o % 2 = 0)
  rw [hpow, beq_eq_decide, decide_eq_decide, Nat.pow_right_inj (le_refl 2)]
  omega

theorem buildBr_of_seedLoop {o m rest : Nat} {ip : List Nat} (h : seedLoop o [0] 1 (2 ^ o) = (ip, m, rest)) :
    buildBr o = ⟨o, p4Flag m rest, m, ip⟩ := by
  change BrEntry.mk o (p4Flag (seedLoop o [0] 1 (2 ^ o)).2.1 (seedLoop o [0] 1 (2 ^ o)).2.2)
    (seedLoop o [0] 1 (2 ^ o)).2.1 (seedLoop o [0] 1 (2 ^ o)).1 = _
  rw [h]

/-- 41_bitrev_permuter.md R141. -/
theorem buildBr_eq {o : Nat} (ho : 1 ≤ o) :
    buildBr o = ⟨o, decide (o % 2 = 0), 2 ^ seedBits o, seeds o (seedBits o)⟩ := by
  rw [← p4Flag_seedBits ho, ← buildBr_of_seedLoop (seedLoop_start o)]

theorem buildBr_m {o : Nat} (ho : 1 ≤ o) : (buildBr o).m = 2 ^ seedBits o := by rw [buildBr_eq ho]

theorem two_pow_div_seedCount (o : Nat) : 2 ^ o / 2 ^ seedBits o = 2 ^ (o - seedBits o) :=
  Nat.pow_div (by have := seedBits_eq o; omega) two_pos

theorem seed_buildBr {o k : Nat} (ho : 1 ≤ o) (hk : k < 2 ^ seedBits o) :
    seed (buildBr o) k = rev (seedBits o) k * 2 ^ (o - seedBits o) := by
  change (buildBr o).ip.getD k 0 = _
  simp [buildBr_eq ho, seeds_eq, hk]

/-- Settles O37: the loop keeps the seeds at the reversals of their indices, scaled by the remaining length. -/
theorem builtTableHasTheClosedForm : Obligations.BuiltTableHasTheClosedForm := by
  intro o ho
  have hbits := seedBits_eq o
  rw [buildBr_m ho, log2_two_pow, two_pow_div_seedCount, seedLoop_start]
  refine ⟨rfl, by simp [buildBr_eq ho], fun j => seed_buildBr ho, by simp [buildBr_eq ho], rfl, fun heven => ?_,
    fun hodd => ?_⟩
  · rw [show o - seedBits o = seedBits o + 2 by omega]
    ring
  · rw [show o - seedBits o = seedBits o + 1 by omega]
    ring

/-- Settles O29: `ENSBR` is `permutation_for`, and the table it caches has the closed form. -/
theorem ensureOrderCommandCachesTheTable : Obligations.EnsureOrderCommandCachesTheTable := by
  intro s hv h1 h2
  have hcheck : EngineState.checkOf .ensbr s.inst s.operandN = none :=
    (if_neg (Nat.ne_zero_of_lt h1)).trans (if_neg (Nat.not_lt.mpr h2))
  refine ⟨_, TableCache.exec_cache (i := .ensbr) rfl hcheck, ?_, fun o => ?_⟩
  · change (permutationFor s.operandN s).complete = _
    rw [permutationFor_eq]
    rfl
  · refine (permutationFor_lookup hv h1 h2 o).trans ?_
    split
    · next heq =>
      rw [← heq, buildBr_eq (heq ▸ h1), seeds_eq, ← two_pow_div_seedCount]
      rfl
    · rfl

/-! ### The points of the order h + (w + h) by their three parts -/

/-- A point taken apart: (its low `h` bits, its middle `w` bits, the reversal of its high `h` bits). -/
abbrev Place := Nat × Nat × Nat

/-- The parts are no longer than their fields. -/
def Place.Within (h w : Nat) (t : Place) : Prop := t.1 < 2 ^ h ∧ t.2.1 < 2 ^ w ∧ t.2.2 < 2 ^ h

/-- The point at a place. -/
def Place.toPoint (h w : Nat) (t : Place) : Nat := t.1 + 2 ^ h * (t.2.1 + 2 ^ w * rev h t.2.2)

/-- The place of the reversed point. -/
def Place.mirror (w : Nat) (t : Place) : Place := (t.2.2, rev w t.2.1, t.1)

/-- The place comes before its mirror image: the order in which a pair is listed. -/
def Place.isFirst (w : Nat) (t : Place) : Bool := decide (t.1 < t.2.2 ∨ t.1 = t.2.2 ∧ t.2.1 < rev w t.2.1)

/-- The place of a point. -/
def placeOf (h w p : Nat) : Place := (p % 2 ^ h, p / 2 ^ h % 2 ^ w, rev h (p / 2 ^ h / 2 ^ w))

section Places

variable {h w : Nat} {t u : Place}

theorem toPoint_mk (h w low mid high : Nat) :
    Place.toPoint h w (low, mid, high) = low + 2 ^ h * (mid + 2 ^ w * rev h high) := rfl

theorem mirror_mk (w low mid high : Nat) : Place.mirror w (low, mid, high) = (high, rev w mid, low) := rfl

theorem isFirst_iff : t.isFirst w = true ↔ t.1 < t.2.2 ∨ t.1 = t.2.2 ∧ t.2.1 < rev w t.2.1 := decide_eq_true_iff

theorem Place.Within.mirror (ht : t.Within h w) : (t.mirror w).Within h w :=
  ⟨ht.2.2, rev_lt w t.2.1, ht.1⟩

theorem mirror_mirror (ht : t.Within h w) : (t.mirror w).mirror w = t := by
  obtain ⟨low, mid, high⟩ := t
  obtain ⟨-, hmid, -⟩ := ht
  rw [mirror_mk, mirror_mk, Scope.rev_rev hmid]

theorem add_two_pow_mul_lt {a b x y : Nat} (hx : x < 2 ^ a) (hy : y < 2 ^ b) : x + 2 ^ a * y < 2 ^ (a + b) :=
  calc x + 2 ^ a * y < 2 ^ a * (y + 1) := by rw [Nat.mul_succ]; omega
    _ ≤ 2 ^ (a + b) := by rw [pow_add]; exact Nat.mul_le_mul_left _ hy

theorem toPoint_lt (ht : t.Within h w) : t.toPoint h w < 2 ^ (h + (w + h)) :=
  have ⟨hlow, hmid, _⟩ := ht
  add_two_pow_mul_lt hlow (add_two_pow_mul_lt hmid (rev_lt h t.2.2))

/-- Reversing a point exchanges its outer parts and reverses its middle one. -/
theorem rev_toPoint (ht : t.Within h w) : rev (h + (w + h)) (t.toPoint h w) = (t.mirror w).toPoint h w := by
  obtain ⟨low, mid, high⟩ := t
  obtain ⟨hlow, hmid, hhigh⟩ := ht
  rw [mirror_mk, toPoint_mk, rev_add _ _ _ hlow, rev_add _ _ _ hmid, Scope.rev_rev hhigh, toPoint_mk]
  ring

theorem placeOf_eq (h w p : Nat) :
    placeOf h w p = (p % 2 ^ h, p / 2 ^ h % 2 ^ w, rev h (p / 2 ^ h / 2 ^ w)) := rfl

theorem placeOf_toPoint (ht : t.Within h w) : placeOf h w (t.toPoint h w) = t := by
  obtain ⟨low, mid, high⟩ := t
  obtain ⟨hlow, hmid, hhigh⟩ := ht
  simp only [placeOf_eq, toPoint_mk, Nat.add_mul_mod_self_left, Nat.mod_eq_of_lt hlow,
    Nat.add_mul_div_left _ _ (Nat.two_pow_pos _), Nat.div_eq_of_lt hlow, Nat.zero_add, Nat.mod_eq_of_lt hmid,
    Nat.div_eq_of_lt hmid, Scope.rev_rev hhigh]

theorem placeOf_within {p : Nat} : (placeOf h w p).Within h w :=
  ⟨Nat.mod_lt _ (Nat.two_pow_pos _), Nat.mod_lt _ (Nat.two_pow_pos _), rev_lt _ _⟩

theorem toPoint_placeOf {p : Nat} (hp : p < 2 ^ (h + (w + h))) : (placeOf h w p).toPoint h w = p := by
  have htop : p / 2 ^ h / 2 ^ w < 2 ^ h := by
    rw [Nat.div_div_eq_div_mul, ← pow_add]
    exact Nat.div_lt_of_lt_mul (by rwa [← pow_add, Nat.add_assoc])
  rw [placeOf_eq, toPoint_mk, Scope.rev_rev htop, Nat.mod_add_div, Nat.mod_add_div]

theorem toPoint_inj (ht : t.Within h w) (hu : u.Within h w) (heq : t.toPoint h w = u.toPoint h w) : t = u := by
  rw [← placeOf_toPoint ht, heq, placeOf_toPoint hu]

/-- Of a place and its mirror image one comes first, unless they are the same. -/
theorem isFirst_or_mirror (ht : t.Within h w) :
    t.isFirst w = true ∨ (t.mirror w).isFirst w = true ∨ t.mirror w = t := by
  obtain ⟨low, mid, high⟩ := t
  simp only [isFirst_iff, mirror_mk, Prod.mk.injEq, Scope.rev_rev ht.2.1]
  omega

theorem not_isFirst_mirror (ht : t.Within h w) (hfirst : t.isFirst w = true) : ¬ (t.mirror w).isFirst w = true := by
  obtain ⟨low, mid, high⟩ := t
  simp only [isFirst_iff, mirror_mk, Scope.rev_rev ht.2.1] at hfirst ⊢
  omega

end Places

/-! ### The swap pairs (R143, R144) -/

/-- The places that come before their mirror image, in the order of R143. -/
def firstPlaces (h w : Nat) : List Place :=
  ((List.range (2 ^ h)).flatMap fun k => (List.range (k + 1)).flatMap fun j =>
    (List.range (2 ^ w)).map fun c => (j, c, k)).filter (Place.isFirst w)

theorem firstPlaces_def (h w : Nat) : firstPlaces h w =
    ((List.range (2 ^ h)).flatMap fun k => (List.range (k + 1)).flatMap fun j =>
      (List.range (2 ^ w)).map fun c => (j, c, k)).filter (Place.isFirst w) := rfl

/-- The pair a place gives. -/
def Place.pair (h w : Nat) (t : Place) : Nat × Nat := (t.toPoint h w, (t.mirror w).toPoint h w)

theorem pair_eq (h w : Nat) (t : Place) : t.pair h w = (t.toPoint h w, (t.mirror w).toPoint h w) := rfl

theorem mem_firstPlaces {h w : Nat} {t : Place} : t ∈ firstPlaces h w ↔ t.Within h w ∧ t.isFirst w = true := by
  obtain ⟨low, mid, high⟩ := t
  simp only [firstPlaces_def, List.mem_filter, List.mem_flatMap, List.mem_map, List.mem_range, Prod.mk.injEq,
    isFirst_iff]
  refine and_congr_left fun hfirst => ⟨?_, fun ⟨hlow, hmid, hhigh⟩ => ?_⟩
  · rintro ⟨k, hk, j, hj, c, hc, rfl, rfl, rfl⟩
    exact ⟨by omega, hc, hk⟩
  · exact ⟨high, hhigh, low, by rcases hfirst with hlt | ⟨heq, -⟩ <;> omega, mid, hmid, rfl, rfl, rfl⟩

/-- Lists whose members name the list they are in have no member in common. -/
theorem nodup_flatMap_of_key {α β : Type} {l : List α} {f : α → List β} (key : β → α) (hl : l.Nodup)
    (hf : ∀ x ∈ l, (f x).Nodup) (hkey : ∀ x, ∀ y ∈ f x, key y = x) : (l.flatMap f).Nodup :=
  List.nodup_flatMap.mpr ⟨hf, hl.pairwise_of_forall_ne fun _ _ _ _ hne y hy hy' =>
    hne ((hkey _ y hy).symm.trans (hkey _ y hy'))⟩

theorem firstPlaces_nodup (h w : Nat) : (firstPlaces h w).Nodup := by
  refine List.Nodup.filter _ (nodup_flatMap_of_key (fun t : Place => t.2.2) List.nodup_range (fun k _ => ?_)
    fun k t ht => ?_)
  · refine nodup_flatMap_of_key (fun t : Place => t.1) List.nodup_range (fun j _ => ?_) fun j t ht => ?_
    · exact List.nodup_range.map fun c c' heq => congrArg (fun t : Place => t.2.1) heq
    · obtain ⟨c, -, rfl⟩ := List.mem_map.mp ht
      rfl
  · obtain ⟨j, -, ht⟩ := List.mem_flatMap.mp ht
    obtain ⟨c, -, rfl⟩ := List.mem_map.mp ht
    rfl

/-- Below the diagonal every place comes first; on it, the middle part decides. -/
theorem firstPlaces_eq (h w : Nat) : firstPlaces h w = (List.range (2 ^ h)).flatMap fun k =>
    ((List.range k).flatMap fun j => (List.range (2 ^ w)).map fun c => (j, c, k))
      ++ ((List.range (2 ^ w)).filter fun c => c < rev w c).map fun c => (k, c, k) := by
  rw [firstPlaces_def, List.filter_flatMap]
  refine List.flatMap_congr fun k _ => ?_
  rw [List.range_succ, List.flatMap_append, List.filter_append, List.flatMap_singleton, List.filter_map]
  congr 1
  · refine List.filter_eq_self.mpr fun t ht => ?_
    simp only [List.mem_flatMap, List.mem_map, List.mem_range] at ht
    obtain ⟨j, hj, c, -, rfl⟩ := ht
    exact isFirst_iff.mpr (.inl hj)
  · refine congrArg _ (List.filter_congr fun c _ => Bool.eq_iff_iff.mpr (isFirst_iff.trans ?_))
    simp

/-- Of one middle bit, no value comes before its reversal. -/
theorem firstMid_one : ((List.range (2 ^ 1)).filter fun c => c < rev 1 c) = [] := by decide

/-- Of two middle bits, 1 alone comes before its reversal, 2. -/
theorem firstMid_two : ((List.range (2 ^ 2)).filter fun c => c < rev 2 c) = [1] := by decide

/-- The number of middle bits of order `o`: two for an even order, one for an odd one. -/
def midBits (o : Nat) : Nat := o - 2 * seedBits o

theorem order_eq (o : Nat) : o = seedBits o + (midBits o + seedBits o) := by
  have hbits := seedBits_eq o
  change o = seedBits o + (o - 2 * seedBits o + seedBits o)
  omega

theorem midBits_eq {o : Nat} (ho : 1 ≤ o) : midBits o = if o % 2 = 0 then 2 else 1 := by
  have hbits := seedBits_eq o
  have horder := order_eq o
  split <;> omega

theorem twoWayGroup_def (e : BrEntry) (k j : Nat) : twoWayGroup e k j
    = [(j + seed e k, k + seed e j), (j + seed e k + e.m, k + seed e j + e.m)] := rfl

theorem fourWayGroup_def (e : BrEntry) (k j : Nat) : fourWayGroup e k j
    = [(j + seed e k, k + seed e j), (j + seed e k + e.m, k + seed e j + 2 * e.m),
      (j + seed e k + 2 * e.m, k + seed e j + e.m), (j + seed e k + 3 * e.m, k + seed e j + 3 * e.m)] := rfl

theorem swapPairs_of_p4 {e : BrEntry} (h : e.p4 = true) : swapPairs e = (List.range e.m).flatMap fun k =>
    ((List.range k).flatMap fun j => fourWayGroup e k j) ++ [(k + e.m + seed e k, k + e.m + seed e k + e.m)] := if_pos h

theorem swapPairs_of_not_p4 {e : BrEntry} (h : ¬ e.p4 = true) :
    swapPairs e = (List.range e.m).flatMap fun k => (List.range k).flatMap fun j => twoWayGroup e k j := if_neg h

section Groups

variable {o j k : Nat} (ho : 1 ≤ o)
include ho

/-- A pair in the terms of R143. -/
theorem pair_eq_seed (hj : j < 2 ^ seedBits o) (hk : k < 2 ^ seedBits o) (c : Nat) :
    Place.pair (seedBits o) (midBits o) (j, c, k) = (j + 2 ^ seedBits o * c + seed (buildBr o) k,
      k + 2 ^ seedBits o * rev (midBits o) c + seed (buildBr o) j) := by
  have hrest : o - seedBits o = seedBits o + midBits o := by have := order_eq o; omega
  rw [seed_buildBr ho hk, seed_buildBr ho hj, hrest, pair_eq, mirror_mk, toPoint_mk, toPoint_mk]
  ext <;> ring

theorem twoWayGroup_eq (hmid : midBits o = 1) (hj : j < 2 ^ seedBits o) (hk : k < 2 ^ seedBits o) :
    twoWayGroup (buildBr o) k j
      = (List.range (2 ^ midBits o)).map fun c => Place.pair (seedBits o) (midBits o) (j, c, k) := by
  have hrange : List.range (2 ^ 1) = [0, 1] := rfl
  have hrev : rev 1 0 = 0 ∧ rev 1 1 = 1 := by decide
  have hpair := pair_eq_seed ho hj hk
  rw [hmid] at hpair ⊢
  simp only [twoWayGroup_def, hpair, hrange, hrev, buildBr_m ho, List.map_cons, List.map_nil, List.cons.injEq,
    Prod.mk.injEq, and_true]
  omega

theorem fourWayGroup_eq (hmid : midBits o = 2) (hj : j < 2 ^ seedBits o) (hk : k < 2 ^ seedBits o) :
    fourWayGroup (buildBr o) k j
      = (List.range (2 ^ midBits o)).map fun c => Place.pair (seedBits o) (midBits o) (j, c, k) := by
  have hrange : List.range (2 ^ 2) = [0, 1, 2, 3] := rfl
  have hrev : rev 2 0 = 0 ∧ rev 2 1 = 2 ∧ rev 2 2 = 1 ∧ rev 2 3 = 3 := by decide
  have hpair := pair_eq_seed ho hj hk
  rw [hmid] at hpair ⊢
  simp only [fourWayGroup_def, hpair, hrange, hrev, buildBr_m ho, List.map_cons, List.map_nil, List.cons.injEq,
    Prod.mk.injEq, and_true]
  omega

/-- The pair of R143 that an even order has on the diagonal. -/
theorem diagonalPair_eq (hmid : midBits o = 2) (hk : k < 2 ^ seedBits o) :
    (k + 2 ^ seedBits o + seed (buildBr o) k, k + 2 ^ seedBits o + seed (buildBr o) k + 2 ^ seedBits o)
      = Place.pair (seedBits o) (midBits o) (k, 1, k) := by
  have hrev : rev 2 1 = 2 := rfl
  rw [pair_eq_seed ho hk hk, hmid, hrev, Prod.mk.injEq]
  omega

/-- 41_bitrev_permuter.md R143: the groups of `PAIRS(o)` run through the places that come first. -/
theorem swapPairs_eq :
    swapPairs (buildBr o) = (firstPlaces (seedBits o) (midBits o)).map (Place.pair (seedBits o) (midBits o)) := by
  have hp4 : (buildBr o).p4 = true ↔ o % 2 = 0 := by simp [buildBr_eq ho]
  have hmid := midBits_eq ho
  rw [firstPlaces_eq, List.map_flatMap]
  simp only [List.map_append, List.map_flatMap, List.map_map]
  by_cases heven : o % 2 = 0
  · rw [if_pos heven] at hmid
    rw [swapPairs_of_p4 (hp4.mpr heven), buildBr_m ho]
    refine List.flatMap_congr fun k hk => ?_
    have hk := List.mem_range.mp hk
    congr 1
    · exact List.flatMap_congr fun j hj => fourWayGroup_eq ho hmid ((List.mem_range.mp hj).trans hk) hk
    · rw [diagonalPair_eq ho hmid hk, hmid, firstMid_two]
      rfl
  · rw [if_neg heven] at hmid
    rw [swapPairs_of_not_p4 (mt hp4.mp heven), buildBr_m ho]
    refine List.flatMap_congr fun k hk => ?_
    have hk := List.mem_range.mp hk
    have hnone : (List.range (2 ^ midBits o)).filter (fun c => c < rev (midBits o) c) = [] := by
      rw [hmid, firstMid_one]
    rw [hnone, List.map_nil, List.append_nil]
    exact List.flatMap_congr fun j hj => twoWayGroup_eq ho hmid ((List.mem_range.mp hj).trans hk) hk

end Groups

/-! ### The number of pairs (R144) -/

/-- Twice the sum of an arithmetic progression. -/
theorem two_mul_length_flatMap {β : Type} {f : Nat → List β} {a d : Nat} (hf : ∀ k, (f k).length = k * a + d)
    (m : Nat) : 2 * ((List.range m).flatMap f).length + m * a = m * m * a + 2 * (m * d) := by
  induction m with
  | zero => simp
  | succ m ih =>
    rw [List.range_succ, List.flatMap_append, List.flatMap_singleton, List.length_append, hf]
    linarith

/-- The count of the places: 2^w at each j < k, and on the diagonal those whose middle part comes first. -/
theorem two_mul_firstPlaces_length (h w : Nat) : 2 * (firstPlaces h w).length + 2 ^ h * 2 ^ w
    = 2 ^ h * 2 ^ h * 2 ^ w + 2 * (2 ^ h * ((List.range (2 ^ w)).filter fun c => c < rev w c).length) := by
  rw [firstPlaces_eq]
  exact two_mul_length_flatMap (fun k => by simp) _

theorem swapPairs_length {o : Nat} (ho : 1 ≤ o) :
    (swapPairs (buildBr o)).length = (2 ^ o - 2 ^ ((o + 1) / 2)) / 2 := by
  have hcount := two_mul_firstPlaces_length (seedBits o) (midBits o)
  have hpow : 2 ^ o = 2 ^ seedBits o * 2 ^ seedBits o * 2 ^ midBits o := by
    rw [← pow_add, ← pow_add]
    congr 1
    have := order_eq o
    omega
  have hfixed : (o + 1) / 2 = seedBits o + 1 := by have := seedBits_eq o; omega
  rw [swapPairs_eq ho, List.length_map, hpow, hfixed, pow_succ]
  rw [midBits_eq ho] at hcount ⊢
  split
  · next heven =>
    rw [if_pos heven, firstMid_two, List.length_singleton] at hcount
    omega
  · next hodd =>
    rw [if_neg hodd, firstMid_one, List.length_nil] at hcount
    omega

/-! ### The pairs are the reversals of the moved points (R144) -/

/-- The points of a list of pairs. -/
def pairPoints (ps : List (Nat × Nat)) : List Nat := ps.flatMap fun jk => [jk.1, jk.2]

theorem pairPoints_eq (ps : List (Nat × Nat)) : pairPoints ps = ps.flatMap fun jk => [jk.1, jk.2] := rfl

theorem mem_pairPoints {ps : List (Nat × Nat)} {q : Nat} :
    q ∈ pairPoints ps ↔ ∃ jk ∈ ps, q = jk.1 ∨ q = jk.2 := by simp [pairPoints_eq]

theorem mem_swapPairs {o : Nat} (ho : 1 ≤ o) {jk : Nat × Nat} : jk ∈ swapPairs (buildBr o)
    ↔ ∃ t : Place, t.Within (seedBits o) (midBits o) ∧ t.isFirst (midBits o) = true
      ∧ t.pair (seedBits o) (midBits o) = jk := by
  simp only [swapPairs_eq ho, List.mem_map, mem_firstPlaces, and_assoc]

theorem rev_toPoint_order {o : Nat} {t : Place} (ht : t.Within (seedBits o) (midBits o)) :
    rev o (t.toPoint (seedBits o) (midBits o)) = (t.mirror (midBits o)).toPoint (seedBits o) (midBits o) := by
  rw [← rev_toPoint ht, ← order_eq]

/-- A place that comes first is not its own mirror image. -/
theorem ne_mirror_of_isFirst {h w : Nat} {t : Place} (ht : t.Within h w) (hfirst : t.isFirst w = true) :
    t ≠ t.mirror w := fun heq => not_isFirst_mirror ht hfirst (heq ▸ hfirst)

theorem swapPairs_sound {o : Nat} (ho : 1 ≤ o) {jk : Nat × Nat} (hjk : jk ∈ swapPairs (buildBr o)) :
    jk.2 = rev o jk.1 ∧ jk.1 ≠ jk.2 ∧ jk.1 < 2 ^ o := by
  obtain ⟨t, ht, hfirst, rfl⟩ := (mem_swapPairs ho).mp hjk
  have hlt := toPoint_lt ht
  rw [← order_eq o] at hlt
  exact ⟨(rev_toPoint_order ht).symm, fun heq => ne_mirror_of_isFirst ht hfirst (toPoint_inj ht ht.mirror heq), hlt⟩

theorem swapPairs_complete {o p : Nat} (ho : 1 ≤ o) (hp : p < 2 ^ o) (hmoved : p ≠ rev o p) :
    (p, rev o p) ∈ swapPairs (buildBr o) ∨ (rev o p, p) ∈ swapPairs (buildBr o) := by
  obtain ⟨t, ht, rfl⟩ : ∃ t : Place, t.Within (seedBits o) (midBits o) ∧ t.toPoint (seedBits o) (midBits o) = p :=
    ⟨_, placeOf_within, toPoint_placeOf (by rwa [← order_eq])⟩
  rw [rev_toPoint_order ht] at hmoved ⊢
  rcases isFirst_or_mirror ht with hfirst | hfirst | hfixed
  · exact .inl ((mem_swapPairs ho).mpr ⟨t, ht, hfirst, rfl⟩)
  · exact .inr ((mem_swapPairs ho).mpr ⟨_, ht.mirror, hfirst, by rw [pair_eq, mirror_mirror ht]⟩)
  · exact absurd (by rw [hfixed]) hmoved

/-- Two places that come first share no point: each point is that of one place, and no first place mirrors another. -/
theorem disjoint_pair_of_ne {h w : Nat} {t u : Place} (ht : t ∈ firstPlaces h w) (hu : u ∈ firstPlaces h w)
    (hne : t ≠ u) : List.Disjoint [t.toPoint h w, (t.mirror w).toPoint h w]
      [u.toPoint h w, (u.mirror w).toPoint h w] := by
  obtain ⟨ht, htfirst⟩ := mem_firstPlaces.mp ht
  obtain ⟨hu, hufirst⟩ := mem_firstPlaces.mp hu
  have hcross : ∀ {a b : Place}, a.Within h w → b.Within h w → a.isFirst w = true → b.isFirst w = true →
      a.toPoint h w ≠ (b.mirror w).toPoint h w := fun ha hb hafirst hbfirst heq =>
    not_isFirst_mirror hb hbfirst (toPoint_inj ha hb.mirror heq ▸ hafirst)
  have hsame : t.toPoint h w ≠ u.toPoint h w := fun heq => hne (toPoint_inj ht hu heq)
  have hmirror : (t.mirror w).toPoint h w ≠ (u.mirror w).toPoint h w := fun heq => hne <| by
    rw [← mirror_mirror ht, toPoint_inj ht.mirror hu.mirror heq, mirror_mirror hu]
  simp [hsame.symm, hmirror.symm, (hcross ht hu htfirst hufirst).symm, hcross hu ht hufirst htfirst]

theorem pairPoints_swapPairs_nodup {o : Nat} (ho : 1 ≤ o) : (pairPoints (swapPairs (buildBr o))).Nodup := by
  rw [pairPoints_eq, swapPairs_eq ho, List.flatMap_map]
  refine List.nodup_flatMap.mpr ⟨fun t ht => ?_,
    (firstPlaces_nodup _ _).pairwise_of_forall_ne fun t ht u hu => disjoint_pair_of_ne ht hu⟩
  obtain ⟨ht, hfirst⟩ := mem_firstPlaces.mp ht
  have hne : t.toPoint _ _ ≠ (t.mirror _).toPoint _ _ :=
    fun heq => ne_mirror_of_isFirst ht hfirst (toPoint_inj ht ht.mirror heq)
  simpa [pair_eq] using hne

/-- Settles O38: a point is a place of three parts, of which the reversal exchanges the outer two and reverses the
middle one; the pairs are listed at the places that come before their mirror image. -/
theorem swapPairsRealiseBitReversal : Obligations.SwapPairsRealiseBitReversal := fun _ ho =>
  ⟨fun _ => swapPairs_sound ho, fun _ => swapPairs_complete ho, pairPoints_swapPairs_nodup ho, swapPairs_length ho⟩

/-! ### Points of a buffer (00_scope.md R14) -/

section Buffers

variable {α : Type} {A : Arith α} {b : List α}

theorem cellAt_eq (A : Arith α) (b : List α) (j : Nat) : cellAt A b j = b[j]?.getD A.zero :=
  List.getD_eq_getElem?_getD

theorem point_eq (A : Arith α) (b : List α) (p : Nat) :
    point A b p = (cellAt A b (2 * p), cellAt A b (2 * p + 1)) := rfl

theorem setPoint_eq (b : List α) (p : Nat) (y : α × α) :
    setPoint b p y = (b.set (2 * p) y.1).set (2 * p + 1) y.2 := rfl

theorem negateIm_eq (A : Arith α) (b : List α) (p : Nat) :
    negateIm A b p = b.set (2 * p + 1) (A.neg (cellAt A b (2 * p + 1))) := rfl

theorem cellAt_set {i j : Nat} {v : α} (hi : i < b.length) :
    cellAt A (b.set i v) j = if i = j then v else cellAt A b j := by
  simp only [cellAt_eq, List.getElem?_set, hi, if_true]
  split <;> rfl

theorem cellAt_set_of_ne {i j : Nat} {v : α} (hij : i ≠ j) : cellAt A (b.set i v) j = cellAt A b j := by
  rw [cellAt_eq, List.getElem?_set_ne hij, cellAt_eq]

theorem point_setPoint {p : Nat} (hp : 2 * p + 1 < b.length) (y : α × α) (q : Nat) :
    point A (setPoint b p y) q = if p = q then y else point A b q := by
  have hp' : 2 * p + 1 < (b.set (2 * p) y.1).length := by rwa [List.length_set]
  have hre : 2 * p + 1 ≠ 2 * q := by omega
  have him : 2 * p ≠ 2 * q + 1 := by omega
  simp only [point_eq, setPoint_eq, cellAt_set hp', cellAt_set (Nat.lt_of_succ_lt hp), hre, him, if_false,
    Nat.add_right_cancel_iff, Nat.mul_right_inj two_ne_zero]
  split <;> rfl

theorem cellAt_setPoint_of_lt {p j : Nat} (hj : 2 * p + 1 < j) (y : α × α) :
    cellAt A (setPoint b p y) j = cellAt A b j := by
  rw [setPoint_eq, cellAt_set_of_ne (by omega), cellAt_set_of_ne (by omega)]

/-- A point with its imaginary part negated. -/
def conj (A : Arith α) (z : α × α) : α × α := (z.1, A.neg z.2)

theorem conj_mk (A : Arith α) (x y : α) : conj A (x, y) = (x, A.neg y) := rfl

theorem point_negateIm {p : Nat} (hp : 2 * p + 1 < b.length) (q : Nat) :
    point A (negateIm A b p) q = if p = q then conj A (point A b q) else point A b q := by
  have hre : 2 * p + 1 ≠ 2 * q := by omega
  simp only [point_eq, negateIm_eq, cellAt_set hp, hre, if_false, Nat.add_right_cancel_iff,
    Nat.mul_right_inj two_ne_zero]
  split
  · next heq => rw [heq, conj_mk]
  · rfl

theorem cellAt_negateIm_of_lt {p j : Nat} (hj : 2 * p + 1 < j) : cellAt A (negateIm A b p) j = cellAt A b j :=
  cellAt_set_of_ne (by omega)

/-- A buffer of `n` points is these points. -/
theorem ext_points {c : List α} {n : Nat} (A : Arith α) (hb : b.length = 2 * n) (hc : c.length = 2 * n)
    (h : ∀ q < n, point A b q = point A c q) : b = c := by
  refine List.ext_getElem (hb.trans hc.symm) fun i hib hic => ?_
  have hcell : cellAt A b i = cellAt A c i := by
    obtain ⟨hre, him⟩ := Prod.mk.inj (h (i / 2) (by omega))
    rcases Nat.mod_two_eq_zero_or_one i with hpar | hpar
    · rwa [show i = 2 * (i / 2) by omega]
    · rwa [show i = 2 * (i / 2) + 1 by omega]
  simpa [cellAt_eq, hib, hic] using hcell

/-! ### The swaps of a list of pairs (R145, R146) -/

/-- The points of a pair exchanged, each changed by `f`: `SWAP` and `SWAPC` in one. -/
def swapWith (A : Arith α) (f : α × α → α × α) (b : List α) (jk : Nat × Nat) : List α :=
  setPoint (setPoint b jk.1 (f (point A b jk.2))) jk.2 (f (point A b jk.1))

theorem swapPoints_eq (A : Arith α) (b : List α) (jk : Nat × Nat) :
    swapPoints A b jk.1 jk.2 = swapWith A id b jk := rfl

theorem swapConjugated_eq (A : Arith α) (b : List α) (jk : Nat × Nat) :
    swapConjugated A b jk.1 jk.2 = swapWith A (conj A) b jk := rfl

variable {f : α × α → α × α}

theorem swapWith_eq (jk : Nat × Nat) : swapWith A f b jk
    = setPoint (setPoint b jk.1 (f (point A b jk.2))) jk.2 (f (point A b jk.1)) := rfl

@[simp] theorem swapWith_length (jk : Nat × Nat) : (swapWith A f b jk).length = b.length := by simp [swapWith_eq]

theorem point_swapWith {J K : Nat} (hJ : 2 * J + 1 < b.length) (hK : 2 * K + 1 < b.length) (q : Nat) :
    point A (swapWith A f b (J, K)) q
      = if K = q then f (point A b J) else if J = q then f (point A b K) else point A b q := by
  rw [swapWith_eq, point_setPoint (by rwa [setPoint_length]), point_setPoint hJ]

/-- Pairs of points of order `o` and their reversals. -/
def RevPairs (o : Nat) (ps : List (Nat × Nat)) : Prop := ∀ jk ∈ ps, jk.2 = rev o jk.1 ∧ jk.1 < 2 ^ o

theorem rev_mem_pairPoints {o q : Nat} {ps : List (Nat × Nat)} (hps : RevPairs o ps) (hq : q ∈ pairPoints ps) :
    rev o q ∈ pairPoints ps := by
  obtain ⟨jk, hjk, rfl | rfl⟩ := mem_pairPoints.mp hq
  all_goals obtain ⟨hK, hJ⟩ := hps jk hjk
  · exact mem_pairPoints.mpr ⟨jk, hjk, .inr hK.symm⟩
  · exact mem_pairPoints.mpr ⟨jk, hjk, .inl (by rw [hK, Scope.rev_rev hJ])⟩

/-- Disjoint swaps act one by one: each listed point becomes the image of its reversal, the others stay. -/
theorem point_foldl_swapWith {o : Nat} {ps : List (Nat × Nat)} (hb : 2 * 2 ^ o ≤ b.length) (hps : RevPairs o ps)
    (hnodup : (pairPoints ps).Nodup) (q : Nat) : point A (ps.foldl (swapWith A f) b) q
      = if q ∈ pairPoints ps then f (point A b (rev o q)) else point A b q := by
  induction ps generalizing b with
  | nil => rfl
  | cons jk ps ih =>
    obtain ⟨J, K⟩ := jk
    obtain ⟨rfl, hJ⟩ : K = rev o J ∧ J < 2 ^ o := hps (J, K) List.mem_cons_self
    have hps' : RevPairs o ps := fun jk hjk => hps jk (List.mem_cons_of_mem _ hjk)
    have hK := rev_lt o J
    have hcons : pairPoints ((J, rev o J) :: ps) = J :: rev o J :: pairPoints ps := rfl
    rw [hcons, List.nodup_cons, List.nodup_cons, List.mem_cons, not_or] at hnodup
    obtain ⟨⟨hne, hJps⟩, hKps, hnodup⟩ := hnodup
    have hstep := point_swapWith (A := A) (f := f) (b := b) (J := J) (K := rev o J) (by omega) (by omega)
    rw [List.foldl_cons, ih (by rwa [swapWith_length]) hps' hnodup, hstep, hstep, hcons]
    by_cases hq : q ∈ pairPoints ps
    · have hrev := rev_mem_pairPoints hps' hq
      have hrevK : rev o J ≠ rev o q := fun heq => hKps (heq ▸ hrev)
      have hrevJ : J ≠ rev o q := fun heq => hJps (heq ▸ hrev)
      rw [if_pos hq, if_neg hrevK, if_neg hrevJ, if_pos (List.mem_cons_of_mem _ (List.mem_cons_of_mem _ hq))]
    · rw [if_neg hq]
      by_cases hqK : rev o J = q
      · subst hqK
        simp [Scope.rev_rev hJ]
      · by_cases hqJ : J = q
        · subst hqJ
          simp [hqK]
        · rw [if_neg hqK, if_neg hqJ, if_neg (by simp [hq, Ne.symm hqK, Ne.symm hqJ])]

theorem cellAt_foldl_swapWith {o j : Nat} {ps : List (Nat × Nat)} (hps : RevPairs o ps) (hj : 2 * 2 ^ o ≤ j) :
    cellAt A (ps.foldl (swapWith A f) b) j = cellAt A b j := by
  refine List.foldlRecOn ps _ (motive := fun c => cellAt A c j = cellAt A b j) rfl fun c hc jk hjk => ?_
  obtain ⟨hK, hJ⟩ := hps jk hjk
  have hK' : jk.2 < 2 ^ o := hK ▸ rev_lt o jk.1
  rw [swapWith_eq, cellAt_setPoint_of_lt (by omega), cellAt_setPoint_of_lt (by omega), hc]

/-! ### The loops over the points (R146, R147) -/

/-- The imaginary parts of the first `n` points that have `c` negated, each once. -/
theorem point_loop_negateIm {n : Nat} {c : Nat → Prop} [DecidablePred c] (hb : 2 * n ≤ b.length) (q : Nat) :
    point A (loop n (fun p b => if c p then negateIm A b p else b) b) q
      = if q < n ∧ c q then conj A (point A b q) else point A b q := by
  induction n with
  | zero => simp
  | succ n ih =>
    have ih := ih (by omega)
    have hlen := loop_length (n := n) (f := fun p b => if c p then negateIm A b p else b)
      (fun p b => by split <;> simp) b
    rw [loop_succ]
    by_cases hqn : q = n
    · subst hqn
      have hbefore : point A (loop q (fun p b => if c p then negateIm A b p else b) b) q = point A b q := by
        rw [ih, if_neg fun h => q.lt_irrefl h.1]
      by_cases hc : c q
      · rw [if_pos hc, point_negateIm (by omega), if_pos rfl, hbefore, if_pos ⟨q.lt_succ_self, hc⟩]
      · rw [if_neg hc, hbefore, if_neg fun h => hc h.2]
    · simp only [Nat.lt_succ_iff_lt_or_eq, hqn, or_false, ← ih]
      split
      · rw [point_negateIm (by omega), if_neg (Ne.symm hqn)]
      · rfl

theorem cellAt_loop_negateIm {n j : Nat} {c : Nat → Prop} [DecidablePred c] (hj : 2 * n ≤ j) :
    cellAt A (loop n (fun p b => if c p then negateIm A b p else b) b) j = cellAt A b j := by
  refine loop_keeps (P := fun d => cellAt A d j = cellAt A b j) rfl fun p hp d hd => ?_
  split
  · rw [cellAt_negateIm_of_lt (by omega), hd]
  · exact hd

/-- A loop that writes to different points leaves at each what it wrote there. -/
theorem point_loop_setPoint {n p : Nat} {g : Nat → Nat} {y : Nat → α × α} (hg : ∀ i < n, 2 * g i + 1 < b.length)
    (hinj : ∀ i < n, ∀ j < n, g i = g j → i = j) (hp : p < n) :
    point A (loop n (fun i d => setPoint d (g i) (y i)) b) (g p) = y p := by
  induction n with
  | zero => omega
  | succ n ih =>
    have hlen := loop_length (n := n) (f := fun i d => setPoint d (g i) (y i)) (fun i d => by simp) b
    rw [loop_succ, point_setPoint (by rw [hlen]; exact hg n n.lt_succ_self)]
    split
    · next heq => rw [hinj n n.lt_succ_self p hp heq]
    · next hne =>
      have hpn : p < n := Nat.lt_of_le_of_ne (Nat.le_of_lt_succ hp) fun heq => hne (heq ▸ rfl)
      exact ih (fun i hi => hg i (by omega)) (fun i hi j hj => hinj i (by omega) j (by omega)) hpn

/-! ### The permuting stages (R145 to R151) -/

variable {o : Nat}

theorem copyTarget_two_pow (o p : Nat) : copyTarget (2 ^ o) p = if 4 < 2 ^ o then rev o p else p := by
  change (if 4 < 2 ^ o then rev (log2 (2 ^ o)) p else p) = _
  rw [log2_two_pow]

theorem copyTarget_lt {p : Nat} (hp : p < 2 ^ o) : copyTarget (2 ^ o) p < 2 ^ o := by
  rw [copyTarget_two_pow]
  split
  · exact rev_lt o p
  · exact hp

theorem copyTarget_copyTarget {p : Nat} (hp : p < 2 ^ o) : copyTarget (2 ^ o) (copyTarget (2 ^ o) p) = p := by
  simp only [copyTarget_two_pow]
  split
  · exact Scope.rev_rev hp
  · rfl

theorem revPairs_swapPairs (ho : 1 ≤ o) : RevPairs o (swapPairs (buildBr o)) := fun _ hjk =>
  have ⟨hK, _, hJ⟩ := swapPairs_sound ho hjk
  ⟨hK, hJ⟩

/-- The listed points are those that the reversal moves. -/
theorem mem_pairPoints_swapPairs {q : Nat} (ho : 1 ≤ o) (hq : q < 2 ^ o) :
    q ∈ pairPoints (swapPairs (buildBr o)) ↔ rev o q ≠ q := by
  rw [mem_pairPoints]
  constructor
  · rintro ⟨jk, hjk, rfl | rfl⟩
    all_goals obtain ⟨hK, hne, hJ⟩ := swapPairs_sound ho hjk
    · exact hK ▸ hne.symm
    · rwa [hK, Scope.rev_rev hJ, ← hK]
  · intro hmoved
    rcases swapPairs_complete ho hq hmoved.symm with hmem | hmem
    · exact ⟨_, hmem, .inl rfl⟩
    · exact ⟨_, hmem, .inr rfl⟩

/-- What the swaps of an order do to the points. -/
theorem point_swapAll {q : Nat} (ho : 1 ≤ o) (hb : 2 * 2 ^ o ≤ b.length) (hq : q < 2 ^ o) :
    point A ((swapPairs (buildBr o)).foldl (swapWith A f) b) q
      = if rev o q ≠ q then f (point A b (rev o q)) else point A b q := by
  rw [point_foldl_swapWith hb (revPairs_swapPairs ho) (pairPoints_swapPairs_nodup ho)]
  simp only [mem_pairPoints_swapPairs ho hq]

/-- `PERM` by its bypass (R148). -/
theorem perm_eq (A : Arith α) (b : List α) (o : Nat) : perm A (buildBr o) (2 ^ o) b
    = if 4 < 2 ^ o then (swapPairs (buildBr o)).foldl (swapWith A id) b else b := by
  by_cases hn : 4 < 2 ^ o
  · exact (if_neg (Nat.not_le.mpr hn)).trans (if_pos hn).symm
  · exact (if_pos (Nat.not_lt.mp hn)).trans (if_neg hn).symm

/-- `PERMC` as one loop after the swaps: the bypass negates every point, otherwise the fixed ones (R148, R151). -/
theorem permC_eq (A : Arith α) (b : List α) (o : Nat) : permC A (buildBr o) (2 ^ o) b
    = loop (2 ^ o) (fun p b => if 4 < 2 ^ o → rev o p = p then negateIm A b p else b)
        (if 4 < 2 ^ o then (swapPairs (buildBr o)).foldl (swapWith A (conj A)) b else b) := by
  by_cases hn : 4 < 2 ^ o
  · refine (if_neg (Nat.not_le.mpr hn)).trans ?_
    simp only [hn, if_true, true_imp_iff, log2_two_pow, swapConjugated_eq]
  · refine (if_pos (Nat.not_lt.mp hn)).trans ?_
    simp only [hn, if_false, false_imp_iff, if_true]

theorem point_perm {q : Nat} (ho : 1 ≤ o) (hb : 2 * 2 ^ o ≤ b.length) (hq : q < 2 ^ o) :
    point A (perm A (buildBr o) (2 ^ o) b) q = point A b (copyTarget (2 ^ o) q) := by
  rw [perm_eq, copyTarget_two_pow]
  split
  · rw [point_swapAll ho hb hq, id_eq]
    split
    · rfl
    · next hfixed => rw [not_not.mp hfixed]
  · rfl

theorem point_permC {q : Nat} (ho : 1 ≤ o) (hb : 2 * 2 ^ o ≤ b.length) (hq : q < 2 ^ o) :
    point A (permC A (buildBr o) (2 ^ o) b) q = conj A (point A b (copyTarget (2 ^ o) q)) := by
  rw [permC_eq, copyTarget_two_pow]
  by_cases hn : 4 < 2 ^ o
  · rw [if_pos hn, if_pos hn, point_loop_negateIm (by rwa [foldl_length fun b c => swapWith_length c]),
      point_swapAll ho hb hq]
    by_cases hfixed : rev o q = q
    · simp [hq, hfixed]
    · simp [hn, hfixed]
  · rw [if_neg hn, if_neg hn, point_loop_negateIm hb, if_pos ⟨hq, fun h => absurd h hn⟩]

theorem cellAt_perm {j : Nat} (ho : 1 ≤ o) (hj : 2 * 2 ^ o ≤ j) :
    cellAt A (perm A (buildBr o) (2 ^ o) b) j = cellAt A b j := by
  rw [perm_eq]
  split
  · exact cellAt_foldl_swapWith (revPairs_swapPairs ho) hj
  · rfl

theorem cellAt_permC {j : Nat} (ho : 1 ≤ o) (hj : 2 * 2 ^ o ≤ j) :
    cellAt A (permC A (buildBr o) (2 ^ o) b) j = cellAt A b j := by
  rw [permC_eq, cellAt_loop_negateIm hj]
  split
  · exact cellAt_foldl_swapWith (revPairs_swapPairs ho) hj
  · rfl

/-- Both copies at once: `y` is what is written for each point. -/
theorem point_permutingCopy {dst : List α} (y : Nat → α × α) {q : Nat} (hdst : dst.length = 2 * 2 ^ o)
    (hq : q < 2 ^ o) : point A (loop (2 ^ o) (fun p d => setPoint d (copyTarget (2 ^ o) p) (y p)) dst) q
      = y (copyTarget (2 ^ o) q) := by
  have hinj : ∀ i < 2 ^ o, ∀ j < 2 ^ o, copyTarget (2 ^ o) i = copyTarget (2 ^ o) j → i = j := fun i hi j hj heq => by
    rw [← copyTarget_copyTarget hi, heq, copyTarget_copyTarget hj]
  have hbound : ∀ i < 2 ^ o, 2 * copyTarget (2 ^ o) i + 1 < dst.length := fun i hi => by
    have := copyTarget_lt hi
    omega
  have hwritten := point_loop_setPoint (A := A) (y := y) hbound hinj (copyTarget_lt hq)
  rwa [copyTarget_copyTarget hq] at hwritten

theorem point_pcopy {src dst : List α} {q : Nat} (hdst : dst.length = 2 * 2 ^ o) (hq : q < 2 ^ o) :
    point A (pcopy A (2 ^ o) src dst) q = point A src (copyTarget (2 ^ o) q) :=
  point_permutingCopy (point A src) hdst hq

theorem point_pcopyC {src dst : List α} {q : Nat} (hdst : dst.length = 2 * 2 ^ o) (hq : q < 2 ^ o) :
    point A (pcopyC A (2 ^ o) src dst) q = conj A (point A src (copyTarget (2 ^ o) q)) :=
  point_permutingCopy (fun p => conj A (point A src p)) hdst hq

end Buffers

/-- Settles O39: the pairs are disjoint and hold every moved point, so each point changes places with its reversal. -/
theorem permMovesEachPointToItsReversal : Obligations.PermMovesEachPointToItsReversal := by
  refine fun α A o b ho hb => ⟨fun p hp => ?_, perm_length .., fun j => cellAt_perm ho⟩
  rw [← copyTarget_two_pow, point_perm ho hb (copyTarget_lt hp), copyTarget_copyTarget hp]

/-- Settles O40: a moved point is negated by its swap, a fixed one by the loop that follows. -/
theorem permCNegatesEachImaginaryPartOnce : Obligations.PermCNegatesEachImaginaryPartOnce := by
  refine fun α A o b ho hb => ⟨fun p hp => ?_, permC_length .., fun j => cellAt_permC ho⟩
  rw [← copyTarget_two_pow, point_permC ho hb (copyTarget_lt hp), copyTarget_copyTarget hp]
  rfl

/-- Settles O41: copy and permutation hold at each point what the source holds at its reversal. -/
theorem permutingCopyEqualsPermutation : Obligations.PermutingCopyEqualsPermutation := by
  refine fun α A o src dst ho hsrc hdst => ⟨?_, ?_⟩
  · refine ext_points A ((pcopy_length ..).trans hdst) ((perm_length ..).trans hsrc) fun q hq => ?_
    rw [point_pcopy hdst hq, point_perm ho hsrc.ge hq]
  · refine ext_points A ((pcopyC_length ..).trans hdst) ((permC_length ..).trans hsrc) fun q hq => ?_
    rw [point_pcopyC hdst hq, point_permC ho hsrc.ge hq]

end Sys2Proof.Permuter
end

section
/-! SUPPORT. The Butterfly Engine (42_butterfly_engine.md): the two smallest lengths (R178), the twiddle entries the
passes read (R170), in place against out of place (R176), and what the stages compute in exact arithmetic (R171). -/

namespace Sys2Proof.ButterflyEngine

open Sys2Proof.Machine Sys2Proof.Claims Sys2Proof.EngineState Sys2Proof.SampleMemory Sys2Proof.TableCache

/-! ### The rounds of `PASSES` and the smallest lengths (R169, R170, R178) -/

section SmallLengths

variable {α : Type} (A : Arith α)

/-- One round of the loop of `PASSES` (R169). -/
theorem passesFrom_succ (T : Coeffs α) (n fuel l : Nat) (b : List α) : passesFrom A T n (fuel + 1) l b
    = if 4 * l < n then passesFrom A T n fuel (4 * l) (pass4 A T n l b)
      else if 4 * l = n then fin4 A n l b else fin2 A l b := rfl

theorem passes_two_pow (T : Coeffs α) (m : Nat) (b : List α) :
    passes A T (2 ^ m) b = passesFrom A T (2 ^ m) m 1 b := by
  rw [passes, log2_two_pow]

theorem passes_two (T : Coeffs α) (b : List α) : passes A T (2 ^ 1) b = fin2 A 1 b := passes_two_pow A T 1 b

theorem passes_four (T : Coeffs α) (b : List α) : passes A T (2 ^ 2) b = fin4 A 4 1 b := passes_two_pow A T 2 b

theorem four_lt_two_pow (k : Nat) : 4 < 2 ^ (k + 3) :=
  lt_of_lt_of_le (by decide) (Nat.pow_le_pow_right (by decide) (Nat.le_add_left 3 k))

theorem perm_of_le_four (e : BrEntry) {n : Nat} (h : n ≤ 4) (b : List α) : perm A e n b = b := if_pos h

end SmallLengths

/-- Settles O46: no permutation and no pass, one `FIN2` or `FIN4` round. -/
theorem smallestLengthsWorkedOut : Obligations.SmallestLengthsWorkedOut := by
  intro α A T e a b c d f g h k
  constructor
  · calc stagesCdftF A T e (2 ^ 1) [a, b, c, d]
        = fin2 A 1 [a, b, c, d] := by rw [stagesCdftF, perm_of_le_four A e (by decide), passes_two]
      _ = _ := rfl
  · calc stagesCdftF A T e (2 ^ 2) [a, b, c, d, f, g, h, k]
        = fin4 A 4 1 [a, b, c, d, f, g, h, k] := by rw [stagesCdftF, perm_of_le_four A e (by decide), passes_four]
      _ = _ := rfl

/-- Settles O47: two and four points take no pass; more read what `passes_congr` counts. -/
theorem passesReadOnlyRequestedTwiddles : Obligations.PassesReadOnlyRequestedTwiddles := by
  intro α A T T' k b hk h
  match k, hk with
  | 1, _ => rw [passes_two, passes_two]
  | 2, _ => rw [passes_four, passes_four]
  | k + 3, _ =>
    exact passes_congr A (fun j hj => h j hj (four_lt_two_pow k)) b

/-! ### In place and out of place (R176; 43_real_adapter.md R198, R199) -/

section Stages

variable {α : Type} (A : Arith α)

/-- `COPY` of a whole buffer is the buffer (43_real_adapter.md R202). -/
theorem copyCells_eq {N : Nat} {src dst : List α} (hsrc : src.length = N) (hdst : dst.length = N) :
    copyCells A N src dst = src := by
  have hcopied : ∀ n ≤ N, copyCells A n src dst = src.take n ++ dst.drop n := by
    intro n hn
    induction n with
    | zero => rfl
    | succ n ih =>
      have hcell : cellAt A src n = src[n] := List.getD_eq_getElem ..
      have hstep : copyCells A (n + 1) src dst = (copyCells A n src dst).set n (cellAt A src n) := rfl
      rw [hstep, ih (Nat.le_of_succ_le hn), hcell, List.set_append_right _ _ (by simp), List.length_take,
        Nat.min_eq_left (by omega), Nat.sub_self, List.drop_eq_getElem_cons (by omega), List.set_cons_zero,
        List.take_add_one, List.getElem?_eq_getElem (by omega), Option.toList_some, List.append_assoc,
        List.singleton_append]
  rw [hcopied N le_rfl, ← hsrc, List.take_length, List.drop_of_length_le (by omega), List.append_nil]

/-- The permuting copies of 41_bitrev_permuter.md R147 for any length the complex commands take. -/
theorem permutingCopies_eq {n : Nat} {src dst : List α} (hn : ∃ k, n = 2 ^ k) (h2 : 2 ≤ n)
    (hsrc : src.length = 2 * n) (hdst : dst.length = 2 * n) :
    pcopy A n src dst = perm A (buildBr (log2 n)) n src ∧ pcopyC A n src dst = permC A (buildBr (log2 n)) n src := by
  obtain ⟨k, rfl⟩ := hn
  have hk : 1 ≤ k := Nat.one_le_iff_ne_zero.mpr fun h0 => by simp [h0] at h2
  rw [log2_two_pow]
  exact Permuter.permutingCopyEqualsPermutation α A k src dst hk hsrc hdst

/-- A command that works in place and the one that does the same from the buffer at `SRC`. -/
def formPairs : List (Instr × Instr) :=
  [(.cdftF, .cdftoF), (.cdftI, .cdftoI), (.rdftF, .rdftoF), (.rdftI, .rdftoI)]

variable {pr : Instr × Instr} (hpr : pr ∈ formPairs)
include hpr

theorem formPairs_shape : pr.1.shape = .inPlace ∧ pr.2.shape = .outOfPlace := by
  revert pr; decide

/-- Both forms ask for the same length, buffers and tables. -/
theorem formPairs_requests : pr.2.minLen = pr.1.minLen ∧ pr.2.cells = pr.1.cells ∧ permOrder pr.2 = permOrder pr.1
    ∧ prepare pr.2 = prepare pr.1 := by
  simp only [formPairs, List.mem_cons, List.not_mem_nil, or_false] at hpr
  obtain rfl | rfl | rfl | rfl := hpr <;> exact ⟨rfl, rfl, rfl, rfl⟩

/-- The out-of-place stages compute from the source what the in-place stages compute from a copy of it: the permuting
copy is the permutation (41_bitrev_permuter.md R147), and the copy of a whole buffer is the buffer. -/
theorem stagesOf_outOfPlace (T : Coeffs α) {n : Nat} (hn : ∃ k, n = 2 ^ k) (hmin : pr.1.minLen ≤ n)
    {src dst : List α} (hsrc : src.length = pr.1.cells n) (hdst : dst.length = pr.1.cells n) (src' : List α) :
    stagesOf pr.2 A T (buildBr (permOrder pr.1 n)) n src dst
      = stagesOf pr.1 A T (buildBr (permOrder pr.1 n)) n src' src := by
  simp only [formPairs, List.mem_cons, List.not_mem_nil, or_false] at hpr
  obtain rfl | rfl | rfl | rfl := hpr
  · exact congrArg (passes A T n) (permutingCopies_eq A hn hmin hsrc hdst).1
  · exact congrArg (fun b => Machine.conj A n (passes A T n b)) (permutingCopies_eq A hn hmin hsrc hdst).2
  all_goals
    have hcopy : copyCells A n src dst = src := copyCells_eq A hsrc hdst
    simp only [stagesOf, stagesRdftoF, stagesRdftoI, stagesRdftF, stagesRdftI, hcopy]

end Stages

/-! ### What equal tables grow to -/

section Tables

variable {s s' : State}

/-- The same parameters and the same tables. -/
def SameCache (s s' : State) : Prop := s'.inst = s.inst ∧ sameTables s s'

theorem sameCache_iff : SameCache s s' ↔ s'.inst = s.inst ∧ s'.nw = s.nw ∧ s'.nc = s.nc ∧ s'.tw = s.tw
    ∧ s'.ct = s.ct ∧ s'.br = s.br := Iff.rfl

variable (h : SameCache s s')
include h

theorem sameCache_ensureTwiddle (m : Nat) : SameCache (ensureTwiddle m s) (ensureTwiddle m s') := by
  obtain ⟨hinst, hnw, hnc, htw, hct, hbr⟩ := sameCache_iff.mp h
  rw [ensureTwiddle, ensureTwiddle, hnw]
  split
  · exact h
  · exact ⟨hinst, rfl, hnc, by rw [htw, hinst], hct, hbr⟩

theorem sameCache_ensureCosine (m : Nat) : SameCache (ensureCosine m s) (ensureCosine m s') := by
  obtain ⟨hinst, hnw, hnc, htw, hct, hbr⟩ := sameCache_iff.mp h
  rw [ensureCosine, ensureCosine, hnc]
  split
  · exact h
  · exact ⟨hinst, hnw, rfl, htw, by rw [hct, hinst], hbr⟩

theorem sameCache_permutationFor (o : Nat) : SameCache (permutationFor o s) (permutationFor o s') := by
  obtain ⟨hinst, hnw, hnc, htw, hct, hbr⟩ := sameCache_iff.mp h
  rw [permutationFor, permutationFor, State.brLookup, State.brLookup, hbr]
  split
  · exact h
  · exact ⟨hinst, hnw, hnc, htw, hct, rfl⟩

theorem sameCache_prepareComplex (n : Nat) : SameCache (prepareComplex n s) (prepareComplex n s') := by
  unfold prepareComplex
  split
  · exact sameCache_permutationFor (sameCache_ensureTwiddle h _) _
  · exact sameCache_ensureTwiddle h _

theorem sameCache_prepareReal (n c : Nat) : SameCache (prepareReal n c s) (prepareReal n c s') := by
  unfold prepareReal
  split
  · exact sameCache_permutationFor (sameCache_ensureCosine (sameCache_ensureTwiddle h _) _) _
  · exact sameCache_ensureCosine (sameCache_ensureTwiddle h _) _

/-- What a command's requests leave depends on the tables and the parameters alone (40_table_cache.md R126 to R128). -/
theorem sameCache_prepare (i : Instr) (n : Nat) : SameCache (prepare i n s) (prepare i n s') := by
  cases i with
  | cdftF | cdftI | cdftoF | cdftoI => exact sameCache_prepareComplex h n
  | rdftF | rdftI | rdftoF | rdftoI => exact sameCache_prepareReal h n _
  | dctF | dctI | dstF | dstI => exact sameCache_prepareReal h n n
  | enstw => exact sameCache_ensureTwiddle h n
  | ensct => exact sameCache_ensureCosine h n
  | ensbr => exact sameCache_permutationFor h n

end Tables

/-- Settles O42: both forms store the result of the same stages on the same samples, which depends on the generator
alone, and make the same table requests of the same tables. -/
theorem inPlaceEqualsOutOfPlace : Obligations.InPlaceEqualsOutOfPlace := by
  intro pr hpr s s' hinst hlen htab hv hwf hwf' ha hD hS' hD' hdis hcells
  obtain ⟨hin, hout⟩ := formPairs_shape hpr
  obtain ⟨hminLen, hcellCount, hord, hprep⟩ := formPairs_requests hpr
  have hN : s'.operandN = s.operandN := congrArg BitVec.toNat hlen
  have hv' : s'.tablesValid := (tablesValid_congr htab hinst).mpr hv
  have ha' : lengthAdmitted s'.inst pr.2.minLen s'.operandN := by rwa [hinst, hminLen, hN]
  have hexec' : exec pr.2 s' = .next (storedBy pr.2 s' (resultOf pr.2 s')) :=
    exec_outOfPlace hout hv' ha' (by rwa [hinst, hcellCount, hN]) (by rwa [hinst, hcellCount, hN])
      (by rwa [hcellCount, hN])
  have hload : loadSamples s.inst s'.mem s'.operandS (pr.1.cells s.operandN)
      = loadSamples s.inst s.mem s.operandD (pr.1.cells s.operandN) := congrArg (List.map Sample.bits) hcells
  have hresult : resultOf pr.2 s' = resultOf pr.1 s := by
    rw [resultOf, resultOf, hinst, hN, hcellCount, hord, hload]
    exact stagesOf_outOfPlace (ieee s.inst.fmt) hpr _ ha.1 ha.2.1 (by simp) (by simp) _
  have hstored := loadCells_storedBy (b := resultOf pr.1 s) (by simp [hin]) ha hwf
  have hstored' := loadCells_storedBy (b := resultOf pr.1 s) (by simp [hout]) ha' (by rwa [hinst])
  rw [resultOf_length] at hstored hstored'
  rw [hinst] at hstored'
  rw [hresult] at hexec'
  refine ⟨_, _, resultOf pr.1 s, exec_inPlace hin hv ha hD, hexec', ?_, resultOf_length .., hstored, hstored'⟩
  have hgrown := (sameCache_prepare ⟨hinst, htab⟩ pr.1 s.operandN).2
  rw [storedBy, storedBy, hprep, hN]
  exact hgrown

/-! ### What a stage does to the points (R163 to R168, R179) -/

section Points

variable {α : Type} {A : Arith α} {b : List α} {n : Nat}

/-- A loop whose round `i` rewrites the points `q` with `own q = i`, reading no others, rewrites the points of all its
rounds, each from its old value: the rounds of a stage are independent (R179). -/
theorem point_loop_of_rounds {N : Nat} {f : Nat → List α → List α} {own : Nat → Nat} {old new : Nat → α × α}
    (hlen : ∀ i b, (f i b).length = b.length)
    (hround : ∀ i < n, ∀ c : List α, c.length = 2 * N → (∀ q < N, own q = i → point A c q = old q) →
      ∀ q < N, point A (f i c) q = if own q = i then new q else point A c q)
    (hb : b.length = 2 * N) (hold : ∀ q < N, own q < n → point A b q = old q) :
    ∀ q < N, point A (loop n f b) q = if own q < n then new q else point A b q := by
  induction n with
  | zero => simp
  | succ n ih =>
    have ih := ih (fun i hi => hround i (by omega)) fun q hq hown => hold q hq (by omega)
    intro q hq
    have hread : ∀ q < N, own q = n → point A (loop n f b) q = old q := fun q hq hown => by
      rw [ih q hq, if_neg (by omega), hold q hq (by omega)]
    rw [loop_succ, hround n (by omega) _ ((loop_length hlen b).trans hb) hread q hq, ih q hq]
    by_cases hown : own q = n
    · rw [if_pos hown, if_pos (by omega)]
    · simp only [hown, if_false, Nat.lt_succ_iff_lt_or_eq, or_false]

/-! #### The places of a radix-4 stage -/

/-- Leg `r` of the butterfly at place `j` of block `k` (R165). -/
def legOf (l k j r : Nat) : Nat := 4 * l * k + j + r * l

theorem legOf_eq (l k j r : Nat) : legOf l k j r = 4 * l * k + j + r * l := rfl

theorem legOf_block {l j r : Nat} (k : Nat) (hj : j < l) (hr : r < 4) :
    legOf l k j r / (4 * l) = k ∧ legOf l k j r % l = j ∧ legOf l k j r / l % 4 = r := by
  have hl : 0 < l := Nat.zero_lt_of_lt hj
  have hdiv : legOf l k j r / l = 4 * k + r := by
    rw [legOf_eq, show 4 * l * k + j + r * l = j + l * (4 * k + r) by ring, Nat.add_mul_div_left _ _ hl,
      Nat.div_eq_of_lt hj, Nat.zero_add]
  refine ⟨?_, ?_, ?_⟩
  · rw [Nat.mul_comm, ← Nat.div_div_eq_div_mul, hdiv]
    omega
  · rw [legOf_eq, show 4 * l * k + j + r * l = j + l * (4 * k + r) by ring, Nat.add_mul_mod_self_left,
      Nat.mod_eq_of_lt hj]
  · rw [hdiv]
    omega

/-- Every point is one leg of one butterfly. -/
theorem legOf_self (l q : Nat) : legOf l (q / (4 * l)) (q % l) (q / l % 4) = q := by
  have hblock : q / (4 * l) = q / l / 4 := by rw [Nat.div_div_eq_div_mul, Nat.mul_comm l 4]
  calc legOf l (q / (4 * l)) (q % l) (q / l % 4)
      = l * (4 * (q / l / 4) + q / l % 4) + q % l := by rw [legOf_eq, hblock]; ring
    _ = q := by rw [Nat.div_add_mod, Nat.div_add_mod]

theorem legOf_eq_iff {l k j r : Nat} (hj : j < l) (hr : r < 4) (q : Nat) :
    legOf l k j r = q ↔ (q / (4 * l) = k ∧ q % l = j) ∧ q / l % 4 = r := by
  constructor
  · rintro rfl
    obtain ⟨hk, hm, hl⟩ := legOf_block k hj hr
    exact ⟨⟨hk, hm⟩, hl⟩
  · rintro ⟨⟨rfl, rfl⟩, rfl⟩
    exact legOf_self l q

/-- The four outputs of a butterfly (R163). -/
abbrev Legs (α : Type) : Type := (α × α) × (α × α) × (α × α) × (α × α)

/-- Component `r` of the four outputs of a butterfly. -/
def leg (y : Legs α) : Nat → α × α
  | 0 => y.1
  | 1 => y.2.1
  | 2 => y.2.2.1
  | _ => y.2.2.2

/-- The four outputs of a butterfly stored at their legs. -/
def setLegs (b : List α) (p l : Nat) (y : Legs α) : List α :=
  setPoint (setPoint (setPoint (setPoint b p y.1) (p + l) y.2.1) (p + 2 * l) y.2.2.1) (p + 3 * l) y.2.2.2

theorem point_setLegs {p l : Nat} (hb : 2 * (p + 3 * l) + 1 < b.length) (y : Legs α) (q : Nat) :
    point A (setLegs b p l y) q
      = if p + 3 * l = q then leg y 3 else if p + 2 * l = q then leg y 2 else if p + l = q then leg y 1
        else if p = q then leg y 0 else point A b q := by
  rw [setLegs, Permuter.point_setPoint (by simpa using hb),
    Permuter.point_setPoint (by simp only [setPoint_length]; omega),
    Permuter.point_setPoint (by simp only [setPoint_length]; omega), Permuter.point_setPoint (by omega)]
  rfl

/-- One butterfly rewrites its own four points. -/
theorem point_setLegs_legOf {l k j N : Nat} (hj : j < l) (hb : b.length = 2 * N) (hN : legOf l k j 3 < N)
    (y : Legs α) (q : Nat) : point A (setLegs b (legOf l k j 0) l y) q
      = if q / (4 * l) = k ∧ q % l = j then leg y (q / l % 4) else point A b q := by
  have hlegs : ∀ r, legOf l k j 0 + r * l = legOf l k j r := fun r => by simp [legOf_eq]
  have hleg1 : legOf l k j 0 + l = legOf l k j 1 := by simp [legOf_eq]
  rw [point_setLegs (by rw [hb, hlegs]; omega), hlegs, hlegs, hleg1]
  simp only [legOf_eq_iff hj (show 0 < 4 by decide), legOf_eq_iff hj (show 1 < 4 by decide),
    legOf_eq_iff hj (show 2 < 4 by decide), legOf_eq_iff hj (show 3 < 4 by decide)]
  by_cases hq : q / (4 * l) = k ∧ q % l = j
  · have hr : q / l % 4 < 4 := Nat.mod_lt _ (by decide)
    interval_cases hleg : q / l % 4 <;> simp [hq]
  · simp [hq]

/-- The outputs of a butterfly whose operands are read from `P`. -/
def butterflyAt (out : α × α → α × α → α × α → α × α → Legs α) (P : Nat → α × α)
    (l k j : Nat) : Legs α :=
  out (P (legOf l k j 0)) (P (legOf l k j 1)) (P (legOf l k j 2)) (P (legOf l k j 3))

variable {out : α × α → α × α → α × α → α × α → Legs α}

theorem butterflyAt_congr {P P' : Nat → α × α} {l k j : Nat} (h : ∀ r < 4, P (legOf l k j r) = P' (legOf l k j r)) :
    butterflyAt out P l k j = butterflyAt out P' l k j := by
  simp only [butterflyAt, h 0 (by decide), h 1 (by decide), h 2 (by decide), h 3 (by decide)]

theorem legOf_lt {l k j r N : Nat} (hj : j < l) (hr : r < 4) (hN : 4 * l * (k + 1) ≤ N) : legOf l k j r < N := by
  have hrl : r * l ≤ 3 * l := Nat.mul_le_mul_right l (Nat.le_of_lt_succ hr)
  rw [Nat.mul_succ] at hN
  rw [legOf_eq]
  omega

/-- The butterflies of one block rewrite the points of that block. -/
theorem point_block {f : Nat → List α → List α} {l k N : Nat}
    (hf : ∀ j c, f j c = setLegs c (legOf l k j 0) l (butterflyAt out (point A c) l k j))
    (hl : 0 < l) (hN : 4 * l * (k + 1) ≤ N) (hb : b.length = 2 * N) :
    ∀ q < N, point A (loop l f b) q
      = if q / (4 * l) = k then leg (butterflyAt out (point A b) l k (q % l)) (q / l % 4) else point A b q := by
  have hmod : ∀ q, q % l < l := fun q => Nat.mod_lt q hl
  have hown : ∀ q j, j < l → ((if q / (4 * l) = k then q % l else l) = j ↔ q / (4 * l) = k ∧ q % l = j) := by
    intro q j hj
    split <;> simp [*, hj.ne']
  have hloop := point_loop_of_rounds (A := A) (b := b) (n := l) (N := N) (f := f) (old := point A b)
    (own := fun q => if q / (4 * l) = k then q % l else l)
    (new := fun q => leg (butterflyAt out (point A b) l k (q % l)) (q / l % 4))
    (fun j c => by rw [hf, setLegs]; simp) ?_ hb fun _ _ _ => rfl
  · intro q hq
    rw [hloop q hq]
    by_cases hk : q / (4 * l) = k <;> simp [hk, hmod]
  · intro j hj c hc hread q hq
    rw [hf, point_setLegs_legOf hj hc (legOf_lt hj (by decide) hN)]
    simp only [hown q j hj]
    split
    · next hqj =>
      rw [hqj.2, butterflyAt_congr fun r hr => hread _ (legOf_lt hj hr hN) ?_]
      obtain ⟨hk, hm, -⟩ := legOf_block k hj hr
      exact (hown _ j hj).mpr ⟨hk, hm⟩
    · rfl

/-- The outputs of a butterfly of block `k`, as a pass stores them (R165). -/
def passOutputs (A : Arith α) (T : Coeffs α) (k : Nat) (a0 a1 a2 a3 : α × α) : Legs α :=
  let y := bfly4 A a0 a1 a2 a3
  let w := twiddles A T k
  if k = 0 then y else (y.1, wmul A w.1 y.2.1, wmul A w.2.1 y.2.2.1, wmul A w.2.2 y.2.2.2)

theorem passButterfly_eq (A : Arith α) (T : Coeffs α) (l k j : Nat) (b : List α) : passButterfly A T l k j b
    = setLegs b (legOf l k j 0) l (butterflyAt (passOutputs A T k) (point A b) l k j) := by
  by_cases hk : k = 0 <;>
    simp only [passButterfly, setLegs, butterflyAt, passOutputs, legOf_eq, hk, if_true, if_false, Nat.zero_mul,
      Nat.one_mul, Nat.add_zero]

/-- `PASS4`: each point becomes the output of its butterfly (R165). -/
theorem point_pass4 (A : Arith α) (T : Coeffs α) {l K : Nat} (hl : 0 < l) (hn : n = 4 * l * K)
    (hb : b.length = 2 * n) : ∀ q < n, point A (pass4 A T n l b) q
      = leg (butterflyAt (passOutputs A T (q / (4 * l))) (point A b) l (q / (4 * l)) (q % l)) (q / l % 4) := by
  have h4l : 0 < 4 * l := by omega
  have hK : n / (4 * l) = K := by rw [hn, Nat.mul_div_cancel_left _ h4l]
  have hblock : ∀ q < n, q / (4 * l) < n / (4 * l) := fun q hq => by
    rw [hK]
    exact Nat.div_lt_of_lt_mul (hn ▸ hq)
  have hloop := point_loop_of_rounds (A := A) (b := b) (n := n / (4 * l)) (N := n) (old := point A b)
    (f := fun k b => loop l (fun j b => passButterfly A T l k j b) b) (own := fun q => q / (4 * l))
    (new := fun q => leg (butterflyAt (passOutputs A T (q / (4 * l))) (point A b) l (q / (4 * l)) (q % l)) (q / l % 4))
    (fun k c => loop_length (fun j c => passButterfly_length ..) c) ?_ hb fun _ _ _ => rfl
  · intro q hq
    rw [pass4, hloop q hq, if_pos (hblock q hq)]
  · intro k hk c hc hread q hq
    have hkN : 4 * l * (k + 1) ≤ n := by
      rw [hn]
      exact Nat.mul_le_mul_left _ (hK ▸ hk)
    rw [point_block (passButterfly_eq A T l k) hl hkN hc q hq]
    split
    · next hqk =>
      subst hqk
      rw [butterflyAt_congr fun r hr => hread _ (legOf_lt (Nat.mod_lt q hl) hr hkN) ?_]
      exact (legOf_block _ (Nat.mod_lt q hl) hr).1
    · rfl

/-- The operands of `FIN4` in the order it reads them (R166). -/
def finOutputs (A : Arith α) (n : Nat) (a0 a1 a2 a3 : α × α) : Legs α :=
  if n = 4 then bfly4 A a0 a2 a1 a3 else bfly4 A a0 a1 a2 a3

/-- `FIN4` is one block of butterflies (R166). -/
theorem point_fin4 (A : Arith α) {l : Nat} (hl : 0 < l) (hn : n = 4 * l) (hb : b.length = 2 * n) :
    ∀ q < n, point A (fin4 A n l b) q
      = leg (butterflyAt (finOutputs A n) (point A b) l 0 (q % l)) (q / l % 4) := by
  intro q hq
  have hblock : q / (4 * l) = 0 := Nat.div_eq_of_lt (hn ▸ hq)
  rw [fin4, point_block (k := 0) (out := finOutputs A n) (fun j c => ?_) hl (by omega) hb q hq, if_pos hblock]
  by_cases h4 : n = 4 <;>
    simp only [setLegs, butterflyAt, finOutputs, legOf_eq, h4, if_true, if_false, Nat.zero_mul, Nat.one_mul,
      Nat.add_zero, Nat.mul_zero, Nat.zero_add]

/-- The first output of a round of `FIN2` (R167). -/
def sumOf (A : Arith α) (a0 a1 : α × α) : α × α := (A.add a0.1 a1.1, A.add a0.2 a1.2)

/-- The second of them. -/
def differenceOf (A : Arith α) (a0 a1 : α × α) : α × α := (A.sub a0.1 a1.1, A.sub a0.2 a1.2)

theorem fin2_eq (A : Arith α) (l : Nat) (b : List α) : fin2 A l b = loop l (fun j b =>
    setPoint (setPoint b j (sumOf A (point A b j) (point A b (j + l)))) (j + l)
      (differenceOf A (point A b j) (point A b (j + l)))) b := rfl

/-- `FIN2`: sums in the first half, differences in the second (R167). -/
theorem point_fin2 (A : Arith α) {l : Nat} (hb : b.length = 2 * (2 * l)) : ∀ q < 2 * l, point A (fin2 A l b) q
    = if q < l then sumOf A (point A b (q % l)) (point A b (q % l + l))
      else differenceOf A (point A b (q % l)) (point A b (q % l + l)) := by
  have hown : ∀ q < 2 * l, ∀ j < l, q % l = j ↔ q = j ∨ q = j + l := by
    intro q hq j hj
    rcases Nat.lt_or_ge q l with hql | hql
    · rw [Nat.mod_eq_of_lt hql]
      omega
    · rw [Nat.mod_eq_sub_mod hql, Nat.mod_eq_of_lt (by omega)]
      omega
  intro q hq
  rw [fin2_eq, point_loop_of_rounds (own := (· % l)) (old := point A b) (fun j c => by simp) ?_ hb
    (fun _ _ _ => rfl) q hq, if_pos (Nat.mod_lt q (by omega))]
  intro j hj c hc hread q hq
  rw [Permuter.point_setPoint (by rw [setPoint_length]; omega), Permuter.point_setPoint (by omega),
    hread j (by omega) ((hown j (by omega) j hj).mpr (.inl rfl)),
    hread (j + l) (by omega) ((hown (j + l) (by omega) j hj).mpr (.inr rfl))]
  simp only [hown q hq j hj]
  by_cases hsum : q = j
  · simp [hsum, hj, (Nat.zero_lt_of_lt hj).ne', Nat.mod_eq_of_lt hj]
  · by_cases hdiff : q = j + l
    · simp [hdiff, Nat.mod_eq_of_lt hj]
    · simp [hsum, hdiff, Ne.symm hsum, Ne.symm hdiff]

/-- `CONJ` negates every imaginary part (R168). -/
theorem point_conj (A : Arith α) (hb : 2 * n ≤ b.length) {q : Nat} (hq : q < n) :
    point A (Machine.conj A n b) q = Permuter.conj A (point A b q) := by
  have hloop := Permuter.point_loop_negateIm (A := A) (c := fun _ => True) hb q
  rw [Machine.conj]
  simpa only [if_true, hq, and_true] using hloop

end Points

/-! ### Roots of unity -/

/-- exp(2 pi i t / 2^m). -/
noncomputable def root (m t : Nat) : ℂ := Complex.exp (2 * Real.pi * Complex.I * t / (2 ^ m : Nat))

theorem root_eq (m t : Nat) : root m t = Complex.exp (2 * Real.pi * Complex.I * t / (2 ^ m : Nat)) := rfl

theorem root_add (m s t : Nat) : root m (s + t) = root m s * root m t := by
  rw [root_eq, root_eq, root_eq, ← Complex.exp_add]
  congr 1
  push_cast
  ring

theorem root_mul (m t r : Nat) : root m (t * r) = root m t ^ r := by
  rw [root_eq, root_eq, ← Complex.exp_nat_mul]
  congr 1
  push_cast
  ring

/-- A common power of two may be taken out of the fraction. -/
theorem root_scale (m a t : Nat) : root (m + a) (t * 2 ^ a) = root m t := by
  rw [root_eq, root_eq]
  congr 1
  push_cast
  rw [pow_add, ← mul_assoc, mul_div_mul_right _ _ (pow_ne_zero a two_ne_zero)]

@[simp] theorem root_zero (m : Nat) : root m 0 = 1 := by simp [root_eq]

theorem root_zero_left (t : Nat) : root 0 t = 1 := by
  rw [root_eq, ← Complex.exp_nat_mul_two_pi_mul_I t]
  congr 1
  push_cast
  ring

theorem root_one_one : root 1 1 = -1 := by
  rw [root_eq, ← Complex.exp_pi_mul_I]
  congr 1
  push_cast
  ring

theorem root_two_one : root 2 1 = Complex.I := by
  rw [root_eq]
  have : 2 * (Real.pi : ℂ) * Complex.I * (1 : Nat) / (2 ^ 2 : Nat) = Real.pi / 2 * Complex.I := by
    push_cast
    ring
  rw [this, Complex.exp_pi_div_two_mul_I]

/-- A whole number of turns. -/
theorem root_two_pow_mul (m t : Nat) : root m (t * 2 ^ m) = 1 := by
  have hscale := root_scale 0 m t
  rwa [Nat.zero_add, root_zero_left] at hscale

/-- A power of a root, at an index taken apart at 2^d. -/
theorem root_class (d a j c r : Nat) : root (d + a) ((j + c * 2 ^ d) * r) = (root (d + a) j * root a c) ^ r := by
  rw [root_mul, root_add, Nat.add_comm d a, root_scale]

/-! ### The part of a transform that one class of indices contributes -/

/-- The terms x[i]·exp(2 pi i·i·q / 2^(e+d)) of the transform at `q`, summed over the 2^e indices i ≡ j (mod 2^d). -/
noncomputable def classSum (x : Nat → ℂ) (e d j q : Nat) : ℂ :=
  ∑ s ∈ Finset.range (2 ^ e), x (j + s * 2 ^ d) * root (e + d) ((j + s * 2 ^ d) * q)

theorem sum_range_classes (f : Nat → ℂ) (L C : Nat) :
    ∑ s ∈ Finset.range (L * C), f s = ∑ c ∈ Finset.range C, ∑ s ∈ Finset.range L, f (c + s * C) := by
  rw [Finset.sum_comm]
  induction L with
  | zero => simp
  | succ L ih =>
    rw [Nat.succ_mul, Finset.sum_range_add, ih, Finset.sum_range_succ]
    simp only [Nat.add_comm]

/-- A class mod 2^d is made of 2^a classes mod 2^(d+a); over each the frequency `q` may be raised by a multiple of 2^e
at the price of one factor. -/
theorem classSum_split (x : Nat → ℂ) (e d a j q r : Nat) : classSum x (e + a) d j (q + r * 2 ^ e)
    = ∑ c ∈ Finset.range (2 ^ a), (root (d + a) j * root a c) ^ r * classSum x e (d + a) (j + c * 2 ^ d) q := by
  rw [classSum, pow_add, sum_range_classes]
  refine Finset.sum_congr rfl fun c _ => ?_
  rw [classSum, Finset.mul_sum]
  refine Finset.sum_congr rfl fun s _ => ?_
  have hidx : j + (c + s * 2 ^ a) * 2 ^ d = j + c * 2 ^ d + s * 2 ^ (d + a) := by ring
  have hfreq : ∀ i, i = j + c * 2 ^ d + s * 2 ^ (d + a) →
      root (e + (d + a)) (i * (q + r * 2 ^ e)) = (root (d + a) j * root a c) ^ r * root (e + (d + a)) (i * q) := by
    rintro i rfl
    rw [← root_class]
    rw [Nat.mul_add, root_add, mul_comm, ← Nat.mul_assoc, Nat.add_comm e, root_scale, Nat.add_mul, root_add,
      Nat.mul_right_comm s, root_two_pow_mul, mul_one]
  rw [show e + a + d = e + (d + a) by omega, hidx, hfreq _ rfl]
  ring

theorem classSum_zero (x : Nat → ℂ) (d j : Nat) : classSum x 0 d j 0 = x j := by simp [classSum]

/-- One class holds the whole transform. -/
theorem classSum_whole (x : Nat → ℂ) (m q : Nat) : classSum x m 0 0 q
    = ∑ j ∈ Finset.range (2 ^ m), x j * root m (j * q) := by simp [classSum]

/-- Two classes: one addition or subtraction. -/
theorem classSum_radix2 (x : Nat → ℂ) (e d j q r : Nat) : classSum x (e + 1) d j (q + r * 2 ^ e)
    = root (d + 1) j ^ r * (classSum x e (d + 1) j q + (-1) ^ r * classSum x e (d + 1) (j + 2 ^ d) q) := by
  rw [classSum_split]
  simp only [pow_one, Finset.sum_range_succ, Finset.sum_range_zero, root_zero, root_one_one, Nat.zero_mul, Nat.one_mul,
    Nat.add_zero]
  ring

/-- Four classes: the butterfly of radix 4. -/
theorem classSum_radix4 (x : Nat → ℂ) (e d j q r : Nat) : classSum x (e + 2) d j (q + r * 2 ^ e)
    = root (d + 2) j ^ r * (classSum x e (d + 2) j q + (Complex.I ^ r) * classSum x e (d + 2) (j + 2 ^ d) q
      + (Complex.I ^ r) ^ 2 * classSum x e (d + 2) (j + 2 * 2 ^ d) q
      + (Complex.I ^ r) ^ 3 * classSum x e (d + 2) (j + 3 * 2 ^ d) q) := by
  have hrootc : ∀ c, root 2 c = Complex.I ^ c := fun c => by rw [← root_two_one, ← root_mul, Nat.one_mul]
  rw [classSum_split]
  simp only [show 2 ^ 2 = 4 from rfl, Finset.sum_range_succ, Finset.sum_range_zero, hrootc, Nat.zero_mul,
    Nat.one_mul, Nat.add_zero]
  ring

/-! ### The twiddles of a block (R162) -/

/-- A complex number as a point. -/
def parts (z : ℂ) : ℝ × ℝ := (z.re, z.im)

theorem parts_eq (z : ℂ) : parts z = (z.re, z.im) := rfl

/-- The angle of twiddle entry `k` (40_table_cache.md R124). -/
noncomputable def twiddleAngle (k : Nat) : ℝ := Real.pi / 2 * brfrac k

/-- `TW[k]` as a complex number, the turn by its angle. -/
noncomputable def turn (k : Nat) : ℂ := Complex.exp (twiddleAngle k * Complex.I)

theorem parts_turn (k : Nat) : parts (turn k) = exactCoeffs.tw k := by
  rw [parts_eq, turn, Complex.exp_ofReal_mul_I_re, Complex.exp_ofReal_mul_I_im]
  rfl

theorem turn_eq_root {d k : Nat} (hk : k < 2 ^ d) : turn k = root (d + 2) (rev d k) := by
  rw [turn, root_eq, twiddleAngle, Scope.brfrac_eq_of_lt hk]
  congr 1
  push_cast
  rw [pow_add]
  field_simp

theorem two_mul_brfrac (k : Nat) : 2 * brfrac k = (k % 2 : Nat) + brfrac (k / 2) := by
  have hk := Scope.lt_two_pow_bitCount k
  rw [Scope.brfrac_eq_of_lt (hk.trans (Nat.pow_lt_pow_right (by decide) (Nat.lt_succ_self _))),
    Scope.brfrac_eq_of_lt ((Nat.div_le_self k 2).trans_lt hk), Scope.rev_succ]
  push_cast
  rw [pow_succ]
  field_simp

/-- The entry of half the block, turned a quarter for an odd block, is the square of its own. -/
theorem turn_sq (k : Nat) : turn k ^ 2 = if k % 2 = 0 then turn (k / 2) else Complex.I * turn (k / 2) := by
  have hangle : (2 : ℂ) * twiddleAngle k = Real.pi / 2 * (k % 2 : Nat) + twiddleAngle (k / 2) := by
    have hreal : 2 * twiddleAngle k = Real.pi / 2 * (k % 2 : Nat) + twiddleAngle (k / 2) := by
      rw [twiddleAngle, twiddleAngle, mul_left_comm, two_mul_brfrac]
      ring
    exact_mod_cast congrArg Complex.ofReal hreal
  rw [turn, ← Complex.exp_nat_mul, ← mul_assoc, Nat.cast_two, hangle]
  rcases Nat.mod_two_eq_zero_or_one k with h | h
  · simp [h, turn]
  · rw [h, Nat.cast_one, mul_one, add_mul, Complex.exp_add, Complex.exp_pi_div_two_mul_I, if_neg (by decide), turn]

theorem turn_norm (k : Nat) : (turn k).re ^ 2 + (turn k).im ^ 2 = 1 := by
  rw [turn, Complex.exp_ofReal_mul_I_re, Complex.exp_ofReal_mul_I_im]
  exact Real.cos_sq_add_sin_sq _

/-- The three twiddles of a block are the powers of its entry. -/
theorem twiddles_exact (k : Nat) : twiddles exactArith exactCoeffs k
    = (parts (turn k), parts (turn k ^ 2), parts (turn k ^ 3)) := by
  have hw2 : (if k % 2 = 0 then exactCoeffs.tw (k / 2)
      else (exactArith.neg (exactCoeffs.tw (k / 2)).2, (exactCoeffs.tw (k / 2)).1)) = parts (turn k ^ 2) := by
    rw [turn_sq, ← parts_turn]
    split
    · rfl
    · simp [parts_eq, exactArith]
  have hnorm := turn_norm k
  simp only [twiddles, hw2]
  rw [← parts_turn]
  simp only [Prod.mk.injEq, true_and]
  simp only [parts_eq, exactArith, pow_succ, pow_zero, one_mul, Complex.mul_re, Complex.mul_im, Prod.mk.injEq]
  constructor
  · linear_combination (turn k).re * (-hnorm)
  · linear_combination (turn k).im * hnorm

/-! ### The stages in exact arithmetic (R163 to R169) -/

/-- The four sums of a butterfly, each operand a complex number (R163). -/
theorem leg_bfly4 (a0 a1 a2 a3 : ℂ) {r : Nat} (hr : r < 4) :
    leg (bfly4 exactArith (parts a0) (parts a1) (parts a2) (parts a3)) r
      = parts (a0 + Complex.I ^ r * a2 + (Complex.I ^ r) ^ 2 * a1 + (Complex.I ^ r) ^ 3 * a3) := by
  have hcube : Complex.I ^ 3 = -Complex.I := Complex.I_pow_three
  interval_cases r
  all_goals
    simp [leg, bfly4, parts_eq, exactArith, pow_succ, hcube]
    constructor <;> ring

theorem wmul_exact (w y : ℂ) : wmul exactArith (parts w) (parts y) = parts (w * y) := rfl

theorem wmul_one (y : ℝ × ℝ) : wmul exactArith (parts 1) y = y := by simp [wmul, parts_eq, exactArith]

/-- The outputs of a pass are those of the butterfly, output `r` turned `r` times by the entry of the block. -/
theorem leg_passOutputs (k : Nat) (a0 a1 a2 a3 : ℂ) {r : Nat} (hr : r < 4) :
    leg (passOutputs exactArith exactCoeffs k (parts a0) (parts a1) (parts a2) (parts a3)) r
      = parts (turn k ^ r
        * (a0 + Complex.I ^ r * a2 + (Complex.I ^ r) ^ 2 * a1 + (Complex.I ^ r) ^ 3 * a3)) := by
  by_cases hk : k = 0
  · have hturn : turn 0 = 1 := by simp [turn, twiddleAngle, Scope.brfrac_eq_of_lt (k := 0) (d := 0) (by decide)]
    rw [passOutputs, if_pos hk, leg_bfly4 _ _ _ _ hr, hk, hturn, one_pow, one_mul]
  · rw [← wmul_exact, ← leg_bfly4 _ _ _ _ hr, passOutputs, if_neg hk, twiddles_exact]
    interval_cases r <;> simp [leg, wmul_one]

/-- What point `p` holds before the stage of quarter-stride 2^e, of 2^(e+d) points: the part of the transform at
p mod 2^e that the indices of its class contribute, the classes in bit-reversed order. -/
noncomputable def stageValue (x : Nat → ℂ) (e d p : Nat) : ℂ := classSum x e d (rev d (p / 2 ^ e)) (p % 2 ^ e)

/-- At the start this is the bit-reversed input. -/
theorem stageValue_start (x : Nat → ℂ) (m p : Nat) : stageValue x 0 m p = x (rev m p) := by
  rw [stageValue, pow_zero, Nat.div_one, Nat.mod_one, classSum_zero]

/-- At the end it is the transform, in natural order (R171). -/
theorem stageValue_end (x : Nat → ℂ) {m p : Nat} (hp : p < 2 ^ m) : stageValue x m 0 p
    = ∑ j ∈ Finset.range (2 ^ m), x j * root m (j * p) := by
  rw [stageValue, Scope.rev_zero, Nat.mod_eq_of_lt hp, classSum_whole]

theorem four_mul_two_pow (e : Nat) : 4 * 2 ^ e = 2 ^ (e + 2) := by ring

/-- The values at the four legs of a butterfly: the classes into which that of its block falls apart, the two middle
ones exchanged. -/
theorem stageValue_legOf (x : Nat → ℂ) {e d k j r : Nat} (hj : j < 2 ^ e) (hr : r < 4) :
    stageValue x e (d + 2) (legOf (2 ^ e) k j r) = classSum x e (d + 2) (rev d k + rev 2 r * 2 ^ d) j := by
  have hdiv : legOf (2 ^ e) k j r / 2 ^ e = r + 2 ^ 2 * k := by
    rw [legOf_eq, show 4 * 2 ^ e * k + j + r * 2 ^ e = j + 2 ^ e * (r + 2 ^ 2 * k) by ring,
      Nat.add_mul_div_left _ _ (by positivity), Nat.div_eq_of_lt hj, Nat.zero_add]
  rw [stageValue, hdiv, (legOf_block k hj hr).2.1, Nat.add_comm d 2, Permuter.rev_add 2 d k hr, Nat.mul_comm]

/-- The value at a leg after the pass. -/
theorem stageValue_next (x : Nat → ℂ) (e d q : Nat) : stageValue x (e + 2) d q
    = classSum x (e + 2) d (rev d (q / (4 * 2 ^ e))) (q % 2 ^ e + q / 2 ^ e % 4 * 2 ^ e) := by
  rw [stageValue, ← four_mul_two_pow, Nat.mul_comm 4, Nat.mod_mul, Nat.mul_comm (2 ^ e) (_ % 4)]

/-- A pass takes the values of one quarter-stride to those of the next. -/
theorem point_pass4_exact (x : Nat → ℂ) {m e d : Nat} (hm : m = e + (d + 2)) {b : List ℝ} (hb : b.length = 2 * 2 ^ m)
    (h : ∀ q < 2 ^ m, point exactArith b q = parts (stageValue x e (d + 2) q)) :
    ∀ q < 2 ^ m, point exactArith (pass4 exactArith exactCoeffs (2 ^ m) (2 ^ e) b) q
      = parts (stageValue x (e + 2) d q) := by
  intro q hq
  have hsize : 2 ^ m = 4 * 2 ^ e * 2 ^ d := by rw [hm]; ring
  have hk : q / (4 * 2 ^ e) < 2 ^ d := Nat.div_lt_of_lt_mul (hsize ▸ hq)
  have hj : q % 2 ^ e < 2 ^ e := Nat.mod_lt q (by positivity)
  have hr : q / 2 ^ e % 4 < 4 := Nat.mod_lt _ (by decide)
  have hlegs : ∀ r < 4, point exactArith b (legOf (2 ^ e) (q / (4 * 2 ^ e)) (q % 2 ^ e) r)
      = parts (classSum x e (d + 2) (rev d (q / (4 * 2 ^ e)) + rev 2 r * 2 ^ d) (q % 2 ^ e)) := fun r hr => by
    have hlt := legOf_lt hj hr (Nat.mul_le_mul_left (4 * 2 ^ e) (Nat.succ_le_of_lt hk))
    rw [h _ (hsize ▸ hlt), stageValue_legOf x hj hr]
  rw [point_pass4 exactArith exactCoeffs (by positivity) hsize hb q hq, butterflyAt, hlegs 0 (by decide),
    hlegs 1 (by decide), hlegs 2 (by decide), hlegs 3 (by decide), leg_passOutputs _ _ _ _ _ hr, stageValue_next,
    classSum_radix4, turn_eq_root hk]
  simp [rev]

/-- The operands of the last butterflies, in the order `BFLY4` is given them: with four points, which were not permuted,
`FIN4` reads the middle two exchanged (R166, 41_bitrev_permuter.md R148). -/
theorem finOutputs_exact {e : Nat} {P : Nat → ℝ × ℝ} {v : Nat → ℂ} {j : Nat}
    (h : ∀ r < 4, P (legOf (2 ^ e) 0 j r) = parts (v (if e = 0 then r else rev 2 r))) :
    butterflyAt (finOutputs exactArith (2 ^ (e + 2))) P (2 ^ e) 0 j
      = bfly4 exactArith (parts (v 0)) (parts (v 2)) (parts (v 1)) (parts (v 3)) := by
  have h4 : 2 ^ (e + 2) = 4 ↔ e = 0 := by
    rw [show 4 = 2 ^ 2 from rfl, Nat.pow_right_inj (by decide)]
    omega
  rw [butterflyAt, h 0 (by decide), h 1 (by decide), h 2 (by decide), h 3 (by decide), finOutputs]
  by_cases he : e = 0 <;> simp [he, h4, rev]

/-- `FIN4` completes the transform. -/
theorem point_fin4_exact (x : Nat → ℂ) {e : Nat} {b : List ℝ} (hb : b.length = 2 * 2 ^ (e + 2))
    (h : ∀ q < 2 ^ (e + 2), point exactArith b q = parts (if e = 0 then x q else stageValue x e 2 q)) :
    ∀ q < 2 ^ (e + 2), point exactArith (fin4 exactArith (2 ^ (e + 2)) (2 ^ e) b) q
      = parts (stageValue x (e + 2) 0 q) := by
  intro q hq
  have hsize : 2 ^ (e + 2) = 4 * 2 ^ e := (four_mul_two_pow e).symm
  have hj : q % 2 ^ e < 2 ^ e := Nat.mod_lt q (by positivity)
  have hlegs : ∀ r < 4, point exactArith b (legOf (2 ^ e) 0 (q % 2 ^ e) r)
      = parts (classSum x e 2 (if e = 0 then r else rev 2 r) (q % 2 ^ e)) := fun r hr => by
    rw [h _ (hsize ▸ legOf_lt hj hr (by simp))]
    by_cases he : e = 0
    · subst he
      simp [legOf_eq, Nat.mod_one, classSum_zero]
    · rw [if_neg he, if_neg he, stageValue_legOf x (d := 0) hj hr]
      simp
  rw [point_fin4 exactArith (by positivity) hsize hb q hq,
    finOutputs_exact (v := fun c => classSum x e 2 c (q % 2 ^ e)) hlegs, leg_bfly4 _ _ _ _ (Nat.mod_lt _ (by decide)),
    stageValue_next, classSum_radix4]
  simp

/-- The values of the two halves before the last additions: those of the even and of the odd indices. -/
theorem stageValue_half (x : Nat → ℂ) {e j r : Nat} (hj : j < 2 ^ e) (hr : r < 2) :
    stageValue x e 1 (j + r * 2 ^ e) = classSum x e 1 r j := by
  have hdiv : (j + r * 2 ^ e) / 2 ^ e = r := by
    rw [Nat.add_mul_div_right _ _ (by positivity), Nat.div_eq_of_lt hj, Nat.zero_add]
  have hrev : rev 1 r = r := by interval_cases r <;> rfl
  rw [stageValue, hdiv, hrev, Nat.add_mul_mod_self_right, Nat.mod_eq_of_lt hj]

theorem stageValue_radix2 (x : Nat → ℂ) (e q : Nat) : stageValue x (e + 1) 0 q
    = classSum x e 1 0 (q % 2 ^ e) + (-1) ^ (q / 2 ^ e % 2) * classSum x e 1 1 (q % 2 ^ e) := by
  have hsplit : q % 2 ^ (e + 1) = q % 2 ^ e + q / 2 ^ e % 2 * 2 ^ e := by
    rw [pow_succ, Nat.mod_mul, Nat.mul_comm (2 ^ e)]
  rw [stageValue, Scope.rev_zero, hsplit, classSum_radix2]
  simp

/-- `FIN2` completes the transform. -/
theorem point_fin2_exact (x : Nat → ℂ) {e : Nat} {b : List ℝ} (hb : b.length = 2 * 2 ^ (e + 1))
    (h : ∀ q < 2 ^ (e + 1), point exactArith b q = parts (stageValue x e 1 q)) :
    ∀ q < 2 ^ (e + 1), point exactArith (fin2 exactArith (2 ^ e) b) q = parts (stageValue x (e + 1) 0 q) := by
  intro q hq
  have hsize : 2 ^ (e + 1) = 2 * 2 ^ e := pow_succ' 2 e
  have hj : q % 2 ^ e < 2 ^ e := Nat.mod_lt q (by positivity)
  have hhalf : ∀ r < 2, point exactArith b (q % 2 ^ e + r * 2 ^ e) = parts (classSum x e 1 r (q % 2 ^ e)) :=
    fun r hr => by
      have hle : r * 2 ^ e ≤ 1 * 2 ^ e := Nat.mul_le_mul_right _ (Nat.le_of_lt_succ hr)
      rw [h _ (by omega), stageValue_half x hj hr]
  have hlow := hhalf 0 (by decide)
  have hhigh := hhalf 1 (by decide)
  rw [Nat.zero_mul, Nat.add_zero] at hlow
  rw [Nat.one_mul] at hhigh
  rw [point_fin2 exactArith (hsize ▸ hb) q (hsize ▸ hq), hlow, hhigh, stageValue_radix2]
  split
  · next hlt =>
    rw [Nat.div_eq_of_lt hlt]
    simp [sumOf, parts_eq, exactArith]
  · next hge =>
    have hdiv : q / 2 ^ e = 1 := Nat.div_eq_of_lt_le (by omega) (by omega)
    rw [hdiv]
    simp [differenceOf, parts_eq, exactArith, sub_eq_add_neg]

/-- The loop of `PASSES`, by the number of rounds still to come: each takes the values of its quarter-stride to those of
the next, the last one to the transform. -/
theorem point_passesFrom_exact (x : Nat → ℂ) {m fuel e d : Nat} (hm : m = e + d) (hm2 : m ≠ 2) (hd : 1 ≤ d)
    (hfuel : d ≤ fuel) {b : List ℝ} (hb : b.length = 2 * 2 ^ m)
    (h : ∀ q < 2 ^ m, point exactArith b q = parts (stageValue x e d q)) :
    ∀ q < 2 ^ m, point exactArith (passesFrom exactArith exactCoeffs (2 ^ m) fuel (2 ^ e) b) q
      = parts (stageValue x m 0 q) := by
  induction fuel generalizing e d b with
  | zero => omega
  | succ fuel ih =>
    rw [passesFrom_succ, four_mul_two_pow]
    match d, hd with
    | 1, _ =>
      have hlt : 2 ^ m < 2 ^ (e + 2) := Nat.pow_lt_pow_right (by decide) (by omega)
      rw [if_neg (by omega), if_neg (by omega)]
      subst hm
      exact point_fin2_exact x hb h
    | 2, _ =>
      subst hm
      rw [if_neg (lt_irrefl _), if_pos rfl]
      refine point_fin4_exact x hb fun q hq => ?_
      rw [h q hq, if_neg (by omega)]
    | d + 3, _ =>
      rw [if_pos (Nat.pow_lt_pow_right (by decide) (by omega))]
      exact ih (d := d + 1) (by omega) (by omega) (by omega) ((pass4_length ..).trans hb) (point_pass4_exact x hm hb h)

/-- `PASSES` on a permuted buffer computes the transform, in natural order (R171). -/
theorem point_passes_exact (x : Nat → ℂ) {m : Nat} (hm : 1 ≤ m) {b : List ℝ} (hb : b.length = 2 * 2 ^ m)
    (h : ∀ q < 2 ^ m, point exactArith b q = parts (x (copyTarget (2 ^ m) q))) :
    ∀ q < 2 ^ m, point exactArith (passes exactArith exactCoeffs (2 ^ m) b) q
      = parts (∑ j ∈ Finset.range (2 ^ m), x j * root m (j * q)) := by
  intro q hq
  rw [← stageValue_end x hq]
  by_cases hm2 : m = 2
  · subst hm2
    rw [passes_four]
    exact point_fin4_exact x (e := 0) hb h q hq
  · rw [passes_two_pow]
    refine point_passesFrom_exact x (e := 0) (Nat.zero_add m).symm hm2 hm le_rfl hb (fun p hp => ?_) q hq
    rw [h p hp, stageValue_start, Permuter.copyTarget_two_pow]
    match m, hm with
    | 1, _ => interval_cases p <;> rfl
    | m + 3, _ =>
      rw [if_pos (four_lt_two_pow m)]

/-! ### The commands in exact arithmetic (R171 to R173) -/

theorem interleaved_length (n : Nat) (x : Nat → ℂ) : (interleaved n x).length = 2 * n := by simp [interleaved]

theorem point_interleaved (x : Nat → ℂ) {n q : Nat} (hq : q < n) :
    point exactArith (interleaved n x) q = parts (x q) := by
  have hcell : ∀ j < 2 * n, cellAt exactArith (interleaved n x) j
      = if j % 2 = 0 then (x (j / 2)).re else (x (j / 2)).im := fun j hj => by
    simp [Permuter.cellAt_eq, interleaved, hj]
  rw [Permuter.point_eq, hcell _ (by omega), hcell _ (by omega), if_pos (by omega), if_neg (by omega),
    show 2 * q / 2 = q by omega, show (2 * q + 1) / 2 = q by omega, parts_eq]

/-- A buffer is the interleaved sequence of its points. -/
theorem eq_interleaved {n : Nat} {b : List ℝ} {y : Nat → ℂ} (hb : b.length = 2 * n)
    (h : ∀ q < n, point exactArith b q = parts (y q)) : b = interleaved n y :=
  Permuter.ext_points exactArith hb (interleaved_length n y) fun q hq => (h q hq).trans (point_interleaved y hq).symm

theorem conj_parts (z : ℂ) : Permuter.conj exactArith (parts z) = parts (starRingEnd ℂ z) := rfl

/-- The conjugate of the transform of the conjugates has the other sign in the exponent. -/
theorem conj_sum_root (x : Nat → ℂ) (m n k : Nat) :
    starRingEnd ℂ (∑ j ∈ Finset.range n, starRingEnd ℂ (x j) * root m (j * k))
      = ∑ j ∈ Finset.range n, x j * starRingEnd ℂ (root m (j * k)) := by
  simp [map_sum]

/-- The exponent as the statements of the transforms write it. -/
theorem root_mul_eq (m j k : Nat) :
    root m (j * k) = Complex.exp (2 * Real.pi * Complex.I * j * k / (2 ^ m : Nat)) := by
  rw [root_eq, Nat.cast_mul, ← mul_assoc]

theorem conj_root_mul (m j k : Nat) : starRingEnd ℂ (root m (j * k))
    = Complex.exp (-(2 * Real.pi * Complex.I * j * k / (2 ^ m : Nat))) := by
  rw [root_mul_eq, ← Complex.exp_conj]
  simp [neg_div, mul_assoc, map_ofNat]

/-- Settles O48: the permuted buffer holds the bit-reversed input, on which the passes compute the transform; the
inverse conjugates before and after, which turns the sign of the exponent. -/
theorem complexStagesComputeTheTransform : Obligations.ComplexStagesComputeTheTransform := by
  intro m x hm
  have hlen := interleaved_length (2 ^ m) x
  have hin : ∀ q < 2 ^ m, point exactArith (interleaved (2 ^ m) x) (copyTarget (2 ^ m) q)
      = parts (x (copyTarget (2 ^ m) q)) := fun q hq => point_interleaved x (Permuter.copyTarget_lt hq)
  constructor
  · refine eq_interleaved (by simp [hlen]) fun q hq => ?_
    have hperm : ∀ p < 2 ^ m, point exactArith (perm exactArith (buildBr m) (2 ^ m) (interleaved (2 ^ m) x)) p
        = parts (x (copyTarget (2 ^ m) p)) := fun p hp => by rw [Permuter.point_perm hm hlen.ge hp, hin p hp]
    simp only [stagesCdftF, point_passes_exact x hm (by simp [hlen]) hperm q hq, root_mul_eq]
  · refine eq_interleaved (by simp [hlen]) fun q hq => ?_
    have hperm : ∀ p < 2 ^ m, point exactArith (permC exactArith (buildBr m) (2 ^ m) (interleaved (2 ^ m) x)) p
        = parts (starRingEnd ℂ (x (copyTarget (2 ^ m) p))) := fun p hp => by
      rw [Permuter.point_permC hm hlen.ge hp, hin p hp, conj_parts]
    rw [stagesCdftI, point_conj exactArith (by simp [hlen]) hq,
      point_passes_exact (fun j => starRingEnd ℂ (x j)) hm (by simp [hlen]) hperm q hq, conj_parts, conj_sum_root]
    simp only [conj_root_mul]

end Sys2Proof.ButterflyEngine
end

section
/-! SUPPORT. The Real-Transform Adapter (43_real_adapter.md): the half-length view (R191), the correction passes (R192,
R193), and what the real stages compute in exact arithmetic (R200, R201). -/

namespace Sys2Proof.RealAdapter

open Sys2Proof.Machine Sys2Proof.Claims Sys2Proof.ButterflyEngine

/-! ### Conjugates of roots of unity -/

theorem root_eq_exp_mul_I (m t : Nat) :
    root m t = Complex.exp ((2 * Real.pi * t / (2 ^ m : Nat) : ℝ) * Complex.I) := by
  rw [root_eq]
  congr 1
  push_cast
  ring

theorem root_re (m t : Nat) : (root m t).re = Real.cos (2 * Real.pi * t / (2 ^ m : Nat)) := by
  rw [root_eq_exp_mul_I, Complex.exp_ofReal_mul_I_re]

theorem root_im (m t : Nat) : (root m t).im = Real.sin (2 * Real.pi * t / (2 ^ m : Nat)) := by
  rw [root_eq_exp_mul_I, Complex.exp_ofReal_mul_I_im]

theorem root_mul_conj (m t : Nat) : root m t * starRingEnd ℂ (root m t) = 1 := by
  rw [Complex.mul_conj, Complex.normSq_apply, root_re, root_im, ← sq, ← sq, Real.cos_sq_add_sin_sq, Complex.ofReal_one]

theorem root_two_pow (h : Nat) : root (h + 1) (2 ^ h) = -1 := by
  have hscale := root_scale 1 h 1
  rwa [Nat.one_mul, Nat.add_comm, root_one_one] at hscale

/-- Half a turn less `t`. -/
theorem root_complement {h t : Nat} (ht : t ≤ 2 ^ h) :
    root (h + 1) (2 ^ h - t) = -starRingEnd ℂ (root (h + 1) t) := by
  have hhalf : root (h + 1) (2 ^ h - t) * root (h + 1) t = -1 := by
    rw [← root_add, Nat.sub_add_cancel ht, root_two_pow]
  linear_combination starRingEnd ℂ (root (h + 1) t) * hhalf
    - root (h + 1) (2 ^ h - t) * root_mul_conj (h + 1) t

theorem root_mul_complement {h t : Nat} (ht : t ≤ 2 ^ h) (j : Nat) :
    root (h + 1) (j * (2 ^ h - t)) = (-1) ^ j * starRingEnd ℂ (root (h + 1) (j * t)) := by
  rw [Nat.mul_comm, root_mul, root_complement ht, neg_pow, Nat.mul_comm, root_mul, map_pow]

theorem root_double (h t : Nat) : root (h + 1) (2 * t) = root h t := by
  rw [Nat.mul_comm, ← root_scale h 1 t, pow_one]

/-- A whole turn less `t`. -/
theorem root_mul_whole_complement {h t : Nat} (ht : t ≤ 2 ^ h) (j : Nat) :
    root h (j * (2 ^ h - t)) = starRingEnd ℂ (root h (j * t)) := by
  have hmul := root_mul_complement ht (2 * j)
  rwa [Nat.mul_assoc, Nat.mul_assoc, root_double, root_double, pow_mul, neg_one_sq, one_pow, one_mul] at hmul

/-- The powers of different roots are orthogonal. -/
theorem sum_root_mul_conj {m i j : Nat} (hi : i < 2 ^ m) (hj : j < 2 ^ m) :
    ∑ k ∈ Finset.range (2 ^ m), root m (i * k) * starRingEnd ℂ (root m (j * k)) = if i = j then (2 : ℂ) ^ m else 0 := by
  have hterm : ∀ k, root m (i * k) * starRingEnd ℂ (root m (j * k))
      = (root m i * starRingEnd ℂ (root m j)) ^ k := fun k => by
    rw [root_mul, root_mul, map_pow, mul_pow]
  simp only [hterm]
  split
  · next heq => simp [heq, root_mul_conj]
  · next hne =>
    have hprim : IsPrimitiveRoot (root m 1) (2 ^ m) := by
      simpa [root_eq] using Complex.isPrimitiveRoot_exp (2 ^ m) (by positivity)
    have hone : root m i * starRingEnd ℂ (root m j) ≠ 1 := fun h1 => hne <| by
      refine hprim.pow_inj hi hj ?_
      rw [← root_mul, ← root_mul, Nat.one_mul, Nat.one_mul]
      linear_combination root m j * h1 - root m i * root_mul_conj m j
    rw [geom_sum_eq hone, mul_pow, ← map_pow, ← root_mul, ← root_mul, root_two_pow_mul, root_two_pow_mul]
    simp

/-! ### The transform of a sequence (42_butterfly_engine.md R160) -/

/-- Bin `q` of the transform of 2^m points, as the forward stages compute it. -/
noncomputable def transform (m : Nat) (x : Nat → ℂ) (q : Nat) : ℂ :=
  ∑ j ∈ Finset.range (2 ^ m), x j * root m (j * q)

theorem transform_eq (m : Nat) (x : Nat → ℂ) (q : Nat) :
    transform m x q = ∑ j ∈ Finset.range (2 ^ m), x j * root m (j * q) := rfl

theorem transform_add_mul (m : Nat) (x y : Nat → ℂ) (c : ℂ) (q : Nat) :
    transform m (fun j => x j + c * y j) q = transform m x q + c * transform m y q := by
  simp only [transform_eq, Finset.mul_sum, ← Finset.sum_add_distrib]
  exact Finset.sum_congr rfl fun j _ => by ring

/-- The transform from those of the even and of the odd indices. -/
theorem transform_succ (h : Nat) (x : Nat → ℂ) (q : Nat) : transform (h + 1) x q
    = transform h (fun j => x (2 * j)) q + root (h + 1) q * transform h (fun j => x (2 * j + 1)) q := by
  simp only [transform_eq, pow_succ, sum_range_classes, Finset.sum_range_succ, Finset.sum_range_zero, zero_add,
    Finset.mul_sum]
  congr 1
  · refine Finset.sum_congr rfl fun j _ => ?_
    rw [Nat.mul_comm j 2, Nat.mul_assoc, root_double]
  · refine Finset.sum_congr rfl fun j _ => ?_
    rw [Nat.add_comm, Nat.mul_comm j 2, Nat.add_mul, Nat.one_mul, root_add, Nat.mul_assoc, root_double]
    ring

/-- The conjugate of the bin opposite to `q` is bin `q` of the conjugates. -/
theorem conj_transform_complement {m q : Nat} (x : Nat → ℂ) (hq : q ≤ 2 ^ m) :
    starRingEnd ℂ (transform m x (2 ^ m - q)) = transform m (fun j => starRingEnd ℂ (x j)) q := by
  rw [transform_eq, map_sum]
  refine Finset.sum_congr rfl fun j _ => ?_
  rw [map_mul, root_mul_whole_complement hq, Complex.conj_conj]

/-- The permutation and the passes compute the transform (R171). -/
theorem passes_perm_interleaved {m : Nat} (hm : 1 ≤ m) (x : Nat → ℂ) :
    passes exactArith exactCoeffs (2 ^ m) (perm exactArith (buildBr m) (2 ^ m) (interleaved (2 ^ m) x))
      = interleaved (2 ^ m) (transform m x) := by
  have hstages := (complexStagesComputeTheTransform m x hm).1
  simp only [← root_mul_eq] at hstages
  exact hstages

/-- The transform with the other sign in the exponent takes the transform back to 2^m times the sequence. -/
theorem sum_transform_mul_conj {m j : Nat} (x : Nat → ℂ) (hj : j < 2 ^ m) :
    ∑ k ∈ Finset.range (2 ^ m), transform m x k * starRingEnd ℂ (root m (j * k)) = 2 ^ m * x j := by
  calc ∑ k ∈ Finset.range (2 ^ m), transform m x k * starRingEnd ℂ (root m (j * k))
      = ∑ i ∈ Finset.range (2 ^ m), x i
          * ∑ k ∈ Finset.range (2 ^ m), root m (i * k) * starRingEnd ℂ (root m (j * k)) := by
        simp only [transform_eq, Finset.sum_mul, Finset.mul_sum, mul_assoc]
        exact Finset.sum_comm
    _ = ∑ i ∈ Finset.range (2 ^ m), x i * if i = j then (2 : ℂ) ^ m else 0 :=
        Finset.sum_congr rfl fun i hi => by rw [sum_root_mul_conj (Finset.mem_range.mp hi) hj]
    _ = 2 ^ m * x j := by simp [hj, mul_comm]

/-! ### The half-length view (R190, R191) -/

theorem half_two_pow (k : Nat) : 2 ^ (k + 1) / 2 = 2 ^ k := by
  rw [pow_succ, Nat.mul_div_cancel _ two_pos]

theorem half_half_two_pow (k : Nat) : 2 ^ (k + 2) / 2 / 2 = 2 ^ k := by
  rw [half_two_pow, half_two_pow]

/-- Cells 2q and 2q+1 as point `q`. -/
def pairOf (a : Nat → ℝ) (q : Nat) : ℂ := ⟨a (2 * q), a (2 * q + 1)⟩

theorem pairOf_eq (a : Nat → ℝ) (q : Nat) : pairOf a q = a (2 * q) + Complex.I * a (2 * q + 1) := by
  rw [pairOf, Complex.mk_eq_add_mul_I, mul_comm Complex.I]

theorem cellsOf_two_pow (h : Nat) (a : Nat → ℝ) : cellsOf (2 ^ (h + 1)) a = interleaved (2 ^ h) (pairOf a) := by
  rw [pow_succ']
  refine List.map_congr_left fun j _ => ?_
  split
  · exact congrArg a (by omega)
  · exact congrArg a (by omega)

/-- The points of a packed spectrum of `n` points: point 0 holds the bins 0 and `n` (R190). -/
def packedPoint (n : Nat) (R I : Nat → ℝ) : Nat → ℂ := Function.update (fun q => ⟨R q, I q⟩) 0 ⟨R 0, R n⟩

theorem packedPoint_zero (n : Nat) (R I : Nat → ℝ) : packedPoint n R I 0 = ⟨R 0, R n⟩ := Function.update_self ..

theorem packedPoint_of_ne (n : Nat) (R I : Nat → ℝ) {q : Nat} (hq : q ≠ 0) : packedPoint n R I q = ⟨R q, I q⟩ :=
  Function.update_of_ne hq ..

theorem interleaved_congr {n : Nat} {x y : Nat → ℂ} (h : ∀ q < n, x q = y q) : interleaved n x = interleaved n y :=
  eq_interleaved (interleaved_length n x) fun q hq => by rw [point_interleaved x hq, h q hq]

theorem packed_two_pow (h : Nat) (R I : Nat → ℝ) :
    packed (2 ^ (h + 1)) R I = interleaved (2 ^ h) (packedPoint (2 ^ h) R I) := by
  rw [packed, cellsOf_two_pow, half_two_pow]
  refine interleaved_congr fun q _ => ?_
  by_cases hq : q = 0
  · subst hq
    exact (packedPoint_zero ..).symm
  · have heven : 2 * q / 2 = q := by omega
    have hodd : (2 * q + 1) / 2 = q := by omega
    rw [packedPoint_of_ne _ _ _ hq, pairOf, if_neg (by omega), if_neg (by omega), if_pos (by omega), if_neg (by omega),
      if_neg (by omega), if_neg (by omega), heven, hodd]

/-- One point of a buffer rewritten. -/
theorem setPoint_interleaved {n p : Nat} (hp : p < n) (x : Nat → ℂ) (z : ℂ) :
    setPoint (interleaved n x) p (parts z) = interleaved n (Function.update x p z) := by
  have hlen := interleaved_length n x
  refine eq_interleaved (by rw [setPoint_length, hlen]) fun q hq => ?_
  rw [Permuter.point_setPoint (by omega), point_interleaved x hq, Function.update_apply, apply_ite parts]
  simp only [eq_comm]

/-! ### The fix-up of the first two cells (R194, R195) -/

theorem set_cells_eq_setPoint (b : List ℝ) (z : ℂ) : (b.set 0 z.re).set 1 z.im = setPoint b 0 (parts z) := rfl

theorem cellAt_interleaved_zero {n : Nat} (hn : 0 < n) (x : Nat → ℂ) :
    cellAt exactArith (interleaved n x) 0 = (x 0).re ∧ cellAt exactArith (interleaved n x) 1 = (x 0).im :=
  Prod.mk.inj (point_interleaved x hn)

/-- `DCNYQF` puts the sum and the difference of its parts into point 0 (R194). -/
theorem dcnyqF_interleaved {n : Nat} (hn : 0 < n) (x : Nat → ℂ) : dcnyqF exactArith (interleaved n x)
    = interleaved n (Function.update x 0 ⟨(x 0).re + (x 0).im, (x 0).re - (x 0).im⟩) := by
  obtain ⟨hre, him⟩ := cellAt_interleaved_zero hn x
  rw [← setPoint_interleaved hn, ← set_cells_eq_setPoint, dcnyqF, hre, him]
  rfl

/-- `DCNYQB` puts half of them there (R195). -/
theorem dcnyqB_interleaved {n : Nat} (hn : 0 < n) (x : Nat → ℂ) : dcnyqB exactArith (interleaved n x)
    = interleaved n (Function.update x 0 ⟨((x 0).re + (x 0).im) / 2, ((x 0).re - (x 0).im) / 2⟩) := by
  obtain ⟨hre, him⟩ := cellAt_interleaved_zero hn x
  have hsum : (x 0).re - ((x 0).re - (x 0).im) / 2 = ((x 0).re + (x 0).im) / 2 := by ring
  rw [← setPoint_interleaved hn, ← set_cells_eq_setPoint, dcnyqB, hre, him, List.set_comm _ _ one_ne_zero]
  simp only [exactArith, one_div_mul_eq_div, hsum]

/-! ### The coefficients of the correction passes (R192, 40_table_cache.md R129) -/

/-- In exact arithmetic a lookup finds half the cosine. -/
theorem halfCosine_exact {d t : Nat} (ht : 0 < t) (htd : t < 2 ^ d) :
    halfCosine exactCoeffs t d = Real.cos (Real.pi / 2 * (t / 2 ^ d)) / 2 := by
  have hpos : rev d t ≠ 0 := (TableCache.rev_pos ht htd).ne'
  rw [halfCosine, ← (Scope.bitReversalReadsTheFraction d t htd).2]
  exact if_neg hpos

/-- The weight of the correction at point `t`: `wkr` + i·`wki`. -/
noncomputable def weight (m t : Nat) : ℂ := (1 + Complex.I * root m t) / 2

theorem weight_eq (m t : Nat) : weight m t = (1 + Complex.I * root m t) / 2 := rfl

theorem parts_weight (m t : Nat) : parts (weight m t)
    = (1 / 2 - Real.sin (2 * Real.pi * t / (2 ^ m : Nat)) / 2, Real.cos (2 * Real.pi * t / (2 ^ m : Nat)) / 2) := by
  rw [parts_eq, ← root_re, ← root_im, weight_eq, Complex.div_ofNat_re, Complex.div_ofNat_im]
  simp [add_div, sub_eq_add_neg, neg_div]

theorem realTwiddle_exact {k t : Nat} (ht : 0 < t) (htk : t < 2 ^ k) :
    realTwiddle exactArith exactCoeffs (2 ^ (k + 2)) t = parts (weight (k + 2) t) := by
  have hquarter : 2 ^ (k + 2) / 4 = 2 ^ k := by
    rw [← half_half_two_pow k, Nat.div_div_eq_div_mul]
  have hangle : Real.pi / 2 * ((t : ℝ) / 2 ^ k) = 2 * Real.pi * t / (2 ^ (k + 2) : Nat) := by
    push_cast
    rw [pow_add]
    field_simp
  have hcompl : Real.pi / 2 * (((2 ^ k - t : Nat) : ℝ) / 2 ^ k) = Real.pi / 2 - Real.pi / 2 * ((t : ℝ) / 2 ^ k) := by
    rw [Nat.cast_sub htk.le, sub_div, Nat.cast_pow, Nat.cast_ofNat, div_self (by positivity)]
    ring
  rw [realTwiddle, hquarter, half_half_two_pow, log2_two_pow, halfCosine_exact ht htk,
    halfCosine_exact (by omega) (by omega), hcompl, Real.cos_pi_div_two_sub, hangle, parts_weight]
  rfl

/-- The weights of the two points of a pair are conjugate. -/
theorem weight_complement {h t : Nat} (ht : t ≤ 2 ^ h) :
    weight (h + 1) (2 ^ h - t) = starRingEnd ℂ (weight (h + 1) t) := by
  rw [weight_eq, weight_eq, root_complement ht]
  simp [map_ofNat]

/-- The point that is its own partner has weight 0. -/
theorem weight_midpoint (k : Nat) : weight (k + 2) (2 ^ k) = 0 := by
  have hquarter := root_scale 2 k 1
  rw [Nat.one_mul, Nat.add_comm, root_two_one] at hquarter
  rw [weight_eq, hquarter, Complex.I_mul_I, add_neg_cancel, zero_div]

/-! ### The correction passes (R192, R193) -/

/-- Point `q` of `n` corrected with weights `w`: point 0 stays, each other one moves towards the conjugate of its
partner. -/
noncomputable def corrected (n : Nat) (w z : Nat → ℂ) (q : Nat) : ℂ :=
  if q = 0 then z 0 else z q - w q * (z q - starRingEnd ℂ (z (n - q)))

theorem corrected_zero (n : Nat) (w z : Nat → ℂ) : corrected n w z 0 = z 0 := if_pos rfl

theorem corrected_of_pos (n : Nat) (w z : Nat → ℂ) {q : Nat} (hq : 0 < q) :
    corrected n w z q = z q - w q * (z q - starRingEnd ℂ (z (n - q))) := if_neg hq.ne'

theorem corrected_of_weight_zero {n : Nat} {w : Nat → ℂ} (z : Nat → ℂ) {q : Nat} (h : w q = 0) :
    corrected n w z q = z q := by
  rw [corrected, h, zero_mul, sub_zero]
  split
  · next hq => rw [hq]
  · rfl

/-- The partner's correction in terms of the pair's own. -/
theorem corrected_complement {n : Nat} {w : Nat → ℂ} (z : Nat → ℂ) {t : Nat} (htn : t < n)
    (hw : w (n - t) = starRingEnd ℂ (w t)) : corrected n w z (n - t)
      = z (n - t) + starRingEnd ℂ (w t * (z t - starRingEnd ℂ (z (n - t)))) := by
  rw [corrected_of_pos n w z (by omega), hw, Nat.sub_sub_self htn.le]
  simp only [map_mul, map_sub, Complex.conj_conj]
  ring

/-- The correction of the first point of a pair, in the operations of the passes. -/
theorem parts_correction (w x y : ℂ) : parts (x - w * (x - starRingEnd ℂ y))
    = (x.re - (w.re * (x.re - y.re) - w.im * (x.im + y.im)),
       x.im - (w.re * (x.im + y.im) + w.im * (x.re - y.re))) := by
  simp [parts_eq]

/-- That of the second point. -/
theorem parts_partnerCorrection (w x y : ℂ) : parts (y + starRingEnd ℂ (w * (x - starRingEnd ℂ y)))
    = (y.re + (w.re * (x.re - y.re) - w.im * (x.im + y.im)),
       y.im - (w.re * (x.im + y.im) + w.im * (x.re - y.re))) := by
  simp [parts_eq]
  constructor <;> ring

theorem parts_conj (z : ℂ) : parts (starRingEnd ℂ z) = ((parts z).1, -(parts z).2) := rfl

/-- The spectrum of the half-length view corrected to the spectrum of the cells (R192). -/
noncomputable def forwardCorrected (k : Nat) (z : Nat → ℂ) : Nat → ℂ :=
  corrected (2 ^ (k + 1)) (weight (k + 2)) z

/-- The correction back, and the conjugation that the inverse transform needs (R193). -/
noncomputable def backwardCorrected (k : Nat) (z : Nat → ℂ) (q : Nat) : ℂ :=
  starRingEnd ℂ (corrected (2 ^ (k + 1)) (fun t => starRingEnd ℂ (weight (k + 2) t)) z q)

/-- Point `t` and its partner rewritten. -/
noncomputable def setPair (c : List ℝ) (n t : Nat) (v : Nat → ℂ) : List ℝ :=
  setPoint (setPoint c t (parts (v t))) (n - t) (parts (v (n - t)))

theorem setPair_eq (c : List ℝ) (n t : Nat) (v : Nat → ℂ) :
    setPair c n t v = setPoint (setPoint c t (parts (v t))) (n - t) (parts (v (n - t))) := rfl

section Pair

variable {k t : Nat} (ht : 0 < t) (htk : t < 2 ^ k) {c : List ℝ} {z : Nat → ℂ}
  (hzt : point exactArith c t = parts (z t))
  (hzu : point exactArith c (2 ^ (k + 1) - t) = parts (z (2 ^ (k + 1) - t)))
include ht htk hzt hzu

/-- One iteration of `RFTF` corrects both points of its pair. -/
theorem rftfPair_exact : rftfPair exactArith exactCoeffs (2 ^ (k + 2)) t c
    = setPair c (2 ^ (k + 1)) t (forwardCorrected k z) := by
  have htn : t < 2 ^ (k + 1) := by rw [pow_succ]; omega
  obtain ⟨htre, htim⟩ := Prod.mk.inj hzt
  obtain ⟨hure, huim⟩ := Prod.mk.inj hzu
  rw [setPair_eq, forwardCorrected, corrected_complement z htn (weight_complement htn.le),
    corrected_of_pos _ _ z ht, parts_correction, parts_partnerCorrection, rftfPair, realTwiddle_exact ht htk,
    half_two_pow, htre, htim, hure, huim]
  rfl

/-- One iteration of `RFTB` corrects both points of its pair and conjugates them. -/
theorem rftbPair_exact : rftbPair exactArith exactCoeffs (2 ^ (k + 2)) t c
    = setPair c (2 ^ (k + 1)) t (backwardCorrected k z) := by
  have htn : t < 2 ^ (k + 1) := by rw [pow_succ]; omega
  obtain ⟨htre, htim⟩ := Prod.mk.inj hzt
  obtain ⟨hure, huim⟩ := Prod.mk.inj hzu
  rw [setPair_eq, backwardCorrected, backwardCorrected,
    corrected_complement z htn (congrArg (starRingEnd ℂ) (weight_complement htn.le)), corrected_of_pos _ _ z ht,
    parts_conj, parts_conj, parts_correction, parts_partnerCorrection, rftbPair, realTwiddle_exact ht htk,
    half_two_pow, htre, htim, hure, huim]
  simp [parts_eq, exactArith, sub_eq_add_neg]

end Pair

/-- The round of a correction pass that rewrites point `q` of `n`; the two points that none rewrites get a number past
the last round. -/
def pairRound (h n q : Nat) : Nat := if q = 0 then h else min q (n - q) - 1

theorem pairRound_eq_iff {h n q i : Nat} (hn : n = 2 * h) (hi : i < h - 1) (hq : q < n) :
    pairRound h n q = i ↔ n - (i + 1) = q ∨ i + 1 = q := by
  rw [pairRound]
  split <;> omega

theorem pairRound_lt_iff {h n q : Nat} (hn : n = 2 * h) (hq : q < n) :
    pairRound h n q < h - 1 ↔ ¬(q = 0 ∨ q = h) := by
  rw [pairRound]
  split <;> omega

/-- The loop of a correction pass rewrites every point but point 0 and the one that is its own partner. -/
theorem point_loop_pairs {f : Nat → List ℝ → List ℝ} {h n : Nat} {z v : Nat → ℂ} {b : List ℝ} (hn : n = 2 * h)
    (hlen : ∀ t c, (f t c).length = c.length)
    (hf : ∀ t c, 0 < t → t < h → point exactArith c t = parts (z t) →
      point exactArith c (n - t) = parts (z (n - t)) → f t c = setPair c n t v)
    (hb : b.length = 2 * n) (hz : ∀ q < n, point exactArith b q = parts (z q)) :
    ∀ q < n, point exactArith (loop (h - 1) (fun i b => f (i + 1) b) b) q
      = parts (if q = 0 ∨ q = h then z q else v q) := by
  intro q hq
  rw [point_loop_of_rounds (own := pairRound h n) (old := fun q => parts (z q)) (new := fun q => parts (v q))
    (fun i c => hlen _ c) ?_ hb (fun q hq _ => hz q hq) q hq, hz q hq, apply_ite parts]
  · simp only [pairRound_lt_iff hn hq, ite_not]
  · intro i hi c hc hread q hq
    have ht := hread (i + 1) (by omega) ((pairRound_eq_iff hn hi (by omega)).mpr (.inr rfl))
    have hu := hread (n - (i + 1)) (by omega) ((pairRound_eq_iff hn hi (by omega)).mpr (.inl rfl))
    simp only [pairRound_eq_iff hn hi hq]
    rw [hf (i + 1) c i.succ_pos (by omega) ht hu, setPair_eq,
      Permuter.point_setPoint (by rw [setPoint_length]; omega), Permuter.point_setPoint (by omega)]
    by_cases hsecond : n - (i + 1) = q
    · simp [hsecond]
    · by_cases hfirst : i + 1 = q
      · rw [if_neg hsecond, if_pos hfirst, if_pos (.inr hfirst), hfirst]
      · simp [hsecond, hfirst]

/-- `RFTF` corrects every point (R192). -/
theorem rftf_interleaved (k : Nat) (z : Nat → ℂ) :
    rftf exactArith exactCoeffs (2 ^ (k + 2)) (interleaved (2 ^ (k + 1)) z)
      = interleaved (2 ^ (k + 1)) (forwardCorrected k z) := by
  refine eq_interleaved (by rw [rftf_length, interleaved_length]) fun q hq => ?_
  rw [rftf, half_half_two_pow, point_loop_pairs (pow_succ' 2 k) (fun t c => by simp [rftfPair])
    (fun t c ht htk => rftfPair_exact ht htk) (interleaved_length _ z) (fun q => point_interleaved z) q hq]
  congr 1
  split
  · next hfixed =>
    rcases hfixed with rfl | rfl
    · exact (corrected_zero _ _ z).symm
    · exact (corrected_of_weight_zero z (weight_midpoint k)).symm
  · rfl

/-- `negateCell` at the imaginary cell of a point conjugates the point. -/
theorem negateCell_interleaved {n p j : Nat} (hp : p < n) (hj : j = 2 * p + 1) (z : Nat → ℂ) :
    negateCell exactArith (interleaved n z) j = interleaved n (Function.update z p (starRingEnd ℂ (z p))) := by
  subst hj
  have hlen := interleaved_length n z
  refine eq_interleaved (by rw [negateCell_length, hlen]) fun q hq => ?_
  rw [negateCell, ← Permuter.negateIm_eq, Permuter.point_negateIm (by omega), point_interleaved z hq, conj_parts,
    Function.update_apply, apply_ite parts]
  by_cases hqp : q = p
  · rw [if_pos hqp.symm, if_pos hqp, hqp]
  · rw [if_neg (Ne.symm hqp), if_neg hqp]

/-- The loop of `RFTB` corrects and conjugates every point but the two that the lines around it negate. -/
theorem rftb_loop_interleaved (k : Nat) (z : Nat → ℂ) :
    loop (2 ^ k - 1) (fun i b => rftbPair exactArith exactCoeffs (2 ^ (k + 2)) (i + 1) b)
        (interleaved (2 ^ (k + 1)) (Function.update z 0 (starRingEnd ℂ (z 0))))
      = interleaved (2 ^ (k + 1)) fun q => if q = 0 ∨ q = 2 ^ k then Function.update z 0 (starRingEnd ℂ (z 0)) q
          else backwardCorrected k z q := by
  refine eq_interleaved ?_ (point_loop_pairs (pow_succ' 2 k) (fun t c => by simp [rftbPair])
    (fun t c ht htk hzt hzu => ?_) (interleaved_length ..) fun q => point_interleaved _)
  · rw [loop_length fun i c => by simp [rftbPair], interleaved_length]
  · have hu : 2 ^ (k + 1) - t ≠ 0 := by rw [pow_succ]; omega
    rw [Function.update_of_ne ht.ne'] at hzt
    rw [Function.update_of_ne hu] at hzu
    exact rftbPair_exact ht htk hzt hzu

/-- `RFTB` corrects every point back and conjugates it (R193). -/
theorem rftb_interleaved (k : Nat) (z : Nat → ℂ) :
    rftb exactArith exactCoeffs (2 ^ (k + 2)) (interleaved (2 ^ (k + 1)) z)
      = interleaved (2 ^ (k + 1)) (backwardCorrected k z) := by
  have hpos : 0 < 2 ^ (k + 1) := by positivity
  have hmid : 2 ^ k < 2 ^ (k + 1) := Nat.pow_lt_pow_right (by decide) k.lt_succ_self
  have hmid0 : 2 ^ k ≠ 0 := by positivity
  have hcell : 2 ^ (k + 1) + 1 = 2 * 2 ^ k + 1 := by rw [pow_succ']
  rw [rftb, half_half_two_pow, half_two_pow, negateCell_interleaved hpos rfl, rftb_loop_interleaved,
    negateCell_interleaved hmid hcell]
  refine interleaved_congr fun q _ => ?_
  by_cases hq : q = 2 ^ k
  · have hw : starRingEnd ℂ (weight (k + 2) (2 ^ k)) = 0 := by rw [weight_midpoint, map_zero]
    rw [hq, Function.update_self, if_pos (.inr rfl), Function.update_of_ne hmid0, backwardCorrected,
      corrected_of_weight_zero z hw]
  · rw [Function.update_of_ne hq]
    by_cases h0 : q = 0
    · rw [if_pos (.inl h0), h0, Function.update_self, backwardCorrected, corrected_zero]
    · rw [if_neg (by simp [h0, hq])]

/-! ### What the corrected points are (R200, R201) -/

/-- The transform of a real sequence: bin q is R[q] + i·I[q] (R190). -/
noncomputable def realBin (m : Nat) (a : Nat → ℝ) (q : Nat) : ℂ := transform m (fun j => a j) q

theorem realBin_re (m : Nat) (a : Nat → ℝ) (q : Nat) : (realBin m a q).re = cosineSum (2 ^ m) a q := by
  simp only [realBin, transform_eq, cosineSum, Complex.re_sum, Complex.re_ofReal_mul, root_re, Nat.cast_mul, mul_assoc]

theorem realBin_im (m : Nat) (a : Nat → ℝ) (q : Nat) : (realBin m a q).im = sineSum (2 ^ m) a q := by
  simp only [realBin, transform_eq, sineSum, Complex.im_sum, Complex.im_ofReal_mul, root_im, Nat.cast_mul, mul_assoc]

/-- The opposite bin of a real sequence is the conjugate. -/
theorem realBin_complement {m q : Nat} (a : Nat → ℝ) (hq : q ≤ 2 ^ m) :
    realBin m a (2 ^ m - q) = starRingEnd ℂ (realBin m a q) := by
  rw [← Complex.conj_conj (realBin m a _), realBin, conj_transform_complement _ hq]
  simp only [Complex.conj_ofReal, realBin]

/-- The spectrum from those of the even and of the odd samples. -/
theorem realBin_succ (h : Nat) (a : Nat → ℝ) (q : Nat) : realBin (h + 1) a q
    = realBin h (fun j => a (2 * j)) q + root (h + 1) q * realBin h (fun j => a (2 * j + 1)) q :=
  transform_succ h (fun j => a j) q

/-- The transform of the half-length view holds both of them. -/
theorem transform_pairOf (h : Nat) (a : Nat → ℝ) (q : Nat) : transform h (pairOf a) q
    = realBin h (fun j => a (2 * j)) q + Complex.I * realBin h (fun j => a (2 * j + 1)) q := by
  simp only [funext (pairOf_eq a), transform_add_mul, realBin]

/-- So does the conjugate of the opposite bin, with the other sign. -/
theorem conj_transform_pairOf {h q : Nat} (a : Nat → ℝ) (hq : q ≤ 2 ^ h) :
    starRingEnd ℂ (transform h (pairOf a) (2 ^ h - q))
      = realBin h (fun j => a (2 * j)) q - Complex.I * realBin h (fun j => a (2 * j + 1)) q := by
  rw [transform_pairOf, realBin_complement _ hq, realBin_complement _ hq, map_add, map_mul, Complex.conj_conj,
    Complex.conj_conj, Complex.conj_I, neg_mul, sub_eq_add_neg]

/-- `RFTF` makes the bins of the cells of those of the half-length view (R200). -/
theorem forwardCorrected_transform {k q : Nat} (a : Nat → ℝ) (h0 : 0 < q) (hq : q < 2 ^ (k + 1)) :
    forwardCorrected k (transform (k + 1) (pairOf a)) q = realBin (k + 2) a q := by
  rw [forwardCorrected, corrected_of_pos _ _ _ h0, conj_transform_pairOf a hq.le, transform_pairOf,
    realBin_succ (k + 1), weight_eq]
  linear_combination -(root (k + 2) q * realBin (k + 1) (fun j => a (2 * j + 1)) q) * Complex.I_sq

theorem realBin_zero_im (m : Nat) (a : Nat → ℝ) : (realBin m a 0).im = 0 := by simp [realBin_im, sineSum]

theorem realBin_two_pow (m : Nat) (a : Nat → ℝ) : realBin m a (2 ^ m) = realBin m a 0 := by
  simp [realBin, transform_eq, root_two_pow_mul]

/-- `DCNYQF` makes the bins 0 and N/2 of point 0 (R200). -/
theorem transform_pairOf_zero (h : Nat) (a : Nat → ℝ) :
    (transform h (pairOf a) 0).re + (transform h (pairOf a) 0).im = cosineSum (2 ^ (h + 1)) a 0
    ∧ (transform h (pairOf a) 0).re - (transform h (pairOf a) 0).im = cosineSum (2 ^ (h + 1)) a (2 ^ h) := by
  simp only [← realBin_re, realBin_succ, transform_pairOf, realBin_two_pow, root_zero, root_two_pow]
  simp [realBin_zero_im, sub_eq_add_neg]

/-- The forward core on a half-length view (44_dct_dst_adapter.md R218). -/
theorem forwardCore_interleaved (k : Nat) (z : Nat → ℂ) :
    forwardCore exactArith exactCoeffs (buildBr (k + 1)) (2 ^ (k + 2)) (interleaved (2 ^ (k + 1)) z)
      = interleaved (2 ^ (k + 1)) (forwardCorrected k (transform (k + 1) z)) := by
  rw [forwardCore, half_two_pow, passes_perm_interleaved (Nat.le_add_left 1 k), rftf_interleaved]

/-- The forward stages compute the packed spectrum (R200). -/
theorem stagesRdftF_exact (k : Nat) (a : Nat → ℝ) :
    stagesRdftF exactArith exactCoeffs (buildBr (k + 1)) (2 ^ (k + 2)) (cellsOf (2 ^ (k + 2)) a)
      = packed (2 ^ (k + 2)) (cosineSum (2 ^ (k + 2)) a) (sineSum (2 ^ (k + 2)) a) := by
  rw [stagesRdftF, ← forwardCore, cellsOf_two_pow, forwardCore_interleaved, dcnyqF_interleaved (by positivity),
    packed_two_pow]
  refine interleaved_congr fun q hq => ?_
  by_cases h0 : q = 0
  · obtain ⟨hsum, hdiff⟩ := transform_pairOf_zero (k + 1) a
    rw [h0, Function.update_self, packedPoint_zero, forwardCorrected, corrected_zero, hsum, hdiff]
  · rw [Function.update_of_ne h0, packedPoint_of_ne _ _ _ h0,
      forwardCorrected_transform a (Nat.pos_of_ne_zero h0) hq, ← realBin_re, ← realBin_im]

/-- Settles O49: the half-length transform holds the spectra of the even and of the odd samples, which `RFTF` joins to
the bins 0 < k < N/2 and `DCNYQF` to the bins 0 and N/2; out of place, the same runs on the copy. -/
theorem realForwardStagesComputeTheSpectrum : Obligations.RealForwardStagesComputeTheSpectrum := by
  intro m a dst hm hdst
  obtain ⟨k, rfl⟩ := Nat.exists_eq_add_of_le' hm
  have hcopy : copyCells exactArith (2 ^ (k + 2)) (cellsOf (2 ^ (k + 2)) a) dst = cellsOf (2 ^ (k + 2)) a :=
    copyCells_eq exactArith (by simp [cellsOf]) hdst
  refine ⟨stagesRdftF_exact k a, ?_⟩
  rw [stagesRdftoF, hcopy]
  exact stagesRdftF_exact k a

/-! ### The inverse (R201) -/

/-- Value `j` of the synthesis from a half-length view of 2^h points, point 0 of which holds what all even and what all
odd values have in common. -/
noncomputable def synthesized (h : Nat) (Y : Nat → ℂ) (j : Nat) : ℝ :=
  (if j % 2 = 0 then (Y 0).re else (Y 0).im)
    + ∑ q ∈ Finset.Ico 1 (2 ^ h), (Y q * starRingEnd ℂ (root (h + 1) (j * q))).re

/-- A term of the synthesis, joined with the conjugate of its partner's. -/
noncomputable def joinedTerm (h : Nat) (Y : Nat → ℂ) (j q : Nat) : ℂ :=
  (Y q + (-1) ^ j * starRingEnd ℂ (Y (2 ^ h - q))) / 2 * starRingEnd ℂ (root (h + 1) (j * q))

theorem joinedTerm_eq (h : Nat) (Y : Nat → ℂ) (j q : Nat) : joinedTerm h Y j q
    = (Y q * starRingEnd ℂ (root (h + 1) (j * q))
      + (-1) ^ j * starRingEnd ℂ (Y (2 ^ h - q)) * starRingEnd ℂ (root (h + 1) (j * q))) / 2 := by
  rw [joinedTerm]
  ring

theorem sum_Ico_complement {M : Type} [AddCommMonoid M] (f : Nat → M) (n : Nat) :
    ∑ q ∈ Finset.Ico 1 n, f (n - q) = ∑ q ∈ Finset.Ico 1 n, f q := by
  rw [Finset.sum_Ico_reflect f 1 (Nat.le_succ n), Nat.add_sub_cancel_left, Nat.add_sub_cancel]

/-- The sum of the real parts is that of the joined terms. -/
theorem sum_re_eq_sum_joinedTerm (h : Nat) (Y : Nat → ℂ) (j : Nat) :
    ((∑ q ∈ Finset.Ico 1 (2 ^ h), (Y q * starRingEnd ℂ (root (h + 1) (j * q))).re : ℝ) : ℂ)
      = ∑ q ∈ Finset.Ico 1 (2 ^ h), joinedTerm h Y j q := by
  have hpartner : ∑ q ∈ Finset.Ico 1 (2 ^ h), starRingEnd ℂ (Y q) * root (h + 1) (j * q)
      = ∑ q ∈ Finset.Ico 1 (2 ^ h),
          (-1) ^ j * starRingEnd ℂ (Y (2 ^ h - q)) * starRingEnd ℂ (root (h + 1) (j * q)) := by
    rw [← sum_Ico_complement]
    refine Finset.sum_congr rfl fun q hq => ?_
    rw [root_mul_complement (Finset.mem_Ico.mp hq).2.le]
    ring
  simp only [joinedTerm_eq, Complex.ofReal_sum, Complex.re_eq_add_conj, map_mul, Complex.conj_conj, ← Finset.sum_div,
    Finset.sum_add_distrib, hpartner]

/-- A term of the inverse transform after `RFTB` holds one of an even and one of an odd value of the synthesis. -/
theorem conj_backwardCorrected_mul {k q : Nat} (Y : Nat → ℂ) (h0 : 0 < q) (p : Nat) :
    starRingEnd ℂ (backwardCorrected k Y q * root (k + 1) (q * p))
      = joinedTerm (k + 1) Y (2 * p) q + Complex.I * joinedTerm (k + 1) Y (2 * p + 1) q := by
  rw [backwardCorrected, corrected_of_pos _ _ _ h0, weight_eq, joinedTerm, joinedTerm, Nat.add_mul, Nat.one_mul,
    root_add, Nat.mul_assoc, root_double, Nat.mul_comm q p, pow_succ (-1 : ℂ), pow_mul, neg_one_sq, one_pow]
  simp only [map_mul, Complex.conj_conj, map_div₀, map_add, map_one, Complex.conj_I, map_ofNat]
  ring

/-- The inverse transform after `RFTB` is the synthesis, two values to a point. -/
theorem conj_transform_backwardCorrected (k : Nat) (Y : Nat → ℂ) (p : Nat) :
    starRingEnd ℂ (transform (k + 1) (backwardCorrected k Y) p) = pairOf (synthesized (k + 1) Y) p := by
  have hzero : ((Y 0).re : ℂ) + Complex.I * (Y 0).im = Y 0 := by rw [mul_comm, Complex.re_add_im]
  have hrest : ∑ q ∈ Finset.Ico 1 (2 ^ (k + 1)), starRingEnd ℂ (backwardCorrected k Y q * root (k + 1) (q * p))
      = ∑ q ∈ Finset.Ico 1 (2 ^ (k + 1)), joinedTerm (k + 1) Y (2 * p) q
        + Complex.I * ∑ q ∈ Finset.Ico 1 (2 ^ (k + 1)), joinedTerm (k + 1) Y (2 * p + 1) q := by
    rw [Finset.mul_sum, ← Finset.sum_add_distrib]
    exact Finset.sum_congr rfl fun q hq => conj_backwardCorrected_mul Y (Finset.mem_Ico.mp hq).1 p
  rw [transform_eq, map_sum, Finset.range_eq_Ico, Finset.sum_eq_sum_Ico_succ_bot (by positivity), Nat.zero_add, hrest,
    ← sum_re_eq_sum_joinedTerm, ← sum_re_eq_sum_joinedTerm, Nat.zero_mul, root_zero, mul_one, backwardCorrected,
    corrected_zero, Complex.conj_conj, pairOf_eq, synthesized, synthesized, if_pos (by omega), if_neg (by omega)]
  push_cast
  linear_combination -hzero

/-- `CONJ` conjugates every point. -/
theorem conj_interleaved (n : Nat) (x : Nat → ℂ) :
    Machine.conj exactArith n (interleaved n x) = interleaved n (fun q => starRingEnd ℂ (x q)) := by
  have hlen := interleaved_length n x
  refine eq_interleaved (by rw [conj_length, hlen]) fun q hq => ?_
  rw [point_conj exactArith hlen.ge hq, point_interleaved x hq, conj_parts]

/-- The backward core computes the synthesis of a half-length view (44_dct_dst_adapter.md R217). -/
theorem backwardCore_interleaved (k : Nat) (Y : Nat → ℂ) :
    backwardCore exactArith exactCoeffs (buildBr (k + 1)) (2 ^ (k + 2)) (interleaved (2 ^ (k + 1)) Y)
      = cellsOf (2 ^ (k + 2)) (synthesized (k + 1) Y) := by
  rw [backwardCore, half_two_pow, rftb_interleaved, passes_perm_interleaved (Nat.le_add_left 1 k), conj_interleaved,
    cellsOf_two_pow]
  exact interleaved_congr fun q _ => conj_transform_backwardCorrected k Y q

/-- What `DCNYQB` makes of a packed spectrum is synthesized to the sum of R201. -/
theorem synthesized_packedPoint (h : Nat) (R I : Nat → ℝ) (j : Nat) :
    synthesized h (Function.update (packedPoint (2 ^ h) R I) 0 ⟨(R 0 + R (2 ^ h)) / 2, (R 0 - R (2 ^ h)) / 2⟩) j
      = synthesis (2 ^ (h + 1)) R I j := by
  have hzero : (if j % 2 = 0 then (R 0 + R (2 ^ h)) / 2 else (R 0 - R (2 ^ h)) / 2)
      = R 0 / 2 + (-1) ^ j * R (2 ^ h) / 2 := by
    split
    · next hj => rw [(Nat.even_iff.mpr hj).neg_one_pow]; ring
    · next hj => rw [(Nat.odd_iff.mpr (by omega)).neg_one_pow]; ring
  rw [synthesized, synthesis, half_two_pow, Function.update_self, hzero]
  congr 1
  refine Finset.sum_congr rfl fun q hq => ?_
  have h0 : q ≠ 0 := Nat.one_le_iff_ne_zero.mp (Finset.mem_Ico.mp hq).1
  rw [Function.update_of_ne h0, packedPoint_of_ne _ _ _ h0]
  simp [root_re, root_im, mul_assoc]

/-- The inverse stages compute the synthesis (R201). -/
theorem stagesRdftI_exact (k : Nat) (R I : Nat → ℝ) :
    stagesRdftI exactArith exactCoeffs (buildBr (k + 1)) (2 ^ (k + 2)) (packed (2 ^ (k + 2)) R I)
      = cellsOf (2 ^ (k + 2)) (synthesis (2 ^ (k + 2)) R I) := by
  rw [stagesRdftI, ← backwardCore, packed_two_pow, dcnyqB_interleaved (by positivity), backwardCore_interleaved,
    packedPoint_zero]
  exact congrArg (cellsOf _) (funext (synthesized_packedPoint (k + 1) R I))

/-- A sum over all bins whose opposite ones are equal. -/
theorem sum_range_two_mul {f : Nat → ℝ} {n : Nat} (hn : 0 < n) (hf : ∀ q ≤ 2 * n, f (2 * n - q) = f q) :
    ∑ q ∈ Finset.range (2 * n), f q = f 0 + f n + 2 * ∑ q ∈ Finset.Ico 1 n, f q := by
  have hupper : ∑ q ∈ Finset.Ico (n + 1) (2 * n), f q = ∑ q ∈ Finset.Ico 1 n, f q := by
    rw [Finset.sum_congr rfl fun q hq => (hf q (Finset.mem_Ico.mp hq).2.le).symm,
      Finset.sum_Ico_reflect f (n + 1) (Nat.le_succ _)]
    congr 2 <;> omega
  rw [Finset.range_eq_Ico, ← Finset.sum_Ico_consecutive f (Nat.zero_le n) (by omega),
    Finset.sum_eq_sum_Ico_succ_bot hn, Finset.sum_eq_sum_Ico_succ_bot (by omega : n < 2 * n), hupper]
  ring

/-- What bin `q` of a real sequence contributes to value `j`. -/
noncomputable def binTerm (m : Nat) (a : Nat → ℝ) (j q : Nat) : ℝ :=
  (realBin m a q * starRingEnd ℂ (root m (j * q))).re

theorem binTerm_eq (m : Nat) (a : Nat → ℝ) (j q : Nat) : binTerm m a j q
    = cosineSum (2 ^ m) a q * Real.cos (2 * Real.pi * j * q / (2 ^ m : Nat))
      + sineSum (2 ^ m) a q * Real.sin (2 * Real.pi * j * q / (2 ^ m : Nat)) := by
  simp [binTerm, ← realBin_re, ← realBin_im, root_re, root_im, mul_assoc]

theorem binTerm_zero (m : Nat) (a : Nat → ℝ) (j : Nat) : binTerm m a j 0 = cosineSum (2 ^ m) a 0 := by
  simp [binTerm, realBin_re]

theorem binTerm_half (h : Nat) (a : Nat → ℝ) (j : Nat) :
    binTerm (h + 1) a j (2 ^ h) = (-1) ^ j * cosineSum (2 ^ (h + 1)) a (2 ^ h) := by
  have hsign : starRingEnd ℂ (root (h + 1) (j * 2 ^ h)) = ((-1) ^ j : ℝ) := by
    rw [Nat.mul_comm, root_mul, root_two_pow]
    simp
  rw [binTerm, hsign, mul_comm, Complex.re_ofReal_mul, realBin_re]

theorem binTerm_complement {m q : Nat} (a : Nat → ℝ) (j : Nat) (hq : q ≤ 2 ^ m) :
    binTerm m a j (2 ^ m - q) = binTerm m a j q := by
  rw [binTerm, root_mul_whole_complement hq, realBin_complement a hq, ← map_mul, Complex.conj_re, binTerm]

/-- All bins together give 2^m times the value. -/
theorem sum_binTerm {m j : Nat} (a : Nat → ℝ) (hj : j < 2 ^ m) :
    ∑ q ∈ Finset.range (2 ^ m), binTerm m a j q = 2 ^ m * a j := by
  have hinverse : ∑ q ∈ Finset.range (2 ^ m), realBin m a q * starRingEnd ℂ (root m (j * q))
      = ((2 ^ m * a j : ℝ) : ℂ) := by
    push_cast
    exact sum_transform_mul_conj (fun j => (a j : ℂ)) hj
  simp only [binTerm, ← Complex.re_sum, hinverse, Complex.ofReal_re]

/-- The synthesis of the spectrum of a real sequence is N/2 times the sequence (R201). -/
theorem synthesis_spectrum {h j : Nat} (a : Nat → ℝ) (hj : j < 2 ^ (h + 1)) :
    synthesis (2 ^ (h + 1)) (cosineSum (2 ^ (h + 1)) a) (sineSum (2 ^ (h + 1)) a) j = 2 ^ (h + 1) / 2 * a j := by
  have hsymm : ∀ q ≤ 2 * 2 ^ h, binTerm (h + 1) a j (2 * 2 ^ h - q) = binTerm (h + 1) a j q := fun q hq => by
    rw [← pow_succ'] at hq ⊢
    exact binTerm_complement a j hq
  have hsplit := sum_range_two_mul (by positivity) hsymm
  rw [← pow_succ', sum_binTerm a hj, binTerm_zero, binTerm_half] at hsplit
  rw [synthesis, half_two_pow]
  simp only [← binTerm_eq]
  linarith

/-- Settles O50: `DCNYQB` and `RFTB` make the conjugate of a half-length spectrum whose inverse transform holds the even
and the odd values of the synthesis; on the spectrum of a sequence that synthesis sums all N bins, which gives N/2 times
the sequence. -/
theorem realInverseStagesComputeTheSynthesis : Obligations.RealInverseStagesComputeTheSynthesis := by
  intro m R I a dst hm hdst
  obtain ⟨k, rfl⟩ := Nat.exists_eq_add_of_le' hm
  have hcopy : copyCells exactArith (2 ^ (k + 2)) (packed (2 ^ (k + 2)) R I) dst = packed (2 ^ (k + 2)) R I :=
    copyCells_eq exactArith (by simp [packed, cellsOf]) hdst
  refine ⟨stagesRdftI_exact k R I, ?_, ?_⟩
  · rw [stagesRdftoI, hcopy]
    exact stagesRdftI_exact k R I
  · rw [show k + 2 - 1 = k + 1 from rfl, stagesRdftF_exact, stagesRdftI_exact]
    exact List.map_congr_left fun j hj => synthesis_spectrum a (List.mem_range.mp hj)


end Sys2Proof.RealAdapter
end

section
/-! SUPPORT. The Cosine/Sine Transform Adapter (44_dct_dst_adapter.md): what its loops leave in the cells (R211 to R216),
and what the cosine and sine stages compute in exact arithmetic (R221, R222). The cosine sums are computed directly; the
sine sums are the cosine sums of the same input with alternating signs or in reverse order. -/

namespace Sys2Proof.CosineSineAdapter

open Sys2Proof.Machine Sys2Proof.Claims Sys2Proof.ButterflyEngine Sys2Proof.RealAdapter

/-! ### Buffers of cells -/

theorem cellAt_cellsOf {N j : Nat} (hj : j < N) (c : Nat → ℝ) : cellAt exactArith (cellsOf N c) j = c j := by
  simp [Permuter.cellAt_eq, cellsOf, hj]

theorem cellsOf_congr {N : Nat} {c d : Nat → ℝ} (h : ∀ j < N, c j = d j) : cellsOf N c = cellsOf N d :=
  List.map_congr_left fun j hj => h j (List.mem_range.mp hj)

theorem set_cellsOf (N p : Nat) (c v : Nat → ℝ) :
    (cellsOf N c).set p (v p) = cellsOf N fun j => if j = p then v j else c j := by
  refine List.ext_getElem (by simp [cellsOf]) fun j _ _ => ?_
  simp only [cellsOf, List.getElem_set, List.getElem_map, List.getElem_range, eq_comm (a := p)]
  split
  · next hj => rw [hj]
  · rfl

theorem set_set_cellsOf (N p q : Nat) (c v : Nat → ℝ) :
    ((cellsOf N c).set p (v p)).set q (v q) = cellsOf N fun j => if j = p ∨ j = q then v j else c j := by
  rw [set_cellsOf, set_cellsOf]
  refine cellsOf_congr fun j _ => ?_
  by_cases hq : j = q <;> simp [hq]

/-- A loop whose round `i` rewrites the cells `x i` and `y i`, the two that `own` gives to it, from cells that no round
before it rewrites. -/
theorem loop_cellsOf {N n : Nat} {f : Nat → List ℝ → List ℝ} {own x y : Nat → Nat} {old new : Nat → ℝ}
    (hown : ∀ i < n, ∀ j < N, own j = i ↔ j = x i ∨ j = y i)
    (hround : ∀ i < n, ∀ b, (∀ j < N, i ≤ own j → cellAt exactArith b j = old j) →
      f i b = (b.set (x i) (new (x i))).set (y i) (new (y i))) :
    loop n f (cellsOf N old) = cellsOf N fun j => if own j < n then new j else old j := by
  induction n with
  | zero => exact cellsOf_congr fun j _ => by simp
  | succ n ih =>
    rw [loop_succ, ih (fun i hi => hown i (by omega)) fun i hi => hround i (by omega), hround n n.lt_succ_self,
      set_set_cellsOf]
    · refine cellsOf_congr fun j hj => ?_
      simp only [← hown n n.lt_succ_self j hj]
      by_cases hn : own j = n
      · rw [if_pos hn, if_pos (by omega)]
      · simp only [hn, if_false, Nat.lt_succ_iff_lt_or_eq, or_false]
    · intro j hj hle
      rw [cellAt_cellsOf hj, if_neg (by omega)]

/-! ### The reversed order of the cells -/

/-- The partner of cell `j`: cell 0 is its own (R211, R222). -/
def reflect (N j : Nat) : Nat := if j = 0 then 0 else N - j

theorem reflect_zero (N : Nat) : reflect N 0 = 0 := if_pos rfl

theorem reflect_of_pos {N j : Nat} (hj : 0 < j) : reflect N j = N - j := if_neg hj.ne'

theorem reflect_lt {N j : Nat} (hj : j < N) : reflect N j < N := by
  rw [reflect]
  split <;> omega

theorem reflect_reflect {N j : Nat} (hj : j < N) : reflect N (reflect N j) = j := by
  rcases j.eq_zero_or_pos with rfl | hpos
  · rw [reflect_zero, reflect_zero]
  · rw [reflect_of_pos hpos, reflect_of_pos (by omega), Nat.sub_sub_self hj.le]

theorem sum_range_reflect {M : Type} [AddCommMonoid M] (f : Nat → M) {N : Nat} (hN : 0 < N) :
    ∑ j ∈ Finset.range N, f (reflect N j) = ∑ j ∈ Finset.range N, f j := by
  rw [Finset.range_eq_Ico, Finset.sum_eq_sum_Ico_succ_bot hN, Finset.sum_eq_sum_Ico_succ_bot hN, reflect_zero,
    ← sum_Ico_complement f]
  congr 1
  exact Finset.sum_congr rfl fun j hj => by rw [reflect_of_pos (Finset.mem_Ico.mp hj).1]

/-- The partner's root is the conjugate. -/
theorem root_reflect_mul {m j : Nat} (hj : j < 2 ^ m) (q : Nat) :
    root m (reflect (2 ^ m) j * q) = starRingEnd ℂ (root m (j * q)) := by
  rcases j.eq_zero_or_pos with rfl | hpos
  · simp [reflect_zero]
  · rw [reflect_of_pos hpos, Nat.mul_comm, root_mul_whole_complement hj.le, Nat.mul_comm]

/-- In reverse order a real sequence has the conjugate bins. -/
theorem realBin_reflect (m : Nat) (c : Nat → ℝ) (q : Nat) :
    realBin m (fun j => c (reflect (2 ^ m) j)) q = starRingEnd ℂ (realBin m c q) := by
  rw [realBin, realBin, transform_eq, transform_eq, map_sum, ← sum_range_reflect _ (by positivity)]
  refine Finset.sum_congr rfl fun j hj => ?_
  rw [reflect_reflect (Finset.mem_range.mp hj), root_reflect_mul (Finset.mem_range.mp hj), map_mul,
    Complex.conj_ofReal]

/-! ### The weights of the last pass (R211) -/

/-- The angle of cell `j`. -/
noncomputable def subAngle (N j : Nat) : ℝ := Real.pi * j / (2 * N)

/-- `wkr` of cell `j`. -/
noncomputable def ownWeight (N j : Nat) : ℝ := (Real.cos (subAngle N j) - Real.sin (subAngle N j)) / 2

/-- `wki` of cell `j`. -/
noncomputable def partnerWeight (N j : Nat) : ℝ := (Real.cos (subAngle N j) + Real.sin (subAngle N j)) / 2

theorem subAngle_sub {N j : Nat} (hj : j < N) : subAngle N (N - j) = Real.pi / 2 - subAngle N j := by
  have hN : (N : ℝ) ≠ 0 := Nat.cast_ne_zero.mpr (by omega)
  rw [subAngle, subAngle, Nat.cast_sub hj.le]
  field_simp

theorem subAngle_half {n : Nat} (hn : 0 < n) : subAngle (2 * n) n = Real.pi / 4 := by
  have hn0 : (n : ℝ) ≠ 0 := Nat.cast_ne_zero.mpr hn.ne'
  rw [subAngle]
  push_cast
  field_simp
  norm_num

theorem ownWeight_sub {N j : Nat} (hj : j < N) : ownWeight N (N - j) = -ownWeight N j := by
  rw [ownWeight, ownWeight, subAngle_sub hj, Real.cos_pi_div_two_sub, Real.sin_pi_div_two_sub]
  ring

theorem partnerWeight_sub {N j : Nat} (hj : j < N) : partnerWeight N (N - j) = partnerWeight N j := by
  rw [partnerWeight, partnerWeight, subAngle_sub hj, Real.cos_pi_div_two_sub, Real.sin_pi_div_two_sub, add_comm]

theorem partnerWeight_reflect {N j : Nat} (hj : j < N) : partnerWeight N (reflect N j) = partnerWeight N j := by
  rcases j.eq_zero_or_pos with rfl | hpos
  · rw [reflect_zero]
  · rw [reflect_of_pos hpos, partnerWeight_sub hj]

theorem weights_zero (N : Nat) : ownWeight N 0 = 1 / 2 ∧ partnerWeight N 0 = 1 / 2 := by
  simp [ownWeight, partnerWeight, subAngle]

theorem weights_half {n : Nat} (hn : 0 < n) :
    ownWeight (2 * n) n = 0 ∧ partnerWeight (2 * n) n = Real.cos (Real.pi / 4) := by
  rw [ownWeight, partnerWeight, subAngle_half hn, Real.cos_pi_div_four, Real.sin_pi_div_four]
  constructor <;> ring

theorem cosTwiddle_exact {m j : Nat} (h0 : 0 < j) (hj : j < 2 ^ m) :
    cosTwiddle exactArith exactCoeffs (2 ^ m) j = (ownWeight (2 ^ m) j, partnerWeight (2 ^ m) j) := by
  have hangle : ∀ t : Nat, Real.pi / 2 * ((t : ℝ) / 2 ^ m) = subAngle (2 ^ m) t := fun t => by
    rw [subAngle]
    push_cast
    field_simp
  rw [cosTwiddle, log2_two_pow, halfCosine_exact h0 hj, halfCosine_exact (by omega) (by omega), hangle, hangle,
    subAngle_sub hj, Real.cos_pi_div_two_sub, ownWeight, partnerWeight, sub_div, add_div]
  rfl

/-! ### The last pass of the type II and first of the type III commands (R211, R212) -/

/-- Every cell and its partner rotated into each other; cell 0 stays. -/
noncomputable def rotated (N : Nat) (c : Nat → ℝ) (j : Nat) : ℝ :=
  ownWeight N j * c j + partnerWeight N j * c (reflect N j)

theorem rotated_eq (N : Nat) (c : Nat → ℝ) (j : Nat) :
    rotated N c j = ownWeight N j * c j + partnerWeight N j * c (reflect N j) := rfl

theorem rotated_zero (N : Nat) (c : Nat → ℝ) : rotated N c 0 = c 0 := by
  obtain ⟨hown, hpartner⟩ := weights_zero N
  rw [rotated, hown, hpartner, reflect_zero]
  ring

theorem rotated_half {n : Nat} (hn : 0 < n) (c : Nat → ℝ) :
    rotated (2 * n) c n = c n * Real.cos (Real.pi / 4) := by
  obtain ⟨hown, hpartner⟩ := weights_half hn
  rw [rotated, hown, hpartner, reflect_of_pos hn, show 2 * n - n = n by omega]
  ring

theorem rotated_partner {N j : Nat} (hj : j < N) (c : Nat → ℝ) :
    rotated N c (N - j) = partnerWeight N j * c j - ownWeight N j * c (N - j) := by
  rw [rotated, ownWeight_sub hj, partnerWeight_sub hj, reflect_of_pos (by omega), Nat.sub_sub_self hj.le]
  ring

theorem rotated_congr {N j : Nat} {c d : Nat → ℝ} (h : ∀ j < N, c j = d j) (hj : j < N) :
    rotated N c j = rotated N d j := by
  rw [rotated, rotated, h j hj, h _ (reflect_lt hj)]

/-- What the pass leaves when its loop rewrites each cell 0 < `j` < N/2 and its partner to `v`. -/
theorem scaleMidpoint_loop_cellsOf {n : Nat} {f : Nat → List ℝ → List ℝ} {c v : Nat → ℝ} (hn : 0 < n)
    (hf : ∀ j b, 0 < j → j < n → cellAt exactArith b j = c j → cellAt exactArith b (2 * n - j) = c (2 * n - j) →
      f j b = (b.set j (v j)).set (2 * n - j) (v (2 * n - j)))
    (hzero : v 0 = c 0) (hhalf : v n = c n * Real.cos (Real.pi / 4)) :
    scaleMidpoint exactArith exactCoeffs (2 * n) (loop (n - 1) (fun i b => f (i + 1) b) (cellsOf (2 * n) c))
      = cellsOf (2 * n) v := by
  have hpair : ∀ i < n - 1, ∀ j < 2 * n, pairRound n (2 * n) j = i ↔ j = i + 1 ∨ j = 2 * n - (i + 1) :=
    fun i hi j hj => (pairRound_eq_iff rfl hi hj).trans (by omega)
  have hloop := loop_cellsOf (f := fun i b => f (i + 1) b) (old := c) (new := v) hpair fun i hi b hread =>
    hf (i + 1) b i.succ_pos (by omega) (hread _ (by omega) ((hpair i hi _ (by omega)).mpr (.inl rfl)).ge)
      (hread _ (by omega) ((hpair i hi _ (by omega)).mpr (.inr rfl)).ge)
  have hfixed : ∀ j < 2 * n, pairRound n (2 * n) j < n - 1 ↔ ¬(j = 0 ∨ j = n) := fun j => pairRound_lt_iff rfl
  rw [hloop, scaleMidpoint, Nat.mul_div_cancel_left n two_pos, cellAt_cellsOf (by omega),
    if_neg (by simp [hfixed n (by omega)]), show exactArith.mul (c n) (exactCoeffs.ct 0) = v n from hhalf.symm,
    set_cellsOf]
  refine cellsOf_congr fun j hj => ?_
  by_cases hjn : j = n
  · rw [if_pos hjn]
  · by_cases hj0 : j = 0
    · simp [hj0, hzero]
    · simp [hfixed j hj, hj0, hjn]

/-- `DCTSUB` rotates the cells (R211). -/
theorem dctSub_cellsOf (h : Nat) (c : Nat → ℝ) :
    dctSub exactArith exactCoeffs (2 ^ (h + 1)) (cellsOf (2 ^ (h + 1)) c)
      = cellsOf (2 ^ (h + 1)) (rotated (2 ^ (h + 1)) c) := by
  have hN : 2 ^ (h + 1) = 2 * 2 ^ h := pow_succ' 2 h
  have hn : 0 < 2 ^ h := by positivity
  rw [dctSub, half_two_pow]
  refine hN ▸ scaleMidpoint_loop_cellsOf hn (fun j b h0 hj hcj hck => ?_) (rotated_zero _ c) (rotated_half hn c)
  rw [← hN] at hck ⊢
  rw [dctSubPair, cosTwiddle_exact h0 (by omega), hcj, hck, rotated_partner (by omega), rotated, reflect_of_pos h0]
  rfl

/-- The cells rotated in reverse order. -/
noncomputable def reverseRotated (N : Nat) (c : Nat → ℝ) (j : Nat) : ℝ :=
  rotated N (fun j => c (reflect N j)) (reflect N j)

theorem reverseRotated_zero (N : Nat) (c : Nat → ℝ) : reverseRotated N c 0 = c 0 := by
  rw [reverseRotated, reflect_zero, rotated_zero, reflect_zero]

theorem reverseRotated_half {n : Nat} (hn : 0 < n) (c : Nat → ℝ) :
    reverseRotated (2 * n) c n = c n * Real.cos (Real.pi / 4) := by
  have hself : reflect (2 * n) n = n := by rw [reflect_of_pos hn]; omega
  rw [reverseRotated, hself, rotated_half hn, hself]

theorem reverseRotated_own {N j : Nat} (h0 : 0 < j) (hj : j < N) (c : Nat → ℝ) :
    reverseRotated N c j = partnerWeight N j * c (N - j) - ownWeight N j * c j := by
  rw [reverseRotated, reflect_of_pos h0, rotated_partner hj, reflect_of_pos h0, reflect_of_pos (by omega),
    Nat.sub_sub_self hj.le]

theorem reverseRotated_partner {N j : Nat} (h0 : 0 < j) (hj : j < N) (c : Nat → ℝ) :
    reverseRotated N c (N - j) = ownWeight N j * c (N - j) + partnerWeight N j * c j := by
  rw [reverseRotated, reflect_of_pos (by omega), Nat.sub_sub_self hj.le, rotated, reflect_reflect hj, reflect_of_pos h0]

/-- `DSTSUB` rotates them in reverse order (R212). -/
theorem dstSub_cellsOf (h : Nat) (c : Nat → ℝ) :
    dstSub exactArith exactCoeffs (2 ^ (h + 1)) (cellsOf (2 ^ (h + 1)) c)
      = cellsOf (2 ^ (h + 1)) (reverseRotated (2 ^ (h + 1)) c) := by
  have hN : 2 ^ (h + 1) = 2 * 2 ^ h := pow_succ' 2 h
  have hn : 0 < 2 ^ h := by positivity
  rw [dstSub, half_two_pow]
  refine hN ▸ scaleMidpoint_loop_cellsOf hn (fun j b h0 hj hcj hck => ?_) (reverseRotated_zero _ c)
    (reverseRotated_half hn c)
  rw [← hN] at hck ⊢
  rw [dstSubPair, cosTwiddle_exact h0 (by omega), hcj, hck, List.set_comm _ _ (by omega),
    reverseRotated_own h0 (by omega), reverseRotated_partner h0 (by omega)]
  rfl

/-! ### The first pass of the type II commands (R213, R215) -/

/-- Cell `j` of a buffer of points. -/
def partAt (Z : Nat → ℂ) (j : Nat) : ℝ := if j % 2 = 0 then (Z (j / 2)).re else (Z (j / 2)).im

theorem interleaved_eq_cellsOf (n : Nat) (Z : Nat → ℂ) : interleaved n Z = cellsOf (2 * n) (partAt Z) := rfl

theorem partAt_even (Z : Nat → ℂ) (q : Nat) : partAt Z (2 * q) = (Z q).re := by
  rw [partAt, if_pos (by omega), Nat.mul_div_cancel_left q two_pos]

theorem partAt_odd (Z : Nat → ℂ) (q : Nat) : partAt Z (2 * q + 1) = (Z q).im := by
  rw [partAt, if_neg (by omega), show (2 * q + 1) / 2 = q by omega]

/-- A descending loop over the points but point 0, that makes each from its first cell and the
cell before. -/
theorem descending_loop_cellsOf {n : Nat} {f : Nat → List ℝ → List ℝ} {c : Nat → ℝ} {Z : Nat → ℂ}
    (hf : ∀ q b, 0 < q → q < n → cellAt exactArith b (2 * q) = c (2 * q) →
      cellAt exactArith b (2 * q - 1) = c (2 * q - 1) →
      f (2 * q) b = (b.set (2 * q + 1) (Z q).im).set (2 * q) (Z q).re) :
    loop (n - 1) (fun i b => f (2 * n - 2 - 2 * i) b) (cellsOf (2 * n) c)
      = cellsOf (2 * n) fun j => if 2 ≤ j then partAt Z j else c j := by
  have hloop := loop_cellsOf (N := 2 * n) (n := n - 1) (f := fun i b => f (2 * n - 2 - 2 * i) b)
    (own := fun j => (2 * n - 1 - j) / 2) (x := fun i => 2 * (n - 1 - i) + 1) (y := fun i => 2 * (n - 1 - i))
    (old := c) (new := partAt Z) (fun i hi j hj => by omega) fun i hi b hread => by
      rw [show 2 * n - 2 - 2 * i = 2 * (n - 1 - i) by omega, partAt_even, partAt_odd]
      exact hf _ b (by omega) (by omega) (hread _ (by omega) (by omega)) (hread _ (by omega) (by omega))
  rw [hloop]
  refine cellsOf_congr fun j hj => ?_
  congr 1
  exact propext (by omega)

/-- The cell before the first one of point `q`; for point 0 it is the last of all. -/
def cellBefore (n q : Nat) : Nat := if q = 0 then 2 * n - 1 else 2 * q - 1

theorem cellBefore_zero (n : Nat) : cellBefore n 0 = 2 * n - 1 := if_pos rfl

theorem cellBefore_of_pos (n : Nat) {q : Nat} (hq : 0 < q) : cellBefore n q = 2 * q - 1 := if_neg hq.ne'

/-- Point `q` after `DCTPRE`: the sum and the difference of its first cell and the one before. -/
def prePoint (n : Nat) (a : Nat → ℝ) (q : Nat) : ℂ := ⟨a (2 * q) + a (cellBefore n q), a (2 * q) - a (cellBefore n q)⟩

/-- Every point but point 0 conjugated. -/
noncomputable def conjRest (Z : Nat → ℂ) (q : Nat) : ℂ := if q = 0 then Z 0 else starRingEnd ℂ (Z q)

theorem conjRest_zero (Z : Nat → ℂ) : conjRest Z 0 = Z 0 := if_pos rfl

theorem conjRest_of_pos (Z : Nat → ℂ) {q : Nat} (hq : 0 < q) : conjRest Z q = starRingEnd ℂ (Z q) := if_neg hq.ne'

/-- The input with alternating signs. -/
noncomputable def alternated (a : Nat → ℝ) (j : Nat) : ℝ := (-1) ^ j * a j

theorem alternated_even (a : Nat → ℝ) (q : Nat) : alternated a (2 * q) = a (2 * q) := by
  simp [alternated]

theorem alternated_cellBefore {n : Nat} (hn : 0 < n) (a : Nat → ℝ) (q : Nat) :
    alternated a (cellBefore n q) = -a (cellBefore n q) := by
  have hodd : Odd (cellBefore n q) := by
    rw [cellBefore, Nat.odd_iff]
    split <;> omega
  rw [alternated, hodd.neg_one_pow, neg_one_mul]

/-- Point 0 written last. -/
theorem set_first_point {n : Nat} (Z : Nat → ℂ) (c : Nat → ℝ) :
    ((cellsOf (2 * n) fun j => if 2 ≤ j then partAt Z j else c j).set 1 (Z 0).im).set 0 (Z 0).re = interleaved n Z := by
  have hset := set_set_cellsOf (2 * n) 1 0 (fun j => if 2 ≤ j then partAt Z j else c j) (partAt Z)
  rw [partAt_odd Z 0, partAt_even Z 0] at hset
  rw [hset, interleaved_eq_cellsOf]
  refine cellsOf_congr fun j _ => ?_
  by_cases hj : 2 ≤ j
  · simp [hj]
  · rw [if_pos (by omega)]

/-- `DCTPRE` makes the sums and the differences (R213). -/
theorem dctPre_cellsOf {n : Nat} (hn : 0 < n) (a : Nat → ℝ) :
    dctPre exactArith (2 * n) (cellsOf (2 * n) a) = interleaved n (prePoint n a) := by
  have hloop := descending_loop_cellsOf (n := n) (c := a) (Z := prePoint n a) (f := fun j b =>
    (b.set (j + 1) (exactArith.sub (cellAt exactArith b j) (cellAt exactArith b (j - 1)))).set j
      (exactArith.add (cellAt exactArith b j) (cellAt exactArith b (j - 1)))) fun q b h0 _ hown hbefore => by
    rw [hown, hbefore, prePoint, cellBefore_of_pos n h0]
    rfl
  simp only [dctPre, Nat.mul_div_cancel_left n two_pos]
  rw [hloop, cellAt_cellsOf (by omega), cellAt_cellsOf (by omega), if_neg (by omega)]
  exact set_first_point (prePoint n a) a

/-- `DSTPRE` makes those of the input with alternating signs, and conjugates (R215). -/
theorem dstPre_cellsOf {n : Nat} (hn : 0 < n) (a : Nat → ℝ) :
    dstPre exactArith (2 * n) (cellsOf (2 * n) a) = interleaved n (conjRest (prePoint n (alternated a))) := by
  have hloop := descending_loop_cellsOf (n := n) (c := a) (Z := conjRest (prePoint n (alternated a))) (f := fun j b =>
    (b.set (j + 1) (exactArith.sub (exactArith.neg (cellAt exactArith b j)) (cellAt exactArith b (j - 1)))).set j
      (exactArith.sub (cellAt exactArith b j) (cellAt exactArith b (j - 1)))) fun q b h0 _ hown hbefore => by
    rw [hown, hbefore, conjRest_of_pos _ h0, prePoint, alternated_cellBefore hn, alternated_even,
      cellBefore_of_pos n h0]
    simp [exactArith, sub_eq_add_neg, add_comm]
  have hfirst : conjRest (prePoint n (alternated a)) 0 = ⟨a 0 - a (2 * n - 1), a 0 + a (2 * n - 1)⟩ := by
    rw [conjRest_zero, prePoint, alternated_cellBefore hn, alternated_even, cellBefore_zero, sub_neg_eq_add,
      ← sub_eq_add_neg]
  have hset := set_first_point (n := n) (conjRest (prePoint n (alternated a))) a
  simp only [dstPre, Nat.mul_div_cancel_left n two_pos]
  rw [hloop, cellAt_cellsOf (by omega), cellAt_cellsOf (by omega), if_neg (by omega), ← hset, hfirst]
  rfl

/-! ### The last pass of the type III commands (R214, R216) -/

/-- An ascending loop over the pairs of cells 2q - 1 and 2q, and the first and the last cell written around it. -/
theorem ascending_loop_cellsOf {n : Nat} {f : Nat → List ℝ → List ℝ} {c v : Nat → ℝ} (hn : 0 < n)
    (hf : ∀ q b, 0 < q → q < n → cellAt exactArith b (2 * q) = c (2 * q) →
      cellAt exactArith b (2 * q + 1) = c (2 * q + 1) →
      f (2 * q) b = (b.set (2 * q - 1) (v (2 * q - 1))).set (2 * q) (v (2 * q))) :
    (loop (n - 1) (fun i b => f (2 * i + 2) b) ((cellsOf (2 * n) c).set 0 (v 0))).set (2 * n - 1) (v (2 * n - 1))
      = cellsOf (2 * n) v := by
  have hloop := loop_cellsOf (N := 2 * n) (n := n - 1) (f := fun i b => f (2 * i + 2) b)
    (own := fun j => if j = 0 then n else (j - 1) / 2) (x := fun i => 2 * i + 1) (y := fun i => 2 * i + 2)
    (old := fun j => if j = 0 then v j else c j) (new := v) (fun i hi j hj => by split <;> omega) fun i hi b hread =>
      hf (i + 1) b (by omega) (by omega) (hread (2 * (i + 1)) (by omega) (by rw [if_neg] <;> omega))
        (hread (2 * (i + 1) + 1) (by omega) (by rw [if_neg] <;> omega))
  rw [set_cellsOf, hloop, set_cellsOf]
  refine cellsOf_congr fun j hj => ?_
  by_cases hj0 : j = 0
  · simp [hj0]
  · by_cases hlast : j = 2 * n - 1
    · rw [if_pos hlast]
    · rw [if_neg hlast, if_neg hj0, if_pos (by omega)]

/-- Cell `p` after `DCTPOST`: the sum or the difference of the parts of its point. -/
noncomputable def folded (n : Nat) (Z : Nat → ℂ) (p : Nat) : ℝ :=
  if p = 0 then (Z 0).re + (Z 0).im
  else if p = 2 * n - 1 then (Z 0).re - (Z 0).im
  else (Z ((p + 1) / 2)).re + (-1) ^ p * (Z ((p + 1) / 2)).im

theorem folded_zero (n : Nat) (Z : Nat → ℂ) : folded n Z 0 = (Z 0).re + (Z 0).im := if_pos rfl

theorem folded_last {n : Nat} (hn : 0 < n) (Z : Nat → ℂ) : folded n Z (2 * n - 1) = (Z 0).re - (Z 0).im := by
  rw [folded, if_neg (by omega), if_pos rfl]

theorem folded_inner {n p : Nat} (Z : Nat → ℂ) (h0 : p ≠ 0) (hlast : p ≠ 2 * n - 1) :
    folded n Z p = (Z ((p + 1) / 2)).re + (-1) ^ p * (Z ((p + 1) / 2)).im := by
  rw [folded, if_neg h0, if_neg hlast]

theorem folded_even {n q : Nat} (Z : Nat → ℂ) (h0 : 0 < q) : folded n Z (2 * q) = (Z q).re + (Z q).im := by
  rw [folded_inner Z (by omega) (by omega), show (2 * q + 1) / 2 = q by omega, (even_two_mul q).neg_one_pow, one_mul]

theorem odd_two_mul_sub_one {q : Nat} (h0 : 0 < q) : Odd (2 * q - 1) := Nat.odd_iff.mpr (by omega)

theorem folded_odd {n q : Nat} (Z : Nat → ℂ) (h0 : 0 < q) (hq : q < n) :
    folded n Z (2 * q - 1) = (Z q).re - (Z q).im := by
  rw [folded_inner Z (by omega) (by omega), show (2 * q - 1 + 1) / 2 = q by omega,
    (odd_two_mul_sub_one h0).neg_one_pow, neg_one_mul, sub_eq_add_neg]

theorem folded_congr {n p : Nat} {Y Z : Nat → ℂ} (h : ∀ q < n, Y q = Z q) (hp : p < 2 * n) :
    folded n Y p = folded n Z p := by
  rw [folded, folded, h 0 (by omega)]
  by_cases hlast : p = 2 * n - 1
  · rw [if_pos hlast, if_pos hlast]
  · rw [h ((p + 1) / 2) (by omega)]

/-- `DCTPOST` takes the sums and the differences (R214). -/
theorem dctPost_interleaved {n : Nat} (hn : 0 < n) (Z : Nat → ℂ) :
    dctPost exactArith (2 * n) (interleaved n Z) = cellsOf (2 * n) (folded n Z) := by
  obtain ⟨hre, him⟩ := cellAt_interleaved_zero hn Z
  have hloop := ascending_loop_cellsOf (c := partAt Z) (v := folded n Z) (f := fun j b =>
    (b.set (j - 1) (exactArith.sub (cellAt exactArith b j) (cellAt exactArith b (j + 1)))).set j
      (exactArith.add (cellAt exactArith b j) (cellAt exactArith b (j + 1)))) hn fun q b h0 hq hfirst hsecond => by
    rw [hfirst, hsecond, partAt_even, partAt_odd, folded_even Z h0, folded_odd Z h0 hq]
    rfl
  simp only [dctPost, Nat.mul_div_cancel_left n two_pos, hre, him]
  rw [← hloop, folded_zero, folded_last hn]
  rfl

/-- `DSTPOST` takes those of the conjugates, with alternating signs (R216). -/
theorem dstPost_interleaved {n : Nat} (hn : 0 < n) (Z : Nat → ℂ) :
    dstPost exactArith (2 * n) (interleaved n Z) = cellsOf (2 * n) (alternated (folded n (conjRest Z))) := by
  obtain ⟨hre, him⟩ := cellAt_interleaved_zero hn Z
  have heven : ∀ q, 0 < q → alternated (folded n (conjRest Z)) (2 * q) = (Z q).re - (Z q).im := fun q h0 => by
    rw [alternated_even, folded_even _ h0, conjRest_of_pos Z h0, Complex.conj_re, Complex.conj_im, sub_eq_add_neg]
  have hodd : ∀ q, 0 < q → alternated (folded n (conjRest Z)) (2 * q - 1) = -folded n (conjRest Z) (2 * q - 1) :=
    fun q h0 => by rw [alternated, (odd_two_mul_sub_one h0).neg_one_pow, neg_one_mul]
  have hloop := ascending_loop_cellsOf (c := partAt Z) (v := alternated (folded n (conjRest Z))) (f := fun j b =>
    (b.set (j - 1) (exactArith.sub (exactArith.neg (cellAt exactArith b j)) (cellAt exactArith b (j + 1)))).set j
      (exactArith.sub (cellAt exactArith b j) (cellAt exactArith b (j + 1)))) hn fun q b h0 hq hfirst hsecond => by
    rw [hfirst, hsecond, partAt_even, partAt_odd, heven q h0, hodd q h0, folded_odd _ h0 hq, conjRest_of_pos Z h0]
    simp [exactArith, sub_eq_add_neg, add_comm]
  simp only [dstPost, Nat.mul_div_cancel_left n two_pos, hre, him]
  rw [← hloop, hodd n hn, folded_last hn, alternated_even _ 0, folded_zero, conjRest_zero]
  rfl

/-! ### What the real cores give and take (R217, R218) -/

/-- What cell `p` contributes to cell `j` in the backward core, and cell `j` to cell `p` in the forward core. -/
noncomputable def kernel (m p j : Nat) : ℝ :=
  (root m (j * ((p + 1) / 2))).re + (-1) ^ p * (root m (j * ((p + 1) / 2))).im

theorem kernel_eq (m p j : Nat) : kernel m p j
    = (root m (j * ((p + 1) / 2))).re + (-1) ^ p * (root m (j * ((p + 1) / 2))).im := rfl

theorem kernel_even (m q j : Nat) : kernel m (2 * q) j = (root m (j * q)).re + (root m (j * q)).im := by
  rw [kernel, show (2 * q + 1) / 2 = q by omega, (even_two_mul q).neg_one_pow, one_mul]

theorem kernel_odd (m j : Nat) {q : Nat} (h0 : 0 < q) :
    kernel m (2 * q - 1) j = (root m (j * q)).re - (root m (j * q)).im := by
  rw [kernel, show (2 * q - 1 + 1) / 2 = q by omega, (odd_two_mul_sub_one h0).neg_one_pow, neg_one_mul,
    sub_eq_add_neg]

theorem kernel_zero (m j : Nat) : kernel m 0 j = 1 := by
  rw [kernel_even m 0, Nat.mul_zero, root_zero, Complex.one_re, Complex.one_im, add_zero]

theorem kernel_last (h j : Nat) : kernel (h + 1) (2 * 2 ^ h - 1) j = (-1) ^ j := by
  have hroot : root (h + 1) (j * 2 ^ h) = ((-1) ^ j : ℝ) := by
    rw [Nat.mul_comm, root_mul, root_two_pow]
    simp
  rw [kernel_odd _ _ (by positivity), hroot, Complex.ofReal_re, Complex.ofReal_im, sub_zero]

/-- A sum over all cells, two to a point. -/
theorem sum_range_cellBefore {n : Nat} (hn : 0 < n) (f : Nat → ℝ) :
    ∑ p ∈ Finset.range (2 * n), f p = f 0 + f (2 * n - 1) + ∑ q ∈ Finset.Ico 1 n, (f (2 * q) + f (2 * q - 1)) := by
  induction n, hn using Nat.le_induction with
  | base => simp [Finset.sum_range_succ]
  | succ n hn ih =>
    rw [Finset.sum_Ico_succ_top hn, show 2 * (n + 1) = 2 * n + 1 + 1 by ring, Finset.sum_range_succ,
      Finset.sum_range_succ, ih, Nat.add_sub_cancel]
    ring

/-- The backward core on the points that `DCTPRE` makes (R217). -/
theorem synthesized_prePoint (h : Nat) (a : Nat → ℝ) (j : Nat) :
    synthesized h (prePoint (2 ^ h) a) j = ∑ p ∈ Finset.range (2 ^ (h + 1)), a p * kernel (h + 1) p j := by
  have hfirst : (if j % 2 = 0 then (prePoint (2 ^ h) a 0).re else (prePoint (2 ^ h) a 0).im)
      = a 0 * kernel (h + 1) 0 j + a (2 * 2 ^ h - 1) * kernel (h + 1) (2 * 2 ^ h - 1) j := by
    rw [kernel_zero, kernel_last, prePoint, cellBefore_zero]
    split
    · next hj => rw [(Nat.even_iff.mpr hj).neg_one_pow, mul_one, mul_one]
    · next hj => rw [(Nat.odd_iff.mpr (by omega)).neg_one_pow, mul_one, mul_neg_one, sub_eq_add_neg]
  rw [synthesized, hfirst, pow_succ' 2 h, sum_range_cellBefore (by positivity)]
  congr 1
  refine Finset.sum_congr rfl fun q hq => ?_
  have h0 : 0 < q := (Finset.mem_Ico.mp hq).1
  rw [kernel_even, kernel_odd _ _ h0, prePoint, cellBefore_of_pos _ h0, Complex.mul_re, Complex.conj_re,
    Complex.conj_im]
  ring

/-- The backward core on the conjugates gives the cells in reverse order (R219). -/
theorem synthesized_conjRest {h j : Nat} (Z : Nat → ℂ) (hj : j < 2 ^ (h + 1)) :
    synthesized h (conjRest Z) (reflect (2 ^ (h + 1)) j) = synthesized h Z j := by
  have hparity : reflect (2 ^ (h + 1)) j % 2 = j % 2 := by
    rw [pow_succ'] at hj ⊢
    rw [reflect]
    split <;> omega
  rw [synthesized, synthesized, hparity, conjRest_zero]
  congr 1
  refine Finset.sum_congr rfl fun q hq => ?_
  rw [conjRest_of_pos Z (Finset.mem_Ico.mp hq).1, root_reflect_mul hj, ← map_mul, Complex.conj_re]

theorem sum_mul_kernel (m : Nat) (c : Nat → ℝ) (p : Nat) : ∑ j ∈ Finset.range (2 ^ m), c j * kernel m p j
    = (realBin m c ((p + 1) / 2)).re + (-1) ^ p * (realBin m c ((p + 1) / 2)).im := by
  simp only [realBin, transform_eq, Complex.re_sum, Complex.im_sum, Complex.re_ofReal_mul, Complex.im_ofReal_mul,
    Finset.mul_sum, ← Finset.sum_add_distrib, kernel_eq]
  exact Finset.sum_congr rfl fun j _ => by ring

/-- The points that the forward core makes of the cells `c`. -/
noncomputable def forwardPoints (k : Nat) (c : Nat → ℝ) : Nat → ℂ :=
  forwardCorrected k (transform (k + 1) (pairOf c))

theorem forwardCore_cellsOf (k : Nat) (c : Nat → ℝ) :
    forwardCore exactArith exactCoeffs (buildBr (k + 1)) (2 ^ (k + 2)) (cellsOf (2 ^ (k + 2)) c)
      = interleaved (2 ^ (k + 1)) (forwardPoints k c) := by
  rw [cellsOf_two_pow, forwardCore_interleaved, forwardPoints]

/-- Point 0 holds the bins 0 and N/2 as the sum and the difference of its parts. -/
theorem forwardPoints_zero (k : Nat) (c : Nat → ℝ) :
    (forwardPoints k c 0).re + (forwardPoints k c 0).im = (realBin (k + 2) c 0).re
    ∧ (forwardPoints k c 0).re - (forwardPoints k c 0).im = (realBin (k + 2) c (2 ^ (k + 1))).re := by
  rw [forwardPoints, forwardCorrected, corrected_zero, realBin_re, realBin_re]
  exact transform_pairOf_zero (k + 1) c

theorem forwardPoints_of_pos {k q : Nat} (c : Nat → ℝ) (h0 : 0 < q) (hq : q < 2 ^ (k + 1)) :
    forwardPoints k c q = realBin (k + 2) c q := forwardCorrected_transform c h0 hq

theorem realBin_half_im (h : Nat) (c : Nat → ℝ) : (realBin (h + 1) c (2 ^ h)).im = 0 := by
  have hself := realBin_complement c (Nat.pow_le_pow_right two_pos h.le_succ)
  rw [show 2 ^ (h + 1) - 2 ^ h = 2 ^ h by rw [pow_succ]; omega] at hself
  exact Complex.conj_eq_iff_im.mp hself.symm

/-- The forward core and `DCTPOST` (R218). -/
theorem folded_forwardPoints {k p : Nat} (c : Nat → ℝ) (hp : p < 2 * 2 ^ (k + 1)) :
    folded (2 ^ (k + 1)) (forwardPoints k c) p = ∑ j ∈ Finset.range (2 ^ (k + 2)), c j * kernel (k + 2) p j := by
  have hn : 0 < 2 ^ (k + 1) := by positivity
  obtain ⟨hsum, hdiff⟩ := forwardPoints_zero k c
  rw [sum_mul_kernel]
  by_cases h0 : p = 0
  · rw [h0, folded_zero, hsum, realBin_zero_im, mul_zero, add_zero]
  · by_cases hlast : p = 2 * 2 ^ (k + 1) - 1
    · rw [hlast, folded_last hn, hdiff, show (2 * 2 ^ (k + 1) - 1 + 1) / 2 = 2 ^ (k + 1) by omega, realBin_half_im,
        mul_zero, add_zero]
    · rw [folded_inner _ h0 hlast, forwardPoints_of_pos c (by omega) (by omega)]

/-- Of the cells in reverse order the forward core makes the conjugates (R220). -/
theorem conjRest_forwardPoints_reflect {k q : Nat} (c : Nat → ℝ) (hq : q < 2 ^ (k + 1)) :
    conjRest (forwardPoints k fun j => c (reflect (2 ^ (k + 2)) j)) q = forwardPoints k c q := by
  rcases q.eq_zero_or_pos with rfl | h0
  · obtain ⟨hsum, hdiff⟩ := forwardPoints_zero k c
    obtain ⟨hsum', hdiff'⟩ := forwardPoints_zero k fun j => c (reflect (2 ^ (k + 2)) j)
    rw [realBin_reflect, Complex.conj_re] at hsum' hdiff'
    rw [conjRest_zero]
    exact Complex.ext (by linarith) (by linarith)
  · rw [conjRest_of_pos _ h0, forwardPoints_of_pos _ h0 hq, forwardPoints_of_pos _ h0 hq, realBin_reflect,
      Complex.conj_conj]

/-! ### The sums (R221, R222) -/

/-- The rotation is symmetric, so that it may be taken from the input to the kernel. -/
theorem sum_rotated_mul {N : Nat} (hN : 0 < N) (a f : Nat → ℝ) :
    ∑ j ∈ Finset.range N, rotated N a j * f j = ∑ j ∈ Finset.range N, a j * rotated N f j := by
  have hpartner : ∑ j ∈ Finset.range N, partnerWeight N j * a (reflect N j) * f j
      = ∑ j ∈ Finset.range N, a j * (partnerWeight N j * f (reflect N j)) := by
    rw [← sum_range_reflect _ hN]
    refine Finset.sum_congr rfl fun j hj => ?_
    rw [partnerWeight_reflect (Finset.mem_range.mp hj), reflect_reflect (Finset.mem_range.mp hj)]
    ring
  simp only [rotated_eq, add_mul, mul_add, Finset.sum_add_distrib, hpartner]
  congr 1
  exact Finset.sum_congr rfl fun j _ => by ring

theorem rotated_sum (N : Nat) (a : Nat → ℝ) (f : Nat → Nat → ℝ) (j : Nat) :
    rotated N (fun j => ∑ p ∈ Finset.range N, a p * f p j) j = ∑ p ∈ Finset.range N, a p * rotated N (f p) j := by
  simp only [rotated_eq, Finset.mul_sum, ← Finset.sum_add_distrib]
  exact Finset.sum_congr rfl fun p _ => by ring

/-- The cosine of half-integer place `p` and integer frequency `j`. -/
noncomputable def cosineBasis (N p j : Nat) : ℝ := Real.cos (Real.pi * (p + 1 / 2) * j / N)

theorem kernel_reflect {m p j : Nat} (hj : j < 2 ^ m) : kernel m p (reflect (2 ^ m) j)
    = (root m (j * ((p + 1) / 2))).re - (-1) ^ p * (root m (j * ((p + 1) / 2))).im := by
  rw [kernel, root_reflect_mul hj, Complex.conj_re, Complex.conj_im, mul_neg, sub_eq_add_neg]

/-- The rotation turns the kernel by half a place, to the cosine. -/
theorem rotated_kernel {m j : Nat} (p : Nat) (hj : j < 2 ^ m) :
    rotated (2 ^ m) (kernel m p) j = cosineBasis (2 ^ m) p j := by
  have hrotated : rotated (2 ^ m) (kernel m p) j
      = Real.cos (subAngle (2 ^ m) j) * (root m (j * ((p + 1) / 2))).re
        - (-1) ^ p * (Real.sin (subAngle (2 ^ m) j) * (root m (j * ((p + 1) / 2))).im) := by
    rw [rotated, kernel_reflect hj, kernel, ownWeight, partnerWeight]
    ring
  rw [hrotated, root_re, root_im, cosineBasis, subAngle]
  rcases p.even_or_odd' with ⟨q, rfl | rfl⟩
  · rw [(even_two_mul q).neg_one_pow, one_mul, ← Real.cos_add, show (2 * q + 1) / 2 = q by omega]
    congr 1
    push_cast
    field_simp
    ring
  · rw [(odd_two_mul_add_one q).neg_one_pow, neg_one_mul, sub_neg_eq_add, ← Real.cos_sub,
      show (2 * q + 1 + 1) / 2 = q + 1 by omega, ← Real.cos_neg]
    congr 1
    push_cast
    field_simp
    ring

/-- The type II cosine sums. -/
theorem rotated_synthesized_prePoint {h j : Nat} (a : Nat → ℝ) (hj : j < 2 ^ (h + 1)) :
    rotated (2 ^ (h + 1)) (synthesized h (prePoint (2 ^ h) a)) j
      = ∑ p ∈ Finset.range (2 ^ (h + 1)), a p * cosineBasis (2 ^ (h + 1)) p j := by
  simp only [funext (synthesized_prePoint h a), rotated_sum, rotated_kernel _ hj]

/-- The type III cosine sums. -/
theorem folded_forwardPoints_rotated {k p : Nat} (a : Nat → ℝ) (hp : p < 2 * 2 ^ (k + 1)) :
    folded (2 ^ (k + 1)) (forwardPoints k (rotated (2 ^ (k + 2)) a)) p
      = ∑ j ∈ Finset.range (2 ^ (k + 2)), a j * cosineBasis (2 ^ (k + 2)) p j := by
  rw [folded_forwardPoints _ hp, sum_rotated_mul (by positivity)]
  exact Finset.sum_congr rfl fun j hj => by rw [rotated_kernel p (Finset.mem_range.mp hj)]

/-- The type II sums of the input with alternating signs, in reverse order. -/
theorem reverseRotated_synthesized_conjRest {h j : Nat} (a : Nat → ℝ) (hj : j < 2 ^ (h + 1)) :
    reverseRotated (2 ^ (h + 1)) (synthesized h (conjRest (prePoint (2 ^ h) (alternated a)))) j
      = ∑ p ∈ Finset.range (2 ^ (h + 1)),
          alternated a p * cosineBasis (2 ^ (h + 1)) p (reflect (2 ^ (h + 1)) j) := by
  rw [reverseRotated, rotated_congr (fun i hi => synthesized_conjRest _ hi) (reflect_lt hj),
    rotated_synthesized_prePoint _ (reflect_lt hj)]

/-- The type III sums of the input in reverse order. -/
theorem folded_conjRest_reverseRotated {k p : Nat} (a : Nat → ℝ) (hp : p < 2 * 2 ^ (k + 1)) :
    folded (2 ^ (k + 1)) (conjRest (forwardPoints k (reverseRotated (2 ^ (k + 2)) a))) p
      = ∑ j ∈ Finset.range (2 ^ (k + 2)), a (reflect (2 ^ (k + 2)) j) * cosineBasis (2 ^ (k + 2)) p j :=
  (folded_congr (fun _ hq => conjRest_forwardPoints_reflect _ hq) hp).trans (folded_forwardPoints_rotated _ hp)

/-- Settles O51: `DCTPRE` and the backward core leave the input against a kernel that `DCTSUB` turns by half a place to
the type II cosines; the type III chain is its transpose. -/
theorem cosineStagesComputeTheSums : Obligations.CosineStagesComputeTheSums := by
  intro m a hm
  obtain ⟨k, rfl⟩ := Nat.exists_eq_add_of_le' hm
  have hN : 2 ^ (k + 2) = 2 * 2 ^ (k + 1) := pow_succ' 2 (k + 1)
  have hn : 0 < 2 ^ (k + 1) := by positivity
  have hpre : dctPre exactArith (2 ^ (k + 2)) (cellsOf (2 ^ (k + 2)) a)
      = interleaved (2 ^ (k + 1)) (prePoint (2 ^ (k + 1)) a) := hN ▸ dctPre_cellsOf hn a
  have hpost : ∀ Z, dctPost exactArith (2 ^ (k + 2)) (interleaved (2 ^ (k + 1)) Z)
      = cellsOf (2 ^ (k + 2)) (folded (2 ^ (k + 1)) Z) := hN ▸ dctPost_interleaved hn
  rw [show k + 2 - 1 = k + 1 from rfl]
  constructor
  · rw [stagesDctF, hpre, backwardCore_interleaved, dctSub_cellsOf]
    exact cellsOf_congr fun j hj => rotated_synthesized_prePoint a hj
  · rw [stagesDctI, dctSub_cellsOf, forwardCore_cellsOf, hpost]
    refine cellsOf_congr fun p hp => (folded_forwardPoints_rotated a (hN ▸ hp)).trans ?_
    refine Finset.sum_congr rfl fun j _ => ?_
    rw [cosineBasis, mul_right_comm]

/-- A sine as the cosine of the opposite frequency. -/
theorem sin_eq_cosineBasis {N t : Nat} (p : Nat) (hN : 0 < N) (ht : t ≤ N) :
    Real.sin (Real.pi * (p + 1 / 2) * t / N) = (-1) ^ p * cosineBasis N p (N - t) := by
  have hN0 : (N : ℝ) ≠ 0 := Nat.cast_ne_zero.mpr hN.ne'
  have hangle : Real.pi * (p + 1 / 2) * t / N
      = Real.pi / 2 - Real.pi * (p + 1 / 2) * ((N - t : Nat) : ℝ) / N + p * Real.pi := by
    rw [Nat.cast_sub ht]
    field_simp
    ring
  rw [hangle, Real.sin_add_nat_mul_pi, Real.sin_pi_div_two_sub, cosineBasis]

/-- The type III sums as the statement of R222 numbers them, index N in cell 0. -/
theorem sum_Icc_eq_sum_range_reflect (N : Nat) (a s : Nat → ℝ) :
    ∑ j ∈ Finset.Icc 1 N, a (if j = N then 0 else j) * s j
      = ∑ j ∈ Finset.range N, a (reflect N j) * s (N - j) := by
  have hreflect := Finset.sum_Ico_reflect (fun j => a (if j = N then 0 else j) * s j) 0 N.le_succ
  rw [Nat.add_sub_cancel_left, Nat.sub_zero] at hreflect
  rw [Finset.range_eq_Ico, ← Finset.Ico_add_one_right_eq_Icc, ← hreflect]
  refine Finset.sum_congr rfl fun j hj => ?_
  have hjN := (Finset.mem_Ico.mp hj).2
  congr 2
  rw [reflect]
  split <;> split <;> omega

/-- Settles O52: the sine stages are the cosine stages on the input with alternating signs, the sums in reverse order
(type II), and on the input in reverse order, the sums with alternating signs (type III). -/
theorem sineStagesComputeTheSums : Obligations.SineStagesComputeTheSums := by
  intro m a hm
  obtain ⟨k, rfl⟩ := Nat.exists_eq_add_of_le' hm
  have hN : 2 ^ (k + 2) = 2 * 2 ^ (k + 1) := pow_succ' 2 (k + 1)
  have hn : 0 < 2 ^ (k + 1) := by positivity
  have hN0 : 0 < 2 ^ (k + 2) := by positivity
  have hpre : dstPre exactArith (2 ^ (k + 2)) (cellsOf (2 ^ (k + 2)) a)
      = interleaved (2 ^ (k + 1)) (conjRest (prePoint (2 ^ (k + 1)) (alternated a))) := hN ▸ dstPre_cellsOf hn a
  have hpost : ∀ Z, dstPost exactArith (2 ^ (k + 2)) (interleaved (2 ^ (k + 1)) Z)
      = cellsOf (2 ^ (k + 2)) (alternated (folded (2 ^ (k + 1)) (conjRest Z))) := hN ▸ dstPost_interleaved hn
  rw [show k + 2 - 1 = k + 1 from rfl]
  constructor
  · rw [stagesDstF, hpre, backwardCore_interleaved, dstSub_cellsOf]
    refine cellsOf_congr fun j hj => ?_
    rw [reverseRotated_synthesized_conjRest a hj]
    refine Finset.sum_congr rfl fun p _ => ?_
    have hindex : 2 ^ (k + 2) - (if j = 0 then 2 ^ (k + 2) else j) = reflect (2 ^ (k + 2)) j := by
      rw [reflect]
      split <;> omega
    rw [sin_eq_cosineBasis p hN0 (by split <;> omega), hindex, alternated]
    ring
  · rw [stagesDstI, dstSub_cellsOf, forwardCore_cellsOf, hpost]
    refine cellsOf_congr fun p hp => ?_
    rw [alternated, folded_conjRest_reverseRotated a (hN ▸ hp), sum_Icc_eq_sum_range_reflect, Finset.mul_sum]
    refine Finset.sum_congr rfl fun j hj => ?_
    have hjN := (Finset.mem_range.mp hj).le
    have hsin := sin_eq_cosineBasis p hN0 (Nat.sub_le (2 ^ (k + 2)) j)
    rw [Nat.sub_sub_self hjN] at hsin
    rw [mul_right_comm, hsin]
    ring

end Sys2Proof.CosineSineAdapter
end

section
/-! SUPPORT. Numerics (46_numerics.md): what the packed cells stand for, and rounding once to nearest, ties to even. -/

namespace Sys2Proof.Numerics

open Sys2Proof.Machine Sys2Proof.Claims Sys2Proof.Generator Sys2Proof.SampleMemory

/-! ### The numbers that cells stand for (R260) -/

theorem gridOf_of_lt {fmt : Format} {mag : Nat} (h : mag < 2 * leadBit fmt) : gridOf fmt mag = mag := by
  simpa using gridOf_scaled (q := 0) h.le (.inl rfl)

theorem two_mul_leadBit_lt_infMagnitude (fmt : Format) : 2 * leadBit fmt < infMagnitude fmt := by
  cases fmt <;> decide

theorem signed_infMagnitude (fmt : Format) (neg : Bool) : signed fmt neg (infMagnitude fmt) = .inf neg := if_pos rfl

theorem signed_of_lt {fmt : Format} {mag : Nat} (neg : Bool) (h : mag < infMagnitude fmt) :
    signed fmt neg mag = .finite neg (gridOf fmt mag) := if_neg h.ne

theorem signed_zero (fmt : Format) (neg : Bool) : signed fmt neg 0 = .finite neg 0 := by
  have hpos := (Nat.zero_le _).trans_lt (two_mul_leadBit_lt_infMagnitude fmt)
  rw [signed_of_lt neg hpos, gridOf_of_lt (Nat.mul_pos two_pos (leadBit_pos fmt))]

theorem numberOf_eq_signed {fmt : Format} {b : CellBits} (h : magnitudeOf fmt b ≤ infMagnitude fmt) :
    numberOf fmt b = signed fmt (signOf fmt b) (magnitudeOf fmt b) := if_neg h.not_gt

theorem signBit_lt (fmt : Format) : cellWidth fmt - 1 < 64 := by cases fmt <;> decide

theorem signOf_eq_getLsbD (fmt : Format) (b : CellBits) : signOf fmt b = b.getLsbD (cellWidth fmt - 1) := by
  rw [signOf, ← BitVec.testBit_toNat, Nat.testBit_eq_decide_div_mod_eq]

theorem signOf_pack {fmt : Format} (neg : Bool) {mag : Nat} (h : mag ≤ infMagnitude fmt) :
    signOf fmt (BitVec.ofNat 64 (if neg then 2 ^ (cellWidth fmt - 1) + mag else mag)) = neg := by
  have hclear := Nat.testBit_lt_two_pow (h.trans_lt (infMagnitude_lt_sign fmt))
  rw [signOf_eq_getLsbD, BitVec.getLsbD_ofNat, decide_eq_true (signBit_lt fmt), Bool.true_and]
  cases neg with
  | false => exact hclear
  | true => rw [if_pos rfl, Nat.testBit_two_pow_add_eq, hclear, Bool.not_false]

theorem number_pack {fmt : Format} (neg : Bool) {mag : Nat} (h : mag ≤ infMagnitude fmt) :
    (pack fmt neg mag).number fmt = signed fmt neg mag := by
  have hmag := magnitudeOf_pack neg h
  calc (pack fmt neg mag).number fmt
      = numberOf fmt (BitVec.ofNat 64 (if neg then 2 ^ (cellWidth fmt - 1) + mag else mag)) := rfl
    _ = signed fmt neg mag := by rw [numberOf_eq_signed (hmag.trans_le h), signOf_pack neg h, hmag]

theorem exists_encoding_of_finite {fmt : Format} {x : Sample} {a : Bool} {g : Nat} (h : x.number fmt = .finite a g) :
    ∃ mag < infMagnitude fmt, gridOf fmt mag = g := by
  cases x with
  | quietNaN => exact nomatch h
  | bits b =>
    have hvalue : numberOf fmt b = .finite a g := h
    rcases lt_trichotomy (magnitudeOf fmt b) (infMagnitude fmt) with hlt | heq | hgt
    · rw [numberOf_eq_signed hlt.le, signed_of_lt _ hlt] at hvalue
      exact ⟨magnitudeOf fmt b, hlt, (Number.finite.inj hvalue).2⟩
    · rw [numberOf_eq_signed heq.le, heq, signed_infMagnitude] at hvalue
      exact nomatch hvalue
    · rw [(numberOf_eq_nan_iff fmt b).mpr hgt] at hvalue
      exact nomatch hvalue

/-! ### One rounding, ties to even (R266) -/

/-- An odd rounded quotient was no tie: it lies within half a unit. -/
theorem roundHalfEven_error_of_odd {m t : Nat} (hodd : roundHalfEven m t % 2 = 1) :
    |(roundHalfEven m t : ℤ) * 2 ^ t - m| * 2 < 2 ^ t := by
  have hdiv : ((m / 2 ^ t : ℕ) : ℤ) * 2 ^ t + ((m % 2 ^ t : ℕ) : ℤ) = m := by
    exact_mod_cast Nat.div_add_mod' m (2 ^ t)
  have hmod : m % 2 ^ t < 2 ^ t := Nat.mod_lt m (Nat.two_pow_pos t)
  have hcast : ((2 ^ t : ℕ) : ℤ) = 2 ^ t := by push_cast; rfl
  rw [← hdiv, ← hcast]
  simp only [roundHalfEven] at hodd ⊢
  split_ifs at hodd ⊢ with hup
  · rw [Nat.cast_succ, add_one_mul, add_sub_add_left_eq_sub, abs_of_nonneg] <;> omega
  · rw [sub_add_cancel_left, abs_neg, abs_of_nonneg] <;> omega

/-- Every other multiple of 2^`t` is farther than an odd rounded quotient. -/
theorem roundHalfEven_lt_of_odd {m t : Nat} (hodd : roundHalfEven m t % 2 = 1) {n : ℤ} (hn : n ≠ roundHalfEven m t) :
    |(roundHalfEven m t : ℤ) * 2 ^ t - m| < |n * 2 ^ t - m| := by
  have herr := roundHalfEven_error_of_odd hodd
  generalize (roundHalfEven m t : ℤ) = r at *
  have hpos : (0 : ℤ) < 2 ^ t := by positivity
  have hgap : 2 ^ t ≤ |n * 2 ^ t - r * 2 ^ t| := by
    rw [← sub_mul, abs_mul, abs_of_pos hpos]
    exact le_mul_of_one_le_left hpos.le (Int.one_le_abs (sub_ne_zero.mpr hn))
  have htri := abs_sub_le (n * 2 ^ t) (m : ℤ) (r * 2 ^ t)
  rw [abs_sub_comm (m : ℤ)] at htri
  linarith

/-- A value of the grid is a multiple of the unit rounded to, or lies below all that has that unit. -/
theorem gridOf_multiple_or_lt (fmt : Format) (sh q c : Nat) :
    (∃ n : Nat, gridOf fmt c * 2 ^ sh = n * 2 ^ (sh + q))
      ∨ q ≠ 0 ∧ gridOf fmt c * 2 ^ sh < leadBit fmt * 2 ^ (sh + q) := by
  obtain ⟨q', r, rfl, hr, hq'⟩ := exists_scaled fmt c
  rw [gridOf_scaled hr.le hq']
  rcases Nat.lt_or_ge q' q with hlt | hge
  · refine .inr ⟨by omega, ?_⟩
    calc r * 2 ^ q' * 2 ^ sh < 2 * leadBit fmt * 2 ^ q' * 2 ^ sh := by gcongr
      _ = leadBit fmt * 2 ^ (sh + (q' + 1)) := by ring
      _ ≤ leadBit fmt * 2 ^ (sh + q) := by gcongr <;> omega
  · obtain ⟨d, rfl⟩ := Nat.exists_eq_add_of_le hge
    exact .inl ⟨r * 2 ^ d, by ring⟩

theorem roundingError_of_eq {fmt : Format} {m sh c t n : Nat} (h : gridOf fmt c * 2 ^ sh = n * 2 ^ t) :
    (roundingError fmt m sh c : ℤ) = |(n : ℤ) * 2 ^ t - m| := by
  rw [roundingError, Int.natCast_natAbs, h]
  push_cast
  rfl

/-- Before the cut at infinity, every other value of the grid is farther than one rounded to an odd encoding. -/
theorem roundingError_scaled_lt {fmt : Format} {m sh q c : Nat} (hle : roundHalfEven m (sh + q) ≤ 2 * leadBit fmt)
    (hq : q = 0 ∨ leadBit fmt * 2 ^ (sh + q) ≤ m) (hodd : roundHalfEven m (sh + q) % 2 = 1)
    (hc : c ≠ q * leadBit fmt + roundHalfEven m (sh + q)) :
    roundingError fmt m sh (q * leadBit fmt + roundHalfEven m (sh + q)) < roundingError fmt m sh c := by
  have hlead : q = 0 ∨ leadBit fmt ≤ roundHalfEven m (sh + q) := hq.imp_right fun h =>
    ((Nat.le_div_iff_mul_le (by positivity)).mpr h).trans (roundHalfEven_bounds ..).1
  have hgrid : gridOf fmt (q * leadBit fmt + roundHalfEven m (sh + q)) * 2 ^ sh
      = roundHalfEven m (sh + q) * 2 ^ (sh + q) := by
    rw [gridOf_scaled hle hlead]; ring
  rw [← Int.ofNat_lt, roundingError_of_eq hgrid]
  rcases gridOf_multiple_or_lt fmt sh q c with ⟨n, hn⟩ | ⟨hne, hbelow⟩
  · rw [roundingError_of_eq hn]
    refine roundHalfEven_lt_of_odd hodd fun heq => hc ((gridOf_strictMono fmt).injective ?_)
    rw [Int.natCast_inj.mp heq, ← hgrid] at hn
    exact Nat.eq_of_mul_eq_mul_right (by positivity) hn
  · have hm := hq.resolve_left hne
    refine (roundHalfEven_nearest m (sh + q) (leadBit fmt)).trans_lt ?_
    rw [show (leadBit fmt : ℤ) * 2 ^ (sh + q) = ((leadBit fmt * 2 ^ (sh + q) : ℕ) : ℤ) by push_cast; rfl,
      roundingError, abs_of_nonpos] <;> omega

theorem infMagnitude_even (fmt : Format) : infMagnitude fmt % 2 = 0 := by cases fmt <;> rfl

theorem leadBit_even (fmt : Format) : leadBit fmt % 2 = 0 := by cases fmt <;> rfl

/-- Where two encodings are equally near, the rounded one is even. -/
theorem roundMagnitude_tie {fmt : Format} {m sh c : Nat}
    (h : roundingError fmt m sh (roundMagnitude fmt m sh) = roundingError fmt m sh c) :
    c = roundMagnitude fmt m sh ∨ roundMagnitude fmt m sh % 2 = 0 := by
  obtain ⟨q, hround, hle, hq⟩ := roundMagnitude_scaled fmt m sh
  rw [hround] at h ⊢
  rcases Nat.le_total (q * leadBit fmt + roundHalfEven m (sh + q)) (infMagnitude fmt) with hx | hx
  · rw [Nat.min_eq_left hx] at h ⊢
    have hparity : (q * leadBit fmt + roundHalfEven m (sh + q)) % 2 = roundHalfEven m (sh + q) % 2 := by
      rw [Nat.add_mod, Nat.mul_mod, leadBit_even, Nat.mul_zero, Nat.zero_mod, Nat.zero_add, Nat.mod_mod]
    rw [hparity]
    by_contra hne
    obtain ⟨hc, hodd⟩ := not_or.mp hne
    exact (roundingError_scaled_lt hle hq (Nat.mod_two_ne_zero.mp hodd) hc).ne h
  · exact .inr (by rw [Nat.min_eq_right hx, infMagnitude_even])

theorem nearestEven_roundMagnitude (fmt : Format) (m sh : Nat) : nearestEven fmt m sh (roundMagnitude fmt m sh) :=
  ⟨Scope.roundMagnitude_le .., fun _ hc => ⟨roundMagnitude_nearest fmt m sh hc, roundMagnitude_tie⟩⟩

/-! ### Sums and products (R261, R263) -/

section Results

variable {fmt : Format}

@[simp] theorem number_quietNaN : Sample.quietNaN.number fmt = .nan := rfl

@[simp] theorem number_pack_inf (neg : Bool) : (pack fmt neg (infMagnitude fmt)).number fmt = .inf neg := by
  rw [number_pack neg le_rfl, signed_infMagnitude]

@[simp] theorem number_pack_zero (neg : Bool) : (pack fmt neg 0).number fmt = .finite neg 0 := by
  rw [number_pack neg (Nat.zero_le _), signed_zero]

theorem fadd_of_number {x y : Sample} {u v : Number} (hx : x.number fmt = u) (hy : y.number fmt = v) :
    fadd fmt x y = addNumbers fmt u v := by
  subst hx hy
  rfl

theorem fmul_of_number {x y : Sample} {u v : Number} (hx : x.number fmt = u) (hy : y.number fmt = v) :
    fmul fmt x y = mulNumbers fmt u v := by
  subst hx hy
  rfl

theorem addNumbers_of_nan {u v : Number} (h : u = .nan ∨ v = .nan) : addNumbers fmt u v = .quietNaN := by
  rcases h with rfl | rfl
  · rfl
  · cases u <;> rfl

theorem mulNumbers_of_nan {u v : Number} (h : u = .nan ∨ v = .nan) : mulNumbers fmt u v = .quietNaN := by
  rcases h with rfl | rfl
  · rfl
  · cases u <;> rfl

theorem addNumbers_inf (a b : Bool) : addNumbers fmt (.inf a) (.inf b)
    = if a = b then pack fmt a (infMagnitude fmt) else .quietNaN := rfl

theorem addNumbers_inf_finite (a b : Bool) (g : Nat) :
    addNumbers fmt (.inf a) (.finite b g) = pack fmt a (infMagnitude fmt) := rfl

theorem addNumbers_finite_inf (a b : Bool) (g : Nat) :
    addNumbers fmt (.finite a g) (.inf b) = pack fmt b (infMagnitude fmt) := rfl

theorem mulNumbers_inf (a b : Bool) : mulNumbers fmt (.inf a) (.inf b) = pack fmt (a ^^ b) (infMagnitude fmt) := rfl

theorem mulNumbers_inf_finite (a b : Bool) (g : Nat) : mulNumbers fmt (.inf a) (.finite b g)
    = if g = 0 then .quietNaN else pack fmt (a ^^ b) (infMagnitude fmt) := rfl

theorem mulNumbers_finite_inf (a b : Bool) (g : Nat) : mulNumbers fmt (.finite a g) (.inf b)
    = if g = 0 then .quietNaN else pack fmt (a ^^ b) (infMagnitude fmt) := rfl

theorem addNumbers_of_sum_zero {a b : Bool} {g h : Nat} (hsum : signedGrid a g + signedGrid b h = 0) :
    addNumbers fmt (.finite a g) (.finite b h) = pack fmt (a && b) 0 := if_pos hsum

theorem addNumbers_of_sum_ne_zero {a b : Bool} {g h : Nat} (hsum : signedGrid a g + signedGrid b h ≠ 0) :
    addNumbers fmt (.finite a g) (.finite b h) = pack fmt (decide (signedGrid a g + signedGrid b h < 0))
      (roundMagnitude fmt (signedGrid a g + signedGrid b h).natAbs 0) := if_neg hsum

theorem mulNumbers_finite (a b : Bool) (g h : Nat) : mulNumbers fmt (.finite a g) (.finite b h)
    = pack fmt (a ^^ b) (roundMagnitude fmt (g * h) (gridScale fmt)) := rfl

end Results

/-- Settles O53: the special cases are those of the sum of two numbers; any other sum is packed from its rounded
magnitude, which is the nearest encoding. -/
theorem additionIsTheSumRoundedOnce : Obligations.AdditionIsTheSumRoundedOnce := by
  intro fmt x y
  refine ⟨fun hnan => ?_, fun a b hx hy => ?_, fun a b g hx hy => ?_, fun a g b hx hy => ?_,
    fun a g b h hx hy => ⟨fun hsum => ?_, fun hsum => ?_⟩⟩
  · rw [fadd_of_number rfl rfl, addNumbers_of_nan hnan, number_quietNaN]
  · rw [fadd_of_number hx hy, addNumbers_inf, apply_ite (Sample.number fmt), number_pack_inf, number_quietNaN]
  · rw [fadd_of_number hx hy, addNumbers_inf_finite, number_pack_inf]
  · rw [fadd_of_number hx hy, addNumbers_finite_inf, number_pack_inf]
  · rw [fadd_of_number hx hy, addNumbers_of_sum_zero hsum, number_pack_zero]
  · refine ⟨_, nearestEven_roundMagnitude .., ?_⟩
    rw [fadd_of_number hx hy, addNumbers_of_sum_ne_zero hsum, number_pack _ (Scope.roundMagnitude_le ..)]

/-- Settles O54: the special cases are those of the product of two numbers; any other product is packed from its rounded
magnitude, which is the nearest encoding. -/
theorem multiplicationIsTheProductRoundedOnce : Obligations.MultiplicationIsTheProductRoundedOnce := by
  intro fmt x y
  refine ⟨fun hnan => ?_, fun a b hx hy => ?_, fun a b g hx hy => ?_, fun a g b hx hy => ?_, fun a g b h hx hy => ?_⟩
  · rw [fmul_of_number rfl rfl, mulNumbers_of_nan hnan, number_quietNaN]
  · rw [fmul_of_number hx hy, mulNumbers_inf, number_pack_inf]
  · rw [fmul_of_number hx hy, mulNumbers_inf_finite, apply_ite (Sample.number fmt), number_quietNaN, number_pack_inf]
  · rw [fmul_of_number hx hy, mulNumbers_finite_inf, apply_ite (Sample.number fmt), number_quietNaN, number_pack_inf]
  · refine ⟨_, nearestEven_roundMagnitude .., ?_⟩
    rw [fmul_of_number hx hy, mulNumbers_finite, number_pack _ (Scope.roundMagnitude_le ..)]

/-! ### Negation (R264) -/

/-- The number with the other sign; a NaN stays a NaN. -/
def negated : Number → Number
  | .nan => .nan
  | .inf a => .inf !a
  | .finite a g => .finite (!a) g

theorem negated_inf (a : Bool) : negated (.inf a) = .inf !a := rfl

theorem negated_finite (a : Bool) (g : Nat) : negated (.finite a g) = .finite (!a) g := rfl

theorem negated_signed (fmt : Format) (neg : Bool) (mag : Nat) :
    negated (signed fmt neg mag) = signed fmt (!neg) mag := apply_ite negated _ _ _

/-- The bits with the sign bit of the format inverted. -/
abbrev invertSign (fmt : Format) (b : CellBits) : CellBits := b ^^^ BitVec.ofNat 64 (2 ^ (cellWidth fmt - 1))

theorem getLsbD_invertSign (fmt : Format) (b : CellBits) {j : Nat} (hj : j < 64) :
    (invertSign fmt b).getLsbD j = (if j = cellWidth fmt - 1 then !b.getLsbD j else b.getLsbD j) := by
  rw [BitVec.getLsbD_xor, BitVec.getLsbD_ofNat, Nat.testBit_two_pow, decide_eq_true hj, Bool.true_and]
  split
  case isTrue h => simp [h]
  case isFalse h => simp [Ne.symm h]

theorem signOf_invertSign (fmt : Format) (b : CellBits) : signOf fmt (invertSign fmt b) = !signOf fmt b := by
  rw [signOf_eq_getLsbD, getLsbD_invertSign fmt b (signBit_lt fmt), if_pos rfl, signOf_eq_getLsbD]

theorem magnitudeOf_invertSign (fmt : Format) (b : CellBits) :
    magnitudeOf fmt (invertSign fmt b) = magnitudeOf fmt b := by
  refine Nat.eq_of_testBit_eq fun j => ?_
  rw [magnitudeOf, magnitudeOf, Nat.testBit_mod_two_pow, Nat.testBit_mod_two_pow]
  by_cases hj : j < cellWidth fmt - 1
  · rw [BitVec.testBit_toNat, getLsbD_invertSign fmt b (hj.trans (signBit_lt fmt)), if_neg hj.ne, BitVec.testBit_toNat]
  · simp [hj]

theorem numberOf_invertSign (fmt : Format) (b : CellBits) :
    numberOf fmt (invertSign fmt b) = negated (numberOf fmt b) := by
  have hmag := magnitudeOf_invertSign fmt b
  rcases Nat.lt_or_ge (infMagnitude fmt) (magnitudeOf fmt b) with hnan | hle
  · rw [(numberOf_eq_nan_iff fmt b).mpr hnan, (numberOf_eq_nan_iff ..).mpr (hnan.trans_eq hmag.symm)]
    rfl
  · rw [numberOf_eq_signed hle, numberOf_eq_signed (hmag.trans_le hle), hmag, signOf_invertSign, negated_signed]

theorem number_fneg (fmt : Format) (x : Sample) : (fneg fmt x).number fmt = negated (x.number fmt) := by
  cases x with
  | quietNaN => rfl
  | bits b => exact numberOf_invertSign fmt b

theorem xor_two_pow_of_lt {n k : Nat} (h : n < 2 ^ k) : n ^^^ 2 ^ k = 2 ^ k + n := by
  have hor := Nat.two_pow_add_eq_or_of_lt h 1
  rw [Nat.mul_one] at hor
  rw [hor]
  refine Nat.eq_of_testBit_eq fun j => ?_
  rw [Nat.testBit_xor, Nat.testBit_or, Nat.testBit_two_pow]
  by_cases hj : k = j
  · subst hj
    simp [Nat.testBit_lt_two_pow h]
  · simp [hj]

theorem fneg_pack {fmt : Format} (neg : Bool) {mag : Nat} (h : mag ≤ infMagnitude fmt) :
    fneg fmt (pack fmt neg mag) = pack fmt (!neg) mag := by
  have hxor := xor_two_pow_of_lt (h.trans_lt (infMagnitude_lt_sign fmt))
  refine congrArg Sample.bits (BitVec.ofNat_xor.symm.trans (congrArg (BitVec.ofNat 64) ?_))
  cases neg with
  | false => exact hxor
  | true => exact (congrArg (· ^^^ 2 ^ (cellWidth fmt - 1)) hxor.symm).trans (Nat.xor_xor_cancel_right ..)

theorem signedGrid_not (a : Bool) (g : Nat) : signedGrid (!a) g = -signedGrid a g := by
  cases a with
  | false => rfl
  | true => exact (neg_neg (g : ℤ)).symm

/-- Opposite signs that cancel: the sum is +0.0. -/
theorem addNumbers_of_cancel {fmt : Format} {a b : Bool} {g h : Nat} (hsum : signedGrid a g + signedGrid b h = 0)
    (hne : a ≠ b) : addNumbers fmt (.finite a g) (.finite b h) = fzero := by
  obtain rfl : b = !a := Bool.eq_not.mpr hne.symm
  rw [addNumbers_of_sum_zero hsum, Bool.and_not_self]
  rfl

theorem fneg_quietNaN_or_inf (fmt : Format) (g : Nat) (neg : Bool) :
    fneg fmt (if g = 0 then .quietNaN else pack fmt neg (infMagnitude fmt))
      = if g = 0 then .quietNaN else pack fmt (!neg) (infMagnitude fmt) := by
  rw [apply_ite (fneg fmt), fneg_pack _ le_rfl]
  rfl

/-- The product of two numbers has the other sign when one of them has. -/
theorem mulNumbers_negated (fmt : Format) (u v : Number) :
    mulNumbers fmt (negated u) v = fneg fmt (mulNumbers fmt u v) := by
  cases u with
  | nan => rfl
  | inf a =>
    cases v with
    | nan => rfl
    | inf b => rw [negated_inf, mulNumbers_inf, mulNumbers_inf, fneg_pack _ le_rfl, Bool.not_xor]
    | finite b h =>
      rw [negated_inf, mulNumbers_inf_finite, mulNumbers_inf_finite, fneg_quietNaN_or_inf, Bool.not_xor]
  | finite a g =>
    cases v with
    | nan => rfl
    | inf b =>
      rw [negated_finite, mulNumbers_finite_inf, mulNumbers_finite_inf, fneg_quietNaN_or_inf, Bool.not_xor]
    | finite b h =>
      rw [negated_finite, mulNumbers_finite, mulNumbers_finite, fneg_pack _ (Scope.roundMagnitude_le ..), Bool.not_xor]

/-- Rounding is symmetric in the sign: a sum that does not cancel has the other sign when both numbers have. -/
theorem addNumbers_finite_negated {fmt : Format} {a b : Bool} {g h : Nat}
    (hcancel : signedGrid a g + signedGrid b h = 0 → a = b) :
    addNumbers fmt (.finite (!a) g) (.finite (!b) h) = fneg fmt (addNumbers fmt (.finite a g) (.finite b h)) := by
  have hneg : signedGrid (!a) g + signedGrid (!b) h = -(signedGrid a g + signedGrid b h) := by
    rw [signedGrid_not, signedGrid_not, neg_add]
  by_cases hsum : signedGrid a g + signedGrid b h = 0
  · obtain rfl := hcancel hsum
    rw [addNumbers_of_sum_zero hsum, addNumbers_of_sum_zero (by rw [hneg, hsum, neg_zero]),
      fneg_pack _ (Nat.zero_le _), Bool.and_self, Bool.and_self]
  · have hsign : decide (-(signedGrid a g + signedGrid b h) < 0) = !decide (signedGrid a g + signedGrid b h < 0) := by
      rw [← decide_not]
      exact decide_eq_decide.mpr (by omega)
    rw [addNumbers_of_sum_ne_zero hsum, addNumbers_of_sum_ne_zero (by rwa [hneg, neg_ne_zero]),
      fneg_pack _ (Scope.roundMagnitude_le ..), hneg, Int.natAbs_neg, hsign]

theorem addNumbers_negated {fmt : Format} {u v : Number}
    (hcancel : ∀ a g b h, u = .finite a g → v = .finite b h → signedGrid a g + signedGrid b h = 0 → a = b) :
    addNumbers fmt (negated u) (negated v) = fneg fmt (addNumbers fmt u v) := by
  cases u with
  | nan => rfl
  | inf a =>
    cases v with
    | nan => rfl
    | inf b =>
      rw [negated_inf, negated_inf, addNumbers_inf, addNumbers_inf, apply_ite (fneg fmt), fneg_pack _ le_rfl]
      exact if_congr Bool.not_inj_iff rfl rfl
    | finite b h => exact (fneg_pack _ le_rfl).symm
  | finite a g =>
    cases v with
    | nan => rfl
    | inf b => exact (fneg_pack _ le_rfl).symm
    | finite b h => exact addNumbers_finite_negated (hcancel a g b h rfl rfl)

/-- Settles O56: negation inverts the sign bit of the cell, so it takes a number to its negative, and a packed result to
the one of the other sign. -/
theorem negationIsSymmetric : Obligations.NegationIsSymmetric := by
  intro fmt x y
  have hfadd := fadd_of_number (number_fneg fmt x) (number_fneg fmt y)
  refine ⟨fun b j hj => ⟨invertSign fmt b, rfl, getLsbD_invertSign fmt b hj⟩, fun _ => ?_, fun _ hcancel => ?_,
    fun a g b h hx hy hsum hne => ?_⟩
  · exact (fmul_of_number (number_fneg fmt x) rfl).trans (mulNumbers_negated ..)
  · refine hfadd.trans (addNumbers_negated fun a g b h hx hy hsum => ?_)
    exact Classical.byContradiction fun hne => hcancel ⟨a, g, b, h, hx, hy, hsum, hne⟩
  · rw [hfadd, fadd_of_number hx hy, hx, hy]
    refine ⟨addNumbers_of_cancel hsum hne, addNumbers_of_cancel ?_ (Bool.not_inj_iff.not.mpr hne)⟩
    rw [signedGrid_not, signedGrid_not, ← neg_add, hsum, neg_zero]

/-! ### Subtraction (R262) -/

/-- Settles O55: subtraction is addition of the negation by definition; a finite number and its negative cancel. -/
theorem subtractionAddsTheNegation : Obligations.SubtractionAddsTheNegation := by
  intro fmt x y
  have hsub : ∀ u v, fsub fmt u v = addNumbers fmt (u.number fmt) (negated (v.number fmt)) := fun u v =>
    fadd_of_number rfl (number_fneg fmt v)
  refine ⟨rfl, fun hnan => ?_, fun a g hx => ?_, fun hx => ?_, ?_⟩
  · rw [hsub, addNumbers_of_nan (hnan.imp_right (congrArg negated)), number_quietNaN]
  · rw [hsub, hx]
    exact addNumbers_of_cancel (by rw [signedGrid_not, add_neg_cancel]) (by simp)
  · rw [hsub, hx, negated_inf, addNumbers_inf]
    rfl
  · cases fmt <;> decide

/-! ### Doubling and halving (R270) -/

/-- From the largest finite value's successor on, everything rounds to infinity. -/
theorem roundMagnitude_of_le {fmt : Format} {m sh : Nat} (h : gridOf fmt (infMagnitude fmt) * 2 ^ sh ≤ m) :
    roundMagnitude fmt m sh = infMagnitude fmt := by
  have hle := Scope.roundMagnitude_le fmt m sh
  have hbelow : gridOf fmt (roundMagnitude fmt m sh) * 2 ^ sh ≤ gridOf fmt (infMagnitude fmt) * 2 ^ sh :=
    Nat.mul_le_mul_right _ ((gridOf_strictMono fmt).monotone hle)
  have hnear := roundMagnitude_nearest fmt m sh le_rfl
  unfold roundingError at hnear
  exact (gridOf_strictMono fmt).injective (Nat.eq_of_mul_eq_mul_right (Nat.two_pow_pos sh) (by omega))

/-- A value that fits the significand is rounded in units of the subnormal grid. -/
theorem roundMagnitude_of_lt {fmt : Format} {m sh : Nat} (h : m / 2 ^ sh < 2 * leadBit fmt) :
    roundMagnitude fmt m sh = roundHalfEven m sh := by
  have hp : 2 * leadBit fmt = 2 ^ precision fmt := by cases fmt <;> rfl
  have hbits : bitCount (m / 2 ^ sh) - precision fmt = 0 := Nat.sub_eq_zero_of_le (Scope.bitCount_le_of_lt (hp ▸ h))
  have hround : roundMagnitude fmt m sh = min ((bitCount (m / 2 ^ sh) - precision fmt) * leadBit fmt
    + roundHalfEven m (sh + (bitCount (m / 2 ^ sh) - precision fmt))) (infMagnitude fmt) := rfl
  rw [hround, hbits, Nat.zero_mul, Nat.zero_add, Nat.add_zero]
  have hinf := two_mul_leadBit_lt_infMagnitude fmt
  have hquot := (roundHalfEven_bounds m sh).2
  exact Nat.min_eq_left (by omega)

theorem two_pow_mul_div_two_pow_succ (k g : Nat) : 2 ^ k * g / 2 ^ (k + 1) = g / 2 := by
  rw [pow_succ, Nat.mul_div_mul_left _ _ (Nat.two_pow_pos k)]

/-- Half of `g` rounded to even. -/
theorem roundHalfEven_two_pow_mul (k g : Nat) :
    roundHalfEven (2 ^ k * g) (k + 1) = if g % 2 = 0 then g / 2 else g / 2 + g / 2 % 2 := by
  have hrest : 2 ^ k * g % 2 ^ (k + 1) = 2 ^ k * (g % 2) := by rw [pow_succ, Nat.mul_mod_mul_left]
  have hunit : 2 ^ (k + 1) = 2 * 2 ^ k := pow_succ' 2 k
  simp only [roundHalfEven, two_pow_mul_div_two_pow_succ, hrest]
  rcases Nat.mod_two_eq_zero_or_one g with hg | hg
  · rw [hg, if_neg (by omega), if_pos rfl]
  · rw [hg, if_neg one_ne_zero]
    split <;> omega

/-- The encoding of the doubled value. -/
theorem exists_gridOf_eq_two_mul (fmt : Format) (mag : Nat) : ∃ c, gridOf fmt c = 2 * gridOf fmt mag := by
  rcases Nat.lt_or_ge mag (leadBit fmt) with hlt | hge
  · exact ⟨2 * mag, by rw [gridOf_of_lt (by omega), gridOf_of_lt (by omega)]⟩
  · exact ⟨mag + leadBit fmt, gridOf_add_leadBit hge⟩

theorem number_fmul_finite {fmt : Format} {x y : Sample} {b : Bool} {g h : Nat} (hx : x.number fmt = .finite false g)
    (hy : y.number fmt = .finite b h) :
    (fmul fmt x y).number fmt = signed fmt b (roundMagnitude fmt (g * h) (gridScale fmt)) := by
  rw [fmul_of_number hx hy, mulNumbers_finite, number_pack _ (Scope.roundMagnitude_le ..), Bool.false_xor]

theorem gridOf_oneBits (fmt : Format) : gridOf fmt (oneBits fmt).toNat = 2 ^ gridScale fmt := by
  have hreal := cellReal_oneBits fmt
  rw [cellReal, div_eq_one_iff_eq (by positivity)] at hreal
  exact_mod_cast hreal

/-- The encoding of `TWO` is that of `ONE` with the next exponent. -/
theorem ftwo_eq (fmt : Format) : ftwo fmt = .bits (BitVec.ofNat 64 ((oneBits fmt).toNat + leadBit fmt)) := by
  cases fmt <;> rfl

/-- `TWO` is the positive number of this grid value. -/
theorem ftwo_number (fmt : Format) : (ftwo fmt).number fmt = .finite false (2 ^ (gridScale fmt + 1)) := by
  obtain ⟨hnormal, hinf, hwidth⟩ : leadBit fmt ≤ (oneBits fmt).toNat
      ∧ (oneBits fmt).toNat + leadBit fmt < infMagnitude fmt ∧ infMagnitude fmt < 2 ^ 64 := by cases fmt <;> decide
  have hval : (BitVec.ofNat 64 ((oneBits fmt).toNat + leadBit fmt)).toNat = (oneBits fmt).toNat + leadBit fmt :=
    Nat.mod_eq_of_lt (hinf.trans hwidth)
  calc (ftwo fmt).number fmt
      = numberOf fmt (BitVec.ofNat 64 ((oneBits fmt).toNat + leadBit fmt)) := by rw [ftwo_eq]; rfl
    _ = .finite false (2 ^ (gridScale fmt + 1)) := by
      rw [numberOf_of_lt (by rwa [hval]), hval, gridOf_add_leadBit hnormal, gridOf_oneBits, pow_succ']

/-- A doubled value is on the grid, or rounds to infinity. -/
theorem signed_roundMagnitude_double (fmt : Format) (a : Bool) (mag : Nat) :
    signed fmt a (roundMagnitude fmt (2 ^ (gridScale fmt + 1) * gridOf fmt mag) (gridScale fmt))
      = if 2 * gridOf fmt mag < gridOf fmt (infMagnitude fmt) then .finite a (2 * gridOf fmt mag) else .inf a := by
  have hprod : 2 ^ (gridScale fmt + 1) * gridOf fmt mag = 2 * gridOf fmt mag * 2 ^ gridScale fmt := by ring
  rw [hprod]
  split
  case isTrue hlt =>
    obtain ⟨c, hc⟩ := exists_gridOf_eq_two_mul fmt mag
    rw [← hc] at hlt ⊢
    have hfinite := (gridOf_strictMono fmt).lt_iff_lt.mp hlt
    rw [roundMagnitude_gridOf _ hfinite.le, signed_of_lt a hfinite]
  case isFalse hge =>
    rw [roundMagnitude_of_le (Nat.mul_le_mul_right _ (Nat.le_of_not_lt hge)), signed_infMagnitude]

/-- Half of a value that fits the significand is rounded in units of the grid; half of any other is on the grid. -/
theorem signed_roundMagnitude_half {fmt : Format} (a : Bool) {mag : Nat} (hmag : mag < infMagnitude fmt) :
    signed fmt a (roundMagnitude fmt (2 ^ (gridScale fmt - 1) * gridOf fmt mag) (gridScale fmt))
      = .finite a (if gridOf fmt mag % 2 = 0 then gridOf fmt mag / 2
          else gridOf fmt mag / 2 + gridOf fmt mag / 2 % 2) := by
  obtain ⟨k, hk⟩ : ∃ k, gridScale fmt = k + 1 := by cases fmt <;> exact ⟨_, rfl⟩
  rw [hk, Nat.add_sub_cancel]
  rcases Nat.lt_or_ge mag (2 * leadBit fmt) with hlt | hge
  · have hinf := two_mul_leadBit_lt_infMagnitude fmt
    have hquot := two_pow_mul_div_two_pow_succ k mag
    rw [gridOf_of_lt hlt, roundMagnitude_of_lt (by omega), roundHalfEven_two_pow_mul,
      signed_of_lt a (by split <;> omega), gridOf_of_lt (by split <;> omega)]
  · obtain ⟨c, rfl⟩ := Nat.exists_eq_add_of_le' (show leadBit fmt ≤ mag by omega)
    have hprod : 2 ^ k * (2 * gridOf fmt c) = gridOf fmt c * 2 ^ (k + 1) := by ring
    rw [gridOf_add_leadBit (by omega), if_pos (by omega), hprod, roundMagnitude_gridOf _ (by omega),
      signed_of_lt a (by omega), Nat.mul_div_cancel_left _ two_pos]

/-- Settles O57: the doubled value and the halved even value are on the grid and round to themselves, unless doubling
passes the largest finite value; an odd value fits the significand, and half of it is a tie. -/
theorem doublingAndHalvingAreExact : Obligations.DoublingAndHalvingAreExact := by
  intro fmt x a g hx
  obtain ⟨mag, hmag, rfl⟩ := exists_encoding_of_finite hx
  rw [number_fmul_finite (ftwo_number fmt) hx, number_fmul_finite (Scope.fhalf_number fmt) hx]
  exact ⟨signed_roundMagnitude_double fmt a mag, signed_roundMagnitude_half a hmag⟩

end Sys2Proof.Numerics
end

section
/-! SUPPORT. Hazards (70_reset_and_hazards.md): the buffers of an out-of-place command that share a cell (R321). -/

namespace Sys2Proof.Hazards

open Sys2Proof.Machine Sys2Proof.Claims Sys2Proof.EngineState Sys2Proof.SampleMemory

/-- The comparison of the two ranges in the model is the sharing of no cell of R321. -/
theorem buffersDisjoint_eq_false_of_shared {base base' len a : Nat} (ha : base ≤ a ∧ a < base + len)
    (ha' : base' ≤ a ∧ a < base' + len) : buffersDisjoint base base' len = false := by
  rw [buffersDisjoint, decide_eq_false_iff_not]
  omega

theorem transformOutOfPlace_of_overlap {s : State} {cells : Nat} (f : List Sample → List Sample → List Sample)
    (hS : bufferPresent s.inst s.operandS cells = true) (hD : bufferPresent s.inst s.operandD cells = true)
    (hshared : buffersDisjoint s.operandS s.operandD cells = false) :
    s.transformOutOfPlace cells f = .refused .buffersOverlap := by
  rw [State.transformOutOfPlace, if_pos (by simp [hS, hD]), if_neg (by simp [hshared])]

/-- Settles O43: growing the tables moves no buffer, and the ranges are compared once both buffers exist. -/
theorem overlappingBuffersAreRefused : Obligations.OverlappingBuffersAreRefused := by
  rintro i hi s hlen hS hD ⟨a, hloS, hhiS, hloD, hhiD⟩
  have hsh := (mem_outOfPlaceCommands_iff i).mp hi
  have htransform : i.shape ≠ .lengthOnly := by simp [hsh]
  have g := grown_prepare_of_lengthAdmitted htransform hlen
  have hshared := buffersDisjoint_eq_false_of_shared ⟨hloS, hhiS⟩ ⟨hloD, hhiD⟩
  rw [← g.inst, ← grown_operandS g] at hS
  rw [← g.inst, ← grown_operandD g] at hD
  rw [← grown_operandS g, ← grown_operandD g] at hshared
  rw [exec_of_lengthAdmitted htransform hlen, finish, hsh]
  exact transformOutOfPlace_of_overlap _ hS hD hshared

end Sys2Proof.Hazards
end

section
/-! SUPPORT. Aborts (60_exceptions.md): the length checks of the commands in their order (R281; 45_command_api.md R233),
and what a `CMD` write that aborts leaves (R287). -/

namespace Sys2Proof.Aborts

open Sys2Proof.Machine Sys2Proof.Claims Sys2Proof.EngineState Sys2Proof.TableCache

/-! ### The three failures of `CHECKLEN` (R233) -/

theorem isPow2_eq_false_iff (n : Nat) : isPow2 n = false ↔ ¬ ∃ k, n = 2 ^ k := by
  rw [← isPow2_iff, Bool.not_eq_true]

section CheckLen

variable {p : Params} {n min : Nat}

theorem checkLen_of_not_pow2 (h : ¬ ∃ k, n = 2 ^ k) : checkLen p n min = some .notPow2 := by
  simp [checkLen, (isPow2_eq_false_iff n).mpr h]

theorem checkLen_of_lt_min (hpow : ∃ k, n = 2 ^ k) (h : n < min) : checkLen p n min = some .tooSmall := by
  simp [checkLen, (isPow2_iff n).mpr hpow, h]

theorem checkLen_of_nmax_lt (hpow : ∃ k, n = 2 ^ k) (hmin : min ≤ n) (h : nmax p < n) :
    checkLen p n min = some .capacity := by
  simp [checkLen, (isPow2_iff n).mpr hpow, Nat.not_lt.mpr hmin, h]

end CheckLen

/-! ### The commands that check a length -/

theorem minLen_of_transform {i : Instr} (h : i ∈ transformCommands) :
    i.minLen = if i ∈ complexCommands then 2 else 4 := by
  cases i with
  | enstw | ensct | ensbr => exact absurd h (by decide)
  | _ => rfl

/-- A transform aborts with the cause that `CHECKLEN` answers for its minimum length. -/
theorem exec_of_checkLen {i : Instr} {s : State} {c : Cause} (hi : i ∈ transformCommands)
    (h : checkLen s.inst s.operandN (if i ∈ complexCommands then 2 else 4) = some c) :
    exec i s = .next (abortedWith s c) := by
  rw [← minLen_of_transform hi] at h
  exact exec_of_check ((checkOf_of_transform ((mem_transformCommands_iff i).mp hi) _ _).trans h)

/-- Settles O18: each clause is one failure of `CHECKLEN`, and order 0 is the first check of `ENSBR`. -/
theorem transformLengthChecksAbort : Obligations.TransformLengthChecksAbort := by
  refine ⟨fun i hi s => ⟨fun hpow => ?_, fun hpow hmin => ?_, fun hpow hmin hcap => ?_⟩, fun s h => ?_⟩
  · exact exec_of_checkLen hi (checkLen_of_not_pow2 hpow)
  · exact exec_of_checkLen hi (checkLen_of_lt_min hpow hmin)
  · exact exec_of_checkLen hi (checkLen_of_nmax_lt hpow hmin hcap)
  · exact exec_of_check (if_pos h)

/-! ### The outcome of a `CMD` write (R287) -/

/-- While not halted a `CMD` write ends in the abort of the started command, or in its completion. -/
theorem runCommand_aborts_or_completes {w : Word} {s t : State} (hhalt : s.status.halt = false)
    (h : runCommand w s = .next t) :
    (∃ c, c ≠ Cause.none ∧ t = (s.startCommand w).abort c) ∨ t.status = s.status.completed := by
  cases hdec : decode w with
  | ok i =>
    rw [runCommand_of_decode hhalt hdec] at h
    rcases exec_cases h with habort | hstored
    · exact .inl habort
    · obtain ⟨s', b, hgrown, -, -, rfl⟩ := hstored
      refine .inr ?_
      rw [State.complete_status, State.storeSamples_status, grown_status hgrown]
      rfl
  | error e =>
    rw [Encoding.runCommand_of_illegal hhalt (by simp [hdec])] at h
    cases h
    exact .inl ⟨.illCmd, by decide, rfl⟩

/-- Settles O20: the abort of the started command is the only outcome with `HALT` = 1, since a completion keeps
`HALT`. -/
theorem abortChangesNothingElse : Obligations.AbortChangesNothingElse := by
  intro s t w rest hseq hhalt hhost hstep
  rw [step_of_host_cons hseq hhost] at hstep
  rcases runCommand_aborts_or_completes (s := { s with host := rest }) hhalt hstep with ⟨c, hc, rfl⟩ | hstatus
  · refine ⟨fun _ => ⟨?_, hc⟩, fun hrunning => ?_⟩
    · rw [State.abort, State.startCommand, Status.started, Status.aborted, hseq]
    · exact absurd hrunning (by simp [State.abort, Status.aborted])
  · refine ⟨fun hhalted => ?_, fun _ => hstatus⟩
    simp [hstatus, Status.completed, hhalt] at hhalted

end Sys2Proof.Aborts
end
